-- ==== Sys2Proof/Word.lean ====
section
/-! DEFINITION. The words of the DK-31: bytes, 16-bit values, station numbers and the sets of zones and stations
(spec/11_formats.md: in a set carried as a row of bits, bit k stands for member k). -/

namespace Sys2Proof

/-- One byte of the configuration image or of a tap transaction. -/
abbrev Byte := BitVec 8

/-- A 16-bit value: a check, a fingerprint, a counter, a stamp. -/
abbrev Word16 := BitVec 16

/-- A station number, 0 to 31; 0 means none (spec/00_scope.md, Numbering and naming). -/
abbrev Station := BitVec 5

/-- A set of station numbers: bit k is station k; bit 0 is never a member. -/
abbrev StationMap := BitVec 32

/-- A set of zones: bit k is zone k. -/
abbrev ZoneMask := BitVec 8

/-- A zone, 0 to 7. -/
abbrev Zone := BitVec 3

/-- A sequence or a departure tally, 0 to 15, wrapping. -/
abbrev Nibble := BitVec 4

end Sys2Proof
end

