-- ==== Sys2Proof/Syntax.lean ====
section
/-! DEFINITION. The commands of the DK-31: one constructor per row of spec/opcode_table.json, with what the event
brings with it. The table gives its rows no operand bits; the operands are those the rules of the row speak of
(log 4). -/

namespace Sys2Proof

/-- What the line interface sees in one bit period (R99): the lead, value and trail samples, true for dominant, and
the lead edge that began the bit period, if one did, as its distance from the start the grid expected, in
sixty-fourths of a bit period (negative: before). log 4. -/
structure BitPeriod where
  edge : Option Int
  lead : Bool
  value : Bool
  trail : Bool
  deriving DecidableEq, Repr

/-- The levels read at a sample event (R32): bit k of `lines` is S<k>, true for high; `rel` is the level of the REL
pin, true for high. -/
structure SenseSample where
  lines : BitVec 16
  rel : Bool
  deriving DecidableEq, Repr

/-- The two sources of a reset that is held (R162); a tap RESTART is not held. -/
inductive HeldSource
  | power
  | pin
  deriving DecidableEq, Repr

/-- The conditions the loader drives in an attempt (R202). -/
inductive BusCondition
  | start
  | repeatedStart
  | stop
  deriving DecidableEq, Repr

/-- Why a configuration read cannot go on (R165), and where it fell in the attempt. -/
inductive BusFault
  /-- the memory does not acknowledge its bus address in the write (false) or read (true) direction -/
  | noAckBusAddress (read : Bool)
  /-- the memory does not acknowledge the high (false) or low (true) byte of the memory address -/
  | noAckMemoryAddress (low : Bool)
  /-- the data line is still held low after nine clock pulses -/
  | dataHeldLow
  /-- the clock line is held low by the memory for more than 1 ms, with this many conditions and bytes of the addressing
  driven (log 16) -/
  | clockHeldLow (driven : Nat)
  /-- the data line is found low where the loader drives it released in a start or stop condition -/
  | dataLowInCondition (condition : BusCondition)
  deriving DecidableEq, Repr

/-- The orders R175 and R181 leave open inside one refresh tick: whether the station controller's listen count (with
the expiry it may bring) is taken before the table's aging, and before the slate's judgement. log 7. -/
structure TickOrder where
  expiryBeforeAging : Bool := true
  expiryBeforeJudgement : Bool := true
  deriving DecidableEq, Repr

/-- The commands. Lists of bit periods run from the first bit period not yet taken; the gap lists hold the bit periods
since the engine entered IDLE or DISCARDING. Where a gap comes with `able`, that many of its bit periods had ended when the
station became able to send (R53, log 31). An operand that a sender may leave unsaid stands last with its default: nothing
read, able throughout the gap, the expiry first (log 4). -/
inductive Instr
  /-- POWER_ON_RESET, R162 -/
  | powerOnReset
  /-- RESET_PIN, R162 -/
  | resetPin
  /-- RESET_END, R163: the hold of this source ends -/
  | resetEnd (source : HeldSource)
  /-- HEADER_READ, R166, R202: clock pulses driven to free the data line (R165), then bytes 0 to 3 of the image -/
  | headerRead (freeing : Nat) (signatureHigh signatureLow length revision : Byte)
  /-- TRANSPORT_FAILURE, R165: clock pulses driven to free the data line, and the bytes read before the fault, from byte 0
  or, once the header has been read, from byte 4 on -/
  | transportFailure (freeing : Nat) (cause : BusFault) (read : List Byte := [])
  /-- PAUSE_END, R164 -/
  | pauseEnd
  /-- IMAGE_COMPLETE, R166: bytes 4 to 129, and the levels of the first sample event if the load is valid (R31) -/
  | imageComplete (rest : List Byte) (sample : SenseSample)
  /-- SAMPLE_EVENT, R32 -/
  | sampleEvent (sample : SenseSample)
  /-- REFRESH_TICK, R173 -/
  | refreshTick (order : TickOrder)
  /-- PEER_SILENT, R10: the refresh tick that brings entry n to the silence threshold (log 6) -/
  | peerSilent (n : Station) (order : TickOrder := {})
  /-- LISTEN_EXPIRY, R175: the refresh tick that brings the listen count to 3 (log 5) -/
  | listenExpiry (order : TickOrder := {})
  /-- DISCARD_END, R52 -/
  | discardEnd (gap : List BitPeriod)
  /-- CONTENTION_START, R53; `edge` is a lead edge already on the line (R102) -/
  | contentionStart (gap : List BitPeriod) (edge : Option Int) (able : Nat := 0)
  /-- KEY_LOST, R56: the bit periods from the start bit to the key bit lost -/
  | keyLost (bits : List BitPeriod)
  /-- KEY_WON, R57: the start bit and the eight key bits -/
  | keyWon (bits : List BitPeriod)
  /-- SEND_ABORTED, R62, R56: the bit periods up to the one found wrong -/
  | sendAborted (bits : List BitPeriod)
  /-- INVALID_KIND, R58 -/
  | invalidKind (bits : List BitPeriod)
  /-- FRAMING_FAULT, R106, R101 -/
  | framingFault (bits : List BitPeriod)
  /-- STUCK_DOMINANT, R107; with no bit period where the trail counted last was that of the key bit lost (log 30) -/
  | stuckDominant (bits : List BitPeriod)
  /-- FRAME_RECEIVED, R64: the bit periods up to the last check bit -/
  | frameReceived (bits : List BitPeriod)
  /-- WINDOW_END, R68: the 31 slots -/
  | windowEnd (slots : List BitPeriod)
  /-- TSEL_ASSERT, R187 -/
  | tselAssert
  /-- TSEL_RELEASE, R189: the bits on TSDI at the rising edges of TSCK since the last command, then the release -/
  | tselRelease (tsdi : List Bool)
  /-- STATUS, R191 -/
  | status
  /-- ENTRY, R192: the request byte, and its argument byte once it has come (R187) -/
  | entry (n : Option Byte)
  /-- TERMS, R193 -/
  | terms
  /-- COUNTERS, R194 -/
  | counters
  /-- PEEK, R195 -/
  | peek
  /-- TAKE, R195 -/
  | take
  /-- RELEASE, R196: the request byte, and its argument byte once it has come (R187) -/
  | release (mask : Option Byte)
  /-- RESYNC, R197 -/
  | resync
  /-- RESTART, R198 -/
  | restart
  /-- UNKNOWN_REQUEST, R190 -/
  | unknownRequest (code : Byte)
  /-- FRAME_START, R50, R101: the bit periods of the gap, then the lead edge -/
  | frameStart (gap : List BitPeriod) (edge : Int) (able : Nat := 0)
  /-- LAST_CHECK_BIT_SENT, R62: the bit periods of the body and check, read back -/
  | lastCheckBitSent (bits : List BitPeriod)
  deriving DecidableEq, Repr

end Sys2Proof
end

