-- ==== Sys2Proof/Decode.lean ====
section
/-! DEFINITION. The command that a word spells by the table's bits. No row of spec/opcode_table.json gives bits, so no
word spells a command. (The request bytes of the tap port are decoded where they arrive, in Machine/Tap.lean; the
fields of a frame in Machine/Operands.lean.) -/

namespace Sys2Proof

/-- No row of the table gives bits: no word spells a command (spec/98_reader.md: n_rows_with_fixed 0). -/
def decodeTableWord (_nbits _w : Nat) : Option Instr := none

end Sys2Proof
end

