-- ==== Sys2Proof/Config.lean ====
section
/-! DEFINITION. The loaded configuration of a station (R170): the types of its fields. What an implementation could
fix is fixed by the spec, and no value the spec leaves undefined was found, so there is no free value here. -/

namespace Sys2Proof

/-- One watch group (R30). Bit k of `selected` and `expected` is line S(4g+k); `expected` is 1 for high. -/
structure GroupConfig where
  selected : BitVec 4
  expected : BitVec 4
  zone : Zone
  depth : BitVec 3
  deriving DecidableEq, Repr

/-- Which entries a term looks at (R128). -/
inductive TermScope
  | all
  | peers
  | self
  deriving DecidableEq, Repr

/-- One consequence term (R127). -/
structure TermConfig where
  zones : ZoneMask
  departed : Bool
  unseen : Bool
  plan : Bool
  scope : TermScope
  latch : Bool
  deriving DecidableEq, Repr

/-- The mode of an output (R150). -/
inductive OutputMode
  | permit
  | indicate
  deriving DecidableEq, Repr

/-- The rest style of an output (R149). -/
inductive RestStyle
  | driven
  | openRest
  deriving DecidableEq, Repr

/-- One drive output (R148); `permitHigh` is its permit level. -/
structure OutputConfig where
  binding : Option (Fin 16)
  mode : OutputMode
  permitHigh : Bool
  rest : RestStyle
  deriving DecidableEq, Repr

/-- The loaded configuration (R170), in the order of the image (R202). -/
structure StationConfig where
  revision : Byte
  number : Station
  bitRate : BitVec 2
  tickCode : BitVec 2
  sampleCode : BitVec 2
  silence : BitVec 4
  retryLimit : BitVec 3
  roster : StationMap
  groups : Vector GroupConfig 4
  terms : Vector TermConfig 16
  outputs : Vector OutputConfig 8
  releaseZones : ZoneMask
  networkRelease : Bool
  deriving DecidableEq, Repr

end Sys2Proof
end

