-- ==== Sys2Proof/Machine/State.lean ====
section
/-! DEFINITION. The state of a DK-31, block by block as spec/00_scope.md lists its blocks, and the state after reset.
Everything here is plain data. -/

namespace Sys2Proof.Machine

/-- A step ends in a fault: nothing in the spec stops the part, so there is no fault (safe: no claim about a fault
holds of a run). -/
inductive Fault
  deriving DecidableEq, Repr

/-- A step is refused. -/
inductive Refusal
  /-- Raised by Dispatch.exec for a command that has no meaning yet. Safe: the model stops. No arm raises it now. -/
  | notModelled (mnemonic : String)
  deriving DecidableEq, Repr

/-! ### Pins and station controller -/

/-- Inputs whose level outlasts an event: the two held resets (R162, R163) and TSEL (R187, R199). -/
structure Pins where
  powerHeld : Bool
  pinHeld : Bool
  tsel : Bool
  deriving DecidableEq, Repr

/-- The station phase (R160). -/
inductive Phase
  | loading
  | listening
  | joining
  | running
  | halted
  | conflict
  deriving DecidableEq, Repr

/-- The fault code (R160, R166, R169). -/
inductive FaultCode
  | none
  | noMemory
  | badSignature
  | badLength
  | badCheck
  | badValue (index : Nat)
  | selfNotInRoster
  deriving DecidableEq, Repr

/-- The reset cause (R163). -/
inductive ResetCause
  | power
  | pin
  | tap
  deriving DecidableEq, Repr

/-- The station controller: phase, fault code, reset cause, own number (R160), listen count (R174), tick timer and
counter (R173), plan fingerprint (R171). -/
structure Controller where
  phase : Phase
  fault : FaultCode
  cause : ResetCause
  ownNumber : Station
  listenCount : Nat
  ticking : Bool
  tick : Word16
  fingerprint : Option Word16
  deriving DecidableEq, Repr

/-! ### Configuration loader -/

/-- Load progress (R164). -/
inductive LoadProgress
  | reading
  | paused
  | checking
  | done
  | failed
  deriving DecidableEq, Repr

/-- What the loader drives on the configuration port, and the bytes it takes with its acknowledge (R202). -/
inductive BusOp
  | freeClocks (n : Nat)
  | start
  | repeatedStart
  | send (b : Byte)
  | take (b : Byte) (ack : Bool)
  | stop
  | released
  deriving DecidableEq, Repr

/-- The configuration loader (R164, R170) with its port (R202). -/
structure Loader where
  progress : LoadProgress
  attempt : Nat
  image : List Byte
  config : Option StationConfig
  port : List BusOp
  deriving DecidableEq, Repr

/-! ### Watch unit -/

/-- The filter of one input: last sample with its agreement count, and the filtered level (R33, R141); absent is
none. True is high for a sense line and active for REL. -/
structure Filter where
  last : Option Bool
  count : Nat
  filtered : Option Bool
  deriving DecidableEq, Repr

/-- Group states (R35). -/
inductive GroupState
  | settling
  | conforming
  | departed
  deriving DecidableEq, Repr

/-- One watch group: its state and its departure tally (R40). -/
structure WatchGroup where
  state : GroupState
  tally : Nibble
  deriving DecidableEq, Repr

/-- The watch unit (R46). -/
structure WatchUnit where
  sampling : Bool
  lines : Vector Filter 16
  groups : Vector WatchGroup 4
  deriving DecidableEq, Repr

/-! ### Line interface -/

/-- The quarters of a bit period (R97). -/
inductive Quarter
  | q1
  | q2
  | q3
  | q4
  deriving DecidableEq, Repr

/-- The bit grid (R100): the number of the current bit period since the grid started, the quarter of it in which the
last event fell, and its start, in sixty-fourths of a bit period since the grid started. log 4. -/
structure Grid where
  period : Nat
  quarter : Quarter
  start : Int
  deriving DecidableEq, Repr

/-- LEN and LTX in one quarter of a bit period (R96, R98). -/
structure QuarterDrive where
  len : Bool
  ltx : Bool
  deriving DecidableEq, Repr

/-- The line interface (head table of spec/05_bit_signalling_on_the_line.md). `ltx` is true for dominant. `drove` is what
LEN and LTX were, quarter by quarter, in the bit periods that the last command of the line took while the station had a bit
to drive or a window to pass; empty where it had neither (R96, R108; log 10). -/
structure LineInterface where
  running : Bool
  grid : Option Grid
  trailCount : Nat
  len : Bool
  ltx : Bool
  drove : List QuarterDrive
  deriving DecidableEq, Repr

/-! ### Frame engine -/

/-- Message kinds (R58). -/
inductive Kind
  | change
  | refresh
  | join
  | resync
  | release
  deriving DecidableEq, Repr

/-- Engine states (R47). -/
inductive EngineState
  | idle
  | contending
  | sending
  | receiving
  | confirming
  | discarding
  deriving DecidableEq, Repr

/-- The role of the station in a frame (R48). -/
inductive Role
  | sender
  | receiver
  deriving DecidableEq, Repr

/-- The verdict on a received frame (R48, R64). -/
inductive Verdict
  | accepted
  | rejected
  deriving DecidableEq, Repr

/-- The served slot with its captured content (R48, R76, R77): the urgency fixed at the start bit, the payload bits
in the order sent, and the sequence from winning the key on (R57). -/
structure Served where
  slot : Kind
  urgency : BitVec 3
  payload : List Bool
  sequence : Option Nibble
  deriving DecidableEq, Repr

/-- The frame in progress (R48). `bits` holds the values driven or read after the start bit, up to the check's
end; `position` the bit periods of the frame taken so far; `confirms` the decision to drive the own slot (R66). Urgency,
key number, kind, sequence, payload and check register are computed from `bits`. -/
structure Frame where
  role : Role
  position : Nat
  bits : List Bool
  served : Option Served
  verdict : Option Verdict
  confirms : Bool
  confirmMap : Option StationMap
  deriving DecidableEq, Repr

/-- The six station counters (R71). -/
structure StationCounters where
  completed : Word16
  aborted : Word16
  lost : Word16
  accepted : Word16
  rejected : Word16
  abandoned : Word16
  deriving DecidableEq, Repr

/-- The frame engine. `gapCount` is the gap count in IDLE (R50) and the released run in DISCARDING (R52), and
`gapRequirement` is R51's in IDLE; what they show elsewhere is log 39's. `ableAtIdle`:
the station was able to send when the engine last entered IDLE, which fixes the first boundary at which it may start
(R53, log 31). -/
structure Engine where
  state : EngineState
  gapCount : Nat
  gapRequirement : Nat
  ableAtIdle : Bool
  frame : Option Frame
  counters : StationCounters
  deriving DecidableEq, Repr

/-! ### Peer table -/

/-- Presence (R1). -/
inductive Presence
  | absent
  | heard
  | present
  | silent
  | self
  deriving DecidableEq, Repr

/-- The phase code of a report (R12). -/
inductive PhaseCode
  | joining
  | running
  deriving DecidableEq, Repr

/-- The health code of a report (R12). -/
inductive HealthCode
  | normal
  | restrained
  deriving DecidableEq, Repr

/-- One group record: bit k of `lines` is S(4g+k), 1 for high (01_the_peer_table.md, The entry record). -/
structure GroupRecord where
  lines : BitVec 4
  conforming : Bool
  tally : Nibble
  deriving DecidableEq, Repr

/-- The content of a report: everything but its sequence (R12). -/
structure ReportContent where
  phase : PhaseCode
  health : HealthCode
  groups : Vector GroupRecord 4
  deriving DecidableEq, Repr

/-- A stored report with its stale mark: present together (R12). -/
structure StoredReport where
  sequence : Nibble
  content : ReportContent
  stale : Bool
  deriving DecidableEq, Repr

/-- A plan fingerprint with its plan match: present together (R21). -/
structure PlanRecord where
  fingerprint : Word16
  agrees : Bool
  deriving DecidableEq, Repr

/-- One entry of the peer table (R1). -/
structure Entry where
  roster : Bool
  presence : Presence
  age : Nat
  zoneMap : Option (Vector Zone 4)
  plan : Option PlanRecord
  report : Option StoredReport
  lastRelease : Option Nibble
  framesAccepted : Word16
  sequenceGaps : Byte
  deliveriesMissed : Byte
  deriving DecidableEq, Repr

/-- The peer table: entry n stands at index n - 1 (R1). -/
abbrev PeerTable := Vector Entry 31

/-! ### Send slate -/

/-- The delivery record of a CHANGE or RELEASE series (04_the_send_slate_and_delivery.md, Slots). -/
structure Series where
  attempts : Nat
  sequence : Option Nibble
  targets : Option StationMap
  heard : StationMap
  superseded : Bool
  deriving DecidableEq, Repr

/-- The RELEASE slot while PENDING. -/
structure ReleaseSlot where
  zones : ZoneMask
  series : Series
  deriving DecidableEq, Repr

/-- The send slate (R74); an EMPTY slot is none or false. -/
structure Slate where
  change : Option Series
  release : Option ReleaseSlot
  refresh : Bool
  join : Bool
  resync : Bool
  reportSequence : Nibble
  releaseSequence : Nibble
  departureOwed : Bool
  stateSent : Bool
  deriving DecidableEq, Repr

/-! ### Health monitor -/

/-- Health states (R112). -/
inductive Health
  | normal
  | restrained
  | withdrawn
  deriving DecidableEq, Repr

/-- The health monitor (R111, R112, R120). -/
structure HealthMonitor where
  garble : Nat
  state : Health
  sightings : Nat
  deriving DecidableEq, Repr

/-! ### Term evaluator and output stage -/

/-- The live condition and the latched flag of one term (R132, R133). -/
structure TermFlags where
  live : Bool
  latched : Bool
  deriving DecidableEq, Repr

/-- The term evaluator (R147). -/
structure TermEvaluator where
  flags : Vector TermFlags 16
  heldOwn : ZoneMask
  heldPeer : ZoneMask
  rel : Filter
  deriving DecidableEq, Repr

/-- The present drive of an output (R149); `openDrive` is high impedance. -/
inductive Drive
  | low
  | high
  | openDrive
  deriving DecidableEq, Repr

/-! ### Notices -/

/-- Notice kinds (10_notices_and_the_tap_port.md). -/
inductive NoticeKind
  | peerHeard
  | peerPresent
  | peerSilent
  | peerJoined
  | stranger
  | planMismatch
  | sequenceGap
  | deliveryShort
  | termAsserted
  | termCleared
  | releaseRefused
  | healthChanged
  | phaseChanged
  | duplicateNumber
  | overflow
  deriving DecidableEq, Repr

/-- The value a notice may carry. -/
inductive NoticeValue
  | health (h : Health)
  | phase (p : Phase)
  | fault (f : FaultCode)
  | map (m : StationMap)
  deriving DecidableEq, Repr

/-- A notice (R181). -/
structure Notice where
  kind : NoticeKind
  stamp : Word16
  station : Option Station
  term : Option (Fin 16)
  value : Option NoticeValue
  deriving DecidableEq, Repr

/-! ### Tap port -/

/-- Transaction states (R187). -/
inductive TapState
  | idle
  | request
  | arguments
  | response
  | waitRelease
  deriving DecidableEq, Repr

/-- The tap port. `bitsIn` holds the bits of the byte being clocked in, first bit first; `clocked` the rising edges of
TSCK since the judgement point (R203). -/
structure Tap where
  state : TapState
  request : Option Byte
  args : List Byte
  bitsIn : List Bool
  response : Option (List Byte)
  clocked : Nat
  takeArmed : Bool
  restartArmed : Bool
  deriving DecidableEq, Repr

/-! ### The whole station -/

/-- The state of the station, and the queue of commands that wait for it. `outputTrace`, the model's own, holds the drives the
outputs were set to since the last reset, oldest first, each set of drives that an event or a phase change gave them, so that
the drives between two events inside one command are there as well (R156, R180; log 37). -/
structure State where
  pins : Pins
  ctrl : Controller
  loader : Loader
  watch : WatchUnit
  line : LineInterface
  engine : Engine
  table : PeerTable
  slate : Slate
  health : HealthMonitor
  terms : TermEvaluator
  outputs : Vector Drive 8
  outputTrace : List (Vector Drive 8)
  notices : List Notice
  tap : Tap
  pending : List Instr
  deriving DecidableEq, Repr

/-! ### After reset -/

/-- The station controller after a reset of the given cause (R160, R163, R173; listen count: log 20). -/
def Controller.afterReset (cause : ResetCause) : Controller :=
  { phase := .loading, fault := .none, cause := cause, ownNumber := 0, listenCount := 0, ticking := false, tick := 0,
    fingerprint := none }

/-- The loader after any reset (R164). -/
def Loader.afterReset : Loader :=
  { progress := .reading, attempt := 1, image := [], config := none, port := [] }

/-- A filter that has taken no sample (R46, R147). -/
def Filter.fresh : Filter :=
  { last := none, count := 0, filtered := none }

/-- The watch unit after any reset (R46). -/
def WatchUnit.afterReset : WatchUnit :=
  { sampling := false, lines := Vector.replicate 16 Filter.fresh,
    groups := Vector.replicate 4 { state := .settling, tally := 0 } }

/-- The line interface after any reset (05_bit_signalling_on_the_line.md, head table). -/
def LineInterface.afterReset : LineInterface :=
  { running := false, grid := none, trailCount := 0, len := false, ltx := false, drove := [] }

/-- All six counters at 0 (R71). -/
def StationCounters.zero : StationCounters :=
  { completed := 0, aborted := 0, lost := 0, accepted := 0, rejected := 0, abandoned := 0 }

/-- The frame engine after any reset: IDLE, no frame, gap requirement tGAP (R47, R71; gap count: log 20). -/
def Engine.afterReset : Engine :=
  { state := .idle, gapCount := 0, gapRequirement := 11, ableAtIdle := false, frame := none,
    counters := StationCounters.zero }

/-- An entry after any reset (R29). -/
def Entry.blank : Entry :=
  { roster := false, presence := .absent, age := 0, zoneMap := none, plan := none, report := none,
    lastRelease := none, framesAccepted := 0, sequenceGaps := 0, deliveriesMissed := 0 }

/-- The slate after any reset (R95). -/
def Slate.afterReset : Slate :=
  { change := none, release := none, refresh := false, join := false, resync := false, reportSequence := 0,
    releaseSequence := 0, departureOwed := false, stateSent := false }

/-- The health monitor after any reset (R126). -/
def HealthMonitor.afterReset : HealthMonitor :=
  { garble := 0, state := .normal, sightings := 0 }

/-- The term evaluator after any reset (R147). -/
def TermEvaluator.afterReset : TermEvaluator :=
  { flags := Vector.replicate 16 { live := false, latched := false }, heldOwn := 0, heldPeer := 0,
    rel := Filter.fresh }

/-- The tap port with no transaction open (head table of the tap port, R199). -/
def Tap.noTransaction : Tap :=
  { state := .idle, request := none, args := [], bitsIn := [], response := none, clocked := 0, takeArmed := false,
    restartArmed := false }

/-- The station as a power-on reset leaves it once the reset has ended with TSEL released: LOADING, the loader in its
first attempt, cause POWER (R162, R163, R199 and the after-reset tables of every chapter). log 2. -/
def State.reset : State :=
  { pins := { powerHeld := false, pinHeld := false, tsel := false }
    ctrl := Controller.afterReset .power
    loader := Loader.afterReset
    watch := WatchUnit.afterReset
    line := LineInterface.afterReset
    engine := Engine.afterReset
    table := Vector.replicate 31 Entry.blank
    slate := Slate.afterReset
    health := HealthMonitor.afterReset
    terms := TermEvaluator.afterReset
    outputs := Vector.replicate 8 .openDrive
    outputTrace := []
    notices := []
    tap := Tap.noTransaction
    pending := [] }

end Sys2Proof.Machine
end

