-- ==== Sys2Proof/Machine/Fields.lean ====
section
/-! DEFINITION. One update per block of the state. The lemmas about them are in Sys2Proof/Laws/State.lean. -/

namespace Sys2Proof.Machine

/-- Replace the pins field. -/
def State.setPins (s : State) (v : Pins) : State := { s with pins := v }

/-- Replace the ctrl field. -/
def State.setCtrl (s : State) (v : Controller) : State := { s with ctrl := v }

/-- Replace the loader field. -/
def State.setLoader (s : State) (v : Loader) : State := { s with loader := v }

/-- Replace the watch field. -/
def State.setWatch (s : State) (v : WatchUnit) : State := { s with watch := v }

/-- Replace the line field. -/
def State.setLine (s : State) (v : LineInterface) : State := { s with line := v }

/-- Replace the engine field. -/
def State.setEngine (s : State) (v : Engine) : State := { s with engine := v }

/-- Replace the table field. -/
def State.setTable (s : State) (v : PeerTable) : State := { s with table := v }

/-- Replace the slate field. -/
def State.setSlate (s : State) (v : Slate) : State := { s with slate := v }

/-- Replace the health field. -/
def State.setHealth (s : State) (v : HealthMonitor) : State := { s with health := v }

/-- Replace the terms field. -/
def State.setTerms (s : State) (v : TermEvaluator) : State := { s with terms := v }

/-- Replace the outputs field. -/
def State.setOutputs (s : State) (v : Vector Drive 8) : State := { s with outputs := v }

/-- Replace the outputTrace field. -/
def State.setOutputTrace (s : State) (v : List (Vector Drive 8)) : State := { s with outputTrace := v }

/-- Replace the notices field. -/
def State.setNotices (s : State) (v : List Notice) : State := { s with notices := v }

/-- Replace the tap field. -/
def State.setTap (s : State) (v : Tap) : State := { s with tap := v }

/-- Replace the pending field. -/
def State.setPending (s : State) (v : List Instr) : State := { s with pending := v }

end Sys2Proof.Machine
end

