-- ==== Sys2Proof/Machine/Constants.lean ====
section
/-! DEFINITION. The named intervals, thresholds and codes of the spec, one definition each. -/

namespace Sys2Proof.Machine

/-- tGAP, the released bit periods after which the line is quiet (R50, R103). -/
def tGAP : Nat := 11

/-- tYLD, the yield extension (R51). -/
def tYLD : Nat := 5

/-- tRSTR, the restraint extension (R51). -/
def tRSTR : Nat := 24

/-- The count at which a station becomes RESTRAINED (R112). -/
def restrainedFrom : Nat := 96

/-- The count at which a RESTRAINED station becomes WITHDRAWN (R112). -/
def withdrawnFrom : Nat := 192

/-- The largest garble count (R111). -/
def garbleMax : Nat := 255

/-- The listen count at which the listen interval expires: tLISTEN in ticks (R174). -/
def listenTicks : Nat := 3

/-- Attempts a load may make (R164). -/
def loadAttempts : Nat := 3

/-- Consecutive dominant trails that make a line stuck (R107). -/
def stuckTrails : Nat := 8

/-- Notices of any kind the queue takes; one position more is kept for OVERFLOW (R182). -/
def queueCapacity : Nat := 15

/-- REL's filter depth (R141). -/
def relDepth : Nat := 3

/-- Units of the grid in one bit period (log 4), in a quarter of one, and in half a quarter. -/
def bitUnits : Int := 64

/-- Half a quarter: the lead sample's distance from the start, and the reach of the resynchronisation window (R99,
R100). -/
def halfQuarter : Int := 8

/-- Slots of a confirm window (R49). -/
def windowSlots : Nat := 31

/-- The protocol revision the DK-31 sends and accepts (R60). -/
def protocolRevision : Nat := 1

/-- The image length in bytes (R202). -/
def imageLength : Nat := 130

/-- The bus address byte of the serial memory, 1010011 and the direction bit, write 0 and read 1 (R202). -/
def memoryAddressByte (read : Bool) : Byte := if read then 0xA7 else 0xA6

/-- The kind codes (R58; 11_formats.md, Frames on the Line). -/
def Kind.code : Kind → Nat
  | .change => 1
  | .refresh => 2
  | .join => 3
  | .resync => 4
  | .release => 5

/-- The kind a code names; 0, 6 and 7 name none (R58). -/
def kindOfCode : Nat → Option Kind
  | 1 => some .change
  | 2 => some .refresh
  | 3 => some .join
  | 4 => some .resync
  | 5 => some .release
  | _ => none

/-- Payload bits by kind (R49, the table of The Shape of a Frame). -/
def Kind.payloadBits : Kind → Nat
  | .change => 38
  | .refresh => 38
  | .join => 30
  | .resync => 0
  | .release => 8

/-- The urgency in the key by kind; for CHANGE by the departure-owed flag (R55, R76). -/
def Kind.urgency (departureOwed : Bool) : Kind → BitVec 3
  | .change => if departureOwed then 7 else 5
  | .release => 4
  | .join => 3
  | .resync => 2
  | .refresh => 1

/-- The urgency a receiver requires of a kind: for CHANGE either 7 or 5 (R64). -/
def Kind.urgencyFits (k : Kind) (u : BitVec 3) : Bool :=
  u = k.urgency true ∨ u = k.urgency false

/-- Phase codes of the tap's records (11_formats.md, STATUS). -/
def Phase.code : Phase → Byte
  | .loading => 0
  | .listening => 1
  | .joining => 2
  | .running => 3
  | .halted => 4
  | .conflict => 5

/-- Fault codes (11_formats.md, STATUS). -/
def FaultCode.code : FaultCode → Byte
  | .none => 0
  | .noMemory => 1
  | .badSignature => 2
  | .badLength => 3
  | .badCheck => 4
  | .badValue _ => 5
  | .selfNotInRoster => 6

/-- The field index of a fault: with BAD_VALUE, otherwise 0 (11_formats.md, STATUS). -/
def FaultCode.index : FaultCode → Byte
  | .badValue i => BitVec.ofNat 8 i
  | .none => 0
  | .noMemory => 0
  | .badSignature => 0
  | .badLength => 0
  | .badCheck => 0
  | .selfNotInRoster => 0

/-- Health state codes (11_formats.md, STATUS). -/
def Health.code : Health → Byte
  | .normal => 0
  | .restrained => 1
  | .withdrawn => 2

/-- Reset cause codes (11_formats.md, STATUS). -/
def ResetCause.code : ResetCause → Byte
  | .power => 1
  | .pin => 2
  | .tap => 3

/-- Presence codes (11_formats.md, ENTRY). -/
def Presence.code : Presence → Byte
  | .absent => 0
  | .heard => 1
  | .present => 2
  | .silent => 3
  | .self => 4

/-- Drive codes (11_formats.md, TERMS). -/
def Drive.code : Drive → BitVec 2
  | .low => 0
  | .high => 1
  | .openDrive => 2

/-- Notice kind codes (11_formats.md, PEEK and TAKE). -/
def NoticeKind.code : NoticeKind → Byte
  | .peerHeard => 1
  | .peerPresent => 2
  | .peerSilent => 3
  | .peerJoined => 4
  | .stranger => 5
  | .planMismatch => 6
  | .sequenceGap => 7
  | .deliveryShort => 8
  | .termAsserted => 9
  | .termCleared => 10
  | .releaseRefused => 11
  | .healthChanged => 12
  | .phaseChanged => 13
  | .duplicateNumber => 14
  | .overflow => 15

/-- The status values a response begins with (11_formats.md, The Tap Port). -/
inductive TapStatus
  | ok
  | notReady
  | notRunning
  | empty
  | badArgument
  | unknown
  deriving DecidableEq, Repr

/-- Status codes (11_formats.md, The Tap Port). -/
def TapStatus.code : TapStatus → Byte
  | .ok => 0
  | .notReady => 1
  | .notRunning => 2
  | .empty => 3
  | .badArgument => 4
  | .unknown => 5

/-- The requests of the tap port (R187). -/
inductive Request
  | status
  | entry
  | terms
  | counters
  | peek
  | take
  | release
  | resync
  | restart
  | unknown
  deriving DecidableEq, Repr

/-- The request a request byte names (11_formats.md, The Tap Port). -/
def requestOfByte (b : Byte) : Request :=
  match b.toNat with
  | 1 => .status
  | 2 => .entry
  | 3 => .terms
  | 4 => .counters
  | 5 => .peek
  | 6 => .take
  | 7 => .release
  | 8 => .resync
  | 9 => .restart
  | _ => .unknown

/-- Whether a request takes an argument byte (R187). -/
def Request.takesArgument : Request → Bool
  | .entry => true
  | .release => true
  | .status => false
  | .terms => false
  | .counters => false
  | .peek => false
  | .take => false
  | .resync => false
  | .restart => false
  | .unknown => false

/-- The fill value of TSDO (R188; 11_formats.md). -/
def tapFill : Byte := 0xFF

/-- The station numbers 1 to 31 in ascending order. -/
def stations : List Station := (List.range 31).map (fun i => BitVec.ofNat 5 (i + 1))

/-- The terms T0 to T15 in ascending order. -/
def termIndices : List (Fin 16) := [0, 1, 2, 3, 4, 5, 6, 7, 8, 9, 10, 11, 12, 13, 14, 15]

/-- The groups G0 to G3 in order. -/
def groupIndices : List (Fin 4) := [0, 1, 2, 3]

/-- The set holding one station. -/
def stationBit (n : Station) : StationMap := 1#32 <<< n.toNat

/-- The set holding one zone. -/
def zoneBit (z : Zone) : ZoneMask := 1#8 <<< z.toNat

/-- A station belongs to a set. -/
def inMap (m : StationMap) (n : Station) : Bool := m.getLsbD n.toNat

/-- A zone belongs to a set. -/
def inZones (m : ZoneMask) (z : Zone) : Bool := m.getLsbD z.toNat

/-- Two zone sets share a zone. -/
def zonesMeet (a b : ZoneMask) : Bool := (a &&& b) ≠ 0

end Sys2Proof.Machine
end

