-- ==== Sys2Proof/Machine/Operands.lean ====
section
/-! DEFINITION. The operand forms: bits and bytes, the check of R201, the fields of a frame (R200), and what a run of bit
periods brings to a sender, a receiver and a reader of the confirm window (R98 to R108). -/

namespace Sys2Proof.Machine

/-! ### Bits, most significant first (11_formats.md) -/

/-- The lowest n bits of v, most significant first. -/
def natBits : Nat → Nat → List Bool
  | 0, _ => []
  | n + 1, v => v.testBit n :: natBits n v

/-- The number a row of bits spells, most significant first. -/
def bitsToNat (bs : List Bool) : Nat := bs.foldl (fun acc b => 2 * acc + b.toNat) 0

/-- The bits of a byte in the order sent. -/
def byteBits (b : Byte) : List Bool := natBits 8 b.toNat

/-- The bits of a run of bytes in stored order. -/
def bytesBits (bs : List Byte) : List Bool := bs.flatMap byteBits

/-- The byte that eight bits make, first bit most significant (R203). -/
def byteOfBits (bs : List Bool) : Byte := BitVec.ofNat 8 (bitsToNat bs)

/-- The n bits of a row that start at bit `first`, as a number. -/
def fieldAt (bs : List Bool) (first n : Nat) : Nat := bitsToNat ((bs.drop first).take n)

/-- High and low byte of a 16-bit value. -/
def word16Bytes (w : Word16) : List Byte := [w.extractLsb' 8 8, w.extractLsb' 0 8]

/-- The four bytes of a station map, most significant first. -/
def mapBytes (m : StationMap) : List Byte :=
  [m.extractLsb' 24 8, m.extractLsb' 16 8, m.extractLsb' 8 8, m.extractLsb' 0 8]

/-- 1 for yes, 0 for no. -/
def boolByte (b : Bool) : Byte := if b then 1 else 0

/-! ### The check (R201) -/

/-- One step of the register of R201: compare its most significant bit with the covered bit, shift one place toward
the most significant end, and combine with 0001 0000 0010 0001 when the two bits differed. -/
def crcStep (r : Word16) (b : Bool) : Word16 :=
  if r.msb = b then r <<< 1 else (r <<< 1) ^^^ 0x1021#16

/-- Hand n to k as a numeral, so that a long run is evaluated step by step; `strictly n k = k n`. -/
def strictly {α : Type} (n : Nat) (k : Nat → α) : α :=
  match n with
  | 0 => k 0
  | m + 1 => k (m + 1)

/-- The register after a row of covered bits: `crcStep` bit by bit. -/
def crcFrom : Word16 → List Bool → Word16
  | r, [] => r
  | r, b :: bs => strictly (crcStep r b).toNat (fun v => crcFrom (BitVec.ofNat 16 v) bs)

/-- The check of a row of bits: the register starts at all ones (R201). -/
def crc (bs : List Bool) : Word16 := crcFrom 0xFFFF#16 bs

/-! ### The fields of a frame (11_formats.md, Frames on the Line)

Rows of bits here start at position 1: the start bit at position 0 is left out. -/

/-- Bits of key, kind and sequence: positions 1 to 15. -/
def headBits : Nat := 15

/-- Bits a frame of a kind covers with its check: positions 1 to the last payload position (R61). -/
def Kind.coveredBits (k : Kind) : Nat := headBits + k.payloadBits

/-- Bits of a frame of a kind from position 1 to its last check bit. -/
def Kind.checkedBits (k : Kind) : Nat := k.coveredBits + 16

/-- The urgency, positions 1 to 3, once read. -/
def frameUrgency (bs : List Bool) : Option (BitVec 3) :=
  if 3 ≤ bs.length then some (BitVec.ofNat 3 (fieldAt bs 0 3)) else none

/-- The key number, positions 4 to 8, once read. -/
def frameNumber (bs : List Bool) : Option Station :=
  if 8 ≤ bs.length then some (BitVec.ofNat 5 (fieldAt bs 3 5)) else none

/-- The kind, positions 9 to 11, once read and valid. -/
def frameKind (bs : List Bool) : Option Kind :=
  if 11 ≤ bs.length then kindOfCode (fieldAt bs 8 3) else none

/-- The sequence, positions 12 to 15, once read. -/
def frameSequence (bs : List Bool) : Option Nibble :=
  if 15 ≤ bs.length then some (BitVec.ofNat 4 (fieldAt bs 11 4)) else none

/-- A received frame, its fields decoded (R200, R64). -/
structure ReceivedFrame where
  urgency : BitVec 3
  number : Station
  kind : Kind
  sequence : Nibble
  payload : List Bool
  checkRead : Word16
  checkComputed : Word16
  deriving DecidableEq, Repr

/-- Decode the bits of a frame followed to the end of its check (R200). -/
def decodeFrame (k : Kind) (bs : List Bool) : ReceivedFrame :=
  { urgency := BitVec.ofNat 3 (fieldAt bs 0 3)
    number := BitVec.ofNat 5 (fieldAt bs 3 5)
    kind := k
    sequence := BitVec.ofNat 4 (fieldAt bs 11 4)
    payload := (bs.drop headBits).take k.payloadBits
    checkRead := BitVec.ofNat 16 (fieldAt bs k.coveredBits 16)
    checkComputed := crc (bs.take k.coveredBits) }

/-- The bit of a phase code: 0 JOINING, 1 RUNNING. -/
def PhaseCode.bit : PhaseCode → Bool
  | .joining => false
  | .running => true

/-- The bit of a health code: 0 NORMAL, 1 RESTRAINED. -/
def HealthCode.bit : HealthCode → Bool
  | .normal => false
  | .restrained => true

/-- A group record in a STATE payload: four line values, S(4g) first, then conforming, then the tally. -/
def GroupRecord.bits (g : GroupRecord) : List Bool :=
  [g.lines.getLsbD 0, g.lines.getLsbD 1, g.lines.getLsbD 2, g.lines.getLsbD 3, g.conforming]
    ++ natBits 4 g.tally.toNat

/-- The STATE payload of R59. -/
def ReportContent.bits (r : ReportContent) : List Bool :=
  [r.phase.bit, r.health.bit] ++ r.groups.toList.flatMap GroupRecord.bits

/-- The group record in nine bits of a STATE payload. -/
def groupRecordOfBits (bs : List Bool) : GroupRecord :=
  { lines := BitVec.ofNat 4 (bitsToNat (bs.take 4).reverse)
    conforming := bs.getD 4 false
    tally := BitVec.ofNat 4 (fieldAt bs 5 4) }

/-- The report content a STATE payload carries (R59, R200). -/
def reportOfBits (bs : List Bool) : ReportContent :=
  { phase := if bs.getD 0 false then .running else .joining
    health := if bs.getD 1 false then .restrained else .normal
    groups := Vector.ofFn (fun g : Fin 4 => groupRecordOfBits ((bs.drop (2 + 9 * g.val)).take 9)) }

/-- The JOIN payload of R60: fingerprint, four zones, protocol revision. -/
def joinPayload (fingerprint : Word16) (zones : Vector Zone 4) : List Bool :=
  natBits 16 fingerprint.toNat ++ zones.toList.flatMap (fun z => natBits 3 z.toNat) ++ natBits 2 protocolRevision

/-- The fingerprint a JOIN payload carries. -/
def joinFingerprint (bs : List Bool) : Word16 := BitVec.ofNat 16 (fieldAt bs 0 16)

/-- The zones a JOIN payload carries. -/
def joinZones (bs : List Bool) : Vector Zone 4 :=
  Vector.ofFn (fun g : Fin 4 => BitVec.ofNat 3 (fieldAt bs (16 + 3 * g.val) 3))

/-- The protocol revision a JOIN payload carries. -/
def joinRevision (bs : List Bool) : Nat := fieldAt bs 28 2

/-- The RELEASE payload: zone 7 first, zone 0 last. -/
def releasePayload (m : ZoneMask) : List Bool := natBits 8 m.toNat

/-- The zone mask a RELEASE payload carries. -/
def releaseMaskOfBits (bs : List Bool) : ZoneMask := BitVec.ofNat 8 (fieldAt bs 0 8)

/-- The eight key bits: urgency, then station number (R55). -/
def keyBits (urgency : BitVec 3) (number : Station) : List Bool :=
  natBits 3 urgency.toNat ++ natBits 5 number.toNat

/-- Kind, sequence and payload in the order sent. -/
def bodyBits (k : Kind) (sequence : Nibble) (payload : List Bool) : List Bool :=
  natBits 3 k.code ++ natBits 4 sequence.toNat ++ payload

/-- The bits a winner of the key drives from the first kind bit to the last check bit (R61, R62, R200). -/
def drivenBody (key : List Bool) (k : Kind) (sequence : Nibble) (payload : List Bool) : List Bool :=
  bodyBits k sequence payload ++ natBits 16 (crc (key ++ bodyBits k sequence payload)).toNat

/-- The check register of a frame: over the covered bits driven or read so far (R48, R61). -/
def Frame.checkRegister (f : Frame) : Word16 :=
  match frameKind f.bits with
  | some k => crc (f.bits.take k.coveredBits)
  | none => crc f.bits

/-! ### Bit periods on the line -/

/-- The level a driven bit period has in a quarter, true for dominant (R98): the lead always dominant, the value as the
bit, the trail released. -/
def driveLevel (bit : Bool) : Quarter → Bool
  | .q1 => true
  | .q2 => bit
  | .q3 => bit
  | .q4 => false

/-- LEN and LTX through the four quarters of a driven bit period (R96, R98). -/
def quartersOf (bit : Bool) : List QuarterDrive :=
  [.q1, .q2, .q3, .q4].map (fun q => { len := true, ltx := driveLevel bit q })

/-- LEN and LTX in a quarter in which the station drives nothing (R96). -/
def QuarterDrive.off : QuarterDrive := { len := false, ltx := false }

/-- LEN and LTX through a row of driven bit periods. -/
def drivenQuarters (bits : List Bool) : List QuarterDrive := bits.flatMap quartersOf

/-- How many quarters of a bit period have begun when its event falls in the quarter given. -/
def Quarter.begun : Quarter → Nat
  | .q1 => 1
  | .q2 => 2
  | .q3 => 3
  | .q4 => 4

/-- LEN and LTX through the driven bit periods of a frame, of which the last was stopped after the quarter given (R104,
R105). -/
def quartersUntil (q : Quarter) (bits : List Bool) : List QuarterDrive :=
  drivenQuarters bits.dropLast ++ (quartersOf (bits.getLastD false)).take q.begun

/-- LEN and LTX through the 31 slots of a window: the own slot, where the station confirms, is a bit period of value 1, with
LEN asserted for that bit period alone; no other slot is driven (R66, R96, R98, R108). -/
def windowQuarters (own : Option Station) : List QuarterDrive :=
  stations.flatMap (fun k => if own = some k then quartersOf true else List.replicate 4 QuarterDrive.off)

/-- What a bit period driven by this station alone shows at the three samples (R98, R99). -/
def drivenPeriod (bit : Bool) : BitPeriod :=
  { edge := some 0, lead := driveLevel bit .q1, value := driveLevel bit .q2, trail := driveLevel bit .q4 }

/-- A bit period that nobody drives. -/
def releasedPeriod : BitPeriod := { edge := none, lead := false, value := false, trail := false }

/-- A bit period is seen dominant when one of its samples finds the line dominant (R99); else it is fully released
(R103). -/
def seenDominant (p : BitPeriod) : Bool := p.lead || p.value || p.trail

/-- In a gap, an edge whose lead sample finds the line dominant is a lead (R101). -/
def isLead (p : BitPeriod) : Bool := p.edge.isSome && p.lead

/-- The count of consecutive fully released bit periods, one bit period on (R50, R52, R103). -/
def releasedRun (n : Nat) (p : BitPeriod) : Nat := if seenDominant p then 0 else n + 1

/-- The count after a run of bit periods. -/
def releasedAfter (n : Nat) (ps : List BitPeriod) : Nat := ps.foldl releasedRun n

/-- The count has reached a length at some bit period boundary before the end of a run; the first `skip` boundaries, from
the one before the run on, are not looked at (R53). -/
def reachedBefore (length : Nat) : Nat → Nat → List BitPeriod → Bool
  | _, _, [] => false
  | 0, n, p :: ps => decide (length ≤ n) || reachedBefore length 0 (releasedRun n p) ps
  | skip + 1, n, p :: ps => reachedBefore length skip (releasedRun n p) ps

/-- The run that ends DISCARDING reaches its length at the last bit period given and not before (R52). -/
def reachesAtEnd (length : Nat) : Nat → List BitPeriod → Bool
  | _, [] => false
  | n, p :: ps => if length ≤ releasedRun n p then ps.isEmpty else reachesAtEnd length (releasedRun n p) ps

/-- An edge falls in the resynchronisation window: from half a quarter before the expected start to half a quarter
after it (R100). -/
def inResyncWindow (d : Int) : Bool := -halfQuarter ≤ d ∧ d ≤ halfQuarter

/-- The grid at the start of the next bit period, which begins at edge `d` if given and honoured: in IDLE and
DISCARDING (`free`) every edge is, elsewhere those in the window (R100, R101). -/
def Grid.next (free : Bool) (edge : Option Int) (g : Grid) : Grid :=
  let expected := g.start + bitUnits
  let start :=
    match edge with
    | none => expected
    | some d => if free ∨ inResyncWindow d then expected + d else expected
  { period := g.period + 1, quarter := .q1, start := start }

/-- The grid after a run of bit periods, with the event that ends the run in the quarter given. -/
def Grid.after (free : Bool) (ps : List BitPeriod) (quarter : Quarter) (g : Grid) : Grid :=
  { ps.foldl (fun g p => Grid.next free p.edge g) g with quarter := quarter }

/-! ### Driving and reading back (R104) -/

/-- What a run of bit periods brings to a station that drives. `more`: every read-back as driven, and bits left to
drive; `sent`: the last bit read back as sent; `overrun`: bit periods beyond the event. -/
inductive ReadBack
  | more
  | sent
  | lost
  | aborted (at_ : Quarter)
  | overrun
  deriving DecidableEq, Repr

/-- An event found in the last bit period given; bit periods beyond it make the run one that cannot be. -/
def endsWith (e : ReadBack) (rest : List BitPeriod) : ReadBack := if rest.isEmpty then e else .overrun

/-- Read back a contender's bits: lead and value are compared, the trail is not (R104, R56). DESIGN CHOICE: an abort at the
value sample falls in q2, here and in `sendBody` (log 35). -/
def contend : List Bool → List BitPeriod → ReadBack
  | [], [] => .sent
  | [], _ :: _ => .overrun
  | _ :: _, [] => .more
  | b :: bs, p :: ps =>
    if p.lead = false then endsWith (.aborted .q1) ps
    else if b = true ∧ p.value = false then endsWith (.aborted .q2) ps
    else if b = false ∧ p.value = true then endsWith .lost ps
    else contend bs ps

/-- Read back a winner's body and check: lead, value and trail are compared (R104, R62). -/
def sendBody : List Bool → List BitPeriod → ReadBack
  | [], [] => .sent
  | [], _ :: _ => .overrun
  | _ :: _, [] => .more
  | b :: bs, p :: ps =>
    if p.lead = false then endsWith (.aborted .q1) ps
    else if p.value ≠ b then endsWith (.aborted .q2) ps
    else if p.trail = true then endsWith (.aborted .q4) ps
    else sendBody bs ps

/-! ### Receiving (R58, R63, R101, R106, R107) -/

/-- How far a receiver has come: whether the start bit has been taken, the values read after it, and the
trail-dominant count. -/
structure Reception where
  started : Bool
  bits : List Bool
  trails : Nat
  deriving DecidableEq, Repr

/-- What bit periods bring to a receiver. -/
inductive ReceiveEvent
  | more (r : Reception)
  | framingFault (r : Reception) (at_ : Quarter)
  | invalidKind (r : Reception)
  | stuckDominant (r : Reception)
  | checkEnd (k : Kind) (r : Reception)
  | overrun
  deriving DecidableEq, Repr

/-- The trail-dominant count after a trail sample (R107). -/
def countTrail (n : Nat) (trail : Bool) : Nat := if trail then min (n + 1) stuckTrails else 0

/-- The trail-dominant count after the trail samples of a run of bit periods (R107, log 30). -/
def countTrails (n : Nat) (ps : List BitPeriod) : Nat := ps.foldl (fun n p => countTrail n p.trail) n

/-- After the trail sample: a stuck line (R107), the end of the check (R49), or more to come. -/
def afterTrail (r : Reception) : ReceiveEvent :=
  if r.trails = stuckTrails then .stuckDominant r
  else
    match frameKind r.bits with
    | some k => if r.bits.length = k.checkedBits then .checkEnd k r else .more r
    | none => .more r

/-- One bit period of a received frame. The start bit has its lead, which began the frame, and must carry value 1 (R101); every later bit period must have its
lead (R106); the kind is known at its last bit (R58); the trail is counted last (R107). -/
def receiveBit (r : Reception) (p : BitPeriod) : ReceiveEvent :=
  if r.started = false then
    if p.lead = false then .overrun
    else if p.value = false then .framingFault r .q2
    else afterTrail { started := true, bits := r.bits, trails := countTrail 0 p.trail }
  else if p.lead = false then .framingFault r .q1
  else
    let bits := r.bits ++ [p.value]
    if bits.length = 11 ∧ frameKind bits = none then
      .invalidKind { started := true, bits := bits, trails := r.trails }
    else afterTrail { started := true, bits := bits, trails := countTrail r.trails p.trail }

/-- A run of bit periods of a received frame, up to the event they bring; bit periods beyond it cannot be. -/
def receive : Reception → List BitPeriod → ReceiveEvent
  | r, [] => .more r
  | r, p :: ps =>
    match receiveBit r p with
    | .more r' => receive r' ps
    | e => if ps.isEmpty then e else .overrun

/-! ### The confirm window (R67) -/

/-- A slot reads confirmed when its value sample is dominant and its trail sample released (R67). -/
def slotConfirmed (p : BitPeriod) : Bool := p.value && !p.trail

/-- The map of the slots read confirmed, the first slot being slot k. -/
def confirmMapFrom : Nat → List BitPeriod → StationMap
  | _, [] => 0
  | k, p :: ps => (if slotConfirmed p then 1#32 <<< k else 0) ||| confirmMapFrom (k + 1) ps

/-- The confirm map of the 31 slots (R67). -/
def confirmMapOf (slots : List BitPeriod) : StationMap := confirmMapFrom 1 slots

end Sys2Proof.Machine
end

