-- ==== Sys2Proof/Machine/Flags.lean ====
section
/-! DEFINITION. The flag computations: the live condition, latch and value of a term (R128 to R138), the drive of an
output (R149, R150), the weight of an outcome and the health state it leads to (R111, R112), the gap requirement (R51),
and the filter and classification of sense lines (R33 to R36). -/

namespace Sys2Proof.Machine

/-! ### Filters (R33, R141) -/

/-- One sample of an input at a filter depth (R33). -/
def Filter.sample (depth : Nat) (level : Bool) (f : Filter) : Filter :=
  let count := if f.last = some level then min (f.count + 1) (depth + 1) else 1
  { last := some level
    count := count
    filtered := if count = depth + 1 then some level else f.filtered }

/-- The published value of a line: its filtered level while settled, else its last sample (R34). -/
def Filter.published (f : Filter) : Bool := (f.filtered.orElse (fun _ => f.last)).getD false

/-- The line is settled: its filtered level has been set (R34). -/
def Filter.settled (f : Filter) : Bool := f.filtered.isSome

/-! ### Groups (R35, R36) -/

/-- The index of line k of group g: S(4g+k) (R30). -/
def lineIndex (g k : Fin 4) : Fin 16 := ⟨4 * g.val + k.val, by omega⟩

/-- Every selected line of the group is settled. -/
def groupSettled (c : GroupConfig) (lines : Vector Filter 16) (g : Fin 4) : Bool :=
  groupIndices.all (fun k => !c.selected.getLsbD k.val || lines[lineIndex g k].settled)

/-- The group conforms: the filtered level of every selected line is its expected level (R36). -/
def groupConforms (c : GroupConfig) (lines : Vector Filter 16) (g : Fin 4) : Bool :=
  groupIndices.all (fun k =>
    !c.selected.getLsbD k.val || decide (lines[lineIndex g k].filtered = some (c.expected.getLsbD k.val)))

/-- The next state of a group at a sample event (R35, R37, R38). -/
def nextGroupState (c : GroupConfig) (lines : Vector Filter 16) (g : Fin 4) : GroupState → GroupState
  | .settling =>
    if groupSettled c lines g then (if groupConforms c lines g then .conforming else .departed) else .settling
  | .conforming => if groupConforms c lines g then .conforming else .departed
  | .departed => if groupConforms c lines g then .conforming else .departed

/-- A departure is the move from CONFORMING to DEPARTED (R37). -/
def isDeparture (old new : GroupState) : Bool := old = .conforming ∧ new = .departed

/-- A restore is the move from DEPARTED to CONFORMING (R38). -/
def isRestore (old new : GroupState) : Bool := old = .departed ∧ new = .conforming

/-- Classify a group; its tally goes up by 1 modulo 16 on a departure and on nothing else (R40). -/
def WatchGroup.classify (c : GroupConfig) (lines : Vector Filter 16) (g : Fin 4) (w : WatchGroup) : WatchGroup :=
  let new := nextGroupState c lines g w.state
  { state := new, tally := if isDeparture w.state new then w.tally + 1 else w.tally }

/-- The four published line values of group g. -/
def publishedLines (lines : Vector Filter 16) (g : Fin 4) : BitVec 4 :=
  BitVec.ofNat 4 (bitsToNat [lines[lineIndex g 3].published, lines[lineIndex g 2].published,
    lines[lineIndex g 1].published, lines[lineIndex g 0].published])

/-- The record the watch unit publishes for group g (R41). -/
def WatchUnit.record (w : WatchUnit) (g : Fin 4) : GroupRecord :=
  { lines := publishedLines w.lines g, conforming := w.groups[g].state = .conforming, tally := w.groups[g].tally }

/-- The four records the watch unit publishes (R41). -/
def WatchUnit.records (w : WatchUnit) : Vector GroupRecord 4 := Vector.ofFn (fun g => w.record g)

/-! ### Terms (R128 to R134) -/

/-- An entry is in a term's scope (R128). -/
def inScope (scope : TermScope) (e : Entry) : Bool :=
  e.roster &&
    match scope with
    | .all => true
    | .peers => decide (e.presence ≠ .self)
    | .self => decide (e.presence = .self)

/-- Group g of an entry lies in a zone of the mask; with no zone map it lies in every zone (R128). -/
def liesIn (mask : ZoneMask) (zoneMap : Option (Vector Zone 4)) (g : Fin 4) : Bool :=
  match zoneMap with
  | some z => inZones mask z[g]
  | none => decide (mask ≠ 0)

/-- DEPARTED, as one entry makes it true (R129). -/
def entryDeparted (mask : ZoneMask) (e : Entry) : Bool :=
  (decide (e.presence = .present) || decide (e.presence = .self)) &&
    match e.report with
    | some r => groupIndices.any (fun g => !r.content.groups[g].conforming && liesIn mask e.zoneMap g)
    | none => false

/-- UNSEEN, as one entry makes it true (R130); never with an empty zone mask (R127, log 11). -/
def entryUnseen (mask : ZoneMask) (e : Entry) : Bool :=
  (decide (e.presence = .absent) || decide (e.presence = .heard) || decide (e.presence = .silent)) &&
    groupIndices.any (fun g => liesIn mask e.zoneMap g)

/-- PLAN, as one entry makes it true (R131): a peer entry holding a fingerprint whose plan match is no. -/
def entryPlan (e : Entry) : Bool :=
  decide (e.presence ≠ .self) && e.plan.any (fun p => !p.agrees)

/-- The live condition of a term over the table (R132). -/
def termLive (c : TermConfig) (table : PeerTable) : Bool :=
  table.toList.any (fun e =>
    inScope c.scope e &&
      (c.departed && entryDeparted c.zones e || c.unseen && entryUnseen c.zones e || c.plan && entryPlan e))

/-- A term's value (R132). -/
def TermFlags.value (f : TermFlags) : Bool := f.live || f.latched

/-- Re-evaluate a term: the new live condition, then the latch setting of R133. -/
def TermFlags.reevaluate (c : TermConfig) (table : PeerTable) (f : TermFlags) : TermFlags :=
  let live := termLive c table
  { live := live, latched := f.latched || (c.latch && live) }

/-- A departure-seen signal: whether it names the own station, and the zones it names, one or every zone (R134). -/
structure DepartureSignal where
  own : Bool
  zones : ZoneMask
  deriving DecidableEq, Repr

/-- The scope covers the own station or the peers. -/
def scopeCovers (scope : TermScope) (own : Bool) : Bool :=
  match scope with
  | .all => true
  | .peers => !own
  | .self => own

/-- The signal sets the term's latch (R134). -/
def signalLatches (c : TermConfig) (g : DepartureSignal) : Bool :=
  c.latch && c.departed && scopeCovers c.scope g.own && zonesMeet c.zones g.zones

/-- A term after a departure-seen signal (R134). -/
def TermFlags.signalled (c : TermConfig) (g : DepartureSignal) (f : TermFlags) : TermFlags :=
  { f with latched := f.latched || signalLatches c g }

/-- A term at entry into RUNNING, with the zones held until then (R136). -/
def TermFlags.entering (c : TermConfig) (table : PeerTable) (heldOwn heldPeer : ZoneMask) : TermFlags :=
  let live := termLive c table
  { live := live
    latched := c.latch && (live || signalLatches c { own := true, zones := heldOwn }
      || signalLatches c { own := false, zones := heldPeer }) }

/-- A release with mask M meets a term that is latched and has a zone of M (R138). -/
def releaseMeets (c : TermConfig) (m : ZoneMask) (f : TermFlags) : Bool := f.latched && zonesMeet c.zones m

/-- A term after a release: cleared if met and not live (R138). -/
def TermFlags.released (c : TermConfig) (m : ZoneMask) (f : TermFlags) : TermFlags :=
  if releaseMeets c m f ∧ f.live = false then { f with latched := false } else f

/-! ### Drives (R149, R150) -/

/-- The drive of an output at its permit level (R149). -/
def permitDrive (c : OutputConfig) : Drive := if c.permitHigh then .high else .low

/-- The rest state of an output (R149). -/
def restDrive (c : OutputConfig) : Drive :=
  match c.rest with
  | .openRest => .openDrive
  | .driven => if c.permitHigh then .low else .high

/-- The drive of an output in RUNNING (R150). -/
def runningDrive (c : OutputConfig) (flags : Vector TermFlags 16) : Drive :=
  match c.binding with
  | none => restDrive c
  | some t =>
    match c.mode, flags[t].value with
    | .permit, false => permitDrive c
    | .permit, true => restDrive c
    | .indicate, false => restDrive c
    | .indicate, true => permitDrive c

/-- All drives in RUNNING (R150). -/
def runningDrives (c : StationConfig) (flags : Vector TermFlags 16) : Vector Drive 8 :=
  Vector.ofFn (fun d : Fin 8 => runningDrive c.outputs[d] flags)

/-- All drives at rest (R151). -/
def restDrives (c : StationConfig) : Vector Drive 8 := Vector.ofFn (fun d : Fin 8 => restDrive c.outputs[d])

/-! ### Outcomes and health (R111, R112) -/

/-- The outcomes of a frame (03_frames_and_contention.md, Outcomes). -/
inductive FrameOutcome
  | lost
  | aborted
  | completed
  | accepted
  | rejected
  | abandoned
  deriving DecidableEq, Repr

/-- The garble count after an outcome, kept within 0 to 255 (R111). -/
def FrameOutcome.weigh : FrameOutcome → Nat → Nat
  | .lost, n => n
  | .aborted, n => min (n + 8) garbleMax
  | .rejected, n => min (n + 1) garbleMax
  | .abandoned, n => min (n + 1) garbleMax
  | .completed, n => n - 1
  | .accepted, n => n - 1

/-- The next health state from the count after the weight (R112). -/
def nextHealth (count : Nat) : Health → Health
  | .normal => if restrainedFrom ≤ count then .restrained else .normal
  | .restrained =>
    if withdrawnFrom ≤ count then .withdrawn else if restrainedFrom ≤ count then .restrained else .normal
  | .withdrawn => if count = 0 then .normal else .withdrawn

/-- The health code a report carries (R26). -/
def Health.reportCode : Health → HealthCode
  | .normal => .normal
  | .restrained => .restrained
  | .withdrawn => .restrained

/-- A station counter after an outcome (R71). -/
def StationCounters.count (o : FrameOutcome) (c : StationCounters) : StationCounters :=
  match o with
  | .lost => { c with lost := c.lost + 1 }
  | .aborted => { c with aborted := c.aborted + 1 }
  | .completed => { c with completed := c.completed + 1 }
  | .accepted => { c with accepted := c.accepted + 1 }
  | .rejected => { c with rejected := c.rejected + 1 }
  | .abandoned => { c with abandoned := c.abandoned + 1 }

/-- The gap requirement set on entering IDLE; a WITHDRAWN station's is set as for NORMAL (R51). -/
def gapRequirementFor (h : Health) (ownFrame : Bool) : Nat :=
  match h with
  | .restrained => tGAP + tRSTR
  | .normal => if ownFrame then tGAP + tYLD else tGAP
  | .withdrawn => if ownFrame then tGAP + tYLD else tGAP

/-- The frame engine runs in these phases (R47). -/
def Phase.engineRuns : Phase → Bool
  | .loading => false
  | .listening => true
  | .joining => true
  | .running => true
  | .halted => false
  | .conflict => false

/-- The tap port serves requests other than STATUS in these phases (R190). -/
def Phase.serves : Phase → Bool
  | .loading => false
  | .listening => true
  | .joining => true
  | .running => true
  | .halted => false
  | .conflict => true

/-- The slate takes a request of a kind (R75). -/
def takesKind (phase : Phase) (health : Health) (k : Kind) : Bool :=
  decide (health ≠ .withdrawn) &&
    match k with
    | .change => decide (phase = .joining) || decide (phase = .running)
    | .release => decide (phase = .running)
    | .refresh => decide (phase = .joining) || decide (phase = .running)
    | .join => decide (phase = .joining)
    | .resync => decide (phase = .joining) || decide (phase = .running)

/-- A counter that stays at 255 once it has reached it (R27). -/
def saturate8 (b : Byte) : Byte := if b = 255 then 255 else b + 1

end Sys2Proof.Machine
end

