-- ==== Sys2Proof/Machine/Ops.lean ====
section
/-! DEFINITION. The shared operations of the blocks: notices, the peer table, the term evaluator's events, the send
slate's requests, the health monitor, the number conflict, the line and the engine's moves, and the reset. Each is a
function from state to state; the commands are made of them. -/

namespace Sys2Proof.Machine

/-- What a meaning answers. -/
abbrev Result := Host.Outcome State Fault Refusal

/-! ### Views -/

/-- The phase. -/
def State.phase (s : State) : Phase := s.ctrl.phase

/-- A reset is held (R162). -/
def State.inReset (s : State) : Bool := s.pins.powerHeld || s.pins.pinHeld

/-- ATN is asserted while the notice queue holds a notice (R185); while a reset is held the queue is empty (R186). -/
def State.atn (s : State) : Bool := !s.notices.isEmpty

/-- The engine runs (R47). -/
def State.engineRuns (s : State) : Bool := s.ctrl.phase.engineRuns

/-- The slate holds a pending slot (R74). -/
def Slate.nonEmpty (x : Slate) : Bool := x.change.isSome || x.release.isSome || x.refresh || x.join || x.resync

/-- The station may contend as far as its phase, its health and its slate go (R53). -/
def State.mayContend (s : State) : Bool :=
  (decide (s.ctrl.phase = .joining) || decide (s.ctrl.phase = .running)) &&
    decide (s.health.state ≠ .withdrawn) && s.slate.nonEmpty

/-- The frame in progress is the station's own, drawn from the slot of this kind, and its outcome is not yet reported
(04_the_send_slate_and_delivery.md, Slots: on the line). -/
def State.onLine (s : State) (k : Kind) : Bool :=
  (decide (s.engine.state = .contending) || decide (s.engine.state = .sending)
    || decide (s.engine.state = .confirming)) &&
    s.engine.frame.any (fun f => f.served.any (fun v => decide (v.slot = k)))

/-! ### Notices (R181 to R184) -/

/-- Push a notice: stored, replaced by OVERFLOW, or discarded (R182). -/
def pushNotice (q : List Notice) (n : Notice) : List Notice :=
  if q.any (fun m => decide (m.kind = .overflow)) then q
  else if q.length < queueCapacity then q ++ [n]
  else q ++ [{ kind := .overflow, stamp := n.stamp, station := none, term := none, value := none }]

/-- Raise a notice, stamped with the tick counter as it stands (R181, R173). -/
def State.raise (kind : NoticeKind) (station : Option Station) (term : Option (Fin 16)) (value : Option NoticeValue)
    (s : State) : State :=
  s.setNotices (pushNotice s.notices
    { kind := kind, stamp := s.ctrl.tick, station := station, term := term, value := value })

/-- Raise a notice naming a station. -/
def State.raiseStation (kind : NoticeKind) (n : Station) (s : State) : State := s.raise kind (some n) none none

/-- Raise a notice naming a term. -/
def State.raiseTerm (kind : NoticeKind) (t : Fin 16) (s : State) : State := s.raise kind none (some t) none

/-- Raise a notice carrying a value. -/
def State.raiseValue (kind : NoticeKind) (v : NoticeValue) (s : State) : State := s.raise kind none none (some v)

/-! ### The peer table -/

/-- Entry n, for n from 1 to 31; number 0 names no entry (R1). -/
def PeerTable.entry (t : PeerTable) (n : Station) : Entry :=
  if n = 0 then Entry.blank else (t[n.toNat - 1]?).getD Entry.blank

/-- Replace entry n; number 0 names no entry (R1). -/
def PeerTable.setEntry (t : PeerTable) (n : Station) (e : Entry) : PeerTable :=
  if n = 0 then t else t.setIfInBounds (n.toNat - 1) e

/-- Entry n of the station's table. -/
def State.entry (s : State) (n : Station) : Entry := PeerTable.entry s.table n

/-- Replace entry n of the station's table. -/
def State.setEntry (n : Station) (e : Entry) (s : State) : State := s.setTable (PeerTable.setEntry s.table n e)

/-- Change entry n of the station's table. -/
def State.updateEntry (n : Station) (f : Entry → Entry) (s : State) : State := s.setEntry n (f (s.entry n))

/-- Change the report of the self entry, where the own number has one. -/
def State.updateSelfReport (f : StoredReport → StoredReport) (s : State) : State :=
  s.updateEntry s.ctrl.ownNumber (fun e => { e with report := e.report.map f })

/-- Replace the phase code of the self entry's report (R26). -/
def State.setSelfPhase (p : PhaseCode) (s : State) : State :=
  s.updateSelfReport (fun r => { r with content := { r.content with phase := p } })

/-- Replace the health code of the self entry's report (R26). -/
def State.setSelfHealth (h : HealthCode) (s : State) : State :=
  s.updateSelfReport (fun r => { r with content := { r.content with health := h } })

/-- The delivery targets: roster members that are HEARD or PRESENT (R78). -/
def isTarget (e : Entry) : Bool := e.roster && (decide (e.presence = .heard) || decide (e.presence = .present))

/-- The target set as the table stands (R78). -/
def currentTargets (t : PeerTable) : StationMap :=
  stations.foldl (fun m n => if isTarget (PeerTable.entry t n) then m ||| stationBit n else m) 0

/-! ### Evidence and presence (R4 to R9) -/

/-- The notices of a move out of ABSENT (R6). -/
def State.raiseHeard (n : Station) (s : State) : State :=
  let s1 := s.raiseStation .peerHeard n
  if (s.entry n).roster then s1 else s1.raiseStation .stranger n

/-- Evidence for n other than a STATE frame (R6, R7, R8). -/
def State.evidence (n : Station) (s : State) : State :=
  match (s.entry n).presence with
  | .absent => (s.updateEntry n (fun e => { e with presence := .heard, age := 0 })).raiseHeard n
  | .heard => s.updateEntry n (fun e => { e with age := 0 })
  | .present => s.updateEntry n (fun e => { e with age := 0 })
  | .silent => (s.updateEntry n (fun e => { e with presence := .heard, age := 0 })).raiseStation .peerHeard n
  | .self => s

/-- The presence effects of an accepted CHANGE or REFRESH, with their notices (R9). -/
def State.statePresence (n : Station) (s : State) : State :=
  let moved := s.updateEntry n (fun e => { e with presence := .present, age := 0 })
  match (s.entry n).presence with
  | .absent => (moved.raiseHeard n).raiseStation .peerPresent n
  | .heard => moved.raiseStation .peerPresent n
  | .present => moved
  | .silent => moved.raiseStation .peerPresent n
  | .self => s

/-! ### The term evaluator's events (R132 to R140) -/

/-- The output stage sets its drives, which stand until it is next set (R149, R156). -/
def State.moveOutputs (d : Vector Drive 8) (s : State) : State :=
  (s.setOutputs d).setOutputTrace (s.outputTrace ++ [d])

/-- Notices of value changes, in ascending term number (R137). -/
def State.raiseChanges (old new : Vector TermFlags 16) (s : State) : State :=
  termIndices.foldl (fun s t =>
    match old[t].value, new[t].value with
    | false, true => s.raiseTerm .termAsserted t
    | true, false => s.raiseTerm .termCleared t
    | true, true => s
    | false, false => s) s

/-- One evaluator event in RUNNING: the new flags, the drives with them, and the notices of every value that changed
(R137, R155). -/
def State.settleTerms (c : StationConfig) (new : Vector TermFlags 16) (s : State) : State :=
  ((s.setTerms { s.terms with flags := new }).moveOutputs (runningDrives c new)).raiseChanges s.terms.flags new

/-- The table hands the evaluator a change: in RUNNING all sixteen terms are re-evaluated (R132). -/
def State.tableChanged (s : State) : State :=
  match s.ctrl.phase, s.loader.config with
  | .running, some c =>
    s.settleTerms c (Vector.ofFn (fun t : Fin 16 => s.terms.flags[t].reevaluate c.terms[t] s.table))
  | _, _ => s

/-- A departure-seen signal: taken in RUNNING (R134), held in LISTENING and JOINING, else discarded (R135). -/
def State.departureSeen (g : DepartureSignal) (s : State) : State :=
  match s.ctrl.phase with
  | .running =>
    match s.loader.config with
    | some c => s.settleTerms c (Vector.ofFn (fun t : Fin 16 => s.terms.flags[t].signalled c.terms[t] g))
    | none => s
  | .listening => s.setTerms (hold s.terms)
  | .joining => s.setTerms (hold s.terms)
  | .loading => s
  | .halted => s
  | .conflict => s
where
  /-- Add the signal's zones to the set it concerns. -/
  hold (e : TermEvaluator) : TermEvaluator :=
    if g.own then { e with heldOwn := e.heldOwn ||| g.zones } else { e with heldPeer := e.heldPeer ||| g.zones }

/-- The signals of one event, one after another. -/
def State.departuresSeen (gs : List DepartureSignal) (s : State) : State :=
  gs.foldl (fun s g => s.departureSeen g) s

/-- The notices of a release, in ascending term number (R138). -/
def State.raiseReleased (c : StationConfig) (m : ZoneMask) (sender : Option Station) (old : Vector TermFlags 16)
    (s : State) : State :=
  termIndices.foldl (fun s t =>
    if releaseMeets c.terms[t] m old[t] then
      if old[t].live then s.raise .releaseRefused sender (some t) none else s.raiseTerm .termCleared t
    else s) s

/-- A release with mask M, applied in RUNNING alone (R138); `sender` for a network release (R145). -/
def State.applyRelease (m : ZoneMask) (sender : Option Station) (s : State) : State :=
  match s.ctrl.phase, s.loader.config with
  | .running, some c =>
    let new := Vector.ofFn (fun t : Fin 16 => s.terms.flags[t].released c.terms[t] m)
    ((s.setTerms { s.terms with flags := new }).moveOutputs (runningDrives c new)).raiseReleased c m sender
      s.terms.flags
  | _, _ => s

/-- Entry into RUNNING at the evaluator (R136, R153). -/
def State.enterTerms (s : State) : State :=
  match s.loader.config with
  | some c =>
    let new := Vector.ofFn (fun t : Fin 16 =>
      TermFlags.entering c.terms[t] s.table s.terms.heldOwn s.terms.heldPeer)
    let quiet := Vector.replicate 16 { live := false, latched := false }
    ((s.setTerms { s.terms with flags := new, heldOwn := 0, heldPeer := 0 }).moveOutputs
      (runningDrives c new)).raiseChanges quiet new
  | none => s

/-- Entry into CONFLICT at the evaluator: terms cleared with their notices, held sets emptied, drives at rest (R140,
R154). -/
def State.clearTerms (s : State) : State :=
  let quiet := Vector.replicate 16 { live := false, latched := false }
  let rested := match s.loader.config with
    | some c => s.moveOutputs (restDrives c)
    | none => s
  (rested.setTerms { s.terms with flags := quiet, heldOwn := 0, heldPeer := 0 }).raiseChanges s.terms.flags quiet

/-! ### The send slate's requests (R74, R75, R84 to R92) -/

/-- A series as its slot becomes PENDING (R74), and as a supersession resets it (R89). -/
def Series.fresh : Series := { attempts := 0, sequence := none, targets := none, heard := 0, superseded := false }

/-- The slate takes a request of this kind now (R75). -/
def State.takes (s : State) (k : Kind) : Bool := takesKind s.ctrl.phase s.health.state k

/-- A request that finds a pending series: marked while its frame is on the line, reset after an attempt, kept before
one (R89, R91). -/
def Series.askedAgain (onLine : Bool) (x : Series) : Series :=
  if onLine then { x with superseded := true }
  else if x.attempts = 0 then x
  else Series.fresh

/-- A CHANGE request, plain or marked as a departure (R89, R92). -/
def State.requestChange (departure : Bool) (s : State) : State :=
  if s.takes .change then
    let slot := match s.slate.change with
      | none => Series.fresh
      | some x => x.askedAgain (s.onLine .change)
    s.setSlate { s.slate with change := some slot, departureOwed := s.slate.departureOwed || departure }
  else s

/-- A RELEASE request with zone mask M (R91, log 12). -/
def State.requestRelease (m : ZoneMask) (s : State) : State :=
  if s.takes .release then
    let slot := match s.slate.release with
      | none => { zones := m, series := Series.fresh }
      | some r =>
        if r.zones ||| m = r.zones then r
        else { zones := r.zones ||| m, series := r.series.askedAgain (s.onLine .release) }
    s.setSlate { s.slate with release := some slot }
  else s

/-- A REFRESH request (R74, R87). -/
def State.requestRefresh (s : State) : State :=
  if s.takes .refresh then s.setSlate { s.slate with refresh := true } else s

/-- A JOIN request (R74, R88). -/
def State.requestJoin (s : State) : State :=
  if s.takes .join then s.setSlate { s.slate with join := true } else s

/-- A RESYNC request (R74, R88). -/
def State.requestResync (s : State) : State :=
  if s.takes .resync then s.setSlate { s.slate with resync := true } else s

/-- Empty every slot and clear the departure-owed flag; the sequences and the state-sent mark stay (R93, R94). -/
def Slate.emptied (x : Slate) : Slate :=
  { x with change := none, release := none, refresh := false, join := false, resync := false, departureOwed := false }

/-- The pending slot of highest urgency (R76). -/
def Slate.mostUrgent (x : Slate) : Option Kind :=
  if x.change.isSome then some .change
  else if x.release.isSome then some .release
  else if x.join then some .join
  else if x.resync then some .resync
  else if x.refresh then some .refresh
  else none

/-- A local release request with mask M: applied to the own terms, then handed to the slate where network release is
configured (R144). -/
def State.localRelease (m : ZoneMask) (s : State) : State :=
  let applied := s.applyRelease m none
  if s.loader.config.any (fun c => c.networkRelease) then applied.requestRelease m else applied

/-! ### Entry into RUNNING (R178) -/

/-- The JOIN has concluded: from JOINING the station enters RUNNING (R178); in another phase nothing follows (R160). -/
def State.joinConcluded (s : State) : State :=
  if s.ctrl.phase = .joining then
    ((((s.setCtrl { s.ctrl with phase := .running }).setSelfPhase .running).raiseValue .phaseChanged
      (.phase .running)).enterTerms).requestRefresh
  else s

/-! ### A number conflict (R122, R180) -/

/-- The driver released: LEN deasserted and LTX released (R96, R109). -/
def LineInterface.releasedDriver (l : LineInterface) : LineInterface := { l with len := false, ltx := false }

/-- The engine stopped where the conflict was found (R47; log 9). -/
def Engine.stopped (e : Engine) : Engine := { e with state := .idle, frame := none }

/-- A declared number conflict: DUPLICATE_NUMBER, then CONFLICT with PHASE_CHANGED, then every block's entry into it
(R122, R180). Outside LISTENING, JOINING and RUNNING none can be declared (R160). -/
def State.declareConflict (s : State) : State :=
  if s.engineRuns then
    let noticed := s.raiseStation .duplicateNumber s.ctrl.ownNumber
    let entered := (noticed.setCtrl { s.ctrl with phase := .conflict }).raiseValue .phaseChanged (.phase .conflict)
    (((entered.setEngine s.engine.stopped).setLine s.line.releasedDriver).setSlate s.slate.emptied).clearTerms
  else s

/-! ### The health monitor (R111 to R120) -/

/-- The entry and exit actions of a health state (R113 step 4): the slate emptied on entering WITHDRAWN (R115), the
requests on the return to NORMAL (R117). -/
def State.healthActions (old new : Health) (s : State) : State :=
  match old, new with
  | _, .withdrawn => s.setSlate s.slate.emptied
  | .withdrawn, .normal =>
    let asked := s.requestResync.requestRefresh
    if s.ctrl.phase = .joining then asked.requestJoin else asked
  | _, _ => s

/-- A change of health state with its effects in the order of R113. -/
def State.changeHealth (new : Health) (s : State) : State :=
  if new = s.health.state then s
  else
    (((s.setHealth { s.health with state := new }).setSelfHealth new.reportCode).raiseValue .healthChanged
      (.health new)).healthActions s.health.state new

/-- Apply the weight of an outcome, then the health state rule (R111, R112). -/
def State.weighOutcome (o : FrameOutcome) (s : State) : State :=
  let count := o.weigh s.health.garble
  (s.setHealth { s.health with garble := count }).changeHealth (nextHealth count s.health.state)

/-- An own-slot sighting: the first is counted, the second declares a conflict (R120). -/
def State.sighting (s : State) : State :=
  match s.health.sightings with
  | 0 => s.setHealth { s.health with sightings := 1 }
  | 1 => (s.setHealth { s.health with sightings := 2 }).declareConflict
  | _ => s

/-- Count an outcome in the station counters (R71). -/
def State.countOutcome (o : FrameOutcome) (s : State) : State :=
  s.setEngine { s.engine with counters := s.engine.counters.count o }

/-! ### The slate takes an outcome (R80 to R85, R90) -/

/-- Count a miss against every station of the map (R83 step 1). -/
def countMisses (missing : StationMap) (t : PeerTable) : PeerTable :=
  stations.foldl (fun t n =>
    if inMap missing n then
      let e := PeerTable.entry t n
      PeerTable.setEntry t n { e with deliveriesMissed := saturate8 e.deliveriesMissed }
    else t) t

/-- The missing map of a series that ends short; one that never opened takes its targets now (R83). -/
def missingMap (t : PeerTable) (x : Series) : StationMap := (x.targets.getD (currentTargets t)) &&& ~~~x.heard

/-- Count the misses and raise DELIVERY_SHORT, unless none is missing (R83 steps 1 and 2). -/
def State.reportShort (x : Series) (s : State) : State :=
  let missing := missingMap s.table x
  let counted := s.setTable (countMisses missing s.table)
  if missing = 0 then counted else counted.raiseValue .deliveryShort (.map missing)

/-- How many attempts a series may make: 1 + the retry limit (R82). -/
def State.attemptLimit (s : State) : Nat := 1 + (s.loader.config.map (fun c => c.retryLimit.toNat)).getD 0

/-- A series has reached all its targets (R81). -/
def Series.delivered (x : Series) : Bool := (x.targets.getD 0) &&& ~~~x.heard = 0

/-- What becomes of a series at an attempt's outcome. -/
inductive SeriesFate
  | goesOn (x : Series)
  | delivered
  | short (x : Series)
  deriving DecidableEq, Repr

/-- A series after an attempt with the heard map of a completion, or none for an abort: superseded it is reset (R90),
else judged (R81, R82). -/
def Series.afterAttempt (limit : Nat) (heard : Option StationMap) (x : Series) : SeriesFate :=
  let counted := { x with attempts := x.attempts + 1, heard := x.heard ||| heard.getD 0 }
  if x.superseded then .goesOn Series.fresh
  else if heard.isSome && counted.delivered then .delivered
  else if counted.attempts < limit then .goesOn counted
  else .short counted

/-- A series after a LOST round: a marked supersession is carried out now (R80, R90). -/
def Series.afterLost (x : Series) : Series :=
  if x.superseded then (if x.attempts = 0 then { x with superseded := false } else Series.fresh) else x

/-- The CHANGE slot after an attempt (R81 to R83, R90, R92). -/
def State.changeAttempt (heard : Option StationMap) (s : State) : State :=
  match s.slate.change with
  | none => s
  | some x =>
    match x.afterAttempt s.attemptLimit heard with
    | .goesOn y => s.setSlate { s.slate with change := some y }
    | .delivered => s.setSlate { s.slate with change := none, departureOwed := false }
    | .short y => (s.reportShort y).setSlate { s.slate with change := none, departureOwed := false }

/-- The RELEASE slot after an attempt (R81 to R83, R90). -/
def State.releaseAttempt (heard : Option StationMap) (s : State) : State :=
  match s.slate.release with
  | none => s
  | some r =>
    match r.series.afterAttempt s.attemptLimit heard with
    | .goesOn y => s.setSlate { s.slate with release := some { r with series := y } }
    | .delivered => s.setSlate { s.slate with release := none }
    | .short y => (s.reportShort y).setSlate { s.slate with release := none }

/-- A completed STATE frame of this station sets the state-sent mark and leaves no REFRESH pending (R84, R85). -/
def State.stateFrameCompleted (s : State) : State :=
  s.setSlate { s.slate with stateSent := true, refresh := false }

/-- The slate takes COMPLETED with the heard map (R81, R84, R85). -/
def State.slateCompleted (k : Kind) (heard : StationMap) (s : State) : State :=
  match k with
  | .change => (s.changeAttempt (some heard)).stateFrameCompleted
  | .release => s.releaseAttempt (some heard)
  | .refresh => s.stateFrameCompleted
  | .join => (s.setSlate { s.slate with join := false }).joinConcluded
  | .resync => s.setSlate { s.slate with resync := false }

/-- The slate takes ABORTED (R82, R84). -/
def State.slateAborted (k : Kind) (s : State) : State :=
  match k with
  | .change => s.changeAttempt none
  | .release => s.releaseAttempt none
  | .refresh => s.setSlate { s.slate with refresh := false }
  | .join => (s.setSlate { s.slate with join := false }).joinConcluded
  | .resync => s.setSlate { s.slate with resync := false }

/-- The slate takes LOST (R80). -/
def State.slateLost (k : Kind) (s : State) : State :=
  match k with
  | .change => s.setSlate { s.slate with change := s.slate.change.map Series.afterLost }
  | .release =>
    s.setSlate { s.slate with release := s.slate.release.map (fun r => { r with series := r.series.afterLost }) }
  | .refresh => s
  | .join => s
  | .resync => s

/-! ### The engine's moves -/

/-- Enter IDLE with a gap count; the requirement is set from the health state and the frame just ended, which is
discarded, and what R53 asks of phase, health and slate is noted (R48, R50, R51, R53). -/
def State.enterIdle (gap : Nat) (s : State) : State :=
  s.setEngine { s.engine with
    state := .idle
    gapCount := gap
    gapRequirement := gapRequirementFor s.health.state (s.engine.frame.any (fun f => decide (f.role = .sender)))
    ableAtIdle := s.mayContend
    frame := none }

/-- Enter DISCARDING, the released run starting from 0 (R52). The record stays until the engine returns to IDLE (R48).
DESIGN CHOICE: the gap requirement shows its last value until the next IDLE sets it (R51, log 39). -/
def State.enterDiscarding (s : State) : State :=
  s.setEngine { s.engine with state := .discarding, gapCount := 0 }

/-- Move the grid over a run of bit periods (R100). -/
def State.passBits (free : Bool) (ps : List BitPeriod) (quarter : Quarter) (s : State) : State :=
  s.setLine { s.line with grid := s.line.grid.map (Grid.after free ps quarter) }

/-- Of the bit periods of a frame, those that begin after the one its start bit began: the start bit's own has begun
with CONTENTION_START or FRAME_START. -/
def laterPeriods (f : Frame) (ps : List BitPeriod) : List BitPeriod := if f.position = 0 then ps.drop 1 else ps

/-- LEN and LTX taken through a row of quarters, to stand as in the last of them (R96, R104). -/
def LineInterface.drive (qs : List QuarterDrive) (l : LineInterface) : LineInterface :=
  { l with drove := qs, len := (qs.getLastD QuarterDrive.off).len, ltx := (qs.getLastD QuarterDrive.off).ltx }

/-- The driver taken through a row of quarters. -/
def State.drive (qs : List QuarterDrive) (s : State) : State := s.setLine (s.line.drive qs)

/-- The driver released from the next quarter on (R105). -/
def State.stopDriving (s : State) : State := s.setLine s.line.releasedDriver

/-- No bit of this command was the station's to drive. -/
def State.droveNothing (s : State) : State := s.setLine { s.line with drove := [] }

/-- Replace the trail-dominant count (R107). -/
def State.setTrails (n : Nat) (s : State) : State := s.setLine { s.line with trailCount := n }

/-! ### Resets (R162) -/

/-- Every block at its after-reset state, with the cause and the pins given; the queue of commands is not the
part's. -/
def State.resetBy (cause : ResetCause) (pins : Pins) (s : State) : State :=
  { State.reset with pins := pins, ctrl := Controller.afterReset cause, pending := s.pending }

end Sys2Proof.Machine
end

