-- ==== Sys2Proof/WellFormed.lean ====
section
/-! DEFINITION. Which commands are well formed: operands within the counts and ranges their rules give. Machine.exec is
total on the others too: their event cannot happen, so they change nothing (log 3). -/

namespace Sys2Proof

/-- Clock pulses driven to free the data line: up to nine (R165). -/
def freeingOk (n : Nat) : Bool := n ≤ 9

/-- A line found still held low has been given all nine pulses (R165). -/
def failureOk (freeing : Nat) (cause : BusFault) : Bool :=
  if cause = .dataHeldLow then freeing = 9 else freeingOk freeing

/-- The operands of a command are within what its rule gives. -/
def Instr.wellFormed : Instr → Bool
  | .powerOnReset => true
  | .resetPin => true
  | .resetEnd _ => true
  | .headerRead freeing _ _ _ _ => freeingOk freeing
  | .transportFailure freeing cause read => failureOk freeing cause && decide (read.length ≤ 126)
  | .pauseEnd => true
  | .imageComplete rest _ => rest.length = 126
  | .sampleEvent _ => true
  | .refreshTick _ => true
  | .peerSilent n _ => n ≠ 0
  | .listenExpiry _ => true
  | .discardEnd gap => 35 ≤ gap.length
  | .contentionStart gap edge able => able ≤ gap.length ∧ edge.all (fun d => -8 < d ∧ d ≤ 0)
  | .keyLost bits => 2 ≤ bits.length ∧ bits.length ≤ 9
  | .keyWon bits => bits.length = 9
  | .sendAborted bits => 1 ≤ bits.length ∧ bits.length ≤ 61
  | .invalidKind bits => 1 ≤ bits.length ∧ bits.length ≤ 12
  | .framingFault bits => 1 ≤ bits.length ∧ bits.length ≤ 70
  | .stuckDominant bits => bits.length ≤ 70
  | .frameReceived bits => 1 ≤ bits.length ∧ bits.length ≤ 70
  | .windowEnd slots => slots.length = 31
  | .tselAssert => true
  | .tselRelease _ => true
  | .status => true
  | .entry _ => true
  | .terms => true
  | .counters => true
  | .peek => true
  | .take => true
  | .release _ => true
  | .resync => true
  | .restart => true
  | .unknownRequest code => code = 0 ∨ 9 < code.toNat
  | .frameStart gap _ able => able ≤ gap.length
  | .lastCheckBitSent bits => bits.length ∈ [23, 31, 53, 61]

end Sys2Proof
end

