-- ==== Sys2Proof/Machine/Loader.lean ====
section
/-! DEFINITION. The configuration loader: HEADER_READ, TRANSPORT_FAILURE, PAUSE_END and IMAGE_COMPLETE, the checks of the
image, its layout, and the end of a valid load (R164 to R172, R202). -/

namespace Sys2Proof.Machine

/-! ### The configuration port (R165, R202) -/

/-- Clock pulses driven to free the data line (R165). -/
def freeingClocks (freeing : Nat) : List BusOp := if freeing = 0 then [] else [.freeClocks freeing]

/-- The addressing of an attempt: the memory's address, the image's address, and the repeated start for reading (R202). -/
def portAddressing : List BusOp :=
  [.start, .send (memoryAddressByte false), .send 0, .send 0, .repeatedStart, .send (memoryAddressByte true)]

/-- What the loader drives at the start of an attempt (R165, R202). -/
def portOpening (freeing : Nat) : List BusOp := freeingClocks freeing ++ portAddressing

/-- How much of the addressing the loader has driven when a fault falls in it: an acknowledge is missing after the byte it
belongs to, a condition fails before it is made, and the clock is held where the cause says (R165, R202, log 16). -/
def addressingDriven : BusFault → Nat
  | .noAckBusAddress false => 2
  | .noAckMemoryAddress false => 3
  | .noAckMemoryAddress true => 4
  | .noAckBusAddress true => 6
  | .dataHeldLow => 0
  | .clockHeldLow n => n
  | .dataLowInCondition .start => 0
  | .dataLowInCondition .repeatedStart => 4
  | .dataLowInCondition .stop => 6

/-- Where a fault may fall: in the addressing, with nothing read; or, for a clock held low, after the addressing among the
bytes; or, for the stop condition, after the last byte (R165, R202). -/
def faultPlaceOk (headerRead : Bool) (read : List Byte) : BusFault → Bool
  | .noAckBusAddress _ => !headerRead && read.isEmpty
  | .noAckMemoryAddress _ => !headerRead && read.isEmpty
  | .dataHeldLow => !headerRead && read.isEmpty
  | .clockHeldLow n =>
    if headerRead then decide (n = 6 ∧ read.length ≤ imageLength - 4)
    else decide (n ≤ 6 ∧ read.length < 4) && (decide (n = 6) || read.isEmpty)
  | .dataLowInCondition .start => !headerRead && read.isEmpty
  | .dataLowInCondition .repeatedStart => !headerRead && read.isEmpty
  | .dataLowInCondition .stop => headerRead && decide (read.length = imageLength - 4)

/-- How a failed transaction is left: with a stop condition where the lines allow one, else released (R165, log 16). -/
def portAfterFault : BusFault → List BusOp
  | .noAckBusAddress _ => [.stop]
  | .noAckMemoryAddress _ => [.stop]
  | .dataHeldLow => [.released]
  | .clockHeldLow _ => [.released]
  | .dataLowInCondition _ => [.released]

/-- Bytes taken with their acknowledges: all but the last acknowledged (R202). -/
def takenToEnd : List Byte → List BusOp
  | [] => []
  | [b] => [.take b false]
  | b :: c :: rest => .take b true :: takenToEnd (c :: rest)

/-! ### The image (11_formats.md, The Configuration Image) -/

/-- The byte at an offset. -/
def imageByte (img : List Byte) (offset : Nat) : Byte := img.getD offset 0

/-- The roster mask, offsets 10 to 13. -/
def imageRoster (img : List Byte) : StationMap :=
  imageByte img 10 ++ imageByte img 11 ++ imageByte img 12 ++ imageByte img 13

/-- The signature is 5D 31 (R166 check 1). -/
def signatureOk (img : List Byte) : Bool := imageByte img 0 = 0x5D ∧ imageByte img 1 = 0x31

/-- The length equals the image length (R166 check 2). -/
def lengthOk (img : List Byte) : Bool := (imageByte img 2).toNat = imageLength

/-- The check word equals the register over every byte before it (R166 check 3, R201). -/
def checkWordOk (img : List Byte) : Bool :=
  crc (bytesBits (img.take 128)) = imageByte img 128 ++ imageByte img 129

/-- The values a byte of the group, term and output fields may hold (R167, R202): by its place in its record. -/
def groupFieldOk (place value : Nat) : Bool := if place < 2 then value ≤ 15 else value ≤ 7

/-- A term's field: zone mask any, aspects three bits, scope 0 to 2, latch 0 or 1 (R202). -/
def termFieldOk (place value : Nat) : Bool :=
  match place with
  | 0 => true
  | 1 => value ≤ 7
  | 2 => value ≤ 2
  | _ => value ≤ 1

/-- An output's field: binding 0 to 15 or FF, the others 0 or 1 (R202). -/
def outputFieldOk (place value : Nat) : Bool :=
  match place with
  | 0 => value ≤ 15 ∨ value = 255
  | _ => value ≤ 1

/-- The field of an index from 2 to 123 is in its range (R167; indices and offsets of the table in 11_formats.md: from
index 10 on a field stands at the offset four above its index). -/
def fieldOk (img : List Byte) (index : Nat) : Bool :=
  let at_ := fun offset => (imageByte img offset).toNat
  if index = 2 then at_ 3 = 1
  else if index = 3 then 1 ≤ at_ 4 ∧ at_ 4 ≤ 31
  else if index = 4 then at_ 5 ≤ 3
  else if index = 5 then at_ 6 ≤ 3
  else if index = 6 then at_ 7 ≤ 3
  else if index = 7 then 2 ≤ at_ 8 ∧ at_ 8 ≤ 15
  else if index = 8 then at_ 9 ≤ 7
  else if index = 9 then (imageRoster img).getLsbD 0 = false
  else if index < 26 then groupFieldOk ((index - 10) % 4) (at_ (index + 4))
  else if index < 90 then termFieldOk ((index - 26) % 4) (at_ (index + 4))
  else if index < 122 then outputFieldOk ((index - 90) % 4) (at_ (index + 4))
  else if index = 122 then true
  else at_ 127 ≤ 1

/-- The field indices of the range check, ascending (R202). -/
def rangeIndices : List Nat := (List.range 122).map (fun i => i + 2)

/-- The first field out of range (R167). -/
def firstBadField (img : List Byte) : Option Nat := rangeIndices.find? (fun i => !fieldOk img i)

/-- The roster holds the station number of the image (R168). -/
def rosterOk (img : List Byte) : Bool := (imageRoster img).getLsbD (imageByte img 4).toNat

/-- The checks made when the header has been read (R166). -/
def headerFault (img : List Byte) : Option FaultCode :=
  if !signatureOk img then some .badSignature
  else if !lengthOk img then some .badLength
  else none

/-- The checks made when the image is complete, in order (R166). -/
def imageFault (img : List Byte) : Option FaultCode :=
  if !checkWordOk img then some .badCheck
  else
    match firstBadField img with
    | some i => some (.badValue i)
    | none => if rosterOk img then none else some .selfNotInRoster

/-- The low bits of a byte. -/
def lowBits (n : Nat) (b : Byte) : BitVec n := BitVec.ofNat n b.toNat

/-- Group g of the image. -/
def parseGroup (img : List Byte) (g : Fin 4) : GroupConfig :=
  { selected := lowBits 4 (imageByte img (14 + 4 * g.val))
    expected := lowBits 4 (imageByte img (15 + 4 * g.val))
    zone := lowBits 3 (imageByte img (16 + 4 * g.val))
    depth := lowBits 3 (imageByte img (17 + 4 * g.val)) }

/-- The scope a byte encodes. -/
def parseScope (b : Byte) : TermScope := if b = 0 then .all else if b = 1 then .peers else .self

/-- Term t of the image. -/
def parseTerm (img : List Byte) (t : Fin 16) : TermConfig :=
  let aspects := imageByte img (31 + 4 * t.val)
  { zones := imageByte img (30 + 4 * t.val)
    departed := aspects.getLsbD 0
    unseen := aspects.getLsbD 1
    plan := aspects.getLsbD 2
    scope := parseScope (imageByte img (32 + 4 * t.val))
    latch := imageByte img (33 + 4 * t.val) = 1 }

/-- Output d of the image. -/
def parseOutput (img : List Byte) (d : Fin 8) : OutputConfig :=
  let binding := imageByte img (94 + 4 * d.val)
  { binding := if binding = 0xFF then none else some (Fin.ofNat 16 binding.toNat)
    mode := if imageByte img (95 + 4 * d.val) = 0 then .permit else .indicate
    permitHigh := imageByte img (96 + 4 * d.val) = 1
    rest := if imageByte img (97 + 4 * d.val) = 0 then .driven else .openRest }

/-- The configuration an image holds (R170, R202). -/
def parseImage (img : List Byte) : StationConfig :=
  { revision := imageByte img 3
    number := lowBits 5 (imageByte img 4)
    bitRate := lowBits 2 (imageByte img 5)
    tickCode := lowBits 2 (imageByte img 6)
    sampleCode := lowBits 2 (imageByte img 7)
    silence := lowBits 4 (imageByte img 8)
    retryLimit := lowBits 3 (imageByte img 9)
    roster := imageRoster img
    groups := Vector.ofFn (parseGroup img)
    terms := Vector.ofFn (parseTerm img)
    outputs := Vector.ofFn (parseOutput img)
    releaseZones := imageByte img 126
    networkRelease := imageByte img 127 = 1 }

/-- The eight bytes the plan fingerprint covers (R171, R201). -/
def fingerprintBytes (c : StationConfig) : List Byte :=
  [c.revision, c.bitRate.setWidth 8, c.tickCode.setWidth 8, c.silence.setWidth 8] ++ mapBytes c.roster

/-- The plan fingerprint of a configuration (R171). -/
def planFingerprint (c : StationConfig) : Word16 := crc (bytesBits (fingerprintBytes c))

/-! ### The end of a load -/

/-- A load that ends in a fault: the fault code, HALTED, its PHASE_CHANGED, and the loader FAILED with nothing kept
(R169, R161). -/
def State.halt (f : FaultCode) (port : List BusOp) (s : State) : State :=
  let failed := s.setLoader { s.loader with progress := .failed, image := [], config := none, port := port }
  (failed.setCtrl { s.ctrl with phase := .halted, fault := f }).raiseValue .phaseChanged (.fault f)

/-- The lines of the watch unit after a sample: every line at its group's filter depth (R33). -/
def sampleLines (groups : Vector GroupConfig 4) (sample : SenseSample) (lines : Vector Filter 16) : Vector Filter 16 :=
  Vector.ofFn (fun k : Fin 16 =>
    (lines[k]).sample (groups[(⟨k.val / 4, by omega⟩ : Fin 4)].depth.toNat) (sample.lines.getLsbD k.val))

/-- Filters and classification at a sample event (R32 steps 1 and 2). -/
def WatchUnit.sampled (groups : Vector GroupConfig 4) (sample : SenseSample) (w : WatchUnit) : WatchUnit :=
  let lines := sampleLines groups sample w.lines
  { w with
    lines := lines
    groups := Vector.ofFn (fun g : Fin 4 => (w.groups[g]).classify groups[g] lines g) }

/-- The watch unit's start: groups with no selected line CONFORMING, the others SETTLING, then the first sample (R31). -/
def WatchUnit.started (groups : Vector GroupConfig 4) (sample : SenseSample) : WatchUnit :=
  WatchUnit.sampled groups sample
    { WatchUnit.afterReset with
      sampling := true
      groups := Vector.ofFn (fun g : Fin 4 =>
        { state := if groups[g].selected = 0 then .conforming else .settling, tally := 0 }) }

/-- The REL level of a sample: the pin is active low (11_formats.md, Pins). -/
def relActive (sample : SenseSample) : Bool := !sample.rel

/-- The table at the end of a valid load, before the self entry: the roster flags set (R2). -/
def rosterTable (roster : StationMap) (t : PeerTable) : PeerTable :=
  stations.foldl (fun t n => PeerTable.setEntry t n { PeerTable.entry t n with roster := inMap roster n }) t

/-- The self entry as the load makes it, from the entry with its roster flag (R25). -/
def Entry.asSelf (c : StationConfig) (records : Vector GroupRecord 4) (e : Entry) : Entry :=
  { e with
    presence := .self
    age := 0
    zoneMap := some (Vector.ofFn (fun g : Fin 4 => c.groups[g].zone))
    plan := some { fingerprint := planFingerprint c, agrees := true }
    report := some
      { sequence := 0, content := { phase := .joining, health := .normal, groups := records }, stale := false }
    lastRelease := some 0 }

/-- The end of a valid load, step by step as R172 numbers them. DESIGN CHOICE: the image buffer keeps its bytes (log 34). -/
def State.validLoad (c : StationConfig) (port : List BusOp) (sample : SenseSample) (s : State) : State :=
  let watch := WatchUnit.started c.groups sample
  let table := rosterTable c.roster s.table
  let loaded := s.setLoader { s.loader with progress := .done, config := some c, port := port }
  let controlled := loaded.setCtrl { s.ctrl with
    ownNumber := c.number, fingerprint := some (planFingerprint c), phase := .listening, listenCount := 0,
    ticking := true, tick := 0 }
  let watching := (controlled.setWatch watch).setTerms
    { s.terms with rel := s.terms.rel.sample relDepth (relActive sample) }
  let known := watching.setTable
    (PeerTable.setEntry table c.number (Entry.asSelf c watch.records (PeerTable.entry table c.number)))
  let rested := known.moveOutputs (restDrives c)
  let lined := (rested.setLine { s.line with running := true, grid := some { period := 0, quarter := .q1, start := 0 } }).setEngine
    { s.engine with state := .discarding, gapCount := 0 }
  lined.raiseValue .phaseChanged (.phase .listening)

/-! ### The commands -/

/-- An attempt is being read: LOADING, no reset held, READING (R164). -/
def State.reading (s : State) : Bool :=
  decide (s.ctrl.phase = .loading) && !s.inReset && decide (s.loader.progress = .reading)

/-- HEADER_READ: bytes 0 to 3 have been read; the signature and the length are checked. A fault ends the load at once,
with byte 3 not acknowledged and a stop; else byte 3 is acknowledged and the attempt reads on (R164, R166, R202).
DESIGN CHOICE: the stop condition after a failed check brings no transport failure, though R165 gives one for a line found
low there: the load has ended with the fault of the check (log 40). -/
def execHeaderRead (freeing : Nat) (signatureHigh signatureLow length revision : Byte) (s : State) : Result :=
  if s.reading && s.loader.image.isEmpty && freeingOk freeing then
    let header := [signatureHigh, signatureLow, length, revision]
    let opening := portOpening freeing
    match headerFault header with
    | some f => .next (s.halt f (opening ++ takenToEnd header ++ [.stop]))
    | none =>
      .next (s.setLoader { s.loader with
        image := header, port := opening ++ header.map (fun b => BusOp.take b true) })
  else .next s

/-- Bytes taken before a fault: each acknowledged, as one the loader reads on after, but for the image's last, byte 129
(R202). -/
def takenBefore (read : List Byte) : List BusOp :=
  if read.length = imageLength - 4 then takenToEnd read else read.map (fun b => .take b true)

/-- What the loader has driven and taken in the attempt when a fault falls (R165, R202). -/
def State.portAtFault (freeing : Nat) (read : List Byte) (cause : BusFault) (s : State) : List BusOp :=
  let begun :=
    if s.loader.image.isEmpty then freeingClocks freeing ++ portAddressing.take (addressingDriven cause)
    else s.loader.port
  begun ++ takenBefore read

/-- TRANSPORT_FAILURE: the image buffer is discarded; on attempt 1 or 2 the loader pauses, on attempt 3 the load ends
with NO_MEMORY (R164, R165, R169). -/
def execTransportFailure (freeing : Nat) (cause : BusFault) (s : State) (read : List Byte := []) : Result :=
  if s.reading && failureOk freeing cause && faultPlaceOk (!s.loader.image.isEmpty) read cause then
    let port := s.portAtFault freeing read cause ++ portAfterFault cause
    if s.loader.attempt < loadAttempts then
      .next (s.setLoader { s.loader with progress := .paused, image := [], port := port })
    else .next (s.halt .noMemory port)
  else .next s

/-- PAUSE_END: 1 is added to the attempt count and the next attempt starts from the first byte (R164). -/
def execPauseEnd (s : State) : Result :=
  if decide (s.ctrl.phase = .loading) && !s.inReset && decide (s.loader.progress = .paused) then
    .next (s.setLoader { s.loader with
      progress := .reading, attempt := s.loader.attempt + 1, image := [], port := [] })
  else .next s

/-- IMAGE_COMPLETE: every byte to the check word has been read, and the loader is CHECKING: check word, ranges and roster
in order. The first fault ends the load; with none it ends valid (R164, R166, R172). -/
def execImageComplete (rest : List Byte) (sample : SenseSample) (s : State) : Result :=
  if s.reading && decide (s.loader.image.length = 4) && decide (rest.length = imageLength - 4) then
    let image := s.loader.image ++ rest
    let port := s.loader.port ++ takenToEnd rest ++ [.stop]
    let checking := s.setLoader { s.loader with progress := .checking, image := image, port := port }
    match imageFault image with
    | some f => .next (checking.halt f port)
    | none => .next (checking.validLoad (parseImage image) port sample)
  else .next s

end Sys2Proof.Machine
end

