-- ==== Sys2Proof/Machine/Reset.lean ====
section
/-! DEFINITION. POWER_ON_RESET, RESET_PIN and RESET_END (R162, R163, R199). -/

namespace Sys2Proof.Machine

/-- POWER_ON_RESET: every block at its after-reset state, cause POWER, and the reset held until it ends (R162). A second
reset sets the cause again to its own source (R163). -/
def execPowerOnReset (s : State) : Result :=
  .next (s.resetBy .power { s.pins with powerHeld := true })

/-- RESET_PIN: the same, cause PIN, held while the pin stays asserted (R162). -/
def execResetPin (s : State) : Result :=
  .next (s.resetBy .pin { s.pins with pinHeld := true })

/-- A source's hold is in force. -/
def Pins.holds (p : Pins) : HeldSource → Bool
  | .power => p.powerHeld
  | .pin => p.pinHeld

/-- The pins once a source's hold has ended. -/
def Pins.unhold (p : Pins) : HeldSource → Pins
  | .power => { p with powerHeld := false }
  | .pin => { p with pinHeld := false }

/-- The reset cause of a held source. -/
def causeOf : HeldSource → ResetCause
  | .power => .power
  | .pin => .pin

/-- The tap port as a reset leaves it when it ends: IDLE, or WAIT_RELEASE while TSEL is asserted (R199). -/
def Tap.atResetEnd (tsel : Bool) : Tap :=
  { Tap.noTransaction with state := if tsel then .waitRelease else .idle }

/-- RESET_END: the hold of one source ends. While the other source still holds, the reset goes on. When it was the last,
the cause is the source whose hold ended last, the tap port goes to IDLE or WAIT_RELEASE, and the station is in LOADING
with the loader in its first attempt (R163, R164, R199). -/
def execResetEnd (source : HeldSource) (s : State) : Result :=
  if s.pins.holds source then
    let freed := s.setPins (s.pins.unhold source)
    if freed.inReset then .next freed
    else .next ((freed.setCtrl { s.ctrl with cause := causeOf source }).setTap (Tap.atResetEnd s.pins.tsel))
  else .next s

end Sys2Proof.Machine
end

