-- ==== Sys2Proof/Machine/Tap.lean ====
section
/-! DEFINITION. The tap port: the bits of a transaction, the judgement of a request, the response layouts, and the commands
TSEL_ASSERT, TSEL_RELEASE and the ten request commands (R187 to R199, R203, R204). -/

namespace Sys2Proof.Machine

/-! ### The judgement (R190) -/

/-- The status a request is answered with (R190). -/
def State.judgeRequest (r : Request) (arg : Byte) (s : State) : TapStatus :=
  if r = .status then .ok
  else if s.ctrl.phase.serves = false then .notReady
  else
    match r with
    | .status => .ok
    | .entry => if 1 ≤ arg.toNat ∧ arg.toNat ≤ 31 then .ok else .badArgument
    | .terms => .ok
    | .counters => .ok
    | .peek => if s.notices.isEmpty then .empty else .ok
    | .take => if s.notices.isEmpty then .empty else .ok
    | .release => if arg = 0 then .badArgument else if s.ctrl.phase = .running then .ok else .notRunning
    | .resync => if s.ctrl.phase = .running then .ok else .notRunning
    | .restart => .ok
    | .unknown => .unknown

/-! ### The response layouts (11_formats.md, Response layouts; R204) -/

/-- STATUS, offsets 1 to 13 (R191). -/
def State.statusContent (s : State) : List Byte :=
  [s.ctrl.ownNumber.setWidth 8, s.ctrl.phase.code, s.ctrl.fault.code, s.ctrl.fault.index, s.health.state.code,
    BitVec.ofNat 8 s.health.garble, s.ctrl.cause.code, BitVec.ofNat 8 s.notices.length]
    ++ word16Bytes s.ctrl.tick ++ [boolByte s.ctrl.fingerprint.isSome] ++ word16Bytes (s.ctrl.fingerprint.getD 0)

/-- The flags byte of an ENTRY record. -/
def Entry.flags (e : Entry) : Byte :=
  byteOfBits [false, e.lastRelease.isSome, e.report.any (fun r => r.stale), e.report.isSome,
    e.plan.any (fun p => p.agrees), e.plan.isSome, e.zoneMap.isSome, e.roster]

/-- Two zones in the halves of a byte. -/
def zonePair (a b : Zone) : Byte := byteOfBits (natBits 4 a.toNat ++ natBits 4 b.toNat)

/-- The zone map bytes, 0 where absent (R204). -/
def zoneMapBytes (z : Option (Vector Zone 4)) : List Byte :=
  match z with
  | some z => [zonePair z[0] z[1], zonePair z[2] z[3]]
  | none => [0, 0]

/-- A group record's two bytes: lines with conforming, and the tally. -/
def GroupRecord.bytes (g : GroupRecord) : List Byte :=
  [byteOfBits ([false, false, false, g.conforming] ++ natBits 4 g.lines.toNat), g.tally.setWidth 8]

/-- The report bytes of an ENTRY record, offsets 9 to 19, 0 where absent (R204). -/
def reportBytes (r : Option StoredReport) : List Byte :=
  match r with
  | some r =>
    [r.sequence.setWidth 8, boolByte r.content.phase.bit, boolByte r.content.health.bit]
      ++ r.content.groups.toList.flatMap GroupRecord.bytes
  | none => List.replicate 11 0

/-- ENTRY, offsets 1 to 24 (R192). -/
def Entry.content (n : Station) (e : Entry) : List Byte :=
  [n.setWidth 8, e.flags, e.presence.code, BitVec.ofNat 8 e.age] ++ zoneMapBytes e.zoneMap
    ++ word16Bytes ((e.plan.map (fun p => p.fingerprint)).getD 0) ++ reportBytes e.report
    ++ [(e.lastRelease.getD 0).setWidth 8] ++ word16Bytes e.framesAccepted ++ [e.sequenceGaps, e.deliveriesMissed]

/-- Sixteen flags as two bytes, T15 most significant. -/
def termBytes (flags : Vector TermFlags 16) (f : TermFlags → Bool) : List Byte :=
  let bits := (flags.toList.map f).reverse
  [byteOfBits (bits.take 8), byteOfBits (bits.drop 8)]

/-- The drives, two bits each, D7 most significant. -/
def driveBytes (outputs : Vector Drive 8) : List Byte :=
  let bits := outputs.toList.reverse.flatMap (fun d => natBits 2 d.code.toNat)
  [byteOfBits (bits.take 8), byteOfBits (bits.drop 8)]

/-- TERMS, offsets 1 to 8 (R193). -/
def State.termsContent (s : State) : List Byte :=
  termBytes s.terms.flags TermFlags.live ++ termBytes s.terms.flags TermFlags.latched
    ++ termBytes s.terms.flags TermFlags.value ++ driveBytes s.outputs

/-- COUNTERS, offsets 1 to 12 (R194). -/
def StationCounters.content (c : StationCounters) : List Byte :=
  word16Bytes c.completed ++ word16Bytes c.aborted ++ word16Bytes c.lost ++ word16Bytes c.accepted
    ++ word16Bytes c.rejected ++ word16Bytes c.abandoned

/-- A notice's value type and value bytes (R204). -/
def noticeValueBytes (v : Option NoticeValue) : List Byte :=
  match v with
  | none => [0, 0, 0, 0, 0]
  | some (.health h) => [1, h.code, 0, 0, 0]
  | some (.phase p) => [2, p.code, 0, 0, 0]
  | some (.fault f) => [3, f.code, f.index, 0, 0]
  | some (.map m) => 4 :: mapBytes m

/-- PEEK and TAKE, offsets 1 to 11 (R195, R204). -/
def Notice.content (n : Notice) : List Byte :=
  [n.kind.code, byteOfBits [false, false, false, false, false, false, n.term.isSome, n.station.isSome]]
    ++ word16Bytes n.stamp
    ++ [(n.station.getD 0).setWidth 8, BitVec.ofNat 8 ((n.term.map (fun t => t.val)).getD 0)]
    ++ noticeValueBytes n.value

/-- What a request answered OK returns after the status byte (R191 to R198). -/
def State.okContent (r : Request) (arg : Byte) (s : State) : List Byte :=
  match r with
  | .status => s.statusContent
  | .entry =>
    let n : Station := arg.setWidth 5
    (s.entry n).content n
  | .terms => s.termsContent
  | .counters => s.engine.counters.content
  | .peek => (s.notices.head?.map Notice.content).getD []
  | .take => (s.notices.head?.map Notice.content).getD []
  | .release => []
  | .resync => [boolByte (s.takes .resync)]
  | .restart => []
  | .unknown => []

/-- The response snapshot: the status byte, and the content when it is OK (R188). -/
def State.response (r : Request) (arg : Byte) (s : State) : List Byte :=
  let status := s.judgeRequest r arg
  status.code :: (if status = .ok then s.okContent r arg else [])

/-- The effect of a request answered OK on the rest of the station, at the judgement point (R196, R197). -/
def State.requestEffect (r : Request) (arg : Byte) (s : State) : State :=
  match r with
  | .release => s.localRelease arg
  | .resync => s.requestResync
  | .status => s
  | .entry => s
  | .terms => s
  | .counters => s
  | .peek => s
  | .take => s
  | .restart => s
  | .unknown => s

/-- The judgement point: the snapshot taken, the request's effect, and what it arms (R188, R190, R195, R198). -/
def State.judgementPoint (code : Byte) (args : List Byte) (s : State) : State :=
  let r := requestOfByte code
  let arg := args.getLastD 0
  let ok := decide (s.judgeRequest r arg = .ok)
  let effected := if ok then s.requestEffect r arg else s
  effected.setTap
    { state := .response, request := some code, args := args, bitsIn := [], response := some (s.response r arg),
      clocked := 0, takeArmed := ok && decide (r = .take), restartArmed := ok && decide (r = .restart) }

/-! ### The bits of a transaction (R187, R188, R203) -/

/-- A byte of the request or of its arguments is complete (R187). -/
def State.tapByte (b : Byte) (s : State) : State :=
  match s.tap.state with
  | .request =>
    if (requestOfByte b).takesArgument then
      s.setTap { s.tap with state := .arguments, request := some b, args := [], bitsIn := [] }
    else s.judgementPoint b []
  | .arguments => s.judgementPoint (s.tap.request.getD 0) (s.tap.args ++ [b])
  | .idle => s
  | .response => s
  | .waitRelease => s

/-- A bit taken into the byte being clocked in. -/
def State.tapCollect (b : Bool) (s : State) : State :=
  let bits := s.tap.bitsIn ++ [b]
  if bits.length = 8 then s.tapByte (byteOfBits bits) else s.setTap { s.tap with bitsIn := bits }

/-- The bits of a response. -/
def Tap.responseBits (t : Tap) : List Bool := bytesBits (t.response.getD [])

/-- One rising edge of TSCK with a bit on TSDI: taken before the judgement point, counted after it up to the response's
length, ignored in WAIT_RELEASE and with no transaction open (R187, R188, R199). -/
def State.tapBit (s : State) (b : Bool) : State :=
  match s.tap.state with
  | .request => s.tapCollect b
  | .arguments => s.tapCollect b
  | .response => s.setTap { s.tap with clocked := min (s.tap.clocked + 1) s.tap.responseBits.length }
  | .idle => s
  | .waitRelease => s

/-- A row of bits on TSDI. -/
def State.tapBits (bits : List Bool) (s : State) : State := bits.foldl State.tapBit s

/-- Bytes on TSDI, each bit by bit. -/
def State.tapBytes (bytes : List Byte) (s : State) : State := s.tapBits (bytesBits bytes)

/-- Response bytes shifted out (R188, R203). -/
def Tap.bytesShifted (t : Tap) : Nat := t.clocked / 8

/-- Every byte of the response has been shifted out (R195, R203). -/
def Tap.shiftedOut (t : Tap) : Bool := t.response.any (fun r => decide (t.bytesShifted = r.length))

/-- TSDO as the next rising edge of TSCK finds it, none for high impedance (R188, R199, R203). -/
def State.tsdo (s : State) : Option Bool :=
  if s.pins.tsel = false ∨ s.inReset = true then none
  else
    match s.tap.state with
    | .response => some (s.tap.responseBits.getD s.tap.clocked true)
    | .idle => some true
    | .request => some true
    | .arguments => some true
    | .waitRelease => some true

/-! ### TSEL -/

/-- TSEL_ASSERT: a transaction begins when the port is IDLE (R187). While a reset is held the level is taken alone
(R199, log 25). -/
def execTselAssert (s : State) : Result :=
  if s.pins.tsel then .next s
  else
    let selected := s.setPins { s.pins with tsel := true }
    if s.inReset ∨ s.tap.state ≠ .idle then .next selected
    else .next (selected.setTap { Tap.noTransaction with state := .request })

/-- The removal a completed TAKE makes: the oldest notice (R184, R195). -/
def State.takeRemoval (s : State) : State :=
  if s.tap.takeArmed && s.tap.shiftedOut then s.setNotices (s.notices.drop 1) else s

/-- The end of a transaction at the release of TSEL: an armed restart resets the station with cause TAP, else the removal
is made and the port is IDLE (R189, R195, R198). -/
def State.endTransaction (s : State) : State :=
  let pins := { s.pins with tsel := false }
  if s.tap.restartArmed then s.resetBy .tap pins
  else ((s.takeRemoval).setTap Tap.noTransaction).setPins pins

/-- TSEL_RELEASE: the bits clocked since the last command, then the release (R187, R189, R199). -/
def execTselRelease (tsdi : List Bool) (s : State) : Result :=
  if s.pins.tsel then .next (s.tapBits tsdi).endTransaction else .next s

/-! ### The requests: their bytes on TSDI -/

/-- STATUS (R191). -/
def execStatus (s : State) : Result := .next (s.tapBytes [0x01])

/-- ENTRY with its station number, or its request byte alone (R192). -/
def execEntry (n : Option Byte) (s : State) : Result := .next (s.tapBytes (0x02 :: n.toList))

/-- TERMS (R193). -/
def execTerms (s : State) : Result := .next (s.tapBytes [0x03])

/-- COUNTERS (R194). -/
def execCounters (s : State) : Result := .next (s.tapBytes [0x04])

/-- PEEK (R195). -/
def execPeek (s : State) : Result := .next (s.tapBytes [0x05])

/-- TAKE (R195). -/
def execTake (s : State) : Result := .next (s.tapBytes [0x06])

/-- RELEASE with its zone mask, or its request byte alone (R196). -/
def execRelease (mask : Option Byte) (s : State) : Result := .next (s.tapBytes (0x07 :: mask.toList))

/-- RESYNC (R197). -/
def execResync (s : State) : Result := .next (s.tapBytes [0x08])

/-- RESTART (R198). -/
def execRestart (s : State) : Result := .next (s.tapBytes [0x09])

/-- UNKNOWN_REQUEST: a byte that names no request (R190). -/
def execUnknownRequest (code : Byte) (s : State) : Result :=
  if requestOfByte code = .unknown then .next (s.tapBytes [code]) else .next s

end Sys2Proof.Machine
end

