-- ==== Sys2Proof/Machine/Ticks.lean ====
section
/-! DEFINITION. REFRESH_TICK, PEER_SILENT and LISTEN_EXPIRY: the tick counter, aging, the refresh judgement and the listen
interval (R10, R86, R173 to R175). -/

namespace Sys2Proof.Machine

/-! ### Aging (R10) -/

/-- The silence threshold of the loaded configuration (R10). -/
def State.silenceThreshold (s : State) : Nat := (s.loader.config.map (fun c => c.silence.toNat)).getD 0

/-- An entry ages: HEARD or PRESENT (R10). -/
def Entry.ages (e : Entry) : Bool := decide (e.presence = .heard) || decide (e.presence = .present)

/-- The next tick brings an aging entry to the silence threshold (R10). -/
def Entry.fallsSilent (threshold : Nat) (e : Entry) : Bool := e.ages && decide (e.age + 1 = threshold)

/-- An entry one tick older, SILENT with its report stale where its new age equals the threshold (R10). -/
def Entry.aged (threshold : Nat) (e : Entry) : Entry :=
  if e.fallsSilent threshold then
    { e with
      age := e.age + 1, presence := .silent
      report := e.report.map (fun r => { r with stale := true }) }
  else if e.ages then { e with age := e.age + 1 }
  else e

/-- Entry n takes its tick, with its notice (R10). -/
def State.ageEntry (threshold : Nat) (s : State) (n : Station) : State :=
  let aged := s.updateEntry n (Entry.aged threshold)
  if (s.entry n).fallsSilent threshold then aged.raiseStation .peerSilent n else aged

/-- All entries age in ascending station number, as one event, in the phases in which the table ages (R3, R10). -/
def State.ageTable (s : State) : State :=
  if s.engineRuns then (stations.foldl (State.ageEntry s.silenceThreshold) s).tableChanged else s

/-! ### The slate's judgement (R86) -/

/-- The slate judges its refresh, then sets the state-sent mark to no (R86). -/
def State.judgeRefresh (s : State) : State :=
  let asked := if s.slate.stateSent = false ∧ s.slate.change = none then s.requestRefresh else s
  asked.setSlate { asked.slate with stateSent := false }

/-! ### The listen interval (R174, R175) -/

/-- The listen interval expires: JOINING, its notice, and the JOIN request (R175). DESIGN CHOICE: the listen count, kept
while LISTENING (R174), shows its last value after it (log 20). -/
def State.listenExpired (s : State) : State :=
  ((s.setCtrl { s.ctrl with phase := .joining, listenCount := listenTicks }).raiseValue .phaseChanged
    (.phase .joining)).requestJoin

/-- The station controller counts a tick of the listen interval (R174). -/
def State.listenTick (s : State) : State :=
  if s.ctrl.phase = .listening then
    if s.ctrl.listenCount + 1 < listenTicks then s.setCtrl { s.ctrl with listenCount := s.ctrl.listenCount + 1 }
    else s.listenExpired
  else s

/-! ### The commands -/

/-- The tick counter goes up by 1, wrapping (R173). -/
def State.countTick (s : State) : State := s.setCtrl { s.ctrl with tick := s.ctrl.tick + 1 }

/-- A refresh tick: the counter, then aging, the slate's judgement and the listen count in the order given (R173, R175;
log 7). Aging and the slate's judgement share no state, so their order is immaterial. -/
def State.refreshTicked (order : TickOrder) (s : State) : State :=
  let ticked := s.countTick
  match order.expiryBeforeAging, order.expiryBeforeJudgement with
  | true, true => ticked.listenTick.ageTable.judgeRefresh
  | false, true => ticked.ageTable.listenTick.judgeRefresh
  | false, false => ticked.ageTable.judgeRefresh.listenTick
  | true, false => ticked.judgeRefresh.listenTick.ageTable

/-- The next refresh tick brings entry n to the silence threshold (R10). -/
def State.silentAtNextTick (n : Station) (s : State) : Bool :=
  s.engineRuns && decide (n ≠ 0) && (s.entry n).fallsSilent s.silenceThreshold

/-- The next refresh tick is the one at which the listen interval expires (R174). -/
def State.expiresAtNextTick (s : State) : Bool :=
  decide (s.ctrl.phase = .listening) && decide (listenTicks ≤ s.ctrl.listenCount + 1)

/-- REFRESH_TICK: the tick timer expires; while it is stopped there is no tick (R173). -/
def execRefreshTick (order : TickOrder) (s : State) : Result :=
  if s.ctrl.ticking then .next (s.refreshTicked order) else .next s

/-- PEER_SILENT: the refresh tick at which entry n reaches the silence threshold. All entries age in that one event, and its
notices bear the advanced counter (R10, R173; log 6). -/
def execPeerSilent (n : Station) (s : State) (order : TickOrder := {}) : Result :=
  if s.ctrl.ticking && s.silentAtNextTick n then .next (s.refreshTicked order) else .next s

/-- LISTEN_EXPIRY: the refresh tick that brings the listen count to 3 (R174, R175; log 5). -/
def execListenExpiry (s : State) (order : TickOrder := {}) : Result :=
  if s.ctrl.ticking && s.expiresAtNextTick then .next (s.refreshTicked order) else .next s

end Sys2Proof.Machine
end

