-- ==== Sys2Proof/Machine/Watch.lean ====
section
/-! DEFINITION. SAMPLE_EVENT: the filters, the groups, and what the watch unit hands on (R30 to R46), with the REL sample
(R141, R142). -/

namespace Sys2Proof.Machine

/-- A group departed at the sample event (R37). -/
def departedAt (old new : WatchUnit) (g : Fin 4) : Bool := isDeparture old.groups[g].state new.groups[g].state

/-- A group was restored at the sample event (R38). -/
def restoredAt (old new : WatchUnit) (g : Fin 4) : Bool := isRestore old.groups[g].state new.groups[g].state

/-- The departure-seen signals of a sample event, in group order (R42). -/
def ownSignals (groups : Vector GroupConfig 4) (old new : WatchUnit) : List DepartureSignal :=
  (groupIndices.filter (departedAt old new)).map (fun g => { own := true, zones := zoneBit groups[g].zone })

/-- The self entry takes all four group records at once, and the evaluator the updated entry (R41). -/
def State.publish (records : Vector GroupRecord 4) (s : State) : State :=
  (s.updateSelfReport (fun r => { r with content := { r.content with groups := records } })).tableChanged

/-- The CHANGE request of a sample event with a departure or a restore (R43). -/
def State.announce (old new : WatchUnit) (s : State) : State :=
  let departed := groupIndices.any (departedAt old new)
  let restored := groupIndices.any (restoredAt old new)
  if departed || restored then s.requestChange departed else s

/-- A REL press: a change of the filtered level from inactive to active (R142). -/
def isPress (old new : Filter) : Bool := old.filtered = some false ∧ new.filtered = some true

/-- The REL sample at the evaluator: its filter, and the local release a press makes in RUNNING (R141, R142). -/
def State.relSampled (releaseZones : ZoneMask) (active : Bool) (s : State) : State :=
  let rel := s.terms.rel.sample relDepth active
  let filtered := s.setTerms { s.terms with rel := rel }
  if isPress s.terms.rel rel ∧ s.ctrl.phase = .running ∧ releaseZones ≠ 0 then filtered.localRelease releaseZones
  else filtered

/-- A sample event under a configuration, step by step as R32 numbers them. -/
def State.sampleTaken (c : StationConfig) (sample : SenseSample) (s : State) : State :=
  let watch := s.watch.sampled c.groups sample
  let classified := s.setWatch watch
  let published := if watch.records = s.watch.records then classified else classified.publish watch.records
  let signalled := published.departuresSeen (ownSignals c.groups s.watch watch)
  let announced := signalled.announce s.watch watch
  announced.relSampled c.releaseZones (relActive sample)

/-- SAMPLE_EVENT: taken while the watch unit samples, in every phase (R31, R32); while its timer is stopped there is no
sample event (R46). -/
def execSampleEvent (sample : SenseSample) (s : State) : Result :=
  match s.watch.sampling, s.loader.config with
  | true, some c => .next (s.sampleTaken c sample)
  | _, _ => .next s

end Sys2Proof.Machine
end

