-- ==== Sys2Proof/Machine/Sending.lean ====
section
/-! DEFINITION. CONTENTION_START, KEY_LOST, KEY_WON, LAST_CHECK_BIT_SENT and SEND_ABORTED: the station's own frames
(R53 to R57, R61, R62, R76 to R79, R102, R104, R105). -/

namespace Sys2Proof.Machine

/-! ### Contention start (R53 to R55, R76, R77) -/

/-- The first boundary of a gap at which the station was able to send: the one at which the engine entered IDLE if it was
able then, else the one given (R53, log 31). -/
def State.ableFrom (able : Nat) (s : State) : Nat := if s.engine.ableAtIdle then 0 else able

/-- Every condition of R53 held at a boundary before the end of the gap: the station started there. -/
def State.startedBefore (gap : List BitPeriod) (able : Nat) (s : State) : Bool :=
  s.mayContend && reachedBefore s.engine.gapRequirement (s.ableFrom able) s.engine.gapCount gap

/-- The end of the gap is the first bit period boundary at which every condition of R53 holds, with no lead in the gap;
an edge on the line is one that R102 takes as the start. DESIGN CHOICE: an edge half a quarter before the boundary, whose
lead sample falls on the boundary itself, counts as seen before it (log 32). -/
def State.startsAt (gap : List BitPeriod) (able : Nat) (edge : Option Int) (s : State) : Bool :=
  decide (s.engine.state = .idle) && s.mayContend && !gap.any isLead && !s.startedBefore gap able &&
    decide (s.ableFrom able ≤ gap.length) &&
    decide (s.engine.gapRequirement ≤ releasedAfter s.engine.gapCount gap) &&
    edge.all (fun d => decide (-halfQuarter < d ∧ d ≤ 0))

/-- The station itself starts no later than an edge at this distance from the end of the gap: earlier in the gap, at its
end before a later edge, or with the edge as R102 gives. -/
def State.startsNoLater (gap : List BitPeriod) (able : Nat) (edge : Int) (s : State) : Bool :=
  s.startedBefore gap able || s.startsAt gap able (if 0 < edge then none else some edge)

/-- The content captured at the start bit (R77). -/
def State.capture (k : Kind) (s : State) : List Bool :=
  match k with
  | .change => stateBits
  | .refresh => stateBits
  | .join => (s.loader.config.map (fun c =>
      joinPayload (s.ctrl.fingerprint.getD 0) (Vector.ofFn (fun g : Fin 4 => c.groups[g].zone)))).getD []
  | .resync => []
  | .release => (s.slate.release.map (fun r => releasePayload r.zones)).getD []
where
  /-- The report content of the self entry. -/
  stateBits : List Bool := ((s.entry s.ctrl.ownNumber).report.map (fun r => r.content.bits)).getD []

/-- The slot served with its captured content (R55, R76). -/
def State.serve (k : Kind) (s : State) : Served :=
  { slot := k, urgency := k.urgency s.slate.departureOwed, payload := s.capture k, sequence := none }

/-- The record of a frame at its start bit (R48). -/
def Frame.begun (role : Role) (served : Option Served) : Frame :=
  { role := role, position := 0, bits := [], served := served, verdict := none, confirms := false,
    confirmMap := none }

/-- The grid through the bit periods of a gap, into the bit period that begins next, at an edge if one is given
(R100 to R102). -/
def State.beginPeriod (gap : List BitPeriod) (edge : Option Int) (s : State) : State :=
  s.setLine { s.line with grid := s.line.grid.map (fun g => (Grid.after true gap .q4 g).next true edge) }

/-- CONTENTION_START: the start bit is driven and the message chosen (R53, R55, R76, R77). DESIGN CHOICE: from here until
the next IDLE or DISCARDING the gap count shows its value at the end of the gap, and until the next IDLE the gap
requirement its last value (R50, R51, log 39). -/
def execContentionStart (gap : List BitPeriod) (edge : Option Int) (s : State) (able : Nat := 0) : Result :=
  match s.startsAt gap able edge, s.slate.mostUrgent with
  | true, some k =>
    let driven := ((s.beginPeriod gap edge).setTrails 0).drive ((quartersOf true).take Quarter.q1.begun)
    .next (driven.setEngine { s.engine with
      state := .contending
      gapCount := releasedAfter s.engine.gapCount gap
      frame := some (Frame.begun .sender (some (s.serve k))) })
  | _, _ => .next s

/-! ### The key (R56, R57) -/

/-- The values of the bit periods after the start bit. -/
def readValues (ps : List BitPeriod) : List Bool := (ps.drop 1).map (fun p => p.value)

/-- What a contender drives: the start bit and the key of its own number (R55). -/
def State.contenderBits (v : Served) (s : State) : List Bool := true :: keyBits v.urgency s.ctrl.ownNumber

/-- The record with a new state of the engine. -/
def State.setFrame (state : EngineState) (f : Frame) (s : State) : State :=
  s.setEngine { s.engine with state := state, frame := some f }

/-- Counters, then slate: the order in which a sender's outcome is taken (R69). -/
def State.lostTaken (k : Kind) (s : State) : State := (s.countOutcome .lost).slateLost k

/-- The frame in progress while the engine runs in a state; a stopped engine takes no bit (R47). -/
def State.frameIn (state : EngineState) (s : State) : Option Frame :=
  if s.engineRuns ∧ s.engine.state = state then s.engine.frame else none

/-- The own frame in progress in a state, with the slot it serves. -/
def State.ownFrameIn (state : EngineState) (s : State) : Option (Frame × Served) :=
  (s.frameIn state).bind (fun f => f.served.map (fun v => (f, v)))

/-- What the driver did through a key lost at its last bit: from q3 of that bit on nothing (R105). -/
def lostQuarters (bits : List Bool) : List QuarterDrive :=
  quartersUntil .q2 bits ++ List.replicate 2 QuarterDrive.off

/-- KEY_LOST: a key bit sent 0 read 1. The station stops driving, reports LOST, and follows the frame as a receiver with
the key bits read so far (R56, R80, R105). The event falls at the value sample; DESIGN CHOICE: the grid then shows q3, the
first quarter of the receiver (log 35). -/
def execKeyLost (bits : List BitPeriod) (s : State) : Result :=
  match s.ownFrameIn .contending with
  | some (f, v) =>
    if contend (s.contenderBits v) bits = .lost then
      let driven := s.drive (lostQuarters ((s.contenderBits v).take bits.length))
      let passed := ((driven.passBits false (laterPeriods f bits) .q3).setTrails (countTrails 0 bits)).stopDriving
      .next ((passed.lostTaken v.slot).setFrame .receiving
        { f with role := .receiver, position := bits.length, bits := readValues bits, served := none })
    else .next s
  | none => .next s

/-- A series with its sequence and its targets (R78). -/
def Series.opened (q : Nibble) (targets : StationMap) (x : Series) : Series :=
  { x with sequence := some q, targets := some targets }

/-- The self entry's report sequence follows the own report sequence (R25, R78). -/
def State.setSelfSequence (q : Nibble) (s : State) : State := s.updateSelfReport (fun r => { r with sequence := q })

/-- The self entry's last release sequence follows the own release sequence (R25, R78). -/
def State.setSelfRelease (q : Nibble) (s : State) : State :=
  s.updateEntry s.ctrl.ownNumber (fun e => { e with lastRelease := some q })

/-- Open the CHANGE series if it is not open (R78). -/
def State.openChange (s : State) : State :=
  match s.slate.change with
  | some x =>
    match x.sequence with
    | some _ => s
    | none =>
      let q := s.slate.reportSequence + 1
      (s.setSlate { s.slate with reportSequence := q, change := some (x.opened q (currentTargets s.table)) }).setSelfSequence q
  | none => s

/-- Open the RELEASE series if it is not open (R78). -/
def State.openRelease (s : State) : State :=
  match s.slate.release with
  | some r =>
    match r.series.sequence with
    | some _ => s
    | none =>
      let q := s.slate.releaseSequence + 1
      (s.setSlate { s.slate with
        releaseSequence := q
        release := some { r with series := r.series.opened q (currentTargets s.table) } }).setSelfRelease q
  | none => s

/-- The slate gives a frame that has won the key its sequence, opening its series where that is due (R78, R79). -/
def State.openSeries (k : Kind) (s : State) : State :=
  match k with
  | .change => s.openChange
  | .release => s.openRelease
  | .refresh => s
  | .join => s
  | .resync => s

/-- The sequence of a frame of a kind, its series open (R59, R78, R79). -/
def Slate.sequenceFor (k : Kind) (x : Slate) : Nibble :=
  match k with
  | .change => (x.change.bind (fun y => y.sequence)).getD x.reportSequence
  | .release => (x.release.bind (fun r => r.series.sequence)).getD x.releaseSequence
  | .refresh => x.reportSequence
  | .join => 0
  | .resync => 0

/-- KEY_WON: the last key bit reads back as sent. The engine enters SENDING and takes the sequence (R57, R78, R79). DESIGN
CHOICE: R104 ends the read-back at the value sample, and the command takes the whole of that bit period, the grid left in
q4 with LTX released (log 38). Its trail is counted as log 23 says. -/
def execKeyWon (bits : List BitPeriod) (s : State) : Result :=
  match s.ownFrameIn .contending with
  | some (f, v) =>
    if contend (s.contenderBits v) bits = .sent then
      let driven := s.drive (drivenQuarters (s.contenderBits v))
      let passed := (driven.passBits false (laterPeriods f bits) .q4).setTrails (countTrails 0 bits)
      let opened := passed.openSeries v.slot
      .next (opened.setFrame .sending
        { f with
          position := bits.length
          bits := keyBits v.urgency s.ctrl.ownNumber
          served := some { v with sequence := some (opened.slate.sequenceFor v.slot) } })
    else .next s
  | none => .next s

/-! ### The body (R61, R62) -/

/-- What a sender drives after its key (R61, R62). -/
def State.senderBits (v : Served) (s : State) : List Bool :=
  drivenBody (keyBits v.urgency s.ctrl.ownNumber) v.slot (v.sequence.getD 0) v.payload

/-- LAST_CHECK_BIT_SENT: the last check bit read back as sent; the engine enters CONFIRMING (R62, R49, log 10).
DESIGN CHOICE: there and after it the trail-dominant count, which R107 does not keep, shows its last value (log 23). -/
def execLastCheckBitSent (bits : List BitPeriod) (s : State) : Result :=
  match s.ownFrameIn .sending with
  | some (f, v) =>
    if sendBody (s.senderBits v) bits = .sent then
      let driven := s.drive (drivenQuarters (s.senderBits v))
      let passed := ((driven.passBits false bits .q4).setTrails (countTrails s.line.trailCount bits)).stopDriving
      .next (passed.setFrame .confirming
        { f with
          position := f.position + bits.length
          bits := f.bits ++ s.senderBits v
          confirmMap := some 0 })
    else .next s
  | none => .next s

/-- The trail samples taken while the frame was driven: that of the bit found wrong at its lead or value sample comes
after the abort. -/
def trailsBefore (q : Quarter) (ps : List BitPeriod) : List BitPeriod := if q = .q4 then ps else ps.dropLast

/-- The bits of a frame driven when a bit is found wrong: the bit itself too, unless its lead was, for then its value had
not begun (R48, log 33). -/
def bitsDriven (q : Quarter) (n : Nat) (bits : List Bool) : List Bool := bits.take (if q = .q1 then n - 1 else n)

/-- The record of a frame of the station's own, brought up to the bit period in which a bit was found wrong (R48). -/
def Frame.abortedAt (taken : Nat) (bits : List Bool) (f : Frame) : Frame :=
  { f with position := f.position + taken, bits := bits }

/-- An abort: the driver released, the outcome to the counters, the slate and the health monitor, then DISCARDING (R62,
R69, R105). -/
def State.abort (k : Kind) (s : State) : State :=
  (((s.stopDriving.countOutcome .aborted).slateAborted k).weighOutcome .aborted).enterDiscarding

/-- SEND_ABORTED: a bit read back different from the bit driven, in CONTENDING (R56) or in SENDING (R62); the record is
brought up to it (R48). -/
def execSendAborted (bits : List BitPeriod) (s : State) : Result :=
  match s.ownFrameIn .contending, s.ownFrameIn .sending with
  | some (f, v), _ =>
    match contend (s.contenderBits v) bits with
    | .aborted q =>
      let driven := s.drive (quartersUntil q ((s.contenderBits v).take bits.length))
      let passed := (driven.passBits false (laterPeriods f bits) q).setTrails (countTrails 0 (trailsBefore q bits))
      let key := (bitsDriven q bits.length (s.contenderBits v)).drop 1
      .next ((passed.setFrame .contending (f.abortedAt bits.length key)).abort v.slot)
    | _ => .next s
  | none, some (f, v) =>
    match sendBody (s.senderBits v) bits with
    | .aborted q =>
      let driven := s.drive (quartersUntil q ((s.senderBits v).take bits.length))
      let passed := (driven.passBits false bits q).setTrails (countTrails s.line.trailCount (trailsBefore q bits))
      let body := bitsDriven q bits.length (s.senderBits v)
      .next ((passed.setFrame .sending (f.abortedAt bits.length (f.bits ++ body))).abort v.slot)
    | _ => .next s
  | none, none => .next s

end Sys2Proof.Machine
end

