-- ==== Sys2Proof/Machine/Receiving.lean ====
section
/-! DEFINITION. FRAME_START, INVALID_KIND, FRAMING_FAULT, STUCK_DOMINANT and FRAME_RECEIVED: the frames of others, their
judgement (R58, R63, R64) and what the table does with an accepted one (R13 to R24). -/

namespace Sys2Proof.Machine

/-! ### Following a frame (R50, R63, R101) -/

/-- FRAME_START: a lead in IDLE that is not the own start; the engine enters RECEIVING with that bit period as the start
bit, whatever its gap count (R50, R101). Where the station itself starts no later, it contends instead, and there is no
such event (R53, R102). DESIGN CHOICE: gap count and gap requirement show their last values from here on, as after
CONTENTION_START (R50, R51, log 39). -/
def execFrameStart (gap : List BitPeriod) (edge : Int) (s : State) (able : Nat := 0) : Result :=
  if s.engineRuns ∧ s.engine.state = .idle ∧ gap.any isLead = false ∧ s.startsNoLater gap able edge = false then
    let begun := ((s.beginPeriod gap (some edge)).setTrails 0).droveNothing
    .next (begun.setEngine { s.engine with
      state := .receiving
      gapCount := releasedAfter s.engine.gapCount gap
      frame := some (Frame.begun .receiver none) })
  else .next s

/-- How far the reception of a frame has come. -/
def State.reception (f : Frame) (s : State) : Reception :=
  { started := decide (f.position ≠ 0), bits := f.bits, trails := s.line.trailCount }

/-- What a run of bit periods brings to the receiver of a frame. A trail count already at 8, from the bit period of the
key bit lost, is stuck dominant with no further bit period (R107, log 30). -/
def State.received (f : Frame) (bits : List BitPeriod) (s : State) : ReceiveEvent :=
  if f.position ≠ 0 ∧ s.line.trailCount = stuckTrails then
    if bits.isEmpty then .stuckDominant (s.reception f) else .overrun
  else receive (s.reception f) bits

/-- The station as the bit periods of the frame leave it, before the event they bring is acted on. -/
def State.followed (f : Frame) (bits : List BitPeriod) (q : Quarter) (r : Reception) (s : State) : State :=
  (((s.passBits false (laterPeriods f bits) q).setTrails r.trails).droveNothing).setFrame .receiving
    { f with position := f.position + bits.length, bits := r.bits }

/-- A frame abandoned: the outcome to the counters and the health monitor, then DISCARDING (R63, R70). -/
def State.abandon (s : State) : State := ((s.countOutcome .abandoned).weighOutcome .abandoned).enterDiscarding

/-- INVALID_KIND: kind code 0, 6 or 7 at the last kind bit (R58). The event falls at that bit's value sample; DESIGN CHOICE:
the grid then shows q3 (log 35). -/
def execInvalidKind (bits : List BitPeriod) (s : State) : Result :=
  match s.frameIn .receiving with
  | some f =>
    match s.received f bits with
    | .invalidKind r => .next (s.followed f bits .q3 r).abandon
    | _ => .next s
  | none => .next s

/-- FRAMING_FAULT: a bit period without its lead, or a start bit whose value sample finds the line released (R106,
R101). DESIGN CHOICE: at such a value sample the grid shows q2 (log 35). -/
def execFramingFault (bits : List BitPeriod) (s : State) : Result :=
  match s.frameIn .receiving with
  | some f =>
    match s.received f bits with
    | .framingFault r q => .next (s.followed f bits q r).abandon
    | _ => .next s
  | none => .next s

/-- STUCK_DOMINANT: the eighth consecutive dominant trail (R107). -/
def execStuckDominant (bits : List BitPeriod) (s : State) : Result :=
  match s.frameIn .receiving with
  | some f =>
    match s.received f bits with
    | .stuckDominant r => .next (s.followed f bits .q4 r).abandon
    | _ => .next s
  | none => .next s

/-! ### The judgement (R64) -/

/-- What the tests of R64 make of a frame. -/
inductive Judgement
  | rejected
  | numberConflict
  | accepted
  deriving DecidableEq, Repr

/-- The tests of R64, in order. -/
def ReceivedFrame.judge (own : Station) (f : ReceivedFrame) : Judgement :=
  if f.checkRead ≠ f.checkComputed then .rejected
  else if f.number = 0 then .rejected
  else if f.kind.urgencyFits f.urgency = false then .rejected
  else if f.kind = .join ∧ joinRevision f.payload ≠ protocolRevision then .rejected
  else if f.number = own then .numberConflict
  else .accepted

/-! ### The table takes an accepted frame (R5, R13 to R24) -/

/-- The frames accepted counter of entry n advances, wrapping (R27). -/
def State.countAccepted (n : Station) (s : State) : State :=
  s.updateEntry n (fun e => { e with framesAccepted := e.framesAccepted + 1 })

/-- What the comparison of a frame's report with the stored one leads to (R14, R15). -/
structure ReportCase where
  stores : Bool
  gap : Bool
  deriving DecidableEq, Repr

/-- The cases of R14 for CHANGE and of R15 for REFRESH. -/
def reportCase (k : Kind) (q : Nibble) (content : ReportContent) (old : StoredReport) : ReportCase :=
  match k with
  | .change =>
    if q = old.sequence + 1 then { stores := true, gap := false }
    else if q = old.sequence ∧ content = old.content then { stores := false, gap := false }
    else { stores := true, gap := true }
  | .refresh => { stores := true, gap := decide (q ≠ old.sequence) }
  | .join => { stores := false, gap := false }
  | .resync => { stores := false, gap := false }
  | .release => { stores := false, gap := false }

/-- Store a report, current (R12). -/
def State.storeReport (n : Station) (q : Nibble) (content : ReportContent) (s : State) : State :=
  s.updateEntry n (fun e => { e with report := some { sequence := q, content := content, stale := false } })

/-- Keep the stored report, received again and so current (R9, R14). -/
def State.keepReport (n : Station) (s : State) : State :=
  s.updateEntry n (fun e => { e with report := e.report.map (fun r => { r with stale := false }) })

/-- Count a sequence gap, with its notice (R16). -/
def State.sequenceGap (n : Station) (s : State) : State :=
  (s.updateEntry n (fun e => { e with sequenceGaps := saturate8 e.sequenceGaps })).raiseStation .sequenceGap n

/-- The zones a departure-seen signal names for group g of an entry: its zone, or every zone without a zone map (R17). -/
def signalZones (zoneMap : Option (Vector Zone 4)) (g : Fin 4) : ZoneMask :=
  match zoneMap with
  | some z => zoneBit z[g]
  | none => 0xFF

/-- The departure-seen signals of a stored report: one for each group whose tally differs, none for a stranger (R17,
R2). -/
def peerSignals (e : Entry) (old new : ReportContent) : List DepartureSignal :=
  if e.roster then
    (groupIndices.filter (fun g => decide (old.groups[g].tally ≠ new.groups[g].tally))).map
      (fun g => { own := false, zones := signalZones e.zoneMap g })
  else []

/-- The table takes an accepted CHANGE or REFRESH, in the order of R18. -/
def State.acceptState (k : Kind) (n : Station) (q : Nibble) (content : ReportContent) (s : State) : State :=
  let present := s.statePresence n
  match (s.entry n).report with
  | none => ((present.storeReport n q content).tableChanged).countAccepted n
  | some old =>
    let c := reportCase k q content old
    let stored := if c.stores then present.storeReport n q content else present.keepReport n
    let judged := if c.gap then stored.sequenceGap n else stored
    let signals := if c.stores then peerSignals (s.entry n) old.content content else []
    ((judged.tableChanged).departuresSeen signals).countAccepted n

/-- What an accepted JOIN does to the entry (R20, R21). -/
def Entry.joined (fingerprint : Word16) (zones : Vector Zone 4) (agrees : Bool) (e : Entry) : Entry :=
  { e with
    presence := .heard, age := 0, report := none, lastRelease := none, zoneMap := some zones
    plan := some { fingerprint := fingerprint, agrees := agrees } }

/-- The table takes an accepted JOIN (R20 to R22). -/
def State.acceptJoin (n : Station) (payload : List Bool) (s : State) : State :=
  let agrees := decide (s.ctrl.fingerprint = some (joinFingerprint payload))
  let joined := ((s.evidence n).updateEntry n (Entry.joined (joinFingerprint payload) (joinZones payload) agrees))
  let noticed := joined.raiseStation .peerJoined n
  let matched := if agrees then noticed else noticed.raiseStation .planMismatch n
  ((matched.countAccepted n).tableChanged).requestRefresh

/-- The table takes an accepted RESYNC (R22). -/
def State.acceptResync (n : Station) (s : State) : State :=
  (((s.evidence n).countAccepted n).tableChanged).requestRefresh

/-- The table takes an accepted RELEASE: a new release sequence is stored, and passed on in RUNNING from a roster member
(R23, R24, R145). -/
def State.acceptRelease (n : Station) (r : Nibble) (m : ZoneMask) (s : State) : State :=
  let heard := (s.evidence n).countAccepted n
  if (s.entry n).lastRelease = some r then heard.tableChanged
  else
    let stored := (heard.updateEntry n (fun e => { e with lastRelease := some r })).tableChanged
    if s.ctrl.phase = .running ∧ (s.entry n).roster then stored.applyRelease m (some n) else stored

/-- The table takes an accepted frame (R5, R65). -/
def State.tableAccepts (f : ReceivedFrame) (s : State) : State :=
  match f.kind with
  | .change => s.acceptState .change f.number f.sequence (reportOfBits f.payload)
  | .refresh => s.acceptState .refresh f.number f.sequence (reportOfBits f.payload)
  | .join => s.acceptJoin f.number f.payload
  | .resync => s.acceptResync f.number
  | .release => s.acceptRelease f.number f.sequence (releaseMaskOfBits f.payload)

/-! ### The end of the check -/

/-- CONFIRMING with a verdict on the frame followed (R64, R66, log 10). -/
def State.confirming (verdict : Verdict) (confirms : Bool) (s : State) : State :=
  s.setEngine { s.engine with
    state := .confirming
    frame := s.engine.frame.map (fun f =>
      { f with
        verdict := some verdict
        confirms := confirms
        confirmMap := if verdict = .accepted then some 0 else none }) }

/-- A REJECTED frame: reported at once, its window followed silently (R64, R70). -/
def State.reject (s : State) : State :=
  (((s.countOutcome .rejected).weighOutcome .rejected)).confirming .rejected false

/-- An ACCEPTED frame: to the table, then CONFIRMING, the own slot driven unless WITHDRAWN (R65, R66). -/
def State.accept (f : ReceivedFrame) (s : State) : State :=
  (s.tableAccepts f).confirming .accepted (decide (s.health.state ≠ .withdrawn))

/-- What follows the judgement (R64, R121). -/
def State.judged (f : ReceivedFrame) (s : State) : State :=
  match f.judge s.ctrl.ownNumber with
  | .rejected => s.reject
  | .numberConflict => s.declareConflict
  | .accepted => s.accept f

/-- FRAME_RECEIVED: the check ends and the frame is judged (R64, R65, R66). -/
def execFrameReceived (bits : List BitPeriod) (s : State) : Result :=
  match s.frameIn .receiving with
  | some f =>
    match s.received f bits with
    | .checkEnd k r => .next ((s.followed f bits .q4 r).judged (decodeFrame k r.bits))
    | _ => .next s
  | none => .next s

end Sys2Proof.Machine
end

