-- ==== Sys2Proof/Machine/Window.lean ====
section
/-! DEFINITION. WINDOW_END and DISCARD_END: the ways back to IDLE (R52, R67, R68). -/

namespace Sys2Proof.Machine

/-- The confirm map as evidence, in ascending station number, as one event (R5, R68). -/
def State.mapEvidence (m : StationMap) (s : State) : State :=
  (stations.foldl (fun s n => if inMap m n then s.evidence n else s) s).tableChanged

/-- A map less the own number (R68). -/
def lessOwn (own : Station) (m : StationMap) : StationMap := m &&& ~~~stationBit own

/-- The health monitor takes COMPLETED, then a sighting if the own slot read confirmed (R120). -/
def State.completedWeighed (sighted : Bool) (s : State) : State :=
  let weighed := s.weighOutcome .completed
  if sighted then weighed.sighting else weighed

/-- The hand-overs of a sender's window, in the order of R68. -/
def State.senderClosed (k : Kind) (m : StationMap) (s : State) : State :=
  let own := s.ctrl.ownNumber
  let heard := lessOwn own m
  ((((s.mapEvidence heard).countOutcome .completed).slateCompleted k heard)).completedWeighed (inMap m own)

/-- The hand-overs of an accepting receiver's window (R68, R70). -/
def State.receiverClosed (m : StationMap) (s : State) : State :=
  ((s.mapEvidence (lessOwn s.ctrl.ownNumber m)).countOutcome .accepted).weighOutcome .accepted

/-- Close the frame by the station's part in it; a silent follower hands nothing on (R68). -/
def State.closeFrame (f : Frame) (m : StationMap) (s : State) : State :=
  match f.served, f.verdict with
  | some v, _ => s.senderClosed v.slot m
  | none, some .accepted => s.receiverClosed m
  | none, some .rejected => s
  | none, none => s

/-- After the hand-overs: IDLE with a gap count of 0, unless a number conflict has stopped the engine (R47, R50, R68). -/
def State.afterWindow (s : State) : State := if s.engineRuns then s.enterIdle 0 else s

/-- The slot a station drives in the window of a frame it follows (R66). -/
def Frame.ownSlot (own : Station) (f : Frame) : Option Station := if f.confirms then some own else none

/-- WINDOW_END: the 31 slots pass, the own slot driven as a bit period of value 1 where the station confirms, and at the end
of slot 31 the engine closes the frame (R66, R67, R68, R96, R108; inside WINDOW_END: log 10). DESIGN CHOICE: R107 does not
keep the trail-dominant count in CONFIRMING and IDLE; the model leaves it at its value at the last check bit (log 23). -/
def execWindowEnd (slots : List BitPeriod) (s : State) : Result :=
  match s.frameIn .confirming with
  | some f =>
    if slots.length = windowSlots then
      let driven := s.drive (windowQuarters (f.ownSlot s.ctrl.ownNumber))
      let passed := (driven.passBits false slots .q4).stopDriving
      .next (passed.closeFrame f (confirmMapOf slots)).afterWindow
    else .next s
  | none => .next s

/-- Of the bit periods of a run in DISCARDING, those that begin after the one the grid is in. At the start of LISTENING the
grid has just begun the first of them (R97, R103). DESIGN CHOICE: after a frame the run begins with the bit period after the
one in which the frame was left, fully released or not, and so the list does (log 36). -/
def State.discardPeriods (gap : List BitPeriod) (s : State) : List BitPeriod :=
  if s.engine.frame.isNone then gap.drop 1 else gap

/-- DISCARD_END: the line has been fully released for 35 consecutive bit periods; IDLE with that gap count (R52).
DESIGN CHOICE: the trail-dominant count, not kept in DISCARDING (R107), shows its last value until here, and 0 from here on
(log 23). -/
def execDiscardEnd (gap : List BitPeriod) (s : State) : Result :=
  if s.engineRuns ∧ s.engine.state = .discarding ∧ reachesAtEnd (tGAP + tRSTR) s.engine.gapCount gap = true then
    .next ((((s.passBits true (s.discardPeriods gap) .q4).setTrails 0).droveNothing).enterIdle (tGAP + tRSTR))
  else .next s

end Sys2Proof.Machine
end

