-- ==== Sys2Proof/Machine/Dispatch.lean ====
section
/-! DEFINITION. One arm per command. -/

namespace Sys2Proof.Machine

def exec (i : Instr) (s : State) : Host.Outcome State Fault Refusal :=
  match i with
  | .powerOnReset => Sys2Proof.Machine.execPowerOnReset s
  | .resetPin => Sys2Proof.Machine.execResetPin s
  | .resetEnd source => Sys2Proof.Machine.execResetEnd source s
  | .headerRead freeing signatureHigh signatureLow length revision => Sys2Proof.Machine.execHeaderRead freeing signatureHigh signatureLow length revision s
  | .transportFailure freeing cause read => Sys2Proof.Machine.execTransportFailure freeing cause s read
  | .pauseEnd => Sys2Proof.Machine.execPauseEnd s
  | .imageComplete rest sample => Sys2Proof.Machine.execImageComplete rest sample s
  | .sampleEvent sample => Sys2Proof.Machine.execSampleEvent sample s
  | .refreshTick order => Sys2Proof.Machine.execRefreshTick order s
  | .peerSilent n order => Sys2Proof.Machine.execPeerSilent n s order
  | .listenExpiry order => Sys2Proof.Machine.execListenExpiry s order
  | .discardEnd gap => Sys2Proof.Machine.execDiscardEnd gap s
  | .contentionStart gap edge able => Sys2Proof.Machine.execContentionStart gap edge s able
  | .keyLost bits => Sys2Proof.Machine.execKeyLost bits s
  | .keyWon bits => Sys2Proof.Machine.execKeyWon bits s
  | .sendAborted bits => Sys2Proof.Machine.execSendAborted bits s
  | .invalidKind bits => Sys2Proof.Machine.execInvalidKind bits s
  | .framingFault bits => Sys2Proof.Machine.execFramingFault bits s
  | .stuckDominant bits => Sys2Proof.Machine.execStuckDominant bits s
  | .frameReceived bits => Sys2Proof.Machine.execFrameReceived bits s
  | .windowEnd slots => Sys2Proof.Machine.execWindowEnd slots s
  | .tselAssert => Sys2Proof.Machine.execTselAssert s
  | .tselRelease tsdi => Sys2Proof.Machine.execTselRelease tsdi s
  | .status => Sys2Proof.Machine.execStatus s
  | .entry n => Sys2Proof.Machine.execEntry n s
  | .terms => Sys2Proof.Machine.execTerms s
  | .counters => Sys2Proof.Machine.execCounters s
  | .peek => Sys2Proof.Machine.execPeek s
  | .take => Sys2Proof.Machine.execTake s
  | .release mask => Sys2Proof.Machine.execRelease mask s
  | .resync => Sys2Proof.Machine.execResync s
  | .restart => Sys2Proof.Machine.execRestart s
  | .unknownRequest code => Sys2Proof.Machine.execUnknownRequest code s
  | .frameStart gap edge able => Sys2Proof.Machine.execFrameStart gap edge s able
  | .lastCheckBitSent bits => Sys2Proof.Machine.execLastCheckBitSent bits s

end Sys2Proof.Machine
end

