-- ==== Sys2Proof/Machine/Timing.lean ====
section
/-! DEFINITION. The intervals of the loaded configuration (R97, R30, R173) and the bit periods the station drives (R96),
as functions of the state. No command waits on a duration (log 18). -/

namespace Sys2Proof.Machine

/-- A quarter of a bit period in microseconds (R97). -/
def quarterMicros (bitRate : BitVec 2) : Nat := 8 / 2 ^ bitRate.toNat

/-- A bit period in microseconds (R97). -/
def bitPeriodMicros (bitRate : BitVec 2) : Nat := 4 * quarterMicros bitRate

/-- The sample interval in milliseconds (R30). -/
def sampleMillis (code : BitVec 2) : Nat := 2 ^ code.toNat

/-- The tick interval in milliseconds (R173). -/
def tickMillis (code : BitVec 2) : Nat := 25 * 2 ^ code.toNat

/-- tLISTEN in milliseconds (R174). -/
def listenMillis (code : BitVec 2) : Nat := listenTicks * tickMillis code

/-- The bits the station drives in the frame in progress, from its start bit on (R96, R98). -/
def State.drivenBits (s : State) : List Bool :=
  match s.ownFrameIn .contending, s.ownFrameIn .sending with
  | some (_, v), _ => s.contenderBits v
  | none, some (_, v) => s.contenderBits v ++ s.senderBits v
  | none, none => []

/-- The slot the station drives in the confirm window in progress, with value 1 (R66, R108). -/
def State.drivenSlot (s : State) : Option Station :=
  (s.frameIn .confirming).bind (Frame.ownSlot s.ctrl.ownNumber)

end Sys2Proof.Machine
end

