-- ==== Sys2Proof/Safety.lean ====
section
/-! DEFINITION. What holds of a station at every moment between two commands, block by block, in the words of the rules.
Each is a decidable condition on the state; the statements say that a reset meets it and that every step keeps it. -/

namespace Sys2Proof.Machine

/-- A configuration is loaded in every phase but LOADING and HALTED (R170, R169). -/
def Phase.configured : Phase → Bool
  | .loading => false
  | .listening => true
  | .joining => true
  | .running => true
  | .halted => false
  | .conflict => true

/-- The notice queue holds at most sixteen notices, at most one of them OVERFLOW and that one newest; the sixteenth
position is OVERFLOW's (R182). -/
def State.noticesOk (s : State) : Bool :=
  s.notices.dropLast.all (fun n => decide (n.kind ≠ .overflow)) &&
    (decide (s.notices.length ≤ queueCapacity) ||
      (decide (s.notices.length = queueCapacity + 1) && s.notices.getLast?.any (fun n => decide (n.kind = .overflow))))

/-- The garble count lies in the range of its health state, and the sighting count in 0 to 2 (R111, R112, R120). -/
def State.healthOk (s : State) : Bool :=
  (match s.health.state with
    | .normal => decide (s.health.garble < restrainedFrom)
    | .restrained => decide (restrainedFrom ≤ s.health.garble ∧ s.health.garble < withdrawnFrom)
    | .withdrawn => decide (1 ≤ s.health.garble ∧ s.health.garble ≤ garbleMax)) &&
    decide (s.health.sightings ≤ 2)

/-- A load makes at most three attempts; the loader is DONE with a configuration exactly in the configured phases, and
FAILED exactly in HALTED (R164, R169, R170, R172). -/
def State.loaderOk (s : State) : Bool :=
  decide (1 ≤ s.loader.attempt ∧ s.loader.attempt ≤ loadAttempts) &&
    decide (s.loader.config.isSome = s.ctrl.phase.configured) &&
    decide (s.watch.sampling = s.ctrl.phase.configured) &&
    decide (s.ctrl.ticking = s.ctrl.phase.configured) &&
    match s.loader.progress with
    | .reading => decide (s.ctrl.phase = .loading)
    | .paused => decide (s.ctrl.phase = .loading) && decide (s.loader.attempt < loadAttempts)
    | .checking => false
    | .done => s.ctrl.phase.configured
    | .failed => decide (s.ctrl.phase = .halted)

/-- A stopped engine is IDLE with no frame (in CONFLICT: log 9); the driver is on exactly while the station sends its own
start bit, key, body or check, never while WITHDRAWN, and a confirm is only ever due from a station that is not WITHDRAWN;
no quarter drives LTX with LEN off (R47, R96, R109; the own slot's quarters lie inside WINDOW_END, log 10). -/
def State.driverOk (s : State) : Bool :=
  let sends := decide (s.engine.state = .contending) || decide (s.engine.state = .sending)
  (s.engineRuns || (decide (s.engine.state = .idle) && s.engine.frame.isNone)) &&
    decide (s.line.len = sends) &&
    (!s.line.ltx || s.line.len) && s.line.drove.all (fun q => !q.ltx || q.len) &&
    (decide (s.health.state ≠ .withdrawn) || (!sends && s.drivenSlot.isNone))

/-- Outside JOINING and RUNNING, and while WITHDRAWN, the slate is empty; a JOIN waits in JOINING alone; a pending series
has attempts left; the departure-owed flag stands only with a pending CHANGE (R75, R82, R92, R93, R94). -/
def State.slateOk (s : State) : Bool :=
  let limit := s.attemptLimit
  (!s.slate.nonEmpty || s.takes .refresh) &&
    (!s.slate.join || decide (s.ctrl.phase = .joining)) &&
    s.slate.change.all (fun x => decide (x.attempts < limit)) &&
    s.slate.release.all (fun r => decide (r.series.attempts < limit)) &&
    (!s.slate.departureOwed || s.slate.change.isSome)

/-- No term holds anything. -/
def quietTerms : Vector TermFlags 16 := Vector.replicate 16 { live := false, latched := false }

/-- In RUNNING each term's live condition is the one the table gives, a latching term that is live is latched, and a term
configured not to latch never is; outside RUNNING every term is quiet (R132, R133). -/
def State.termsOk (s : State) : Bool :=
  match s.ctrl.phase, s.loader.config with
  | .running, some c =>
    termIndices.all (fun t =>
      decide (s.terms.flags[t].live = termLive c.terms[t] s.table) &&
        (!(c.terms[t].latch && s.terms.flags[t].live) || s.terms.flags[t].latched) &&
        (!s.terms.flags[t].latched || c.terms[t].latch))
  | .running, none => false
  | _, _ => decide (s.terms.flags = quietTerms)

/-- Every output drives what its phase gives: OPEN with no configuration, its rest state outside RUNNING, and in RUNNING
by binding, mode and term value; they are the last of the trace, which a reset empties (R149, R150, R151, R156; log 37). -/
def State.outputsOk (s : State) : Bool :=
  decide (s.outputs = s.outputTrace.getLastD (Vector.replicate 8 .openDrive)) &&
  match s.ctrl.phase, s.loader.config with
  | .running, some c => decide (s.outputs = runningDrives c s.terms.flags)
  | .running, none => false
  | _, some c => decide (s.outputs = restDrives c)
  | _, none => decide (s.outputs = Vector.replicate 8 .openDrive)

/-- The phase code of the self entry follows the phase; in CONFLICT it is the one held (R26). -/
def phaseCodeFits (p : Phase) (c : PhaseCode) : Bool :=
  match p with
  | .running => decide (c = .running)
  | .listening => decide (c = .joining)
  | .joining => decide (c = .joining)
  | .conflict => true
  | .loading => false
  | .halted => false

/-- The self entry's report: its sequence the own report sequence, its codes by phase and health, its group records the
watch unit's publication, never stale (R25, R26, R41). -/
def State.selfReportOk (s : State) (r : StoredReport) : Bool :=
  decide (r.sequence = s.slate.reportSequence) && phaseCodeFits s.ctrl.phase r.content.phase &&
    decide (r.content.health = s.health.state.reportCode) && decide (r.content.groups = s.watch.records) &&
    decide (r.stale = false)

/-- In the configured phases exactly the entry of the own number is SELF, and it shows the station; in the others no
entry is SELF, the own number is 0, and the sequences and the health state are as the reset left them (R1, R25, R26, R41,
R160, R169). -/
def State.selfOk (s : State) : Bool :=
  let own := s.ctrl.ownNumber
  if s.ctrl.phase.configured then
    decide (own ≠ 0) &&
      stations.all (fun n => decide (((s.entry n).presence = .self) ↔ n = own)) &&
      (s.entry own).report.any s.selfReportOk &&
      decide ((s.entry own).lastRelease = some s.slate.releaseSequence) &&
      decide ((s.entry own).age = 0)
  else
    decide (own = 0) && stations.all (fun n => decide ((s.entry n).presence ≠ .self)) &&
      decide (s.slate.reportSequence = 0 ∧ s.slate.releaseSequence = 0) && decide (s.health.state = .normal)

/-- The roster flags are the loaded roster's, and no flag is set without one; a PRESENT entry holds a report that is not
stale (R2, R12, R129). -/
def State.tableOk (s : State) : Bool :=
  stations.all (fun n =>
    decide ((s.entry n).roster = (s.loader.config.map (fun c => inMap c.roster n)).getD false) &&
      (decide ((s.entry n).presence ≠ .present) || (s.entry n).report.any (fun r => !r.stale)))

/-- With TSEL released or a reset held no transaction is open; a response stands exactly in RESPONSE, no more of it
counted than it has bits, and only there is anything armed (R187, R188, R199). -/
def State.tapOk (s : State) : Bool :=
  ((s.pins.tsel && !s.inReset) || decide (s.tap.state = .idle)) &&
    decide (s.tap.response.isSome = decide (s.tap.state = .response)) &&
    decide (s.tap.clocked ≤ s.tap.responseBits.length) &&
    (decide (s.tap.state = .response) || !(s.tap.takeArmed || s.tap.restartArmed))

/-! ### What the statements say of a step -/

/-- The blocks of the state. -/
inductive Block
  | pins
  | ctrl
  | loader
  | watch
  | line
  | engine
  | table
  | slate
  | health
  | terms
  | outputs
  | notices
  | tap
  | pending
  deriving DecidableEq, Repr

/-- A block is the same in two states. -/
def sameBlock (s t : State) : Block → Prop
  | .pins => t.pins = s.pins
  | .ctrl => t.ctrl = s.ctrl
  | .loader => t.loader = s.loader
  | .watch => t.watch = s.watch
  | .line => t.line = s.line
  | .engine => t.engine = s.engine
  | .table => t.table = s.table
  | .slate => t.slate = s.slate
  | .health => t.health = s.health
  | .terms => t.terms = s.terms
  | .outputs => t.outputs = s.outputs ∧ t.outputTrace = s.outputTrace
  | .notices => t.notices = s.notices
  | .tap => t.tap = s.tap
  | .pending => t.pending = s.pending

/-- Every block outside a list is the same in two states: the frame of a step. -/
def changesOnly (bs : List Block) (s t : State) : Prop := ∀ b, b ∉ bs → sameBlock s t b

/-- From s to t the outputs were set to these rows of drives, one after another, and stand at the last; with none they were
left as they stood (R155, R156; the trace is the model's own, log 37). -/
def drivesTaken (rows : List (Vector Drive 8)) (s t : State) : Prop :=
  t.outputTrace = s.outputTrace ++ rows ∧ t.outputs = rows.getLastD s.outputs

/-- Every entry of the table but one is the same in two states. -/
def entriesKept (but : Station) (s t : State) : Prop := ∀ n, n ≠ but → t.entry n = s.entry n

/-- The values every chapter's table gives for after a reset of a cause (R29, R46, R47, R71, R95, R126, R147, R149, R160,
R164, R173, R186, R199 and the head tables of 05_bit_signalling_on_the_line.md and 10_notices_and_the_tap_port.md); the
record of quarters driven and the trace of the outputs, empty, are the model's own (log 20). -/
structure State.AfterReset (cause : ResetCause) (t : State) : Prop where
  phase : t.ctrl.phase = .loading
  fault : t.ctrl.fault = .none
  resetCause : t.ctrl.cause = cause
  ownNumber : t.ctrl.ownNumber = 0
  ticks : t.ctrl.tick = 0 ∧ t.ctrl.ticking = false
  fingerprint : t.ctrl.fingerprint = none
  loader : t.loader.progress = .reading ∧ t.loader.attempt = 1 ∧ t.loader.image = [] ∧ t.loader.config = none
  sampling : t.watch.sampling = false
  lines : ∀ k : Fin 16, t.watch.lines[k] = { last := none, count := 0, filtered := none }
  groups : ∀ g : Fin 4, t.watch.groups[g] = { state := .settling, tally := 0 }
  interface : t.line.running = false ∧ t.line.grid = none ∧ t.line.trailCount = 0
  driver : t.line.len = false ∧ t.line.ltx = false ∧ t.line.drove = []
  engine : t.engine.state = .idle ∧ t.engine.frame = none ∧ t.engine.gapRequirement = 11
  counters : t.engine.counters =
    { completed := 0, aborted := 0, lost := 0, accepted := 0, rejected := 0, abandoned := 0 }
  entries : ∀ n : Station, t.entry n =
    { roster := false, presence := .absent, age := 0, zoneMap := none, plan := none, report := none,
      lastRelease := none, framesAccepted := 0, sequenceGaps := 0, deliveriesMissed := 0 }
  slots : t.slate.change = none ∧ t.slate.release = none ∧ t.slate.refresh = false ∧ t.slate.join = false ∧
    t.slate.resync = false
  sequences : t.slate.reportSequence = 0 ∧ t.slate.releaseSequence = 0
  marks : t.slate.departureOwed = false ∧ t.slate.stateSent = false
  health : t.health.garble = 0 ∧ t.health.state = .normal ∧ t.health.sightings = 0
  terms : ∀ i : Fin 16, t.terms.flags[i] = { live := false, latched := false }
  held : t.terms.heldOwn = 0 ∧ t.terms.heldPeer = 0
  rel : t.terms.rel = { last := none, count := 0, filtered := none }
  outputs : (∀ d : Fin 8, t.outputs[d] = .openDrive) ∧ t.outputTrace = []
  notices : t.notices = []
  tap : t.tap.state = .idle ∧ t.tap.request = none ∧ t.tap.args = [] ∧ t.tap.response = none ∧ t.tap.clocked = 0 ∧
    t.tap.takeArmed = false ∧ t.tap.restartArmed = false

/-- A notice with no station, term or value. -/
def plainNotice (kind : NoticeKind) (s : State) : Notice :=
  { kind := kind, stamp := s.ctrl.tick, station := none, term := none, value := none }

/-- A load that ends in a fault, from s to t (R169): the fault code, HALTED, its one notice, the loader FAILED with
nothing kept, and every other block as it was. -/
def haltedWith (f : FaultCode) (s t : State) : Prop :=
  t.ctrl = { s.ctrl with phase := .halted, fault := f } ∧
    t.loader.progress = .failed ∧ t.loader.image = [] ∧ t.loader.config = none ∧
    t.notices = pushNotice s.notices { plainNotice .phaseChanged s with value := some (.fault f) } ∧
    changesOnly [.ctrl, .loader, .notices] s t

/-- The slot of a kind is PENDING (R74). -/
def Slate.pendingSlot (x : Slate) : Kind → Bool
  | .change => x.change.isSome
  | .release => x.release.isSome
  | .refresh => x.refresh
  | .join => x.join
  | .resync => x.resync

/-- A series after a LOST frame: a superseded one is reset if it has spent an attempt, else only its mark is cleared
(R80, R90). -/
def seriesAfterLost (x : Series) : Series :=
  if x.superseded = false then x
  else if x.attempts = 0 then { x with superseded := false }
  else { attempts := 0, sequence := none, targets := none, heard := 0, superseded := false }

/-- The commands that reset the station: the two held resets, and the release of TSEL with a restart armed by then
(R162). -/
def resets (c : Instr) (s : State) : Prop :=
  c = .powerOnReset ∨ c = .resetPin ∨
    ∃ tsdi, c = .tselRelease tsdi ∧ s.pins.tsel = true ∧ (s.tapBits tsdi).tap.restartArmed = true

/-- The commands of the tap port. -/
def isTapCommand : Instr → Bool
  | .powerOnReset => false
  | .resetPin => false
  | .resetEnd _ => false
  | .headerRead _ _ _ _ _ => false
  | .transportFailure _ _ _ => false
  | .pauseEnd => false
  | .imageComplete _ _ => false
  | .sampleEvent _ => false
  | .refreshTick _ => false
  | .peerSilent _ _ => false
  | .listenExpiry _ => false
  | .discardEnd _ => false
  | .contentionStart _ _ _ => false
  | .keyLost _ => false
  | .keyWon _ => false
  | .sendAborted _ => false
  | .invalidKind _ => false
  | .framingFault _ => false
  | .stuckDominant _ => false
  | .frameReceived _ => false
  | .windowEnd _ => false
  | .tselAssert => true
  | .tselRelease _ => true
  | .status => true
  | .entry _ => true
  | .terms => true
  | .counters => true
  | .peek => true
  | .take => true
  | .release _ => true
  | .resync => true
  | .restart => true
  | .unknownRequest _ => true
  | .frameStart _ _ _ => false
  | .lastCheckBitSent _ => false

/-- The frame that a run of bit periods completes at a receiver, decoded (R64, R200). -/
def State.receivedFrame (bits : List BitPeriod) (s : State) : Option ReceivedFrame :=
  (s.frameIn .receiving).bind (fun f =>
    match s.received f bits with
    | .checkEnd k r => some (decodeFrame k r.bits)
    | .more _ => none
    | .framingFault _ _ => none
    | .invalidKind _ => none
    | .stuckDominant _ => none
    | .overrun => none)

/-- A frame that fails one of the tests of R64 before the last. -/
def ReceivedFrame.malformed (f : ReceivedFrame) : Prop :=
  f.checkRead ≠ f.checkComputed ∨ f.number = 0 ∨ f.kind.urgencyFits f.urgency = false ∨
    (f.kind = .join ∧ joinRevision f.payload ≠ 1)

/-- The engine after the end of a check: CONFIRMING the same frame with a verdict (R64 to R66). -/
def confirmingWith (verdict : Verdict) (confirms : Bool) (t : State) : Prop :=
  t.engine.state = .confirming ∧
    t.engine.frame.any (fun f => decide (f.verdict = some verdict ∧ f.confirms = confirms)) = true

/-- The fields of an entry that only a JOIN, the load and the other counters' events change are the same. -/
def entryKept (e e' : Entry) : Prop :=
  e'.roster = e.roster ∧ e'.zoneMap = e.zoneMap ∧ e'.plan = e.plan ∧ e'.lastRelease = e.lastRelease ∧
    e'.deliveriesMissed = e.deliveriesMissed

/-- The garble count and the health state after an outcome's weight (R111, R112); the sighting count is kept. -/
def healthAfter (count : Nat) (s t : State) : Prop :=
  t.health.garble = count ∧ t.health.state = nextHealth count s.health.state ∧ t.health.sightings = s.health.sightings

/-- Presence and age of a peer entry after evidence other than a STATE frame (R6 to R8). -/
def evidencePresence : Presence → Presence
  | .absent => .heard
  | .heard => .heard
  | .present => .present
  | .silent => .heard
  | .self => .self

/-! ### Read-back (R56, R62, R104) -/

/-- A row of bit periods reads back, one for one, the first bits of a row driven: the lead dominant, the value as driven,
and for a sender the trail released (R104). -/
def readsBack (sender : Bool) (bits : List Bool) (ps : List BitPeriod) : Prop :=
  ps.length ≤ bits.length ∧
    ∀ (j : Nat) (b : Bool) (p : BitPeriod), bits[j]? = some b → ps[j]? = some p →
      p.lead = true ∧ p.value = b ∧ (sender = true → p.trail = false)

/-- The same up to the last bit period, in which bit b was driven and p read (R104). -/
def readsBackUntil (sender : Bool) (bits : List Bool) (ps : List BitPeriod) (b : Bool) (p : BitPeriod) : Prop :=
  ∃ before, ps = before ++ [p] ∧ readsBack sender bits before ∧ bits[before.length]? = some b

/-! ### The bit grid (R100, R101) -/

/-- Where the bit period of a grid starts, a row of bit periods on, in a gap: every edge restarts the grid, and without one
a bit period lasts its four quarters, sixty-four units (R101, R103). -/
def startAfterGap (start : Int) (ps : List BitPeriod) : Int := start + (ps.map (fun p => 64 + p.edge.getD 0)).sum

/-- The same within a frame: an edge restarts the grid within half a quarter, eight units, of the expected start, and none
elsewhere does (R100). -/
def startAfterBits (start : Int) (ps : List BitPeriod) : Int :=
  start + (ps.map (fun p => 64 + ((p.edge.filter (fun d => decide (-8 ≤ d ∧ d ≤ 8))).getD 0))).sum

/-! ### Where a station may start (R53) -/

/-- Every condition of R53 but the lead holds at the boundary after the first j bit periods of a gap, the station having
become able to send at boundary `able` unless it was so when the engine entered IDLE (log 31). -/
def State.mayStartAfter (gap : List BitPeriod) (able j : Nat) (s : State) : Prop :=
  (s.ctrl.phase = .joining ∨ s.ctrl.phase = .running) ∧ s.health.state ≠ .withdrawn ∧
    (∃ k, s.slate.pendingSlot k = true) ∧ (s.engine.ableAtIdle = false → able ≤ j) ∧
    s.engine.gapRequirement ≤ releasedAfter s.engine.gapCount (gap.take j)

/-- The boundary at the end of a gap is the first at which the station may start. -/
def State.firstStartAt (gap : List BitPeriod) (able : Nat) (s : State) : Prop :=
  s.mayStartAfter gap able gap.length ∧ ∀ j, j < gap.length → ¬ s.mayStartAfter gap able j

/-! ### The live condition (R127 to R131) -/

/-- Group g of an entry lies in a zone of the mask: the zone its map gives the group, or any zone where it has no map
(R128). -/
def groupInMask (mask : ZoneMask) (e : Entry) (g : Fin 4) : Prop :=
  ∃ z : Zone, mask.getLsbD z.toNat = true ∧ ∀ m, e.zoneMap = some m → m[g] = z

/-- Some roster entry in the term's scope is departed, unseen or of another plan, by an aspect the term enables: PRESENT or
SELF with a group not conforming in a zone of the mask; a peer ABSENT, HEARD or SILENT with a group, or no zone map, in a
zone of the mask, and so never under an empty mask (log 11); a peer whose plan does not match (R127 to R131). -/
def termHolds (x : TermConfig) (s : State) : Prop :=
  ∃ n : Station, n ≠ 0 ∧
    let e := s.entry n
    e.roster = true ∧
      (x.scope = .all ∨ (x.scope = .peers ∧ e.presence ≠ .self) ∨ (x.scope = .self ∧ e.presence = .self)) ∧
      ((x.departed = true ∧ (e.presence = .present ∨ e.presence = .self) ∧
          ∃ r, e.report = some r ∧ ∃ g, r.content.groups[g].conforming = false ∧ groupInMask x.zones e g) ∨
        (x.unseen = true ∧ (e.presence = .absent ∨ e.presence = .heard ∨ e.presence = .silent) ∧
          ∃ g, groupInMask x.zones e g) ∨
        (x.plan = true ∧ e.presence ≠ .self ∧ ∃ p, e.plan = some p ∧ p.agrees = false))

/-- A command applies a release with mask m to the terms, from s to t: a REL press at a sample event, a RELEASE accepted from
a roster member with a sequence not stored before, or a RELEASE request judged at the tap port (R142, R143, R145). -/
def releaseMade (c : StationConfig) (cmd : Instr) (m : ZoneMask) (s t : State) : Prop :=
  (∃ x, cmd = .sampleEvent x ∧ s.terms.rel.filtered = some false ∧ t.terms.rel.filtered = some true ∧
      m = c.releaseZones) ∨
    (∃ bits r, cmd = .frameReceived bits ∧ s.receivedFrame bits = some r ∧ ¬ r.malformed ∧
      r.number ≠ s.ctrl.ownNumber ∧ r.kind = .release ∧ (s.entry r.number).roster = true ∧
      (s.entry r.number).lastRelease ≠ some r.sequence ∧ m = releaseMaskOfBits r.payload) ∨
    (isTapCommand cmd = true ∧ t.tap.request = some 0x07 ∧ t.tap.args.getLast? = some m) ∨
    (∃ tsdi, cmd = .tselRelease tsdi ∧ (s.tapBits tsdi).tap.request = some 0x07 ∧
      (s.tapBits tsdi).tap.args.getLast? = some m)

/-! ### Terms and their notices (R132 to R138) -/

/-- A term as a re-evaluation over the table of t leaves the flags of s (R132, R133). -/
def flagsOver (c : StationConfig) (s t : State) (i : Fin 16) : TermFlags :=
  let live := termLive c.terms[i] t.table
  { live := live, latched := s.terms.flags[i].latched || (c.terms[i].latch && live) }

/-- The notices of value changes, in ascending term number (R137). -/
def changeNotices (s : State) (old new : Fin 16 → TermFlags) (q : List Notice) : List Notice :=
  termIndices.foldl (fun q i =>
    if (old i).value = (new i).value then q
    else
      pushNotice q { plainNotice (if (new i).value then .termAsserted else .termCleared) s with term := some i }) q

/-- A term after departure-seen signals for a row of groups, each naming the group's zone, or every zone where none is
given (R134). -/
def signalledFlags (c : StationConfig) (own : Bool) (zoneOf : Fin 4 → Option Zone) (groups : List (Fin 4))
    (flags : Fin 16 → TermFlags) (i : Fin 16) : TermFlags :=
  let x := c.terms[i]
  let named := groups.any (fun g =>
    match zoneOf g with
    | some z => inZones x.zones z
    | none => decide (x.zones ≠ 0))
  let covers := decide (x.scope = .all) || decide (x.scope = if own then .self else .peers)
  { flags i with latched := (flags i).latched || (x.latch && x.departed && covers && named) }

/-- The notices of the signals of one event, taken one after another (R134, R137). -/
def signalNotices (c : StationConfig) (own : Bool) (zoneOf : Fin 4 → Option Zone) (groups : List (Fin 4))
    (flags : Fin 16 → TermFlags) (s : State) (q : List Notice) : List Notice :=
  (List.range groups.length).foldl (fun q k =>
    changeNotices s (signalledFlags c own zoneOf (groups.take k) flags)
      (signalledFlags c own zoneOf (groups.take (k + 1)) flags) q) q

/-- The drives of those signals, taken one after another (R155, R156). -/
def signalDrives (c : StationConfig) (own : Bool) (zoneOf : Fin 4 → Option Zone) (groups : List (Fin 4))
    (flags : Fin 16 → TermFlags) : List (Vector Drive 8) :=
  (List.range groups.length).map (fun k =>
    runningDrives c (Vector.ofFn (signalledFlags c own zoneOf (groups.take (k + 1)) flags)))

/-- A zone is among those the signals name (R135). -/
def zoneNamed (zoneOf : Fin 4 → Option Zone) (groups : List (Fin 4)) (z : Zone) : Bool :=
  groups.any (fun g => (zoneOf g).all (fun y => decide (y = z)))

/-- A term after a release with mask m (R138). -/
def releasedFlags (c : StationConfig) (m : ZoneMask) (flags : Fin 16 → TermFlags) (i : Fin 16) : TermFlags :=
  if (flags i).latched = true ∧ c.terms[i].zones &&& m ≠ 0 ∧ (flags i).live = false then
    { live := false, latched := false }
  else flags i

/-- The notices of a release with mask m, in ascending term number (R138). -/
def releaseNotices (c : StationConfig) (m : ZoneMask) (sender : Option Station) (flags : Fin 16 → TermFlags) (s : State)
    (q : List Notice) : List Notice :=
  termIndices.foldl (fun q i =>
    if (flags i).latched = true ∧ c.terms[i].zones &&& m ≠ 0 then
      if (flags i).live = true then
        pushNotice q { plainNotice .releaseRefused s with station := sender, term := some i }
      else pushNotice q { plainNotice .termCleared s with term := some i }
    else q) q

/-- What a change of the table does to the evaluator, after these notices: in RUNNING every term is re-evaluated, the outputs
follow, and each change of value is told; elsewhere terms and outputs stand. The held zones and REL's filter are no part of
it (R132, R135, R137, R155). -/
def reevaluated (c : StationConfig) (q : List Notice) (s t : State) : Prop :=
  t.terms.heldOwn = s.terms.heldOwn ∧ t.terms.heldPeer = s.terms.heldPeer ∧ t.terms.rel = s.terms.rel ∧
    if s.ctrl.phase = .running then
      (∀ i : Fin 16, t.terms.flags[i] = flagsOver c s t i) ∧ drivesTaken [runningDrives c t.terms.flags] s t ∧
        t.notices = changeNotices s (fun i => s.terms.flags[i]) (fun i => t.terms.flags[i]) q
    else t.terms.flags = s.terms.flags ∧ drivesTaken [] s t ∧ t.notices = q

/-- A term at entry into RUNNING from s, with the zones held until then (R136). -/
def enteredFlags (c : StationConfig) (s t : State) (i : Fin 16) : TermFlags :=
  let x := c.terms[i]
  let live := termLive x t.table
  let held := (decide (x.scope ≠ .peers) && decide (x.zones &&& s.terms.heldOwn ≠ 0)) ||
    (decide (x.scope ≠ .self) && decide (x.zones &&& s.terms.heldPeer ≠ 0))
  { live := live, latched := x.latch && (live || (x.departed && held)) }

/-! ### Evidence and ticks (R6, R8, R10) -/

/-- The notices of evidence for one station, other than a STATE frame (R6, R8). -/
def heardNotices (s : State) (n : Station) (q : List Notice) : List Notice :=
  let heard := pushNotice q { plainNotice .peerHeard s with station := some n }
  match (s.entry n).presence with
  | .absent => if (s.entry n).roster then heard else pushNotice heard { plainNotice .stranger s with station := some n }
  | .silent => heard
  | .heard => q
  | .present => q
  | .self => q

/-- The notices of a confirm map's evidence, in ascending station number (R68). -/
def mapNotices (s : State) (m : StationMap) (q : List Notice) : List Notice :=
  stations.foldl (fun q n => if inMap m n then heardNotices s n q else q) q

/-- An entry one refresh tick older (R10). -/
def agedEntry (threshold : Nat) (e : Entry) : Entry :=
  if e.presence = .heard ∨ e.presence = .present then
    if e.age + 1 = threshold then
      { e with
        age := threshold, presence := .silent
        report := e.report.map (fun r => { r with stale := true }) }
    else { e with age := e.age + 1 }
  else e

/-- The listen interval expires at the next refresh tick (R174). -/
def State.joinsAtTick (s : State) : Bool := decide (s.ctrl.phase = .listening ∧ 3 ≤ s.ctrl.listenCount + 1)

/-- What a refresh tick does to the station controller and the slate: the counter, the listen interval, and the judgement
of R86 (R173 to R175). -/
def tickCounts (order : TickOrder) (s t : State) : Prop :=
  let sends := decide (s.ctrl.phase = .joining) || decide (s.ctrl.phase = .running) ||
    (s.joinsAtTick && order.expiryBeforeJudgement)
  changesOnly [.ctrl, .table, .slate, .terms, .outputs, .notices] s t ∧
    t.ctrl = { s.ctrl with
      tick := s.ctrl.tick + 1
      phase := if s.joinsAtTick then .joining else s.ctrl.phase
      listenCount :=
        if s.joinsAtTick then 3
        else if s.ctrl.phase = .listening then s.ctrl.listenCount + 1 else s.ctrl.listenCount } ∧
    t.slate = { s.slate with
      stateSent := false
      refresh := s.slate.refresh ||
        (decide (s.slate.stateSent = false ∧ s.slate.change = none ∧ s.health.state ≠ .withdrawn) && sends)
      join := s.slate.join || (s.joinsAtTick && decide (s.health.state ≠ .withdrawn)) }

/-- What a refresh tick does to the table and the terms, and the notices it raises, stamped with the advanced counter: a
PEER_SILENT for each entry that reaches the threshold, in ascending number, then the terms' changes; PHASE_CHANGED before
or after the aging where the listen interval expires (R10, R132, R137, R173, R175, R181). -/
def tickAges (order : TickOrder) (c : StationConfig) (s t : State) : Prop :=
  let silent := fun q : List Notice =>
    stations.foldl (fun q n =>
      if s.engineRuns = true ∧ ((s.entry n).presence = .heard ∨ (s.entry n).presence = .present) ∧
          (s.entry n).age + 1 = c.silence.toNat then
        pushNotice q { plainNotice .peerSilent t with station := some n }
      else q) q
  let joined := fun q : List Notice =>
    if s.joinsAtTick then pushNotice q { plainNotice .phaseChanged t with value := some (.phase .joining) } else q
  (∀ n : Station, n ≠ 0 →
      t.entry n = if s.engineRuns then agedEntry c.silence.toNat (s.entry n) else s.entry n) ∧
    (if s.ctrl.phase = .running then
      (∀ i : Fin 16, t.terms.flags[i] = flagsOver c s t i) ∧ drivesTaken [runningDrives c t.terms.flags] s t
    else t.terms.flags = s.terms.flags ∧ drivesTaken [] s t) ∧
    t.terms.heldOwn = s.terms.heldOwn ∧ t.terms.heldPeer = s.terms.heldPeer ∧ t.terms.rel = s.terms.rel ∧
    t.notices = changeNotices t (fun i => s.terms.flags[i]) (fun i => t.terms.flags[i])
      (if order.expiryBeforeAging then silent (joined s.notices) else joined (silent s.notices))

/-! ### Requests and series at the slate (R81 to R92) -/

/-- A series that has just begun, or begun again (R74, R89). -/
def freshSeries : Series := { attempts := 0, sequence := none, targets := none, heard := 0, superseded := false }

/-- The CHANGE slot after a request it takes, row by row (R89). -/
def changeMerged (onLine : Bool) : Option Series → Series
  | none => freshSeries
  | some x => if onLine then { x with superseded := true } else if x.attempts = 0 then x else freshSeries

/-- The RELEASE slot after a request with mask m that it takes, row by row; a frame on the line marks the series whatever
its attempt count (R91; at attempt count 0: log 12). -/
def releaseMerged (onLine : Bool) (m : ZoneMask) : Option ReleaseSlot → ReleaseSlot
  | none => { zones := m, series := freshSeries }
  | some r =>
    if m &&& ~~~r.zones = 0 then r
    else if onLine then { zones := r.zones ||| m, series := { r.series with superseded := true } }
    else if r.series.attempts = 0 then { zones := r.zones ||| m, series := r.series }
    else { zones := r.zones ||| m, series := freshSeries }

/-- The targets of a series that its accumulated heard map lacks after an attempt with this heard map, none for an abort
(R81). -/
def unreached (targets : StationMap) (heard : Option StationMap) (x : Series) : StationMap :=
  targets &&& ~~~(x.heard ||| heard.getD 0)

/-- A series without the superseded mark is delivered by a completion that leaves no target unreached (R81). -/
def deliveredBy (heard : Option StationMap) (x : Series) : Bool :=
  !x.superseded && heard.isSome && decide (unreached (x.targets.getD 0) heard x = 0)

/-- A series without the superseded mark, not delivered, ends short at its last attempt (R82). -/
def endsShort (limit : Nat) (heard : Option StationMap) (x : Series) : Bool :=
  !x.superseded && !deliveredBy heard x && decide (limit ≤ x.attempts + 1)

/-- What a slot holds of its series after an attempt: begun again if superseded, nothing if delivered or short, else one
attempt more with the heard map merged (R81, R82, R90). -/
def slotAfter (limit : Nat) (heard : Option StationMap) (x : Series) : Option Series :=
  if x.superseded then some freshSeries
  else if deliveredBy heard x || endsShort limit heard x then none
  else some { x with attempts := x.attempts + 1, heard := x.heard ||| heard.getD 0 }

/-- The missing map of an attempt that ends its series short, else nothing; a series that never opened takes its targets
then (R83). -/
def missedBy (heard : Option StationMap) (k : Kind) (s : State) : StationMap :=
  let missed := fun x : Series =>
    if endsShort s.attemptLimit heard x then unreached (x.targets.getD (currentTargets s.table)) heard x else 0
  match k with
  | .change => (s.slate.change.map missed).getD 0
  | .release => (s.slate.release.map (fun r => missed r.series)).getD 0
  | .refresh => 0
  | .join => 0
  | .resync => 0

/-- The slate after an attempt of a kind, completed with a heard map or, with none, aborted (R81, R82, R84, R85, R90, R92;
REFRESH at entry into RUNNING: R178). -/
def slateAfter (heard : Option StationMap) (k : Kind) (s : State) : Slate :=
  let limit := s.attemptLimit
  match k with
  | .change =>
    { s.slate with
      change := s.slate.change.bind (slotAfter limit heard)
      departureOwed := s.slate.departureOwed && s.slate.change.all (fun x => (slotAfter limit heard x).isSome)
      stateSent := s.slate.stateSent || heard.isSome
      refresh := s.slate.refresh && heard.isNone }
  | .release =>
    { s.slate with
      release := s.slate.release.bind (fun r => (slotAfter limit heard r.series).map (fun y => { r with series := y })) }
  | .refresh => { s.slate with refresh := false, stateSent := s.slate.stateSent || heard.isSome }
  | .join =>
    { s.slate with
      join := false
      refresh := s.slate.refresh || decide (s.ctrl.phase = .joining ∧ s.health.state ≠ .withdrawn) }
  | .resync => { s.slate with resync := false }

/-- The misses counted against the stations of a map, each counter staying at 255, and no other miss (R83). -/
def missesCounted (missing : StationMap) (s t : State) : Prop :=
  ∀ n : Station, n ≠ 0 →
    (t.entry n).deliveriesMissed =
      if inMap missing n = true then
        if (s.entry n).deliveriesMissed = 255 then 255 else (s.entry n).deliveriesMissed + 1
      else (s.entry n).deliveriesMissed

/-- The notice of a series that ends short, unless nothing is missing (R83). -/
def shortNotices (missing : StationMap) (s : State) (q : List Notice) : List Notice :=
  if missing = 0 then q else pushNotice q { plainNotice .deliveryShort s with value := some (.map missing) }

/-- A slate with every slot EMPTY and no departure owed, its sequences and its mark kept (R93, R94). -/
def emptySlate (x : Slate) : Slate :=
  { x with change := none, release := none, refresh := false, join := false, resync := false, departureOwed := false }

/-! ### Entry into RUNNING and changes of health (R113 to R117, R136, R178) -/

/-- The station enters RUNNING at an outcome of a frame of this kind (R84, R178). -/
def State.entersRunning (k : Kind) (s : State) : Bool := decide (k = .join ∧ s.ctrl.phase = .joining)

/-- The phase after an outcome of a frame of this kind, short of a conflict (R178). -/
def State.phaseAfter (k : Kind) (s : State) : Phase := if s.entersRunning k then .running else s.ctrl.phase

/-- Terms and outputs at entry into RUNNING (R136, R153). -/
def enteredTerms (c : StationConfig) (s t : State) : Prop :=
  (∀ i : Fin 16, t.terms.flags[i] = enteredFlags c s t i) ∧ t.terms.heldOwn = 0 ∧ t.terms.heldPeer = 0 ∧
    t.terms.rel = s.terms.rel ∧ drivesTaken [runningDrives c t.terms.flags] s t

/-- The notices of entry into RUNNING: PHASE_CHANGED, then a TERM_ASSERTED for each term asserted (R136, R178). -/
def enteredNotices (s : State) (flags : Fin 16 → TermFlags) (q : List Notice) : List Notice :=
  changeNotices s (fun _ => { live := false, latched := false }) flags
    (pushNotice q { plainNotice .phaseChanged s with value := some (.phase .running) })

/-- The notices of a declared number conflict: DUPLICATE_NUMBER, PHASE_CHANGED, and a TERM_CLEARED for each term asserted
until then (R122, R140, R180). -/
def conflictNotices (s : State) (flags : Fin 16 → TermFlags) (q : List Notice) : List Notice :=
  changeNotices s flags (fun _ => { live := false, latched := false })
    (pushNotice (pushNotice q { plainNotice .duplicateNumber s with station := some s.ctrl.ownNumber })
      { plainNotice .phaseChanged s with value := some (.phase .conflict) })

/-- The slate after a change of health: emptied on entering WITHDRAWN, asked for a RESYNC, a REFRESH and in JOINING a JOIN
on the return to NORMAL, as it was otherwise (R113, R115, R117). -/
def slateAfterHealth (phase : Phase) (s t : State) (x : Slate) : Slate :=
  if t.health.state = s.health.state then x
  else
    match s.health.state, t.health.state with
    | _, .withdrawn => emptySlate x
    | .withdrawn, .normal =>
      let sends := decide (phase = .joining) || decide (phase = .running)
      { x with
        resync := x.resync || sends, refresh := x.refresh || sends, join := x.join || decide (phase = .joining) }
    | _, _ => x

/-- The notice of a change of health (R113). -/
def healthNotices (s t : State) (q : List Notice) : List Notice :=
  if t.health.state = s.health.state then q
  else pushNotice q { plainNotice .healthChanged s with value := some (.health t.health.state) }

/-- The self entry's report after a change of health: its code NORMAL for NORMAL, RESTRAINED otherwise (R26, R113). -/
def selfReportAfterHealth (s t : State) (r : Option StoredReport) : Option StoredReport :=
  if t.health.state = s.health.state then r
  else
    r.map (fun x => { x with content := { x.content with
      health := if t.health.state = .normal then .normal else .restrained } })

/-- The self entry's report after an outcome of a frame of this kind, before any change of health: its phase code follows
an entry into RUNNING (R26). -/
def State.selfReportAfter (k : Kind) (s : State) : Option StoredReport :=
  (s.entry s.ctrl.ownNumber).report.map (fun x =>
    if s.entersRunning k then { x with content := { x.content with phase := .running } } else x)

/-- What an outcome's change of health does beside the count, from the slate, the notices and the self entry's report as
the outcome left them (R113). -/
def healthFollows (phase : Phase) (x : Slate) (q : List Notice) (r : Option StoredReport) (s t : State) : Prop :=
  t.slate = slateAfterHealth phase s t x ∧ t.notices = healthNotices s t q ∧
    (t.entry s.ctrl.ownNumber).report = selfReportAfterHealth s t r

/-! ### The tap port's answers (R190 to R198, R204; 11_formats.md, The Tap Port) -/

/-- A request and the code of its byte, for the commands of the port that carry no argument. -/
def codeNames (code : Byte) (r : Request) : Prop :=
  (code = 0x01 ∧ r = .status) ∨ (code = 0x03 ∧ r = .terms) ∨ (code = 0x04 ∧ r = .counters) ∨
    (code = 0x05 ∧ r = .peek) ∨ (code = 0x06 ∧ r = .take) ∨ (code = 0x08 ∧ r = .resync) ∨
    (code = 0x09 ∧ r = .restart) ∨ ((code = 0 ∨ 9 < code.toNat) ∧ r = .unknown)

/-- The status byte: 0 OK, 1 NOT_READY, 2 NOT_RUNNING, 3 EMPTY, 4 BAD_ARGUMENT, 5 UNKNOWN (R190, the table). -/
def State.statusByte (r : Request) (arg : Byte) (s : State) : Byte :=
  match r, s.ctrl.phase with
  | .status, _ => 0
  | _, .loading => 1
  | _, .halted => 1
  | .entry, _ => if arg = 0 ∨ 31 < arg.toNat then 4 else 0
  | .terms, _ => 0
  | .counters, _ => 0
  | .peek, _ => if s.notices = [] then 3 else 0
  | .take, _ => if s.notices = [] then 3 else 0
  | .release, .running => if arg = 0 then 4 else 0
  | .release, _ => if arg = 0 then 4 else 2
  | .resync, .running => 0
  | .resync, _ => 2
  | .restart, _ => 0
  | .unknown, _ => 5

/-- Eight bits as a byte, bit 7 first. -/
def packed (bits : List Bool) : Byte := bits.foldl (fun b x => (b <<< 1) ||| (if x then 1 else 0)) 0

/-- Sixteen bits as two bytes, most significant first. -/
def highLow (w : Word16) : List Byte := [(w >>> 8).setWidth 8, w.setWidth 8]

/-- Sixteen flags as two bytes, T15 most significant. -/
def packedTerms (flag : Fin 16 → Bool) : List Byte :=
  [packed [flag 15, flag 14, flag 13, flag 12, flag 11, flag 10, flag 9, flag 8],
    packed [flag 7, flag 6, flag 5, flag 4, flag 3, flag 2, flag 1, flag 0]]

/-- STATUS, offsets 1 to 13 (R191). -/
def State.statusLayout (s : State) : List Byte :=
  [s.ctrl.ownNumber.setWidth 8, s.ctrl.phase.code, s.ctrl.fault.code, s.ctrl.fault.index, s.health.state.code,
      BitVec.ofNat 8 s.health.garble, s.ctrl.cause.code, BitVec.ofNat 8 s.notices.length] ++
    highLow s.ctrl.tick ++
    match s.ctrl.fingerprint with
    | some w => 1 :: highLow w
    | none => [0, 0, 0]

/-- ENTRY, offsets 1 to 24, an absent field's bytes 0 (R192, R204). -/
def entryLayout (n : Station) (e : Entry) : List Byte :=
  [n.setWidth 8,
      packed [false, e.lastRelease.isSome, e.report.any (fun r => r.stale), e.report.isSome,
        e.plan.any (fun p => p.agrees), e.plan.isSome, e.zoneMap.isSome, e.roster],
      e.presence.code, BitVec.ofNat 8 e.age] ++
    (match e.zoneMap with
      | some z => [(z[0].setWidth 8 <<< 4) ||| z[1].setWidth 8, (z[2].setWidth 8 <<< 4) ||| z[3].setWidth 8]
      | none => [0, 0]) ++
    (match e.plan with
      | some p => highLow p.fingerprint
      | none => [0, 0]) ++
    (match e.report with
      | some r =>
        [r.sequence.setWidth 8, if r.content.phase = .running then 1 else 0,
            if r.content.health = .restrained then 1 else 0] ++
          groupIndices.flatMap (fun g =>
            let x := r.content.groups[g]
            [x.lines.setWidth 8 ||| (if x.conforming then 0x10 else 0), x.tally.setWidth 8])
      | none => [0, 0, 0, 0, 0, 0, 0, 0, 0, 0, 0]) ++
    [match e.lastRelease with
      | some q => q.setWidth 8
      | none => 0] ++
    highLow e.framesAccepted ++ [e.sequenceGaps, e.deliveriesMissed]

/-- TERMS, offsets 1 to 8: live, latched, value, and the drives by their codes, D7 most significant (R193). -/
def State.termsLayout (s : State) : List Byte :=
  let drive := fun d : Fin 8 => s.outputs[d].code.setWidth 8
  packedTerms (fun i => s.terms.flags[i].live) ++ packedTerms (fun i => s.terms.flags[i].latched) ++
    packedTerms (fun i => s.terms.flags[i].live || s.terms.flags[i].latched) ++
    [(drive 7 <<< 6) ||| (drive 6 <<< 4) ||| (drive 5 <<< 2) ||| drive 4,
      (drive 3 <<< 6) ||| (drive 2 <<< 4) ||| (drive 1 <<< 2) ||| drive 0]

/-- PEEK and TAKE, offsets 1 to 11, an absent field's bytes 0 (R195, R204). -/
def noticeLayout (n : Notice) : List Byte :=
  [n.kind.code, packed [false, false, false, false, false, false, n.term.isSome, n.station.isSome]] ++
    highLow n.stamp ++
    [match n.station with
      | some k => k.setWidth 8
      | none => 0,
      match n.term with
      | some i => BitVec.ofNat 8 i.val
      | none => 0] ++
    match n.value with
    | none => [0, 0, 0, 0, 0]
    | some (.health h) => [1, h.code, 0, 0, 0]
    | some (.phase p) => [2, p.code, 0, 0, 0]
    | some (.fault f) => [3, f.code, f.index, 0, 0]
    | some (.map m) =>
      [4, (m >>> 24).setWidth 8, (m >>> 16).setWidth 8, (m >>> 8).setWidth 8, m.setWidth 8]

/-- What follows the status byte of a request answered OK (R191 to R198). -/
def State.responseLayout (r : Request) (arg : Byte) (s : State) : List Byte :=
  match r with
  | .status => s.statusLayout
  | .entry => entryLayout (arg.setWidth 5) (s.entry (arg.setWidth 5))
  | .terms => s.termsLayout
  | .counters =>
    let c := s.engine.counters
    highLow c.completed ++ highLow c.aborted ++ highLow c.lost ++ highLow c.accepted ++ highLow c.rejected ++
      highLow c.abandoned
  | .peek =>
    match s.notices with
    | n :: _ => noticeLayout n
    | [] => []
  | .take =>
    match s.notices with
    | n :: _ => noticeLayout n
    | [] => []
  | .resync => [if s.health.state = .withdrawn then 0 else 1]
  | .release => []
  | .restart => []
  | .unknown => []

/-- A response: the status byte, and the content when it is OK (R188). -/
def State.answerTo (r : Request) (arg : Byte) (s : State) : List Byte :=
  s.statusByte r arg :: (if s.statusByte r arg = 0 then s.responseLayout r arg else [])

/-- The bytes of a response answered OK, the status byte included (11_formats.md, the table of requests). -/
def Request.okLength : Request → Nat
  | .status => 14
  | .entry => 25
  | .terms => 9
  | .counters => 13
  | .peek => 12
  | .take => 12
  | .release => 1
  | .resync => 2
  | .restart => 1
  | .unknown => 1

/-! ### The confirm window on the line (R66, R96, R98, R108) -/

/-- LEN and LTX through the 31 slots: the own slot of a station that confirms is a bit period of value 1, LEN asserted for
it alone; no other slot is driven (R66, R96, R98, R108; that this lies inside WINDOW_END is the model's reading, log 10). -/
def slotsDriven (f : Frame) (s t : State) : Prop :=
  t.line.drove.length = 124 ∧
    ∀ k : Station, k ≠ 0 →
      (t.line.drove.drop (4 * (k.toNat - 1))).take 4 =
        if f.confirms = true ∧ k = s.ctrl.ownNumber then
          [{ len := true, ltx := true }, { len := true, ltx := true }, { len := true, ltx := true },
            { len := true, ltx := false }]
        else List.replicate 4 { len := false, ltx := false }

end Sys2Proof.Machine
end

