-- ==== Sys2Proof/Certificates/Slice0/Obligations.lean ====
section
/-! DEFINITION. The statements for the provers. Where one rests on a choice of the model's own, its docstring names the
log entry. -/

open Sys2Proof Sys2Proof.Machine

/-! ### The queue -/

/-- A step with a command at the front of the queue is exec of that command on the state with the queue's rest (the
queue is the model's, log 1). -/
def Obligations.StepRunsFrontCommand : Prop :=
  ∀ (c : Instr) (rest : List Instr) (s : State), s.pending = c :: rest → step s = exec c { s with pending := rest }

/-- On an empty queue the block idles (log 1). -/
def Obligations.StepIdlesOnEmptyQueue : Prop :=
  ∀ s : State, s.pending = [] → step s = .next s

/-- The model's choice: every command answers a next state, one whose event cannot happen too (log 3), and none touches
the queue, which is the model's own (log 1), a reset included (log 28). -/
def Obligations.EveryCommandGoesOn : Prop :=
  ∀ (c : Instr) (s : State), ∃ t, exec c s = .next t ∧ t.pending = s.pending

/-! ### Resets (R162, R163) -/

/-- A power-on reset and the RESET pin leave every block at its after-reset state from whatever state it is in, with the
reset's own cause and the reset held; TSEL keeps its level (R162, R163). That the waiting commands stay is the model's
choice (log 28); the record of quarters driven and the trace of the outputs, empty after a reset, are its own (log
20). -/
def Obligations.HeldResetsClearEveryBlock : Prop :=
  ∀ s : State,
    (∃ t, exec .powerOnReset s = .next t ∧ State.AfterReset .power t ∧ t.pins = { s.pins with powerHeld := true } ∧
      t.pending = s.pending) ∧
    (∃ t, exec .resetPin s = .next t ∧ State.AfterReset .pin t ∧ t.pins = { s.pins with pinHeld := true } ∧
      t.pending = s.pending)

/-- An armed restart takes effect at the release of TSEL, however many response bytes were clocked out, and leaves the
same state as those two, with cause TAP (R198, R189, R162). That no hold follows it is the model's reading (log 15),
that the waiting commands stay its choice (log 28); the record of quarters driven and the trace of the outputs are its
own (log 20). -/
def Obligations.ArmedRestartResetsAtRelease : Prop :=
  ∀ (tsdi : List Bool) (s : State), s.pins.tsel = true → s.tap.state = .response → s.tap.restartArmed = true →
    ∃ t, exec (.tselRelease tsdi) s = .next t ∧ State.AfterReset .tap t ∧ t.pins = { s.pins with tsel := false } ∧
      t.pending = s.pending

/-- The end of a hold: while the other source still holds, the reset goes on; the last to end settles the cause, and the
tap port comes out IDLE, or WAIT_RELEASE with TSEL still asserted (R163, R199). That a command for a hold not in force
changes nothing is the model's choice (log 3). -/
def Obligations.ResetEndSettlesCauseAndTapPort : Prop :=
  ∀ (source : HeldSource) (s : State),
    if s.pins.holds source = true then
      ∃ t, exec (.resetEnd source) s = .next t ∧ t.pins = s.pins.unhold source ∧
        if t.inReset = true then changesOnly [.pins] s t
        else
          changesOnly [.pins, .ctrl, .tap] s t ∧ t.ctrl = { s.ctrl with cause := causeOf source } ∧
            t.tap.state = (if s.pins.tsel then .waitRelease else .idle) ∧ t.tap.response = none ∧
            t.tap.takeArmed = false ∧ t.tap.restartArmed = false
    else exec (.resetEnd source) s = .next s

/-- The state the model calls reset is the after-reset state of a power-on reset that has ended with TSEL released, and
no command waits (log 2; log 20 for the record of quarters driven and the trace of the outputs). -/
def Obligations.ResetStateIsAfterPowerOn : Prop :=
  State.AfterReset .power State.reset ∧ State.reset.pins = { powerHeld := false, pinHeld := false, tsel := false } ∧
    State.reset.pending = []

/-! ### Loading (R164 to R172, R202) -/

/-- A header with signature 5D 31 and length 130 is kept, and the attempt reads on; on the port stand the freeing
clocks, the addressing and the four bytes, each acknowledged (R164 to R166, R202). -/
def Obligations.GoodHeaderIsReadOn : Prop :=
  ∀ (freeing : Nat) (revision : Byte) (s : State), s.reading = true → s.loader.image = [] → freeing ≤ 9 →
    ∃ t, exec (.headerRead freeing 0x5D 0x31 130 revision) s = .next t ∧ changesOnly [.loader] s t ∧
      t.loader.image = [0x5D, 0x31, 130, revision] ∧ t.loader.progress = .reading ∧
      t.loader.attempt = s.loader.attempt ∧ t.loader.config = s.loader.config ∧
      t.loader.port =
        (if freeing = 0 then [] else [BusOp.freeClocks freeing]) ++
          [.start, .send 0xA6, .send 0, .send 0, .repeatedStart, .send 0xA7, .take 0x5D true, .take 0x31 true,
            .take 130 true, .take revision true]

/-- A header that fails ends the load at once, the signature judged before the length; byte 3 is not acknowledged and a
stop condition follows (R165, R166, R169, R202). That a line held low in that stop condition changes nothing is the
model's choice (log 40). -/
def Obligations.BadHeaderHalts : Prop :=
  ∀ (freeing : Nat) (high low length revision : Byte) (s : State), s.reading = true → s.loader.image = [] →
    freeing ≤ 9 →
    let port :=
      (if freeing = 0 then [] else [BusOp.freeClocks freeing]) ++
        [.start, .send 0xA6, .send 0, .send 0, .repeatedStart, .send 0xA7, .take high true, .take low true,
          .take length true, .take revision false, .stop];
    (¬(high = 0x5D ∧ low = 0x31) →
      ∃ t, exec (.headerRead freeing high low length revision) s = .next t ∧ haltedWith .badSignature s t ∧
        t.loader.port = port) ∧
    (high = 0x5D → low = 0x31 → length ≠ 130 →
      ∃ t, exec (.headerRead freeing high low length revision) s = .next t ∧ haltedWith .badLength s t ∧
        t.loader.port = port)

/-- A transport failure on attempt 1 or 2 discards the image buffer and pauses; the pause's end starts the next attempt
from the first byte; a failure on attempt 3 halts with NO_MEMORY. What the loader had driven and taken stands on the
port: the freeing clocks, the addressing up to the fault, each byte read with its acknowledge (R164, R165, R169, R202;
how the lines are left is the model's reading, log 16). -/
def Obligations.TransportFailureRetriesTwice : Prop :=
  (∀ (freeing : Nat) (read : List Byte) (cause : BusFault) (s : State), s.reading = true →
    failureOk freeing cause = true → faultPlaceOk (!s.loader.image.isEmpty) read cause = true →
    let port :=
      (if s.loader.image = [] then
        (if freeing = 0 then [] else [.freeClocks freeing]) ++
          [BusOp.start, .send 0xA6, .send 0, .send 0, .repeatedStart, .send 0xA7].take (addressingDriven cause)
      else s.loader.port) ++
        read.mapIdx (fun j b => .take b (decide (j ≠ 125))) ++
        match cause with
        | .noAckBusAddress _ => [.stop]
        | .noAckMemoryAddress _ => [.stop]
        | .dataHeldLow => [.released]
        | .clockHeldLow _ => [.released]
        | .dataLowInCondition _ => [.released];
    (s.loader.attempt < 3 →
      ∃ t, exec (.transportFailure freeing cause read) s = .next t ∧ changesOnly [.loader] s t ∧
        t.loader.progress = .paused ∧ t.loader.image = [] ∧ t.loader.attempt = s.loader.attempt ∧
        t.loader.config = s.loader.config ∧ t.loader.port = port) ∧
    (3 ≤ s.loader.attempt →
      ∃ t, exec (.transportFailure freeing cause read) s = .next t ∧ haltedWith .noMemory s t ∧
        t.loader.port = port)) ∧
  (∀ s : State, s.ctrl.phase = .loading → s.inReset = false → s.loader.progress = .paused →
    ∃ t, exec .pauseEnd s = .next t ∧ changesOnly [.loader] s t ∧ t.loader.progress = .reading ∧
      t.loader.attempt = s.loader.attempt + 1 ∧ t.loader.image = [] ∧ t.loader.config = s.loader.config)

/-- The image is checked in order, and the first check that fails halts the station with its fault: the check word, then
the fields in ascending index, each in the range of its row of the table, then the roster; byte 129 is not acknowledged,
and a stop condition follows (R166 to R169, R201, R202). -/
def Obligations.FirstFailingCheckHalts : Prop :=
  (∀ img : List Byte,
    let byte := fun offset : Nat => (img.getD offset 0).toNat;
    (checkWordOk img = true ↔ crc (bytesBits (img.take 128)) = img.getD 128 0 ++ img.getD 129 0) ∧
    (fieldOk img 2 = true ↔ byte 3 = 1) ∧ (fieldOk img 3 = true ↔ 1 ≤ byte 4 ∧ byte 4 ≤ 31) ∧
    (fieldOk img 4 = true ↔ byte 5 ≤ 3) ∧ (fieldOk img 5 = true ↔ byte 6 ≤ 3) ∧
    (fieldOk img 6 = true ↔ byte 7 ≤ 3) ∧ (fieldOk img 7 = true ↔ 2 ≤ byte 8 ∧ byte 8 ≤ 15) ∧
    (fieldOk img 8 = true ↔ byte 9 ≤ 7) ∧ (fieldOk img 9 = true ↔ byte 13 % 2 = 0) ∧
    (∀ g < 4,
      (fieldOk img (10 + 4 * g) = true ↔ byte (14 + 4 * g) ≤ 15) ∧
      (fieldOk img (11 + 4 * g) = true ↔ byte (15 + 4 * g) ≤ 15) ∧
      (fieldOk img (12 + 4 * g) = true ↔ byte (16 + 4 * g) ≤ 7) ∧
      (fieldOk img (13 + 4 * g) = true ↔ byte (17 + 4 * g) ≤ 7)) ∧
    (∀ i < 16,
      fieldOk img (26 + 4 * i) = true ∧ (fieldOk img (27 + 4 * i) = true ↔ byte (31 + 4 * i) ≤ 7) ∧
      (fieldOk img (28 + 4 * i) = true ↔ byte (32 + 4 * i) ≤ 2) ∧
      (fieldOk img (29 + 4 * i) = true ↔ byte (33 + 4 * i) ≤ 1)) ∧
    (∀ d < 8,
      (fieldOk img (90 + 4 * d) = true ↔ byte (94 + 4 * d) ≤ 15 ∨ byte (94 + 4 * d) = 255) ∧
      (fieldOk img (91 + 4 * d) = true ↔ byte (95 + 4 * d) ≤ 1) ∧
      (fieldOk img (92 + 4 * d) = true ↔ byte (96 + 4 * d) ≤ 1) ∧
      (fieldOk img (93 + 4 * d) = true ↔ byte (97 + 4 * d) ≤ 1)) ∧
    fieldOk img 122 = true ∧ (fieldOk img 123 = true ↔ byte 127 ≤ 1)) ∧
  ∀ (rest : List Byte) (sample : SenseSample) (s : State), s.reading = true → s.loader.image.length = 4 →
    rest.length = 126 →
    let port := s.loader.port ++ rest.mapIdx (fun j b => BusOp.take b (decide (j ≠ 125))) ++ [.stop];
    (checkWordOk (s.loader.image ++ rest) = false →
      ∃ t, exec (.imageComplete rest sample) s = .next t ∧ haltedWith .badCheck s t ∧ t.loader.port = port) ∧
    (checkWordOk (s.loader.image ++ rest) = true →
      (∀ i, 2 ≤ i → i ≤ 123 → fieldOk (s.loader.image ++ rest) i = false →
        (∀ j, 2 ≤ j → j < i → fieldOk (s.loader.image ++ rest) j = true) →
        ∃ t, exec (.imageComplete rest sample) s = .next t ∧ haltedWith (.badValue i) s t ∧
          t.loader.port = port) ∧
      ((∀ i, 2 ≤ i → i ≤ 123 → fieldOk (s.loader.image ++ rest) i = true) →
        (imageRoster (s.loader.image ++ rest)).getLsbD (imageByte (s.loader.image ++ rest) 4).toNat = false →
        ∃ t, exec (.imageComplete rest sample) s = .next t ∧ haltedWith .selfNotInRoster s t ∧
          t.loader.port = port))

/-- An image that passes every check brings the station into LISTENING in one event: configuration, field by field from
its place in the image, own number, roster flags, fingerprint, watch unit with its first sample, REL's first sample with
nothing released and the held zones kept, self entry, outputs at rest, line and engine started, ticks at 0, and the
PHASE_CHANGED stamped 0 (R172, R2, R25, R31, R33, R35, R141, R142, R152, R170, R171, R202; the row of drives the trace
gains: log 37). -/
def Obligations.ValidLoadEntersListening : Prop :=
  ∀ (rest : List Byte) (sample : SenseSample) (s : State), s.reading = true → s.loader.image.length = 4 →
    rest.length = 126 → checkWordOk (s.loader.image ++ rest) = true →
    (∀ i, 2 ≤ i → i ≤ 123 → fieldOk (s.loader.image ++ rest) i = true) →
    (imageRoster (s.loader.image ++ rest)).getLsbD (imageByte (s.loader.image ++ rest) 4).toNat = true →
    ∃ t c, exec (.imageComplete rest sample) s = .next t ∧ c = parseImage (s.loader.image ++ rest) ∧
      changesOnly [.ctrl, .loader, .watch, .line, .engine, .table, .terms, .outputs, .notices] s t ∧
      t.loader.progress = .done ∧ t.loader.config = some c ∧
      t.ctrl = { s.ctrl with
        phase := .listening, ownNumber := c.number, listenCount := 0, ticking := true, tick := 0,
        fingerprint := some (planFingerprint c) } ∧
      t.loader.port = s.loader.port ++ rest.mapIdx (fun j b => BusOp.take b (decide (j ≠ 125))) ++ [.stop] ∧
      (let byte := fun offset : Nat => (s.loader.image ++ rest).getD offset 0;
        c.revision = byte 3 ∧ c.number = (byte 4).setWidth 5 ∧ c.bitRate = (byte 5).setWidth 2 ∧
          c.tickCode = (byte 6).setWidth 2 ∧ c.sampleCode = (byte 7).setWidth 2 ∧ c.silence = (byte 8).setWidth 4 ∧
          c.retryLimit = (byte 9).setWidth 3 ∧ c.roster = byte 10 ++ byte 11 ++ byte 12 ++ byte 13 ∧
          (∀ g : Fin 4, c.groups[g] =
            { selected := (byte (14 + 4 * g.val)).setWidth 4, expected := (byte (15 + 4 * g.val)).setWidth 4
              zone := (byte (16 + 4 * g.val)).setWidth 3, depth := (byte (17 + 4 * g.val)).setWidth 3 }) ∧
          (∀ i : Fin 16, c.terms[i] =
            { zones := byte (30 + 4 * i.val), departed := (byte (31 + 4 * i.val)).getLsbD 0
              unseen := (byte (31 + 4 * i.val)).getLsbD 1, plan := (byte (31 + 4 * i.val)).getLsbD 2
              scope :=
                if byte (32 + 4 * i.val) = 0 then .all else if byte (32 + 4 * i.val) = 1 then .peers else .self
              latch := decide (byte (33 + 4 * i.val) = 1) }) ∧
          (∀ d : Fin 8, c.outputs[d] =
            { binding :=
                if byte (94 + 4 * d.val) = 0xFF then none else some (Fin.ofNat 16 (byte (94 + 4 * d.val)).toNat)
              mode := if byte (95 + 4 * d.val) = 0 then .permit else .indicate
              permitHigh := decide (byte (96 + 4 * d.val) = 1)
              rest := if byte (97 + 4 * d.val) = 0 then .driven else .openRest }) ∧
          c.releaseZones = byte 126 ∧ c.networkRelease = decide (byte 127 = 1) ∧
          planFingerprint c = crc (bytesBits
            [byte 3, byte 5, byte 6, byte 8, byte 10, byte 11, byte 12, byte 13])) ∧
      t.watch.sampling = true ∧
      (∀ k : Fin 16,
        let depth := (c.groups[(⟨k.val / 4, by omega⟩ : Fin 4)]).depth.toNat
        let level := sample.lines.getLsbD k.val
        t.watch.lines[k] =
          { last := some level, count := 1, filtered := if depth = 0 then some level else none }) ∧
      (∀ g : Fin 4,
        let selected := fun k : Fin 4 => c.groups[g].selected.getLsbD k.val = true
        let level := fun k : Fin 4 => t.watch.lines[lineIndex g k].filtered
        t.watch.groups[g].state =
            (if ¬ (∀ k, selected k → level k ≠ none) then .settling
            else if ∀ k, selected k → level k = some (c.groups[g].expected.getLsbD k.val) then .conforming
            else .departed) ∧
          t.watch.groups[g].tally = 0) ∧
      (∀ n : Station, n ≠ 0 → n ≠ c.number → t.entry n = { s.entry n with roster := inMap c.roster n }) ∧
      t.entry c.number =
        { s.entry c.number with
          roster := inMap c.roster c.number, presence := .self, age := 0, lastRelease := some 0
          zoneMap := some (Vector.ofFn (fun g : Fin 4 => c.groups[g].zone))
          plan := some { fingerprint := planFingerprint c, agrees := true }
          report := some
            { sequence := 0, stale := false
              content := { phase := .joining, health := .normal, groups := t.watch.records } } } ∧
      drivesTaken [restDrives c] s t ∧ t.line.running = true ∧ t.line.grid.isSome = true ∧
      t.line.len = s.line.len ∧ t.line.ltx = s.line.ltx ∧
      t.engine.state = .discarding ∧ t.engine.counters = s.engine.counters ∧ t.engine.frame = s.engine.frame ∧
      (let old := s.terms.rel
        let count := if old.last = some (!sample.rel) then min (old.count + 1) 4 else 1
        t.terms = { s.terms with
          rel :=
            { last := some (!sample.rel), count := count
              filtered := if count = 4 then some (!sample.rel) else old.filtered } }) ∧
      t.notices = pushNotice s.notices { plainNotice .phaseChanged t with value := some (.phase .listening) }

/-! ### The watch unit (R32 to R43, R141) -/

/-- At a sample event every line's filter and REL's are updated as R33 and R141 give, at the depth of the line's group
and at depth 3, and every group then goes by the filtered levels of its selected lines: out of SETTLING once all are
settled, CONFORMING where each is at its expected level, DEPARTED otherwise, its tally up by one at a departure alone;
only the blocks that the watch unit hands on to change, and of the table only the self entry. A departure is signalled
to the terms: in RUNNING it sets latches after the re-evaluation of a changed report, in LISTENING and JOINING its zone
is held, else it is lost. A REL press in RUNNING with a mask then releases: the own terms, and where configured the
slate's RELEASE slot; nothing else releases. While the watch unit's timer is stopped there is no sample event (R32, R33,
R41, R42, R46, R91, R132 to R138, R141, R142, R144; a slot on the line at attempt count 0: log 12, the rows of drives
the trace gains: log 37). -/
def Obligations.SampleEventFiltersEveryLine : Prop :=
  (∀ (x : SenseSample) (s : State) (c : StationConfig), s.watch.sampling = true → s.loader.config = some c →
    ∃ t, exec (.sampleEvent x) s = .next t ∧
      (∀ k : Fin 16,
        let depth := (c.groups[(⟨k.val / 4, by omega⟩ : Fin 4)]).depth.toNat
        let old := s.watch.lines[k]
        let level := x.lines.getLsbD k.val
        let count := if old.last = some level then min (old.count + 1) (depth + 1) else 1
        t.watch.lines[k] =
          { last := some level, count := count, filtered := if count = depth + 1 then some level else old.filtered }) ∧
      (let old := s.terms.rel
        let count := if old.last = some (!x.rel) then min (old.count + 1) 4 else 1
        t.terms.rel =
          { last := some (!x.rel), count := count, filtered := if count = 4 then some (!x.rel) else old.filtered }) ∧
      (∀ g : Fin 4,
        let selected := fun k : Fin 4 => c.groups[g].selected.getLsbD k.val = true
        let level := fun k : Fin 4 => t.watch.lines[lineIndex g k].filtered
        let old := s.watch.groups[g]
        t.watch.groups[g].state =
            (if old.state = .settling ∧ ¬ (∀ k, selected k → level k ≠ none) then .settling
            else if ∀ k, selected k → level k = some (c.groups[g].expected.getLsbD k.val) then .conforming
            else .departed) ∧
          t.watch.groups[g].tally =
            if old.state = .conforming ∧ t.watch.groups[g].state = .departed then old.tally + 1 else old.tally) ∧
      t.watch.sampling = true ∧
      changesOnly [.watch, .table, .slate, .terms, .outputs, .notices] s t ∧ entriesKept s.ctrl.ownNumber s t ∧
      (let zoneOf := fun g : Fin 4 => some c.groups[g].zone
        let departed := groupIndices.filter (departedAt s.watch t.watch)
        let evaluated : Fin 16 → TermFlags := fun i =>
          if t.watch.records = s.watch.records then s.terms.flags[i] else flagsOver c s t i
        let signalled := signalledFlags c true zoneOf departed evaluated
        let releases := decide (s.terms.rel.filtered = some false ∧ t.terms.rel.filtered = some true ∧
          s.ctrl.phase = .running ∧ c.releaseZones ≠ 0)
        let notices := signalNotices c true zoneOf departed evaluated s
          (changeNotices s (fun i => s.terms.flags[i]) evaluated s.notices)
        (if s.ctrl.phase = .running then
          (∀ i : Fin 16, t.terms.flags[i] =
            if releases then releasedFlags c c.releaseZones signalled i else signalled i) ∧
            drivesTaken
              ((if t.watch.records = s.watch.records then [] else [runningDrives c (Vector.ofFn evaluated)]) ++
                signalDrives c true zoneOf departed evaluated ++
                (if releases then [runningDrives c t.terms.flags] else [])) s t ∧
            t.notices = (if releases then releaseNotices c c.releaseZones none signalled s notices else notices)
        else t.terms.flags = s.terms.flags ∧ drivesTaken [] s t ∧ t.notices = s.notices) ∧
        t.terms.heldPeer = s.terms.heldPeer ∧
        (if s.ctrl.phase = .listening ∨ s.ctrl.phase = .joining then
          ∀ z : Zone, inZones t.terms.heldOwn z = (inZones s.terms.heldOwn z || zoneNamed zoneOf departed z)
        else t.terms.heldOwn = s.terms.heldOwn) ∧
        t.slate = { s.slate with
          change := t.slate.change, departureOwed := t.slate.departureOwed
          release :=
            if releases && c.networkRelease && decide (s.health.state ≠ .withdrawn) then
              some (releaseMerged (s.onLine .release) c.releaseZones s.slate.release)
            else s.slate.release })) ∧
  (∀ (x : SenseSample) (s : State), s.watch.sampling = false → exec (.sampleEvent x) s = .next s)

/-- A group's departure tally changes only by 1 modulo 16 at a sample event that takes the group from CONFORMING to
DEPARTED, or to 0 at a reset or with the load that starts the watch unit (R40). -/
def Obligations.TallyCountsDeparturesAlone : Prop :=
  ∀ (c : Instr) (s t : State) (g : Fin 4), exec c s = .next t →
    t.watch.groups[g].tally = s.watch.groups[g].tally ∨
    ((∃ x, c = .sampleEvent x) ∧ s.watch.groups[g].state = .conforming ∧ t.watch.groups[g].state = .departed ∧
      t.watch.groups[g].tally = s.watch.groups[g].tally + 1) ∨
    (t.watch.groups[g].tally = 0 ∧ (resets c s ∨ ∃ rest x, c = .imageComplete rest x))

/-- A sample event leaves the self entry with the watch unit's four group records and nothing else of its report
changed, and hands the slate a CHANGE request exactly when a group departed or was restored and the slate takes one: an
EMPTY slot takes a new series, one on the line is marked superseded, one with an attempt spent is reset, another is
kept, and a departure sets the departure-owed flag in every case. The records are the filtered levels, or the last
sample of a line not yet settled, the conforming flag and the tally (R34, R37, R38, R41, R43, R75, R89, R92). -/
def Obligations.SampleEventPublishesAndAnnounces : Prop :=
  (∀ (w w' : WatchUnit) (g : Fin 4),
    (∀ k : Fin 4, w.records[g].lines.getLsbD k.val =
      let line := w.lines[lineIndex g k]
      line.filtered.getD (line.last.getD false)) ∧
    w.records[g].conforming = decide (w.groups[g].state = .conforming) ∧ w.records[g].tally = w.groups[g].tally ∧
    (departedAt w w' g = true ↔ w.groups[g].state = .conforming ∧ w'.groups[g].state = .departed) ∧
    (restoredAt w w' g = true ↔ w.groups[g].state = .departed ∧ w'.groups[g].state = .conforming)) ∧
  ∀ (x : SenseSample) (s : State) (c : StationConfig) (r : StoredReport), s.watch.sampling = true →
    s.loader.config = some c → s.ctrl.ownNumber ≠ 0 → (s.entry s.ctrl.ownNumber).report = some r →
    r.content.groups = s.watch.records →
    ∃ t, exec (.sampleEvent x) s = .next t ∧
      t.entry s.ctrl.ownNumber =
        { s.entry s.ctrl.ownNumber with
          report := some { r with content := { r.content with groups := t.watch.records } } } ∧
      (let departed := groupIndices.any (departedAt s.watch t.watch)
        let restored := groupIndices.any (restoredAt s.watch t.watch)
        if (departed || restored) && s.takes .change then
          t.slate.change = some (changeMerged (s.onLine .change) s.slate.change) ∧
            t.slate.departureOwed = (s.slate.departureOwed || departed)
        else t.slate.change = s.slate.change ∧ t.slate.departureOwed = s.slate.departureOwed)

/-! ### Releases (R138) -/

/-- A release with mask m in RUNNING clears the latch of every term it meets that is not live, leaves the others, drives
the outputs from the new values, and raises TERM_CLEARED or RELEASE_REFUSED for each term met, in ascending order, the
refusal naming the sender of a network release; outside RUNNING it does nothing (R138, R150, R155). That the trace gains
a row of drives even where no drive moves is the model's choice (log 37). -/
def Obligations.ReleaseClearsOrRefuses : Prop :=
  (∀ (c : StationConfig) (m : ZoneMask) (sender : Option Station) (s : State), s.ctrl.phase = .running →
    s.loader.config = some c →
    changesOnly [.terms, .outputs, .notices] s (s.applyRelease m sender) ∧
    (∀ i : Fin 16, (s.applyRelease m sender).terms.flags[i] = releasedFlags c m (fun j => s.terms.flags[j]) i) ∧
    drivesTaken [runningDrives c (s.applyRelease m sender).terms.flags] s (s.applyRelease m sender) ∧
    (s.applyRelease m sender).notices = releaseNotices c m sender (fun j => s.terms.flags[j]) s s.notices) ∧
  (∀ (m : ZoneMask) (sender : Option Station) (s : State), s.ctrl.phase ≠ .running → s.applyRelease m sender = s)

/-! ### Ticks (R10, R86, R173 to R175) -/

/-- A refresh tick advances the tick counter, sets the state-sent mark to no, asks for a REFRESH as R86 gives, and counts
the listen interval: its third tick enters JOINING and requests the JOIN, in either order with the slate's judgement
(R75, R86, R173 to R175; outside LISTENING the listen count shows its last value: log 20). A timer that does not run
brings no tick. -/
def Obligations.RefreshTickCountsAndJudges : Prop :=
  (∀ (order : TickOrder) (s : State), s.ctrl.ticking = true →
    ∃ t, exec (.refreshTick order) s = .next t ∧ tickCounts order s t) ∧
  (∀ (order : TickOrder) (s : State), s.ctrl.ticking = false → exec (.refreshTick order) s = .next s)

/-- At a refresh tick in LISTENING, JOINING or RUNNING every HEARD or PRESENT entry gains a tick of age, one whose new
age equals the silence threshold goes SILENT with its report stale and a PEER_SILENT notice naming it, in ascending
station number, and in RUNNING the terms are re-evaluated with their notices after those; in the other phases no entry
changes. Every notice bears the advanced counter (R3, R10, R132, R137, R173, R181; the row of drives the trace gains:
log 37). -/
def Obligations.RefreshTickAgesPeers : Prop :=
  ∀ (order : TickOrder) (s : State) (c : StationConfig), s.ctrl.ticking = true → s.loader.config = some c →
    ∃ t, exec (.refreshTick order) s = .next t ∧ tickAges order c s t

/-- PEER_SILENT is the refresh tick that brings an entry to the silence threshold: SILENT, its report stale, and a
PEER_SILENT naming it, in RUNNING as in LISTENING and JOINING, stamped with the advanced counter; every other entry ages
in the same event, and the tick does all it does besides (R10, R173; that the row is a whole tick is the model's
reading, log 6, and the row of drives the trace gains is its own, log 37). -/
def Obligations.PeerFallsSilentAtThreshold : Prop :=
  ∀ (n : Station) (order : TickOrder) (s : State) (c : StationConfig), n ≠ 0 → s.ctrl.ticking = true →
    s.engineRuns = true → s.loader.config = some c →
    ((s.entry n).presence = .heard ∨ (s.entry n).presence = .present) → (s.entry n).age + 1 = c.silence.toNat →
    ∃ t, exec (.peerSilent n order) s = .next t ∧ tickCounts order s t ∧ tickAges order c s t ∧
      t.entry n =
        { s.entry n with
          age := c.silence.toNat, presence := .silent
          report := (s.entry n).report.map (fun r => { r with stale := true }) }

/-- LISTEN_EXPIRY is the refresh tick that brings the listen count to 3: JOINING, its notice stamped with the advanced
counter, and the JOIN request, taken unless the station is WITHDRAWN; the tick does all it does besides (R173 to R175,
R75; that the row is a whole tick is the model's reading, log 5, and the row of drives the trace gains is its own, log
37). -/
def Obligations.ListenExpiryEntersJoining : Prop :=
  ∀ (order : TickOrder) (s : State) (c : StationConfig), s.ctrl.ticking = true → s.ctrl.phase = .listening →
    s.ctrl.listenCount = 2 → s.loader.config = some c →
    ∃ t, exec (.listenExpiry order) s = .next t ∧ tickCounts order s t ∧ tickAges order c s t ∧
      t.ctrl = { s.ctrl with phase := .joining, listenCount := 3, tick := s.ctrl.tick + 1 } ∧
      t.slate.join = (s.slate.join || decide (s.health.state ≠ .withdrawn))

/-! ### The station's own frames (R53 to R62, R76 to R85) -/

/-- At the first boundary at which every condition of R53 holds, the engine drives a start bit, with an edge already on
the line, which restarts the grid, as R102 gives, and contends with the most urgent pending slot, its content captured
from the self entry, the configuration or the RELEASE slot; nothing outside the engine and the line changes (R53, R55,
R76, R77, R96, R100, R101, R102; the boundary at which the station became able is an operand, log 31, and an edge
exactly half a quarter early is not taken, log 32; the record of quarters driven is the model's, log 10, and so is what
gap count and requirement show from then on, log 39). -/
def Obligations.ContentionStartServesMostUrgentSlot : Prop :=
  ∀ (gap : List BitPeriod) (able : Nat) (edge : Option Int) (s : State), s.engine.state = .idle →
    gap.any isLead = false → s.firstStartAt gap able → (∀ d, edge = some d → -8 < d ∧ d ≤ 0) →
    ∃ t f v, exec (.contentionStart gap edge able) s = .next t ∧ changesOnly [.engine, .line] s t ∧
      t.engine = { s.engine with
        state := .contending, gapCount := releasedAfter s.engine.gapCount gap, frame := some f } ∧
      f.role = .sender ∧ f.position = 0 ∧ f.bits = [] ∧ f.served = some v ∧ f.verdict = none ∧ f.confirmMap = none ∧
      f.confirms = false ∧ s.slate.pendingSlot v.slot = true ∧
      (∀ k, s.slate.pendingSlot k = true → k.urgency s.slate.departureOwed ≤ v.urgency) ∧
      v.sequence = none ∧
      (match v.slot with
        | .change => v.urgency = (if s.slate.departureOwed then 7 else 5) ∧
          ∀ r, (s.entry s.ctrl.ownNumber).report = some r → v.payload = r.content.bits
        | .release => v.urgency = 4 ∧ ∀ r, s.slate.release = some r → v.payload = releasePayload r.zones
        | .join => v.urgency = 3 ∧ ∀ c w, s.loader.config = some c → s.ctrl.fingerprint = some w →
          v.payload = joinPayload w (Vector.ofFn (fun g : Fin 4 => c.groups[g].zone))
        | .resync => v.urgency = 2 ∧ v.payload = []
        | .refresh => v.urgency = 1 ∧
          ∀ r, (s.entry s.ctrl.ownNumber).report = some r → v.payload = r.content.bits) ∧
      t.line.len = true ∧ t.line.ltx = true ∧ t.line.trailCount = 0 ∧ t.line.drove = [{ len := true, ltx := true }] ∧
      t.line.grid.map (fun g => (g.period, g.start)) =
        s.line.grid.map (fun g => (g.period + gap.length + 1, startAfterGap g.start gap + 64 + edge.getD 0))

/-- The engine comes to contend by a contention start alone, at the first bit period boundary at which every condition of
R53 holds: JOINING or RUNNING, not WITHDRAWN, a pending slot, the gap requirement reached, no lead (R53; the boundary at
which the station became able is an operand, log 31). -/
def Obligations.ContentionOnlyWhenAllowed : Prop :=
  ∀ (c : Instr) (s t : State), exec c s = .next t → t.engine.state = .contending → s.engine.state ≠ .contending →
    s.engine.state = .idle ∧
      ∃ gap able edge, c = .contentionStart gap edge able ∧ gap.any isLead = false ∧ s.firstStartAt gap able

/-- A key bit sent 0 and read 1: LOST is counted, the driver is released, no attempt is counted at the slate, and the
station follows the frame as a receiver with the key bits read so far (R56, R80, R104, R105; gap count and requirement as
they stood: log 39). -/
def Obligations.KeyLostBecomesReceiver : Prop :=
  (∀ (sent : List Bool) (bits : List BitPeriod), contend sent bits = .lost ↔
    ∃ p, readsBackUntil false sent bits false p ∧ p.lead = true ∧ p.value = true) ∧
  ∀ (bits : List BitPeriod) (s : State) (f : Frame) (v : Served), s.ownFrameIn .contending = some (f, v) →
    contend (s.contenderBits v) bits = .lost →
    ∃ t, exec (.keyLost bits) s = .next t ∧ changesOnly [.engine, .line, .slate] s t ∧
      t.engine = { s.engine with
        state := .receiving
        counters := { s.engine.counters with lost := s.engine.counters.lost + 1 }
        frame := some { f with
          role := .receiver, position := bits.length, bits := (bits.drop 1).map (fun p => p.value), served := none } } ∧
      t.line.len = false ∧ t.line.ltx = false ∧
      t.slate =
        match v.slot with
        | .change => { s.slate with change := s.slate.change.map seriesAfterLost }
        | .release => { s.slate with
            release := s.slate.release.map (fun r => { r with series := seriesAfterLost r.series }) }
        | .refresh => s.slate
        | .join => s.slate
        | .resync => s.slate

/-- The last key bit read back as sent: the engine sends on with the frame's sequence. A CHANGE or RELEASE series not
yet open advances its own sequence and takes as targets the roster members then HEARD or PRESENT; an open one, and the
other kinds, change nothing at the slate (R25, R57, R59, R78, R79, R96, R98, R104). That the event falls at the end of
the last key bit period, with its quarters driven, is the model's choice (log 38), the record of quarters driven its own
(log 10), and gap count and requirement stay as they stood by log 39. -/
def Obligations.KeyWonTakesSequence : Prop :=
  (∀ (sent : List Bool) (bits : List BitPeriod), contend sent bits = .sent ↔
    bits.length = sent.length ∧ readsBack false sent bits) ∧
  ∀ (bits : List BitPeriod) (s : State) (f : Frame) (v : Served), s.ownFrameIn .contending = some (f, v) →
    contend (s.contenderBits v) bits = .sent → s.slate.pendingSlot v.slot = true →
    ∃ t q, exec (.keyWon bits) s = .next t ∧ changesOnly [.engine, .line, .slate, .table] s t ∧
      t.engine = { s.engine with
        state := .sending
        frame := some { f with
          position := bits.length, bits := keyBits v.urgency s.ctrl.ownNumber
          served := some { v with sequence := some q } } } ∧
      t.line.len = true ∧ t.line.ltx = false ∧
      t.line.drove = (true :: keyBits v.urgency s.ctrl.ownNumber).flatMap (fun b =>
        [{ len := true, ltx := true }, { len := true, ltx := b }, { len := true, ltx := b },
          { len := true, ltx := false }]) ∧
      entriesKept s.ctrl.ownNumber s t ∧
      (∀ n : Station, inMap (currentTargets s.table) n = true ↔
        n ≠ 0 ∧ (s.entry n).roster = true ∧ ((s.entry n).presence = .heard ∨ (s.entry n).presence = .present)) ∧
      match v.slot with
      | .change =>
        (∀ x, s.slate.change = some x → x.sequence = none →
          q = s.slate.reportSequence + 1 ∧
            t.slate = { s.slate with
              reportSequence := q
              change := some { x with sequence := some q, targets := some (currentTargets s.table) } } ∧
            (s.ctrl.ownNumber ≠ 0 → t.entry s.ctrl.ownNumber =
              { s.entry s.ctrl.ownNumber with
                report := (s.entry s.ctrl.ownNumber).report.map (fun r => { r with sequence := q }) })) ∧
        (∀ x p, s.slate.change = some x → x.sequence = some p → q = p ∧ t.slate = s.slate ∧ t.table = s.table)
      | .release =>
        (∀ r, s.slate.release = some r → r.series.sequence = none →
          q = s.slate.releaseSequence + 1 ∧
            t.slate = { s.slate with
              releaseSequence := q
              release := some { r with
                series := { r.series with sequence := some q, targets := some (currentTargets s.table) } } } ∧
            (s.ctrl.ownNumber ≠ 0 → t.entry s.ctrl.ownNumber =
              { s.entry s.ctrl.ownNumber with lastRelease := some q })) ∧
        (∀ r p, s.slate.release = some r → r.series.sequence = some p →
          q = p ∧ t.slate = s.slate ∧ t.table = s.table)
      | .refresh => q = s.slate.reportSequence ∧ t.slate = s.slate ∧ t.table = s.table
      | .join => q = 0 ∧ t.slate = s.slate ∧ t.table = s.table
      | .resync => q = 0 ∧ t.slate = s.slate ∧ t.table = s.table

/-- A bit read back wrong in the key or in the body: ABORTED is counted, the driver is released, the slate counts the
attempt, the garble count rises by 8, and the engine discards with its frame's record as far as it was driven. A CHANGE
or RELEASE series goes on, is begun again if superseded, or ends short at its last attempt, its misses counted and told;
a REFRESH, JOIN or RESYNC is done, and a JOIN concluded in JOINING enters RUNNING. A change of health follows with its
notice, and WITHDRAWN empties the slate (R26, R48, R56, R62, R69, R82 to R84, R90, R92, R93, R104, R105, R111 to R115,
R136, R178; which bit the record ends with: log 33, in which quarter an abort at the value sample falls: log 35, the row
of drives the trace gains: log 37, the gap requirement as it stood: log 39). -/
def Obligations.AbortCountsAttemptAndDiscards : Prop :=
  (∀ (sent : List Bool) (bits : List BitPeriod) (q : Quarter),
    (contend sent bits = .aborted q ↔
      ∃ b p, readsBackUntil false sent bits b p ∧
        ((q = .q1 ∧ p.lead = false) ∨ (q = .q2 ∧ p.lead = true ∧ b = true ∧ p.value = false))) ∧
    (sendBody sent bits = .aborted q ↔
      ∃ b p, readsBackUntil true sent bits b p ∧
        ((q = .q1 ∧ p.lead = false) ∨ (q = .q2 ∧ p.lead = true ∧ p.value ≠ b) ∨
          (q = .q4 ∧ p.lead = true ∧ p.value = b ∧ p.trail = true)))) ∧
  ∀ (bits : List BitPeriod) (s : State) (f : Frame) (v : Served) (q : Quarter) (driven : List Bool),
    ((s.ownFrameIn .contending = some (f, v) ∧ contend (s.contenderBits v) bits = .aborted q ∧
        driven = ((s.contenderBits v).take (if q = .q1 then bits.length - 1 else bits.length)).drop 1) ∨
      (s.ownFrameIn .sending = some (f, v) ∧ sendBody (s.senderBits v) bits = .aborted q ∧
        driven = f.bits ++ (s.senderBits v).take (if q = .q1 then bits.length - 1 else bits.length))) →
    ∃ t, exec (.sendAborted bits) s = .next t ∧
      changesOnly [.ctrl, .engine, .line, .table, .slate, .health, .terms, .outputs, .notices] s t ∧
      t.engine = { s.engine with
        state := .discarding, gapCount := 0
        counters := { s.engine.counters with aborted := s.engine.counters.aborted + 1 }
        frame := some { f with position := f.position + bits.length, bits := driven } } ∧
      t.line.len = false ∧ t.line.ltx = false ∧ healthAfter (min (s.health.garble + 8) 255) s t ∧
      t.ctrl = { s.ctrl with phase := s.phaseAfter v.slot } ∧
      missesCounted (missedBy none v.slot s) s t ∧
      (∀ n : Station, n ≠ 0 →
        t.entry n = { s.entry n with
          deliveriesMissed := (t.entry n).deliveriesMissed
          report := if n = s.ctrl.ownNumber then (t.entry n).report else (s.entry n).report }) ∧
      (if s.entersRunning v.slot then
        ∀ c, s.loader.config = some c →
          enteredTerms c s t ∧
            healthFollows (s.phaseAfter v.slot) (slateAfter none v.slot s)
              (enteredNotices s (fun i => t.terms.flags[i]) s.notices)
              (s.selfReportAfter v.slot) s t
      else
        t.terms = s.terms ∧ drivesTaken [] s t ∧
          healthFollows (s.phaseAfter v.slot) (slateAfter none v.slot s)
            (shortNotices (missedBy none v.slot s) s s.notices) (s.selfReportAfter v.slot) s t)

/-- The last check bit read back as sent: the engine enters the confirm window with an empty map and nothing driven, its
frame's bits complete; the grid has gone through its bit periods, restarted by the edges within half a quarter of the
expected start (R62, R49, R68, R96, R98, R100, R104; that the driver is released at the end of that bit period is the
model's reading, and the record of quarters driven its own, log 10; gap count and requirement as they stood: log 39). -/
def Obligations.LastCheckBitEntersWindow : Prop :=
  (∀ (sent : List Bool) (bits : List BitPeriod), sendBody sent bits = .sent ↔
    bits.length = sent.length ∧ readsBack true sent bits) ∧
  ∀ (bits : List BitPeriod) (s : State) (f : Frame) (v : Served), s.ownFrameIn .sending = some (f, v) →
    sendBody (s.senderBits v) bits = .sent →
    ∃ t, exec (.lastCheckBitSent bits) s = .next t ∧ changesOnly [.engine, .line] s t ∧
      t.engine = { s.engine with
        state := .confirming
        frame := some { f with
          position := f.position + bits.length
          bits := f.bits ++ s.senderBits v
          confirmMap := some 0 } } ∧
      t.line.len = false ∧ t.line.ltx = false ∧
      t.line.drove = (s.senderBits v).flatMap (fun b =>
        [{ len := true, ltx := true }, { len := true, ltx := b }, { len := true, ltx := b },
          { len := true, ltx := false }]) ∧
      t.line.grid.map (fun g => (g.period, g.start)) =
        s.line.grid.map (fun g => (g.period + bits.length, startAfterBits g.start bits))

/-! ### The frames of others (R50, R58, R63, R64) -/

/-- A lead in IDLE that is not the own start makes the station a receiver, whatever its gap count, its grid restarted at
the edge, and nothing outside the engine and the line changes. Where the station itself may start at an earlier
boundary, or at this one with the edge after it or less than half a quarter before it, it contends instead, and the
command brings nothing (R50, R53, R100, R101, R102, R107; the operands of the gap: log 31, an edge exactly half a
quarter early: log 32, the command that brings nothing: log 3, the record of quarters driven, empty: log 10, what gap count and
requirement show from then on: log 39). -/
def Obligations.LeadInIdleStartsReception : Prop :=
  ∀ (gap : List BitPeriod) (able : Nat) (edge : Int) (s : State), s.engineRuns = true → s.engine.state = .idle →
    gap.any isLead = false →
    (((∀ j, j < gap.length → ¬ s.mayStartAfter gap able j) ∧
        (s.mayStartAfter gap able gap.length → edge ≤ -8)) →
      ∃ t f, exec (.frameStart gap edge able) s = .next t ∧ changesOnly [.engine, .line] s t ∧
        t.engine = { s.engine with
          state := .receiving, gapCount := releasedAfter s.engine.gapCount gap, frame := some f } ∧
        f.role = .receiver ∧ f.position = 0 ∧ f.bits = [] ∧ f.served = none ∧ f.verdict = none ∧ f.confirms = false ∧
        t.line.len = s.line.len ∧ t.line.ltx = s.line.ltx ∧ t.line.trailCount = 0 ∧ t.line.drove = [] ∧
        t.line.grid.map (fun g => (g.period, g.start)) =
          s.line.grid.map (fun g => (g.period + gap.length + 1, startAfterGap g.start gap + 64 + edge))) ∧
    (((∃ j, j < gap.length ∧ s.mayStartAfter gap able j) ∨ (s.mayStartAfter gap able gap.length ∧ -8 < edge)) →
      exec (.frameStart gap edge able) s = .next s)

/-- An invalid kind code, a framing fault or a start bit that reads 0, and a line whose trails stay dominant for eight
bit periods end the frame for a receiver: ABANDONED is counted, the garble count rises by 1, the engine discards with
its frame's record as far as it was read, and no peer's entry changes; a change of health follows with its notice, and
WITHDRAWN empties the slate (R26, R48, R58, R63, R70, R93, R101, R106, R107, R111 to R115). A trail count of 8 brought
from the bit period in which the own key was lost is stuck dominant with no bit period more (log 30). What the trail
count and the gap requirement show in DISCARDING is the model's choice (logs 23 and 39). -/
def Obligations.FaultsAbandonTheFrame : Prop :=
  ∀ (bits : List BitPeriod) (s : State) (f : Frame) (c : Instr) (r : Reception), s.frameIn .receiving = some f →
    ((c = .invalidKind bits ∧ s.received f bits = .invalidKind r) ∨
      (c = .framingFault bits ∧ ∃ q, s.received f bits = .framingFault r q) ∨
      (c = .stuckDominant bits ∧ s.received f bits = .stuckDominant r)) →
    ∃ t, exec c s = .next t ∧ changesOnly [.engine, .line, .table, .slate, .health, .notices] s t ∧
      entriesKept s.ctrl.ownNumber s t ∧
      t.engine.state = .discarding ∧ t.engine.gapCount = 0 ∧
      t.engine.counters = { s.engine.counters with abandoned := s.engine.counters.abandoned + 1 } ∧
      t.engine.gapRequirement = s.engine.gapRequirement ∧ t.engine.ableAtIdle = s.engine.ableAtIdle ∧
      t.engine.frame = some { f with position := f.position + bits.length, bits := r.bits } ∧
      (let values := (if f.position = 0 then bits.drop 1 else bits).map (fun p => p.value);
        r.bits = f.bits ++ values ∨ (c = .framingFault bits ∧ r.bits = f.bits ++ values.dropLast)) ∧
      (c = .invalidKind bits → r.bits.length = 11 ∧
        (r.bits.drop 8 = [false, false, false] ∨ r.bits.drop 8 = [true, true, false] ∨
          r.bits.drop 8 = [true, true, true])) ∧
      (c = .framingFault bits → ∃ p, bits.getLast? = some p ∧
        (p.lead = false ∨ (p.value = false ∧ f.position = 0 ∧ bits.length = 1))) ∧
      (c = .stuckDominant bits → r.trails = 8 ∧ ∀ p, bits.getLast? = some p → p.trail = true) ∧
      t.line.trailCount = r.trails ∧
      t.entry s.ctrl.ownNumber =
        { s.entry s.ctrl.ownNumber with report := (t.entry s.ctrl.ownNumber).report } ∧
      t.line.len = s.line.len ∧ t.line.ltx = s.line.ltx ∧ healthAfter (min (s.health.garble + 1) 255) s t ∧
      healthFollows s.ctrl.phase s.slate s.notices (s.entry s.ctrl.ownNumber).report s t

/-- A frame that fails a test of R64 before the last is REJECTED at once: counted, the garble count raised by 1, its
window followed silently, and no peer's entry changed; a change of health follows with its notice, and WITHDRAWN empties
the slate (R26, R64, R70, R93, R111 to R115). -/
def Obligations.FailedFrameIsRejected : Prop :=
  ∀ (bits : List BitPeriod) (s : State) (r : ReceivedFrame), s.receivedFrame bits = some r → r.malformed →
    ∃ t, exec (.frameReceived bits) s = .next t ∧
      changesOnly [.engine, .line, .table, .slate, .health, .notices] s t ∧ entriesKept s.ctrl.ownNumber s t ∧
      t.entry s.ctrl.ownNumber =
        { s.entry s.ctrl.ownNumber with report := (t.entry s.ctrl.ownNumber).report } ∧
      confirmingWith .rejected false t ∧
      t.engine.counters = { s.engine.counters with rejected := s.engine.counters.rejected + 1 } ∧
      healthAfter (min (s.health.garble + 1) 255) s t ∧ t.line.len = s.line.len ∧
      healthFollows s.ctrl.phase s.slate s.notices (s.entry s.ctrl.ownNumber).report s t

/-- A frame that passes every test but bears the own number declares a number conflict and gives no outcome: the engine
stops, the line is released, the slate is emptied with its sequences kept, the terms are cleared and the outputs go to
rest, and DUPLICATE_NUMBER, PHASE_CHANGED and a TERM_CLEARED for each asserted term are raised in that order; the table
takes nothing (R64, R121, R122, R94, R140, R154, R180). That the stopped engine's record reads IDLE with no frame is the
model's reading (log 9), and the row of drives the trace gains its own (log 37). -/
def Obligations.OwnNumberReceivedEntersConflict : Prop :=
  ∀ (bits : List BitPeriod) (s : State) (r : ReceivedFrame) (c : StationConfig), s.receivedFrame bits = some r →
    ¬ r.malformed → r.number = s.ctrl.ownNumber → s.loader.config = some c →
    ∃ t, exec (.frameReceived bits) s = .next t ∧
      changesOnly [.ctrl, .engine, .line, .slate, .terms, .outputs, .notices] s t ∧
      t.ctrl = { s.ctrl with phase := .conflict } ∧
      t.engine = { s.engine with state := .idle, frame := none } ∧ t.line.len = false ∧ t.line.ltx = false ∧
      t.slate = { s.slate with
        change := none, release := none, refresh := false, join := false, resync := false, departureOwed := false } ∧
      t.terms = { s.terms with flags := quietTerms, heldOwn := 0, heldPeer := 0 } ∧ drivesTaken [restDrives c] s t ∧
      t.notices = termIndices.foldl (fun q i =>
          if s.terms.flags[i].value = true then pushNotice q { plainNotice .termCleared s with term := some i } else q)
        (pushNotice (pushNotice s.notices { plainNotice .duplicateNumber s with station := some s.ctrl.ownNumber })
          { plainNotice .phaseChanged s with value := some (.phase .conflict) })

/-- An accepted CHANGE or REFRESH brings its sender's entry to PRESENT with age 0 and stores or keeps its report with
the gap R14 and R15 count; the frame counts as accepted, no other entry changes, and the engine confirms unless the
station is WITHDRAWN. In RUNNING the terms are re-evaluated, and each group of a roster member whose tally differs from
the stored one's then sets latches; in LISTENING and JOINING its zones are held. The notices come in the order of R18
(R6, R9, R13 to R18, R27, R65, R66, R132 to R135, R137; the terms' own place in that order: log 13, the rows of drives
the trace gains: log 37). -/
def Obligations.AcceptedStateFrameUpdatesSender : Prop :=
  ∀ (bits : List BitPeriod) (s : State) (r : ReceivedFrame) (k : Kind), s.receivedFrame bits = some r →
    ¬ r.malformed → r.number ≠ s.ctrl.ownNumber → r.kind = k → (k = .change ∨ k = .refresh) →
    (s.entry r.number).presence ≠ .self →
    ∃ t, exec (.frameReceived bits) s = .next t ∧
      changesOnly [.engine, .line, .table, .terms, .outputs, .notices] s t ∧ entriesKept r.number s t ∧
      confirmingWith .accepted (decide (s.health.state ≠ .withdrawn)) t ∧
      t.engine.counters = s.engine.counters ∧ entryKept (s.entry r.number) (t.entry r.number) ∧
      (t.entry r.number).presence = .present ∧ (t.entry r.number).age = 0 ∧
      (t.entry r.number).framesAccepted = (s.entry r.number).framesAccepted + 1 ∧
      (let content := reportOfBits r.payload
        let stored : StoredReport := { sequence := r.sequence, content := content, stale := false }
        match (s.entry r.number).report with
        | none =>
          (t.entry r.number).report = some stored ∧
            (t.entry r.number).sequenceGaps = (s.entry r.number).sequenceGaps
        | some p =>
          let gap :=
            if k = .change then decide (r.sequence ≠ p.sequence + 1 ∧ ¬(r.sequence = p.sequence ∧ content = p.content))
            else decide (r.sequence ≠ p.sequence)
          (t.entry r.number).report = some stored ∧
            (t.entry r.number).sequenceGaps =
              if gap then saturate8 (s.entry r.number).sequenceGaps else (s.entry r.number).sequenceGaps) ∧
      (∀ c, s.loader.config = some c →
        let content := reportOfBits r.payload
        let zoneOf := fun g : Fin 4 => (s.entry r.number).zoneMap.map (fun z => z[g])
        let differs := groupIndices.filter (fun g => (s.entry r.number).roster &&
          (s.entry r.number).report.any (fun p => decide (p.content.groups[g].tally ≠ content.groups[g].tally)))
        let evaluated := flagsOver c s t
        let present := { plainNotice .peerPresent s with station := some r.number }
        let seen := match (s.entry r.number).presence with
          | .absent => pushNotice (heardNotices s r.number s.notices) present
          | .heard => pushNotice s.notices present
          | .silent => pushNotice s.notices present
          | .present => s.notices
          | .self => s.notices
        let gapped := (s.entry r.number).report.any (fun p =>
          if k = .change then decide (r.sequence ≠ p.sequence + 1 ∧ ¬(r.sequence = p.sequence ∧ content = p.content))
          else decide (r.sequence ≠ p.sequence))
        let judged :=
          if gapped then pushNotice seen { plainNotice .sequenceGap s with station := some r.number } else seen
        t.terms.heldOwn = s.terms.heldOwn ∧ t.terms.rel = s.terms.rel ∧
        if s.ctrl.phase = .running then
          (∀ i : Fin 16, t.terms.flags[i] = signalledFlags c false zoneOf differs evaluated i) ∧
            t.terms.heldPeer = s.terms.heldPeer ∧
            drivesTaken (runningDrives c (Vector.ofFn evaluated) :: signalDrives c false zoneOf differs evaluated) s t ∧
            t.notices = signalNotices c false zoneOf differs evaluated s
              (changeNotices s (fun i => s.terms.flags[i]) evaluated judged)
        else
          t.terms.flags = s.terms.flags ∧ drivesTaken [] s t ∧ t.notices = judged ∧
            ∀ z : Zone, inZones t.terms.heldPeer z = (inZones s.terms.heldPeer z || zoneNamed zoneOf differs z))

/-- An accepted JOIN brings its sender's entry to HEARD with age 0, removes its report and last release sequence, and
sets its zone map, fingerprint and plan match; the notices of its evidence come first, then PEER_JOINED, then
PLAN_MISMATCH where the fingerprints differ. In RUNNING the terms are re-evaluated after that. In JOINING or RUNNING,
not WITHDRAWN, it asks for a REFRESH (R6, R8, R20 to R22, R27, R66, R132, R137; the row of drives the trace gains: log
37). -/
def Obligations.AcceptedJoinRenewsSender : Prop :=
  ∀ (bits : List BitPeriod) (s : State) (r : ReceivedFrame), s.receivedFrame bits = some r →
    ¬ r.malformed → r.number ≠ s.ctrl.ownNumber → r.kind = .join →
    ∃ t, exec (.frameReceived bits) s = .next t ∧
      changesOnly [.engine, .line, .table, .slate, .terms, .outputs, .notices] s t ∧ entriesKept r.number s t ∧
      confirmingWith .accepted (decide (s.health.state ≠ .withdrawn)) t ∧ t.engine.counters = s.engine.counters ∧
      t.entry r.number =
        { s.entry r.number with
          presence := .heard, age := 0, report := none, lastRelease := none
          zoneMap := some (joinZones r.payload)
          plan := some
            { fingerprint := joinFingerprint r.payload
              agrees := decide (s.ctrl.fingerprint = some (joinFingerprint r.payload)) }
          framesAccepted := (s.entry r.number).framesAccepted + 1 } ∧
      t.slate = { s.slate with refresh := s.slate.refresh || s.takes .refresh } ∧
      (let joined :=
          pushNotice (heardNotices s r.number s.notices) { plainNotice .peerJoined s with station := some r.number }
        let told :=
          if s.ctrl.fingerprint = some (joinFingerprint r.payload) then joined
          else pushNotice joined { plainNotice .planMismatch s with station := some r.number }
        ∀ c, s.loader.config = some c → reevaluated c told s t)

/-- An accepted RESYNC is evidence, told and in RUNNING re-evaluated, and asks for a REFRESH; an accepted RELEASE is
evidence, and a sequence not stored before is stored and, in RUNNING from a roster member, applied to the own terms: a
term it meets is cleared, or refuses while it is live. A duplicate, a stranger's release and one outside RUNNING release
nothing (R6, R8, R22 to R24, R27, R132, R137, R138, R145). That the terms are re-evaluated for the evidence before the
release is the model's reading (log 14), and the rows of drives the trace gains are its own (log 37). -/
def Obligations.AcceptedResyncAndRelease : Prop :=
  ∀ (bits : List BitPeriod) (s : State) (r : ReceivedFrame), s.receivedFrame bits = some r →
    ¬ r.malformed → r.number ≠ s.ctrl.ownNumber → (s.entry r.number).presence ≠ .self →
    (r.kind = .resync →
      ∃ t, exec (.frameReceived bits) s = .next t ∧
        changesOnly [.engine, .line, .table, .slate, .terms, .outputs, .notices] s t ∧ entriesKept r.number s t ∧
        confirmingWith .accepted (decide (s.health.state ≠ .withdrawn)) t ∧ t.engine.counters = s.engine.counters ∧
        t.entry r.number =
          { s.entry r.number with
            presence := evidencePresence (s.entry r.number).presence, age := 0
            framesAccepted := (s.entry r.number).framesAccepted + 1 } ∧
        t.slate = { s.slate with refresh := s.slate.refresh || s.takes .refresh } ∧
        ∀ c, s.loader.config = some c → reevaluated c (heardNotices s r.number s.notices) s t) ∧
    (r.kind = .release →
      ∃ t, exec (.frameReceived bits) s = .next t ∧
        changesOnly [.engine, .line, .table, .terms, .outputs, .notices] s t ∧ entriesKept r.number s t ∧
        confirmingWith .accepted (decide (s.health.state ≠ .withdrawn)) t ∧ t.engine.counters = s.engine.counters ∧
        t.entry r.number =
          { s.entry r.number with
            presence := evidencePresence (s.entry r.number).presence, age := 0
            lastRelease := some r.sequence
            framesAccepted := (s.entry r.number).framesAccepted + 1 } ∧
        (s.ctrl.phase ≠ .running → t.terms = s.terms ∧ drivesTaken [] s t ∧
          t.notices = heardNotices s r.number s.notices) ∧
        (∀ c, s.ctrl.phase = .running → s.loader.config = some c →
          let evaluated := flagsOver c s t
          let m := releaseMaskOfBits r.payload
          let passes := decide ((s.entry r.number).roster = true ∧ (s.entry r.number).lastRelease ≠ some r.sequence)
          let changed := changeNotices s (fun i => s.terms.flags[i]) evaluated (heardNotices s r.number s.notices)
          (∀ i : Fin 16, t.terms.flags[i] = if passes then releasedFlags c m evaluated i else evaluated i) ∧
            t.terms.heldOwn = s.terms.heldOwn ∧ t.terms.heldPeer = s.terms.heldPeer ∧ t.terms.rel = s.terms.rel ∧
            drivesTaken (runningDrives c (Vector.ofFn evaluated) ::
              (if passes then [runningDrives c t.terms.flags] else [])) s t ∧
            t.notices = if passes then releaseNotices c m (some r.number) evaluated s changed else changed))

/-! ### The end of the window (R51, R52, R67, R68) -/

/-- The end of a sender's window: COMPLETED is counted, each peer whose slot read confirmed is heard, the garble count
falls by 1, the own slot read confirmed is a sighting and the second of them a conflict, and otherwise the engine
returns to IDLE with the yield of its own frame. At the slate a CHANGE or RELEASE series counts the attempt and merges
the heard map: delivered it empties its slot, superseded it is begun again, at its last attempt it ends short with its
misses counted and told, and else it goes on; a CHANGE serves the REFRESH too, and its end clears the departure-owed
flag; a REFRESH or RESYNC is done and a JOIN concluded. Terms, outputs, notices and a change of health follow in their
order, and after them those of the conflict: DUPLICATE_NUMBER, PHASE_CHANGED, a TERM_CLEARED for each term asserted
until then, and the outputs at rest after the drives they took before (R26, R51, R68, R81 to R85, R90, R92, R94, R111 to
R117, R120, R122, R132, R136, R140, R154, R156, R178, R180). That the conflict leaves the engine's record IDLE with no
frame is the model's reading (log 9), and that the slots, none of them driven by a sender, lie inside WINDOW_END is
another (log 10), and the rows of drives the trace gains are its own (log 37). -/
def Obligations.SenderWindowCloses : Prop :=
  ∀ (slots : List BitPeriod) (s : State) (f : Frame) (v : Served) (c : StationConfig), s.frameIn .confirming = some f →
    f.served = some v → f.role = .sender → slots.length = 31 → s.loader.config = some c →
    let own := s.ctrl.ownNumber
    let map := confirmMapOf slots
    let heard := map &&& ~~~stationBit own
    let missed := missedBy (some heard) v.slot s
    ∃ t, exec (.windowEnd slots) s = .next t ∧
      changesOnly [.ctrl, .engine, .line, .table, .slate, .health, .terms, .outputs, .notices] s t ∧
      t.engine.counters = { s.engine.counters with completed := s.engine.counters.completed + 1 } ∧
      t.engine.state = .idle ∧ t.engine.frame = none ∧ t.line.len = false ∧ t.line.ltx = false ∧ slotsDriven f s t ∧
      (∀ n : Station, n ≠ 0 →
        if inMap heard n = true ∧ (s.entry n).presence ≠ .self then
          (t.entry n).presence = evidencePresence (s.entry n).presence ∧ (t.entry n).age = 0
        else (t.entry n).presence = (s.entry n).presence ∧ (t.entry n).age = (s.entry n).age) ∧
      missesCounted missed s t ∧
      (∀ n : Station, n ≠ 0 →
        t.entry n = { s.entry n with
          presence := (t.entry n).presence, age := (t.entry n).age, deliveriesMissed := (t.entry n).deliveriesMissed
          report := if n = own then (t.entry n).report else (s.entry n).report }) ∧
      t.health.garble = s.health.garble - 1 ∧ t.health.state = nextHealth (s.health.garble - 1) s.health.state ∧
      (if inMap map own = true ∧ s.health.sightings < 2 then t.health.sightings = s.health.sightings + 1
      else t.health.sightings = s.health.sightings) ∧
      t.terms.rel = s.terms.rel ∧
      (let enters := s.entersRunning v.slot
        let running := decide (s.ctrl.phase = .running)
        let settled : Fin 16 → TermFlags :=
          if enters then enteredFlags c s t else if running then flagsOver c s t else fun i => s.terms.flags[i]
        let rows := if enters || running then [runningDrives c (Vector.ofFn settled)] else []
        let told :=
          if enters then enteredNotices s settled (mapNotices s heard s.notices)
          else
            shortNotices missed s
              (changeNotices s (fun i => s.terms.flags[i]) settled (mapNotices s heard s.notices))
        if inMap map own = true ∧ s.health.sightings = 1 then
          t.ctrl = { s.ctrl with phase := .conflict } ∧
            t.slate = emptySlate (slateAfterHealth (s.phaseAfter v.slot) s t (slateAfter (some heard) v.slot s)) ∧
            t.terms.flags = quietTerms ∧ t.terms.heldOwn = 0 ∧ t.terms.heldPeer = 0 ∧
            drivesTaken (rows ++ [restDrives c]) s t ∧
            t.notices = conflictNotices s settled (healthNotices s t told) ∧
            (t.entry own).report = selfReportAfterHealth s t (s.selfReportAfter v.slot)
        else
          t.engine.gapCount = 0 ∧ t.engine.gapRequirement = (if t.health.state = .restrained then 35 else 16) ∧
            t.ctrl = { s.ctrl with phase := s.phaseAfter v.slot } ∧
            (∀ i : Fin 16, t.terms.flags[i] = settled i) ∧
            (if enters then t.terms.heldOwn = 0 ∧ t.terms.heldPeer = 0
            else t.terms.heldOwn = s.terms.heldOwn ∧ t.terms.heldPeer = s.terms.heldPeer) ∧
            drivesTaken rows s t ∧
            healthFollows (s.phaseAfter v.slot) (slateAfter (some heard) v.slot s) told
              (s.selfReportAfter v.slot) s t)

/-- A slot reads confirmed when its value sample is dominant and its trail sample released. The end of a receiver's
window: for an accepted frame the map is evidence, ACCEPTED is counted and the garble count falls by 1; a silent
follower hands nothing on; the engine returns to IDLE without a yield. The station has driven its own slot, and that
alone, where it confirmed. A change of health follows with its notice; the return from WITHDRAWN to NORMAL asks for a
RESYNC, a REFRESH and in JOINING a JOIN (R26, R51, R66 to R68, R70, R96, R108, R111 to R117, R132, R137; that the slots
are driven inside WINDOW_END: log 10, what the record notes on entering IDLE: log 31, the row of drives the trace gains:
log 37). -/
def Obligations.ReceiverWindowCloses : Prop :=
  (∀ (slots : List BitPeriod) (n : Station), slots.length = 31 → n ≠ 0 →
    (inMap (confirmMapOf slots) n = true ↔
      ∃ p, slots[n.toNat - 1]? = some p ∧ p.value = true ∧ p.trail = false)) ∧
  ∀ (slots : List BitPeriod) (s : State) (f : Frame), s.frameIn .confirming = some f → f.served = none →
    f.role = .receiver → slots.length = 31 →
    (f.verdict = some .accepted →
      let own := s.ctrl.ownNumber
      let heard := confirmMapOf slots &&& ~~~stationBit own
      ∃ t, exec (.windowEnd slots) s = .next t ∧
        changesOnly [.engine, .line, .table, .slate, .health, .terms, .outputs, .notices] s t ∧
        t.engine.counters = { s.engine.counters with accepted := s.engine.counters.accepted + 1 } ∧
        (∀ n : Station, n ≠ 0 →
          t.entry n =
            if inMap heard n = true ∧ (s.entry n).presence ≠ .self then
              { s.entry n with
                presence := evidencePresence (s.entry n).presence, age := 0
                report := if n = own then (t.entry own).report else (s.entry n).report }
            else { s.entry n with report := if n = own then (t.entry own).report else (s.entry n).report }) ∧
        healthAfter (s.health.garble - 1) s t ∧ t.engine.state = .idle ∧ t.engine.frame = none ∧
        t.engine.gapCount = 0 ∧ t.engine.gapRequirement = (if t.health.state = .restrained then 35 else 11) ∧
        t.line.len = false ∧ t.line.ltx = false ∧ slotsDriven f s t ∧
        (if s.ctrl.phase = .running then
          ∀ c, s.loader.config = some c → (∀ i : Fin 16, t.terms.flags[i] = flagsOver c s t i) ∧
            t.terms.heldOwn = s.terms.heldOwn ∧ t.terms.heldPeer = s.terms.heldPeer ∧ t.terms.rel = s.terms.rel ∧
            drivesTaken [runningDrives c t.terms.flags] s t
        else t.terms = s.terms ∧ drivesTaken [] s t) ∧
        healthFollows s.ctrl.phase s.slate
          (changeNotices s (fun i => s.terms.flags[i]) (fun i => t.terms.flags[i]) (mapNotices s heard s.notices))
          (s.entry own).report s t) ∧
    (f.verdict = some .rejected →
      ∃ t, exec (.windowEnd slots) s = .next t ∧ changesOnly [.engine, .line] s t ∧ slotsDriven f s t ∧
        t.engine = { s.engine with
          state := .idle, gapCount := 0, frame := none, ableAtIdle := s.mayContend
          gapRequirement := if s.health.state = .restrained then 35 else 11 })

/-- A bit period is fully released when none of its three samples is dominant, and one seen dominant starts the count
again. The 35th consecutive fully released one ends DISCARDING: IDLE with a gap count of 35, the requirement set by
health and by whether the frame just ended was the station's own. The grid has gone through the bit periods, restarted
by every edge; at the start of LISTENING the first of them is the grid's own first (R51, R52, R97, R101, R103; that
after a frame the first is the one after that in which it was left: log 36, what the record notes on entering IDLE: log
31, the record of quarters driven, empty: log 10). -/
def Obligations.DiscardEndsAfterThirtyFive : Prop :=
  (∀ (n : Nat) (ps : List BitPeriod) (p : BitPeriod), releasedAfter n [] = n ∧
    releasedAfter n (ps ++ [p]) =
      if p.lead = true ∨ p.value = true ∨ p.trail = true then 0 else releasedAfter n ps + 1) ∧
  (∀ (n : Nat) (gap : List BitPeriod), reachesAtEnd 35 n gap = true ↔
    gap ≠ [] ∧ 35 ≤ releasedAfter n gap ∧ ∀ j, 0 < j → j < gap.length → releasedAfter n (gap.take j) < 35) ∧
  ∀ (gap : List BitPeriod) (s : State), s.engineRuns = true → s.engine.state = .discarding →
    reachesAtEnd 35 s.engine.gapCount gap = true →
    ∃ t, exec (.discardEnd gap) s = .next t ∧ changesOnly [.engine, .line] s t ∧
      t.engine = { s.engine with
        state := .idle, gapCount := 35, frame := none, ableAtIdle := s.mayContend
        gapRequirement :=
          if s.health.state = .restrained then 35
          else if s.engine.frame.any (fun f => decide (f.role = .sender)) then 16 else 11 } ∧
      (let passed := if s.engine.frame = none then gap.drop 1 else gap;
        t.line.grid.map (fun g => (g.period, g.start)) =
          s.line.grid.map (fun g => (g.period + passed.length, startAfterGap g.start passed))) ∧
      t.line.len = s.line.len ∧ t.line.ltx = s.line.ltx ∧ t.line.drove = []

/-! ### Rules of the whole station -/

/-- The health state goes by its table of counts, and changes only at the outcomes of R111 and at a reset (R112). -/
def Obligations.HealthChangesOnlyAtOutcomes : Prop :=
  (∀ count : Nat,
    nextHealth count .normal = (if 96 ≤ count then .restrained else .normal) ∧
    nextHealth count .restrained =
      (if 192 ≤ count then .withdrawn else if 96 ≤ count then .restrained else .normal) ∧
    nextHealth count .withdrawn = if count = 0 then .normal else .withdrawn) ∧
  ∀ (c : Instr) (s t : State), exec c s = .next t → t.health.state ≠ s.health.state →
    resets c s ∨ (∃ bits, c = .sendAborted bits) ∨ (∃ bits, c = .invalidKind bits) ∨ (∃ bits, c = .framingFault bits) ∨
      (∃ bits, c = .stuckDominant bits) ∨ (∃ bits, c = .frameReceived bits) ∨ (∃ slots, c = .windowEnd slots)

/-- The station phase changes only along the transition table of R160: to LOADING at a reset, from LOADING to LISTENING
or HALTED, from LISTENING to JOINING, from JOINING to RUNNING, and from LISTENING, JOINING or RUNNING to CONFLICT. -/
def Obligations.PhaseFollowsTransitionTable : Prop :=
  ∀ (c : Instr) (s t : State), exec c s = .next t → t.ctrl.phase ≠ s.ctrl.phase →
    (t.ctrl.phase = .loading ∧ resets c s) ∨
    (s.ctrl.phase = .loading ∧ t.ctrl.phase = .listening ∧ ∃ rest x, c = .imageComplete rest x) ∨
    (s.ctrl.phase = .loading ∧ t.ctrl.phase = .halted) ∨
    (s.ctrl.phase = .listening ∧ t.ctrl.phase = .joining) ∨
    (s.ctrl.phase = .joining ∧ t.ctrl.phase = .running ∧
      ((∃ bits, c = .sendAborted bits) ∨ ∃ slots, c = .windowEnd slots)) ∨
    ((s.ctrl.phase = .listening ∨ s.ctrl.phase = .joining ∨ s.ctrl.phase = .running) ∧ t.ctrl.phase = .conflict ∧
      ((∃ bits, c = .frameReceived bits) ∨ ∃ slots, c = .windowEnd slots))

/-- A peer entry's report sequence changes only when a CHANGE or REFRESH from that station is accepted; an accepted JOIN
from it and a reset remove its report (R19). -/
def Obligations.PeerReportSequenceChangesOnlyByItsFrames : Prop :=
  (∀ (c : Instr) (s t : State) (n : Station), exec c s = .next t → n ≠ s.ctrl.ownNumber → n ≠ t.ctrl.ownNumber →
    (t.entry n).report.map (fun r => r.sequence) ≠ (s.entry n).report.map (fun r => r.sequence) →
    (∃ bits r, c = .frameReceived bits ∧ s.receivedFrame bits = some r ∧ ¬ r.malformed ∧ r.number = n ∧
      (((r.kind = .change ∨ r.kind = .refresh) ∧
          (t.entry n).report.map (fun x => x.sequence) = some r.sequence) ∨
        (r.kind = .join ∧ (t.entry n).report = none))) ∨
    (resets c s ∧ (t.entry n).report = none)) ∧
  (∀ (bits : List BitPeriod) (s t : State) (r : ReceivedFrame), exec (.frameReceived bits) s = .next t →
    s.receivedFrame bits = some r → ¬ r.malformed → r.number ≠ s.ctrl.ownNumber → r.kind = .join →
    (t.entry r.number).report = none) ∧
  (∀ (c : Instr) (s t : State) (n : Station), exec c s = .next t → resets c s → (t.entry n).report = none)

/-- Evidence other than a STATE frame: from ABSENT to HEARD with age 0, PEER_HEARD, and STRANGER for a non-member; in
HEARD and PRESENT only the age goes to 0; from SILENT to HEARD with age 0 and PEER_HEARD, the stale report and the rest
of the entry kept. An accepted STATE frame in HEARD or PRESENT sets the age to 0 too, and from ABSENT goes on to PRESENT
after the notices of R6 (R6, R7, R8). -/
def Obligations.EvidenceMovesPresence : Prop :=
  ∀ (n : Station) (s : State), n ≠ 0 →
    let e := s.entry n
    let heard := pushNotice s.notices { plainNotice .peerHeard s with station := some n }
    let first := if e.roster then heard else pushNotice heard { plainNotice .stranger s with station := some n }
    changesOnly [.table, .notices] s (s.evidence n) ∧ entriesKept n s (s.evidence n) ∧
    (e.presence = .absent →
      (s.evidence n).entry n = { e with presence := .heard, age := 0 } ∧ (s.evidence n).notices = first ∧
      ((s.statePresence n).entry n).presence = .present ∧ ((s.statePresence n).entry n).age = 0 ∧
      (s.statePresence n).notices = pushNotice first { plainNotice .peerPresent s with station := some n }) ∧
    ((e.presence = .heard ∨ e.presence = .present) →
      (s.evidence n).entry n = { e with age := 0 } ∧ (s.evidence n).notices = s.notices ∧
      ((s.statePresence n).entry n).age = 0) ∧
    (e.presence = .silent →
      (s.evidence n).entry n = { e with presence := .heard, age := 0 } ∧ (s.evidence n).notices = heard)

/-- A sequence gap counted for entry n adds 1 to its gap counter, which stays at 255, and raises SEQUENCE_GAP naming n,
at 255 as at any other value; nothing else changes (R16). -/
def Obligations.SequenceGapCountsAndNotifies : Prop :=
  ∀ (n : Station) (s : State), n ≠ 0 →
    changesOnly [.table, .notices] s (s.sequenceGap n) ∧ entriesKept n s (s.sequenceGap n) ∧
    (s.sequenceGap n).entry n =
      { s.entry n with
        sequenceGaps := if (s.entry n).sequenceGaps = 255 then 255 else (s.entry n).sequenceGaps + 1 } ∧
    (s.sequenceGap n).notices = pushNotice s.notices { plainNotice .sequenceGap s with station := some n }

/-- At the slate, a COMPLETED CHANGE sets the state-sent mark and empties the REFRESH slot, superseded or not, delivered
or not; an ABORTED CHANGE leaves both; a completed RELEASE, JOIN or RESYNC changes neither, apart from the REFRESH that
entry into RUNNING requests after a JOIN, the one request R85 does not speak of (R75, R85, R178). -/
def Obligations.CompletedChangeServesRefresh : Prop :=
  ∀ (heard : StationMap) (s : State),
    ((s.slateCompleted .change heard).slate.stateSent = true ∧
      (s.slateCompleted .change heard).slate.refresh = false) ∧
    ((s.slateAborted .change).slate.stateSent = s.slate.stateSent ∧
      (s.slateAborted .change).slate.refresh = s.slate.refresh) ∧
    (∀ k, (k = .release ∨ k = .join ∨ k = .resync) →
      (s.slateCompleted k heard).slate.stateSent = s.slate.stateSent ∧
      (¬(k = .join ∧ s.ctrl.phase = .joining) → (s.slateCompleted k heard).slate.refresh = s.slate.refresh)) ∧
    (s.ctrl.phase = .joining → (s.slateCompleted .join heard).slate.refresh =
      (s.slate.refresh || decide (s.health.state ≠ .withdrawn)))

/-! ### The tap port (R187 to R199, R203) -/

/-- TSEL asserted while the port is IDLE begins a transaction that knows nothing of the one before; while a reset is held
only the level is taken (R187, R199; log 25). -/
def Obligations.TselAssertBeginsTransaction : Prop :=
  ∀ s : State, s.pins.tsel = false → s.tap.state = .idle →
    ∃ t, exec .tselAssert s = .next t ∧ t.pins = { s.pins with tsel := true } ∧
      if s.inReset = true then changesOnly [.pins] s t
      else
        changesOnly [.pins, .tap] s t ∧
          t.tap = { state := .request, request := none, args := [], bitsIn := [], response := none, clocked := 0,
                    takeArmed := false, restartArmed := false }

/-- A request with no argument is judged when its byte is complete: the response is the status of R190 for the phase,
with the content of the request, byte by byte as its layout gives, when it is OK; TAKE and RESTART arm what they arm,
RESYNC hands the slate its request, and nothing else of the station changes. TSDO carries the fill value until then, and
after it the response bit by bit, most significant first, then the fill value again (R188, R190 to R195, R197, R198,
R203, R204). -/
def Obligations.RequestsAnsweredByPhase : Prop :=
  ([Phase.loading, .listening, .joining, .running, .halted, .conflict].map Phase.code = [0, 1, 2, 3, 4, 5] ∧
    [FaultCode.none, .noMemory, .badSignature, .badLength, .badCheck, .selfNotInRoster].map
      (fun f => (f.code, f.index)) = [(0, 0), (1, 0), (2, 0), (3, 0), (4, 0), (6, 0)] ∧
    (∀ i, (FaultCode.badValue i).code = 5 ∧ (FaultCode.badValue i).index = BitVec.ofNat 8 i) ∧
    [Health.normal, .restrained, .withdrawn].map Health.code = [0, 1, 2] ∧
    [ResetCause.power, .pin, .tap].map ResetCause.code = [1, 2, 3] ∧
    [Drive.low, .high, .openDrive].map Drive.code = [0, 1, 2] ∧
    [NoticeKind.peerHeard, .peerPresent, .peerSilent, .peerJoined, .stranger, .planMismatch, .sequenceGap,
      .deliveryShort, .termAsserted, .termCleared, .releaseRefused, .healthChanged, .phaseChanged, .duplicateNumber,
      .overflow].map NoticeKind.code = [1, 2, 3, 4, 5, 6, 7, 8, 9, 10, 11, 12, 13, 14, 15]) ∧
  ∀ (c : Instr) (code : Byte) (r : Request) (s : State), s.tap.state = .request → s.tap.bitsIn = [] →
    codeNames code r →
    (c = .status ∧ r = .status ∨ c = .terms ∧ r = .terms ∨ c = .counters ∧ r = .counters ∨ c = .peek ∧ r = .peek ∨
      c = .take ∧ r = .take ∨ c = .resync ∧ r = .resync ∨ c = .restart ∧ r = .restart ∨
      c = .unknownRequest code ∧ r = .unknown) →
    (s.statusByte r 0 = 0 → (s.answerTo r 0).length = r.okLength) ∧
    ∃ t, exec c s = .next t ∧ changesOnly (if r = .resync then [.tap, .slate] else [.tap]) s t ∧
      t.tap = { state := .response, request := some code, args := [], bitsIn := []
                response := some (s.answerTo r 0)
                clocked := 0
                takeArmed := decide (r = .take ∧ s.statusByte r 0 = 0)
                restartArmed := decide (r = .restart ∧ s.statusByte r 0 = 0) } ∧
      (s.pins.tsel = true → s.inReset = false →
        s.tsdo = some true ∧
          ∀ clocked : List Bool, (t.tapBits clocked).tsdo =
            some (
              let shown := s.answerTo r 0
              if clocked.length < 8 * shown.length then
                (shown.getD (clocked.length / 8) 0).getLsbD (7 - clocked.length % 8)
              else true)) ∧
      (r = .resync → t.slate = { s.slate with
        resync := s.slate.resync || decide (s.ctrl.phase = .running ∧ s.health.state ≠ .withdrawn) })

/-- ENTRY and RELEASE wait for their argument byte and are then judged: ENTRY returns the entry named, 1 to 31, byte by
byte as its layout gives; RELEASE with a mask in RUNNING is a local release, applied to the own terms and, where network
release is configured and the station is not WITHDRAWN, merged into the RELEASE slot (R187, R190, R192, R196, R143,
R144, R75, R91, R204; a slot on the line at attempt count 0: log 12, the row of drives the trace gains: log 37). -/
def Obligations.EntryAndReleaseTakeTheirArgument : Prop :=
  [Presence.absent, .heard, .present, .silent, .self].map Presence.code = [0, 1, 2, 3, 4] ∧
  ∀ s : State, s.tap.state = .request → s.tap.bitsIn = [] →
    (∃ t, exec (.entry none) s = .next t ∧ changesOnly [.tap] s t ∧ t.tap.state = .arguments ∧
      t.tap.request = some 0x02 ∧ t.tap.response = s.tap.response) ∧
    (∃ t, exec (.release none) s = .next t ∧ changesOnly [.tap] s t ∧ t.tap.state = .arguments ∧
      t.tap.request = some 0x07 ∧ t.tap.response = s.tap.response) ∧
    (∀ n : Byte, ∃ t, exec (.entry (some n)) s = .next t ∧ changesOnly [.tap] s t ∧ t.tap.state = .response ∧
      t.tap.response = some (
        if s.ctrl.phase = .loading ∨ s.ctrl.phase = .halted then [0x01]
        else if n = 0 ∨ 31 < n.toNat then [0x04]
        else 0x00 :: entryLayout (n.setWidth 5) (s.entry (n.setWidth 5))) ∧
      (entryLayout (n.setWidth 5) (s.entry (n.setWidth 5))).length = 24 ∧
      t.tap.clocked = 0 ∧ t.tap.takeArmed = false ∧ t.tap.restartArmed = false) ∧
    (∀ m : Byte, ∃ t, exec (.release (some m)) s = .next t ∧ t.tap.state = .response ∧
      t.tap.takeArmed = false ∧ t.tap.restartArmed = false ∧
      (if s.ctrl.phase = .loading ∨ s.ctrl.phase = .halted then
        changesOnly [.tap] s t ∧ t.tap.response = some [0x01]
      else if m = 0 then changesOnly [.tap] s t ∧ t.tap.response = some [0x04]
      else if s.ctrl.phase ≠ .running then changesOnly [.tap] s t ∧ t.tap.response = some [0x02]
      else
        changesOnly [.tap, .terms, .outputs, .notices, .slate] s t ∧ t.tap.response = some [0x00] ∧
          t.terms = (s.applyRelease m none).terms ∧ t.outputs = (s.applyRelease m none).outputs ∧
          t.outputTrace = (s.applyRelease m none).outputTrace ∧
          t.notices = (s.applyRelease m none).notices ∧
          t.slate =
            if s.loader.config.any (fun c => c.networkRelease) = true ∧ s.health.state ≠ .withdrawn then
              { s.slate with release := some (releaseMerged (s.onLine .release) m s.slate.release) }
            else s.slate))

/-- The release of TSEL ends a transaction wherever it stands. Before the judgement point, and in WAIT_RELEASE, it has
no effect. After it a TAKE removes the oldest notice, and only when every bit of its response has been clocked by then.
Where the bits of the same command complete the request, it is judged first, and its effect stands: a RELEASE is
applied, a RESYNC handed to the slate, a TAKE removes if 96 bits more were clocked, and a RESTART resets the station.
TSDO is high impedance once TSEL is released (R143, R144, R184, R187 to R191, R195 to R199, R203). That bits and release
come in one command is the model's (log 17), as are the restart's missing hold (log 15), the waiting commands' stay (log
28), a slot on the line at attempt count 0 (log 12) and the row of drives the trace gains (log 37). -/
def Obligations.TakeRemovesOnlyWhenShiftedOut : Prop :=
  (∀ (tsdi : List Bool) (s : State) (response : List Byte), s.pins.tsel = true → s.tap.state = .response →
    s.tap.response = some response → s.tap.clocked ≤ 8 * response.length → s.tap.restartArmed = false →
    ∃ t, exec (.tselRelease tsdi) s = .next t ∧ changesOnly [.pins, .tap, .notices] s t ∧
      t.pins = { s.pins with tsel := false } ∧ t.tsdo = none ∧
      t.tap = { state := .idle, request := none, args := [], bitsIn := [], response := none, clocked := 0,
                takeArmed := false, restartArmed := false } ∧
      t.notices =
        if s.tap.takeArmed = true ∧ 8 * response.length ≤ s.tap.clocked + tsdi.length then s.notices.drop 1
        else s.notices) ∧
  (∀ (tsdi : List Bool) (s : State), s.pins.tsel = true → s.tap.takeArmed = false → s.tap.restartArmed = false →
    ((s.tap.state = .request ∧ s.tap.bitsIn.length + tsdi.length < 8) ∨
      (s.tap.state = .request ∧ s.tap.bitsIn.length < 8 ∧ s.tap.bitsIn.length + tsdi.length < 16 ∧
        (byteOfBits ((s.tap.bitsIn ++ tsdi).take 8) = 0x02 ∨ byteOfBits ((s.tap.bitsIn ++ tsdi).take 8) = 0x07)) ∨
      (s.tap.state = .arguments ∧ s.tap.bitsIn.length + tsdi.length < 8) ∨
      s.tap.state = .waitRelease) →
    ∃ t, exec (.tselRelease tsdi) s = .next t ∧ changesOnly [.pins, .tap] s t ∧
      t.pins = { s.pins with tsel := false } ∧ t.tsdo = none ∧
      t.tap = { state := .idle, request := none, args := [], bitsIn := [], response := none, clocked := 0,
                takeArmed := false, restartArmed := false }) ∧
  (∀ (tsdi rest : List Bool) (code arg : Byte) (r : Request) (s : State), s.pins.tsel = true →
    s.tap.bitsIn.length < 8 →
    ((s.tap.state = .request ∧ codeNames code r ∧ arg = 0 ∧ s.tap.bitsIn ++ tsdi = bytesBits [code] ++ rest) ∨
      (s.tap.state = .request ∧ (code = 0x02 ∧ r = .entry ∨ code = 0x07 ∧ r = .release) ∧
        s.tap.bitsIn ++ tsdi = bytesBits [code, arg] ++ rest) ∨
      (s.tap.state = .arguments ∧ s.tap.request = some code ∧
        (code = 0x02 ∧ r = .entry ∨ code = 0x07 ∧ r = .release) ∧
        s.tap.bitsIn ++ tsdi = bytesBits [arg] ++ rest)) →
    ∃ t, exec (.tselRelease tsdi) s = .next t ∧ t.pins = { s.pins with tsel := false } ∧ t.tsdo = none ∧
      if r = .restart ∧ s.statusByte r arg = 0 then State.AfterReset .tap t ∧ t.pending = s.pending
      else
        t.tap = { state := .idle, request := none, args := [], bitsIn := [], response := none, clocked := 0,
                  takeArmed := false, restartArmed := false } ∧
        (if r = .take ∧ s.statusByte r arg = 0 then
          changesOnly [.pins, .tap, .notices] s t ∧
            t.notices = if 96 ≤ rest.length then s.notices.drop 1 else s.notices
        else if r = .resync ∧ s.statusByte r arg = 0 then
          changesOnly [.pins, .tap, .slate] s t ∧
            t.slate = { s.slate with resync := s.slate.resync || decide (s.health.state ≠ .withdrawn) }
        else if r = .release ∧ s.statusByte r arg = 0 then
          changesOnly [.pins, .tap, .terms, .outputs, .notices, .slate] s t ∧
            t.terms = (s.applyRelease arg none).terms ∧ t.outputs = (s.applyRelease arg none).outputs ∧
            t.outputTrace = (s.applyRelease arg none).outputTrace ∧
            t.notices = (s.applyRelease arg none).notices ∧
            t.slate =
              if s.loader.config.any (fun c => c.networkRelease) = true ∧ s.health.state ≠ .withdrawn then
                { s.slate with release := some (releaseMerged (s.onLine .release) arg s.slate.release) }
              else s.slate
        else changesOnly [.pins, .tap] s t))

/-- The tap port changes by its own commands, by a reset and by a reset's end alone: no event of another block reaches a
response being shifted out (R188, R199). -/
def Obligations.SnapshotUntouchedByOtherEvents : Prop :=
  ∀ (c : Instr) (s t : State), exec c s = .next t → isTapCommand c = false → ¬ resets c s →
    (∀ source, c ≠ .resetEnd source) → t.tap = s.tap

/-! ### Encodings (R59, R61, R64, R200, R201) -/

/-- A STATE payload is 38 bits, a JOIN payload 30 and a RELEASE payload 8, each bit at its position, and each decodes to
what it was made from, every field at every value: the report content, the fingerprint with the four zones and revision
1, the zone mask (R59, R60, R200). -/
def Obligations.PayloadRoundTrips : Prop :=
  (∀ r : ReportContent, r.bits.length = 38 ∧ reportOfBits r.bits = r ∧
    r.bits = [decide (r.phase = .running), decide (r.health = .restrained)] ++
      groupIndices.flatMap (fun g =>
        let x := r.groups[g]
        [x.lines.getLsbD 0, x.lines.getLsbD 1, x.lines.getLsbD 2, x.lines.getLsbD 3, x.conforming,
          x.tally.getLsbD 3, x.tally.getLsbD 2, x.tally.getLsbD 1, x.tally.getLsbD 0])) ∧
  (∀ (w : Word16) (zones : Vector Zone 4), (joinPayload w zones).length = 30 ∧
    joinFingerprint (joinPayload w zones) = w ∧ joinZones (joinPayload w zones) = zones ∧
    joinRevision (joinPayload w zones) = 1 ∧
    joinPayload w zones = (List.range 16).map (fun j => w.getLsbD (15 - j)) ++
      groupIndices.flatMap (fun g => [zones[g].getLsbD 2, zones[g].getLsbD 1, zones[g].getLsbD 0]) ++
      [false, true]) ∧
  (∀ m : ZoneMask, (releasePayload m).length = 8 ∧ releaseMaskOfBits (releasePayload m) = m ∧
    releasePayload m = (List.range 8).map (fun j => m.getLsbD (7 - j)))

/-- A frame is driven bit by bit at the positions of its fields, with the register of R201 as its check. One driven by
one station and seen undisturbed reaches every receiver whole: at the last check bit the receiver has the sender's
urgency, number, kind, sequence and payload, and the check passes (R57 to R62, R64, R200, R201). -/
def Obligations.FrameDrivenIsReceivedWhole : Prop :=
  (crc [] = 0xFFFF ∧
    ∀ (bits : List Bool) (b : Bool),
      crc (bits ++ [b]) =
        if (crc bits).getLsbD 15 = b then crc bits <<< 1 else (crc bits <<< 1) ^^^ 0b0001000000100001) ∧
  (∀ bytes : List Byte, bytesBits bytes = bytes.flatMap (fun b =>
    [b.getLsbD 7, b.getLsbD 6, b.getLsbD 5, b.getLsbD 4, b.getLsbD 3, b.getLsbD 2, b.getLsbD 1, b.getLsbD 0])) ∧
  [Kind.change, .refresh, .join, .resync, .release].map Kind.payloadBits = [38, 38, 30, 0, 8] ∧
  ∀ (k : Kind) (urgency : BitVec 3) (number : Station) (sequence : Nibble) (payload : List Bool),
    payload.length = k.payloadBits →
    let key := keyBits urgency number
    let sent := true :: key ++ drivenBody key k sequence payload
    let covered :=
      [urgency.getLsbD 2, urgency.getLsbD 1, urgency.getLsbD 0, number.getLsbD 4, number.getLsbD 3,
        number.getLsbD 2, number.getLsbD 1, number.getLsbD 0] ++
      (match k with
        | .change => [false, false, true]
        | .refresh => [false, true, false]
        | .join => [false, true, true]
        | .resync => [true, false, false]
        | .release => [true, false, true]) ++
      [sequence.getLsbD 3, sequence.getLsbD 2, sequence.getLsbD 1, sequence.getLsbD 0] ++ payload
    sent = true :: covered ++ (List.range 16).map (fun j => (crc covered).getLsbD (15 - j)) ∧
    ∃ r, receive { started := false, bits := [], trails := 0 } (sent.map drivenPeriod) = .checkEnd k r ∧
      (decodeFrame k r.bits).urgency = urgency ∧ (decodeFrame k r.bits).number = number ∧
      (decodeFrame k r.bits).kind = k ∧ (decodeFrame k r.bits).sequence = sequence ∧
      (decodeFrame k r.bits).payload = payload ∧
      (decodeFrame k r.bits).checkRead = (decodeFrame k r.bits).checkComputed

/-! ### Invariants: what every step keeps -/

/-- Right after reset every condition below holds. -/
def Obligations.ResetMeetsEveryInvariant : Prop :=
  State.reset.noticesOk = true ∧ State.reset.healthOk = true ∧ State.reset.loaderOk = true ∧
    State.reset.driverOk = true ∧ State.reset.slateOk = true ∧ State.reset.termsOk = true ∧
    State.reset.outputsOk = true ∧ State.reset.selfOk = true ∧ State.reset.tableOk = true ∧ State.reset.tapOk = true

/-- A push is stored after the others, replaced by an OVERFLOW where fifteen wait, or discarded behind one. The queue
never holds more than sixteen notices, at most one OVERFLOW, and that one newest; ATN is asserted while it holds one,
and goes off only with a reset or with the removal of the last one at a release of TSEL (R182, R184, R185). -/
def Obligations.StepKeepsNoticeQueue : Prop :=
  (∀ (q : List Notice) (n : Notice), pushNotice q n =
    if q.any (fun m => decide (m.kind = .overflow)) = true then q
    else if q.length < 15 then q ++ [n]
    else q ++ [{ kind := .overflow, stamp := n.stamp, station := none, term := none, value := none }]) ∧
  ∀ s t : State, s.noticesOk = true → step s = .next t →
    t.noticesOk = true ∧ (t.atn = true ↔ t.notices ≠ []) ∧
      (s.atn = true → t.atn = false →
        ∃ c rest, s.pending = c :: rest ∧
          (resets c { s with pending := rest } ∨ (s.notices.length = 1 ∧ ∃ tsdi, c = .tselRelease tsdi)))

/-- The garble count stays within 0 to 255 and in the range of its health state, and the sighting count within 0 to 2
(R111, R112, R120). -/
def Obligations.StepKeepsHealthRanges : Prop :=
  ∀ s t : State, s.healthOk = true → step s = .next t → t.healthOk = true

/-- A load makes at most three attempts, and a configuration is loaded, the watch unit samples and the ticks run in
exactly the phases that follow a valid load (R164, R169, R170, R172). -/
def Obligations.StepKeepsLoaderAndPhase : Prop :=
  ∀ s t : State, s.loaderOk = true → step s = .next t → t.loaderOk = true

/-- A station drives the line in no bit period while its phase is LOADING, HALTED or CONFLICT, or while it is WITHDRAWN,
and otherwise exactly while it sends its own frame, its own slot being driven inside WINDOW_END (the model's reading,
log 10); a stopped engine is IDLE with no frame (in CONFLICT the model's reading, log 9), and LTX is never driven with
LEN off (R47, R96, R109). -/
def Obligations.StepKeepsDriverOff : Prop :=
  ∀ s t : State, s.driverOk = true → step s = .next t → t.driverOk = true

/-- The slate is empty outside JOINING and RUNNING and while WITHDRAWN, and a series makes at most 1 + retry limit
attempts (R75, R82, R92 to R94). -/
def Obligations.StepKeepsSlateWithinLimits : Prop :=
  ∀ s t : State, s.slateOk = true → step s = .next t → t.slateOk = true

/-- A term's live condition holds where some entry in its scope departed, is unseen or is of another plan. In RUNNING
every live condition is the one the table gives, a latching term that is live is latched, and a latched flag is cleared
only by a release that meets the term while it is not live; outside RUNNING every term is clear (R127 to R133, R136,
R138, R140; an empty mask meets no entry without a zone map: log 11, a release after the re-evaluation of its own event:
log 14). -/
def Obligations.StepKeepsTermsTrueToTable : Prop :=
  (∀ (x : TermConfig) (s : State), termLive x s.table = true ↔ termHolds x s) ∧
  ∀ s t : State, s.loaderOk = true → s.termsOk = true → step s = .next t → t.termsOk = true ∧
    ∀ (c : StationConfig) (i : Fin 16), s.ctrl.phase = .running → t.ctrl.phase = .running →
      s.loader.config = some c → s.terms.flags[i].latched = true → t.terms.flags[i].latched = false →
      t.terms.flags[i].live = false ∧
        ∃ cmd rest m, s.pending = cmd :: rest ∧ releaseMade c cmd m { s with pending := rest } t ∧
          c.terms[i].zones &&& m ≠ 0

/-- At rest an output drives the level opposite its permit level, or OPEN; in RUNNING a PERMIT output is at its permit
level while its term is clear, an INDICATE output while it is asserted, one bound to no term never. Every output drives
what its phase, binding, mode and term value give, at every moment, and the drives it stands at are the last it was set
to (R149 to R156, R159; the trace: log 37). -/
def Obligations.StepKeepsOutputsFollowing : Prop :=
  (∀ (c : StationConfig) (flags : Vector TermFlags 16) (d : Fin 8),
    let x := c.outputs[d]
    let permit : Drive := if x.permitHigh then .high else .low
    let rest : Drive :=
      match x.rest, x.permitHigh with
      | .driven, true => .low
      | .driven, false => .high
      | .openRest, _ => .openDrive
    (restDrives c)[d] = rest ∧
      (runningDrives c flags)[d] =
        match x.binding, x.mode with
        | some i, .permit => if flags[i].live || flags[i].latched then rest else permit
        | some i, .indicate => if flags[i].live || flags[i].latched then permit else rest
        | none, _ => rest) ∧
  ∀ s t : State, s.loaderOk = true → s.outputsOk = true → step s = .next t → t.outputsOk = true

/-- Exactly the own entry is SELF after a valid load, and it shows the station's sequences, phase, health and published
group records (R1, R25, R26, R41). -/
def Obligations.StepKeepsSelfEntryTrue : Prop :=
  ∀ s t : State, s.loaderOk = true → s.selfOk = true → step s = .next t → t.selfOk = true

/-- The roster flags stay the loaded roster's, and a PRESENT entry holds a report that is not stale (R2, R12). -/
def Obligations.StepKeepsTableConsistent : Prop :=
  ∀ s t : State, s.loaderOk = true → s.tableOk = true → step s = .next t → t.tableOk = true

/-- The tap port's transaction state, snapshot and armed actions stay as R187, R188 and R199 give. -/
def Obligations.StepKeepsTapConsistent : Prop :=
  ∀ s t : State, s.tapOk = true → step s = .next t → t.tapOk = true
end

