-- ==== Sys2Proof/Laws/State.lean ====
section
/-! SUPPORT. One lemma per field per update of the state, true by rfl, so that no proof unfolds a record update. -/

namespace Sys2Proof.Machine

@[simp] theorem State.setPins_pins (s : State) (v : Pins) : (s.setPins v).pins = v := rfl
@[simp] theorem State.setPins_ctrl (s : State) (v : Pins) : (s.setPins v).ctrl = s.ctrl := rfl
@[simp] theorem State.setPins_loader (s : State) (v : Pins) : (s.setPins v).loader = s.loader := rfl
@[simp] theorem State.setPins_watch (s : State) (v : Pins) : (s.setPins v).watch = s.watch := rfl
@[simp] theorem State.setPins_line (s : State) (v : Pins) : (s.setPins v).line = s.line := rfl
@[simp] theorem State.setPins_engine (s : State) (v : Pins) : (s.setPins v).engine = s.engine := rfl
@[simp] theorem State.setPins_table (s : State) (v : Pins) : (s.setPins v).table = s.table := rfl
@[simp] theorem State.setPins_slate (s : State) (v : Pins) : (s.setPins v).slate = s.slate := rfl
@[simp] theorem State.setPins_health (s : State) (v : Pins) : (s.setPins v).health = s.health := rfl
@[simp] theorem State.setPins_terms (s : State) (v : Pins) : (s.setPins v).terms = s.terms := rfl
@[simp] theorem State.setPins_outputs (s : State) (v : Pins) : (s.setPins v).outputs = s.outputs := rfl
@[simp] theorem State.setPins_outputTrace (s : State) (v : Pins) : (s.setPins v).outputTrace = s.outputTrace := rfl
@[simp] theorem State.setPins_notices (s : State) (v : Pins) : (s.setPins v).notices = s.notices := rfl
@[simp] theorem State.setPins_tap (s : State) (v : Pins) : (s.setPins v).tap = s.tap := rfl
@[simp] theorem State.setPins_pending (s : State) (v : Pins) : (s.setPins v).pending = s.pending := rfl

@[simp] theorem State.setCtrl_pins (s : State) (v : Controller) : (s.setCtrl v).pins = s.pins := rfl
@[simp] theorem State.setCtrl_ctrl (s : State) (v : Controller) : (s.setCtrl v).ctrl = v := rfl
@[simp] theorem State.setCtrl_loader (s : State) (v : Controller) : (s.setCtrl v).loader = s.loader := rfl
@[simp] theorem State.setCtrl_watch (s : State) (v : Controller) : (s.setCtrl v).watch = s.watch := rfl
@[simp] theorem State.setCtrl_line (s : State) (v : Controller) : (s.setCtrl v).line = s.line := rfl
@[simp] theorem State.setCtrl_engine (s : State) (v : Controller) : (s.setCtrl v).engine = s.engine := rfl
@[simp] theorem State.setCtrl_table (s : State) (v : Controller) : (s.setCtrl v).table = s.table := rfl
@[simp] theorem State.setCtrl_slate (s : State) (v : Controller) : (s.setCtrl v).slate = s.slate := rfl
@[simp] theorem State.setCtrl_health (s : State) (v : Controller) : (s.setCtrl v).health = s.health := rfl
@[simp] theorem State.setCtrl_terms (s : State) (v : Controller) : (s.setCtrl v).terms = s.terms := rfl
@[simp] theorem State.setCtrl_outputs (s : State) (v : Controller) : (s.setCtrl v).outputs = s.outputs := rfl
@[simp] theorem State.setCtrl_outputTrace (s : State) (v : Controller) : (s.setCtrl v).outputTrace = s.outputTrace := rfl
@[simp] theorem State.setCtrl_notices (s : State) (v : Controller) : (s.setCtrl v).notices = s.notices := rfl
@[simp] theorem State.setCtrl_tap (s : State) (v : Controller) : (s.setCtrl v).tap = s.tap := rfl
@[simp] theorem State.setCtrl_pending (s : State) (v : Controller) : (s.setCtrl v).pending = s.pending := rfl

@[simp] theorem State.setLoader_pins (s : State) (v : Loader) : (s.setLoader v).pins = s.pins := rfl
@[simp] theorem State.setLoader_ctrl (s : State) (v : Loader) : (s.setLoader v).ctrl = s.ctrl := rfl
@[simp] theorem State.setLoader_loader (s : State) (v : Loader) : (s.setLoader v).loader = v := rfl
@[simp] theorem State.setLoader_watch (s : State) (v : Loader) : (s.setLoader v).watch = s.watch := rfl
@[simp] theorem State.setLoader_line (s : State) (v : Loader) : (s.setLoader v).line = s.line := rfl
@[simp] theorem State.setLoader_engine (s : State) (v : Loader) : (s.setLoader v).engine = s.engine := rfl
@[simp] theorem State.setLoader_table (s : State) (v : Loader) : (s.setLoader v).table = s.table := rfl
@[simp] theorem State.setLoader_slate (s : State) (v : Loader) : (s.setLoader v).slate = s.slate := rfl
@[simp] theorem State.setLoader_health (s : State) (v : Loader) : (s.setLoader v).health = s.health := rfl
@[simp] theorem State.setLoader_terms (s : State) (v : Loader) : (s.setLoader v).terms = s.terms := rfl
@[simp] theorem State.setLoader_outputs (s : State) (v : Loader) : (s.setLoader v).outputs = s.outputs := rfl
@[simp] theorem State.setLoader_outputTrace (s : State) (v : Loader) : (s.setLoader v).outputTrace = s.outputTrace := rfl
@[simp] theorem State.setLoader_notices (s : State) (v : Loader) : (s.setLoader v).notices = s.notices := rfl
@[simp] theorem State.setLoader_tap (s : State) (v : Loader) : (s.setLoader v).tap = s.tap := rfl
@[simp] theorem State.setLoader_pending (s : State) (v : Loader) : (s.setLoader v).pending = s.pending := rfl

@[simp] theorem State.setWatch_pins (s : State) (v : WatchUnit) : (s.setWatch v).pins = s.pins := rfl
@[simp] theorem State.setWatch_ctrl (s : State) (v : WatchUnit) : (s.setWatch v).ctrl = s.ctrl := rfl
@[simp] theorem State.setWatch_loader (s : State) (v : WatchUnit) : (s.setWatch v).loader = s.loader := rfl
@[simp] theorem State.setWatch_watch (s : State) (v : WatchUnit) : (s.setWatch v).watch = v := rfl
@[simp] theorem State.setWatch_line (s : State) (v : WatchUnit) : (s.setWatch v).line = s.line := rfl
@[simp] theorem State.setWatch_engine (s : State) (v : WatchUnit) : (s.setWatch v).engine = s.engine := rfl
@[simp] theorem State.setWatch_table (s : State) (v : WatchUnit) : (s.setWatch v).table = s.table := rfl
@[simp] theorem State.setWatch_slate (s : State) (v : WatchUnit) : (s.setWatch v).slate = s.slate := rfl
@[simp] theorem State.setWatch_health (s : State) (v : WatchUnit) : (s.setWatch v).health = s.health := rfl
@[simp] theorem State.setWatch_terms (s : State) (v : WatchUnit) : (s.setWatch v).terms = s.terms := rfl
@[simp] theorem State.setWatch_outputs (s : State) (v : WatchUnit) : (s.setWatch v).outputs = s.outputs := rfl
@[simp] theorem State.setWatch_outputTrace (s : State) (v : WatchUnit) : (s.setWatch v).outputTrace = s.outputTrace := rfl
@[simp] theorem State.setWatch_notices (s : State) (v : WatchUnit) : (s.setWatch v).notices = s.notices := rfl
@[simp] theorem State.setWatch_tap (s : State) (v : WatchUnit) : (s.setWatch v).tap = s.tap := rfl
@[simp] theorem State.setWatch_pending (s : State) (v : WatchUnit) : (s.setWatch v).pending = s.pending := rfl

@[simp] theorem State.setLine_pins (s : State) (v : LineInterface) : (s.setLine v).pins = s.pins := rfl
@[simp] theorem State.setLine_ctrl (s : State) (v : LineInterface) : (s.setLine v).ctrl = s.ctrl := rfl
@[simp] theorem State.setLine_loader (s : State) (v : LineInterface) : (s.setLine v).loader = s.loader := rfl
@[simp] theorem State.setLine_watch (s : State) (v : LineInterface) : (s.setLine v).watch = s.watch := rfl
@[simp] theorem State.setLine_line (s : State) (v : LineInterface) : (s.setLine v).line = v := rfl
@[simp] theorem State.setLine_engine (s : State) (v : LineInterface) : (s.setLine v).engine = s.engine := rfl
@[simp] theorem State.setLine_table (s : State) (v : LineInterface) : (s.setLine v).table = s.table := rfl
@[simp] theorem State.setLine_slate (s : State) (v : LineInterface) : (s.setLine v).slate = s.slate := rfl
@[simp] theorem State.setLine_health (s : State) (v : LineInterface) : (s.setLine v).health = s.health := rfl
@[simp] theorem State.setLine_terms (s : State) (v : LineInterface) : (s.setLine v).terms = s.terms := rfl
@[simp] theorem State.setLine_outputs (s : State) (v : LineInterface) : (s.setLine v).outputs = s.outputs := rfl
@[simp] theorem State.setLine_outputTrace (s : State) (v : LineInterface) : (s.setLine v).outputTrace = s.outputTrace := rfl
@[simp] theorem State.setLine_notices (s : State) (v : LineInterface) : (s.setLine v).notices = s.notices := rfl
@[simp] theorem State.setLine_tap (s : State) (v : LineInterface) : (s.setLine v).tap = s.tap := rfl
@[simp] theorem State.setLine_pending (s : State) (v : LineInterface) : (s.setLine v).pending = s.pending := rfl

@[simp] theorem State.setEngine_pins (s : State) (v : Engine) : (s.setEngine v).pins = s.pins := rfl
@[simp] theorem State.setEngine_ctrl (s : State) (v : Engine) : (s.setEngine v).ctrl = s.ctrl := rfl
@[simp] theorem State.setEngine_loader (s : State) (v : Engine) : (s.setEngine v).loader = s.loader := rfl
@[simp] theorem State.setEngine_watch (s : State) (v : Engine) : (s.setEngine v).watch = s.watch := rfl
@[simp] theorem State.setEngine_line (s : State) (v : Engine) : (s.setEngine v).line = s.line := rfl
@[simp] theorem State.setEngine_engine (s : State) (v : Engine) : (s.setEngine v).engine = v := rfl
@[simp] theorem State.setEngine_table (s : State) (v : Engine) : (s.setEngine v).table = s.table := rfl
@[simp] theorem State.setEngine_slate (s : State) (v : Engine) : (s.setEngine v).slate = s.slate := rfl
@[simp] theorem State.setEngine_health (s : State) (v : Engine) : (s.setEngine v).health = s.health := rfl
@[simp] theorem State.setEngine_terms (s : State) (v : Engine) : (s.setEngine v).terms = s.terms := rfl
@[simp] theorem State.setEngine_outputs (s : State) (v : Engine) : (s.setEngine v).outputs = s.outputs := rfl
@[simp] theorem State.setEngine_outputTrace (s : State) (v : Engine) : (s.setEngine v).outputTrace = s.outputTrace := rfl
@[simp] theorem State.setEngine_notices (s : State) (v : Engine) : (s.setEngine v).notices = s.notices := rfl
@[simp] theorem State.setEngine_tap (s : State) (v : Engine) : (s.setEngine v).tap = s.tap := rfl
@[simp] theorem State.setEngine_pending (s : State) (v : Engine) : (s.setEngine v).pending = s.pending := rfl

@[simp] theorem State.setTable_pins (s : State) (v : PeerTable) : (s.setTable v).pins = s.pins := rfl
@[simp] theorem State.setTable_ctrl (s : State) (v : PeerTable) : (s.setTable v).ctrl = s.ctrl := rfl
@[simp] theorem State.setTable_loader (s : State) (v : PeerTable) : (s.setTable v).loader = s.loader := rfl
@[simp] theorem State.setTable_watch (s : State) (v : PeerTable) : (s.setTable v).watch = s.watch := rfl
@[simp] theorem State.setTable_line (s : State) (v : PeerTable) : (s.setTable v).line = s.line := rfl
@[simp] theorem State.setTable_engine (s : State) (v : PeerTable) : (s.setTable v).engine = s.engine := rfl
@[simp] theorem State.setTable_table (s : State) (v : PeerTable) : (s.setTable v).table = v := rfl
@[simp] theorem State.setTable_slate (s : State) (v : PeerTable) : (s.setTable v).slate = s.slate := rfl
@[simp] theorem State.setTable_health (s : State) (v : PeerTable) : (s.setTable v).health = s.health := rfl
@[simp] theorem State.setTable_terms (s : State) (v : PeerTable) : (s.setTable v).terms = s.terms := rfl
@[simp] theorem State.setTable_outputs (s : State) (v : PeerTable) : (s.setTable v).outputs = s.outputs := rfl
@[simp] theorem State.setTable_outputTrace (s : State) (v : PeerTable) : (s.setTable v).outputTrace = s.outputTrace := rfl
@[simp] theorem State.setTable_notices (s : State) (v : PeerTable) : (s.setTable v).notices = s.notices := rfl
@[simp] theorem State.setTable_tap (s : State) (v : PeerTable) : (s.setTable v).tap = s.tap := rfl
@[simp] theorem State.setTable_pending (s : State) (v : PeerTable) : (s.setTable v).pending = s.pending := rfl

@[simp] theorem State.setSlate_pins (s : State) (v : Slate) : (s.setSlate v).pins = s.pins := rfl
@[simp] theorem State.setSlate_ctrl (s : State) (v : Slate) : (s.setSlate v).ctrl = s.ctrl := rfl
@[simp] theorem State.setSlate_loader (s : State) (v : Slate) : (s.setSlate v).loader = s.loader := rfl
@[simp] theorem State.setSlate_watch (s : State) (v : Slate) : (s.setSlate v).watch = s.watch := rfl
@[simp] theorem State.setSlate_line (s : State) (v : Slate) : (s.setSlate v).line = s.line := rfl
@[simp] theorem State.setSlate_engine (s : State) (v : Slate) : (s.setSlate v).engine = s.engine := rfl
@[simp] theorem State.setSlate_table (s : State) (v : Slate) : (s.setSlate v).table = s.table := rfl
@[simp] theorem State.setSlate_slate (s : State) (v : Slate) : (s.setSlate v).slate = v := rfl
@[simp] theorem State.setSlate_health (s : State) (v : Slate) : (s.setSlate v).health = s.health := rfl
@[simp] theorem State.setSlate_terms (s : State) (v : Slate) : (s.setSlate v).terms = s.terms := rfl
@[simp] theorem State.setSlate_outputs (s : State) (v : Slate) : (s.setSlate v).outputs = s.outputs := rfl
@[simp] theorem State.setSlate_outputTrace (s : State) (v : Slate) : (s.setSlate v).outputTrace = s.outputTrace := rfl
@[simp] theorem State.setSlate_notices (s : State) (v : Slate) : (s.setSlate v).notices = s.notices := rfl
@[simp] theorem State.setSlate_tap (s : State) (v : Slate) : (s.setSlate v).tap = s.tap := rfl
@[simp] theorem State.setSlate_pending (s : State) (v : Slate) : (s.setSlate v).pending = s.pending := rfl

@[simp] theorem State.setHealth_pins (s : State) (v : HealthMonitor) : (s.setHealth v).pins = s.pins := rfl
@[simp] theorem State.setHealth_ctrl (s : State) (v : HealthMonitor) : (s.setHealth v).ctrl = s.ctrl := rfl
@[simp] theorem State.setHealth_loader (s : State) (v : HealthMonitor) : (s.setHealth v).loader = s.loader := rfl
@[simp] theorem State.setHealth_watch (s : State) (v : HealthMonitor) : (s.setHealth v).watch = s.watch := rfl
@[simp] theorem State.setHealth_line (s : State) (v : HealthMonitor) : (s.setHealth v).line = s.line := rfl
@[simp] theorem State.setHealth_engine (s : State) (v : HealthMonitor) : (s.setHealth v).engine = s.engine := rfl
@[simp] theorem State.setHealth_table (s : State) (v : HealthMonitor) : (s.setHealth v).table = s.table := rfl
@[simp] theorem State.setHealth_slate (s : State) (v : HealthMonitor) : (s.setHealth v).slate = s.slate := rfl
@[simp] theorem State.setHealth_health (s : State) (v : HealthMonitor) : (s.setHealth v).health = v := rfl
@[simp] theorem State.setHealth_terms (s : State) (v : HealthMonitor) : (s.setHealth v).terms = s.terms := rfl
@[simp] theorem State.setHealth_outputs (s : State) (v : HealthMonitor) : (s.setHealth v).outputs = s.outputs := rfl
@[simp] theorem State.setHealth_outputTrace (s : State) (v : HealthMonitor) : (s.setHealth v).outputTrace = s.outputTrace := rfl
@[simp] theorem State.setHealth_notices (s : State) (v : HealthMonitor) : (s.setHealth v).notices = s.notices := rfl
@[simp] theorem State.setHealth_tap (s : State) (v : HealthMonitor) : (s.setHealth v).tap = s.tap := rfl
@[simp] theorem State.setHealth_pending (s : State) (v : HealthMonitor) : (s.setHealth v).pending = s.pending := rfl

@[simp] theorem State.setTerms_pins (s : State) (v : TermEvaluator) : (s.setTerms v).pins = s.pins := rfl
@[simp] theorem State.setTerms_ctrl (s : State) (v : TermEvaluator) : (s.setTerms v).ctrl = s.ctrl := rfl
@[simp] theorem State.setTerms_loader (s : State) (v : TermEvaluator) : (s.setTerms v).loader = s.loader := rfl
@[simp] theorem State.setTerms_watch (s : State) (v : TermEvaluator) : (s.setTerms v).watch = s.watch := rfl
@[simp] theorem State.setTerms_line (s : State) (v : TermEvaluator) : (s.setTerms v).line = s.line := rfl
@[simp] theorem State.setTerms_engine (s : State) (v : TermEvaluator) : (s.setTerms v).engine = s.engine := rfl
@[simp] theorem State.setTerms_table (s : State) (v : TermEvaluator) : (s.setTerms v).table = s.table := rfl
@[simp] theorem State.setTerms_slate (s : State) (v : TermEvaluator) : (s.setTerms v).slate = s.slate := rfl
@[simp] theorem State.setTerms_health (s : State) (v : TermEvaluator) : (s.setTerms v).health = s.health := rfl
@[simp] theorem State.setTerms_terms (s : State) (v : TermEvaluator) : (s.setTerms v).terms = v := rfl
@[simp] theorem State.setTerms_outputs (s : State) (v : TermEvaluator) : (s.setTerms v).outputs = s.outputs := rfl
@[simp] theorem State.setTerms_outputTrace (s : State) (v : TermEvaluator) : (s.setTerms v).outputTrace = s.outputTrace := rfl
@[simp] theorem State.setTerms_notices (s : State) (v : TermEvaluator) : (s.setTerms v).notices = s.notices := rfl
@[simp] theorem State.setTerms_tap (s : State) (v : TermEvaluator) : (s.setTerms v).tap = s.tap := rfl
@[simp] theorem State.setTerms_pending (s : State) (v : TermEvaluator) : (s.setTerms v).pending = s.pending := rfl

@[simp] theorem State.setOutputs_pins (s : State) (v : Vector Drive 8) : (s.setOutputs v).pins = s.pins := rfl
@[simp] theorem State.setOutputs_ctrl (s : State) (v : Vector Drive 8) : (s.setOutputs v).ctrl = s.ctrl := rfl
@[simp] theorem State.setOutputs_loader (s : State) (v : Vector Drive 8) : (s.setOutputs v).loader = s.loader := rfl
@[simp] theorem State.setOutputs_watch (s : State) (v : Vector Drive 8) : (s.setOutputs v).watch = s.watch := rfl
@[simp] theorem State.setOutputs_line (s : State) (v : Vector Drive 8) : (s.setOutputs v).line = s.line := rfl
@[simp] theorem State.setOutputs_engine (s : State) (v : Vector Drive 8) : (s.setOutputs v).engine = s.engine := rfl
@[simp] theorem State.setOutputs_table (s : State) (v : Vector Drive 8) : (s.setOutputs v).table = s.table := rfl
@[simp] theorem State.setOutputs_slate (s : State) (v : Vector Drive 8) : (s.setOutputs v).slate = s.slate := rfl
@[simp] theorem State.setOutputs_health (s : State) (v : Vector Drive 8) : (s.setOutputs v).health = s.health := rfl
@[simp] theorem State.setOutputs_terms (s : State) (v : Vector Drive 8) : (s.setOutputs v).terms = s.terms := rfl
@[simp] theorem State.setOutputs_outputs (s : State) (v : Vector Drive 8) : (s.setOutputs v).outputs = v := rfl
@[simp] theorem State.setOutputs_outputTrace (s : State) (v : Vector Drive 8) : (s.setOutputs v).outputTrace = s.outputTrace := rfl
@[simp] theorem State.setOutputs_notices (s : State) (v : Vector Drive 8) : (s.setOutputs v).notices = s.notices := rfl
@[simp] theorem State.setOutputs_tap (s : State) (v : Vector Drive 8) : (s.setOutputs v).tap = s.tap := rfl
@[simp] theorem State.setOutputs_pending (s : State) (v : Vector Drive 8) : (s.setOutputs v).pending = s.pending := rfl

@[simp] theorem State.setOutputTrace_pins (s : State) (v : List (Vector Drive 8)) : (s.setOutputTrace v).pins = s.pins := rfl
@[simp] theorem State.setOutputTrace_ctrl (s : State) (v : List (Vector Drive 8)) : (s.setOutputTrace v).ctrl = s.ctrl := rfl
@[simp] theorem State.setOutputTrace_loader (s : State) (v : List (Vector Drive 8)) : (s.setOutputTrace v).loader = s.loader := rfl
@[simp] theorem State.setOutputTrace_watch (s : State) (v : List (Vector Drive 8)) : (s.setOutputTrace v).watch = s.watch := rfl
@[simp] theorem State.setOutputTrace_line (s : State) (v : List (Vector Drive 8)) : (s.setOutputTrace v).line = s.line := rfl
@[simp] theorem State.setOutputTrace_engine (s : State) (v : List (Vector Drive 8)) : (s.setOutputTrace v).engine = s.engine := rfl
@[simp] theorem State.setOutputTrace_table (s : State) (v : List (Vector Drive 8)) : (s.setOutputTrace v).table = s.table := rfl
@[simp] theorem State.setOutputTrace_slate (s : State) (v : List (Vector Drive 8)) : (s.setOutputTrace v).slate = s.slate := rfl
@[simp] theorem State.setOutputTrace_health (s : State) (v : List (Vector Drive 8)) : (s.setOutputTrace v).health = s.health := rfl
@[simp] theorem State.setOutputTrace_terms (s : State) (v : List (Vector Drive 8)) : (s.setOutputTrace v).terms = s.terms := rfl
@[simp] theorem State.setOutputTrace_outputs (s : State) (v : List (Vector Drive 8)) : (s.setOutputTrace v).outputs = s.outputs := rfl
@[simp] theorem State.setOutputTrace_outputTrace (s : State) (v : List (Vector Drive 8)) : (s.setOutputTrace v).outputTrace = v := rfl
@[simp] theorem State.setOutputTrace_notices (s : State) (v : List (Vector Drive 8)) : (s.setOutputTrace v).notices = s.notices := rfl
@[simp] theorem State.setOutputTrace_tap (s : State) (v : List (Vector Drive 8)) : (s.setOutputTrace v).tap = s.tap := rfl
@[simp] theorem State.setOutputTrace_pending (s : State) (v : List (Vector Drive 8)) : (s.setOutputTrace v).pending = s.pending := rfl

@[simp] theorem State.setNotices_pins (s : State) (v : List Notice) : (s.setNotices v).pins = s.pins := rfl
@[simp] theorem State.setNotices_ctrl (s : State) (v : List Notice) : (s.setNotices v).ctrl = s.ctrl := rfl
@[simp] theorem State.setNotices_loader (s : State) (v : List Notice) : (s.setNotices v).loader = s.loader := rfl
@[simp] theorem State.setNotices_watch (s : State) (v : List Notice) : (s.setNotices v).watch = s.watch := rfl
@[simp] theorem State.setNotices_line (s : State) (v : List Notice) : (s.setNotices v).line = s.line := rfl
@[simp] theorem State.setNotices_engine (s : State) (v : List Notice) : (s.setNotices v).engine = s.engine := rfl
@[simp] theorem State.setNotices_table (s : State) (v : List Notice) : (s.setNotices v).table = s.table := rfl
@[simp] theorem State.setNotices_slate (s : State) (v : List Notice) : (s.setNotices v).slate = s.slate := rfl
@[simp] theorem State.setNotices_health (s : State) (v : List Notice) : (s.setNotices v).health = s.health := rfl
@[simp] theorem State.setNotices_terms (s : State) (v : List Notice) : (s.setNotices v).terms = s.terms := rfl
@[simp] theorem State.setNotices_outputs (s : State) (v : List Notice) : (s.setNotices v).outputs = s.outputs := rfl
@[simp] theorem State.setNotices_outputTrace (s : State) (v : List Notice) : (s.setNotices v).outputTrace = s.outputTrace := rfl
@[simp] theorem State.setNotices_notices (s : State) (v : List Notice) : (s.setNotices v).notices = v := rfl
@[simp] theorem State.setNotices_tap (s : State) (v : List Notice) : (s.setNotices v).tap = s.tap := rfl
@[simp] theorem State.setNotices_pending (s : State) (v : List Notice) : (s.setNotices v).pending = s.pending := rfl

@[simp] theorem State.setTap_pins (s : State) (v : Tap) : (s.setTap v).pins = s.pins := rfl
@[simp] theorem State.setTap_ctrl (s : State) (v : Tap) : (s.setTap v).ctrl = s.ctrl := rfl
@[simp] theorem State.setTap_loader (s : State) (v : Tap) : (s.setTap v).loader = s.loader := rfl
@[simp] theorem State.setTap_watch (s : State) (v : Tap) : (s.setTap v).watch = s.watch := rfl
@[simp] theorem State.setTap_line (s : State) (v : Tap) : (s.setTap v).line = s.line := rfl
@[simp] theorem State.setTap_engine (s : State) (v : Tap) : (s.setTap v).engine = s.engine := rfl
@[simp] theorem State.setTap_table (s : State) (v : Tap) : (s.setTap v).table = s.table := rfl
@[simp] theorem State.setTap_slate (s : State) (v : Tap) : (s.setTap v).slate = s.slate := rfl
@[simp] theorem State.setTap_health (s : State) (v : Tap) : (s.setTap v).health = s.health := rfl
@[simp] theorem State.setTap_terms (s : State) (v : Tap) : (s.setTap v).terms = s.terms := rfl
@[simp] theorem State.setTap_outputs (s : State) (v : Tap) : (s.setTap v).outputs = s.outputs := rfl
@[simp] theorem State.setTap_outputTrace (s : State) (v : Tap) : (s.setTap v).outputTrace = s.outputTrace := rfl
@[simp] theorem State.setTap_notices (s : State) (v : Tap) : (s.setTap v).notices = s.notices := rfl
@[simp] theorem State.setTap_tap (s : State) (v : Tap) : (s.setTap v).tap = v := rfl
@[simp] theorem State.setTap_pending (s : State) (v : Tap) : (s.setTap v).pending = s.pending := rfl

@[simp] theorem State.setPending_pins (s : State) (v : List Instr) : (s.setPending v).pins = s.pins := rfl
@[simp] theorem State.setPending_ctrl (s : State) (v : List Instr) : (s.setPending v).ctrl = s.ctrl := rfl
@[simp] theorem State.setPending_loader (s : State) (v : List Instr) : (s.setPending v).loader = s.loader := rfl
@[simp] theorem State.setPending_watch (s : State) (v : List Instr) : (s.setPending v).watch = s.watch := rfl
@[simp] theorem State.setPending_line (s : State) (v : List Instr) : (s.setPending v).line = s.line := rfl
@[simp] theorem State.setPending_engine (s : State) (v : List Instr) : (s.setPending v).engine = s.engine := rfl
@[simp] theorem State.setPending_table (s : State) (v : List Instr) : (s.setPending v).table = s.table := rfl
@[simp] theorem State.setPending_slate (s : State) (v : List Instr) : (s.setPending v).slate = s.slate := rfl
@[simp] theorem State.setPending_health (s : State) (v : List Instr) : (s.setPending v).health = s.health := rfl
@[simp] theorem State.setPending_terms (s : State) (v : List Instr) : (s.setPending v).terms = s.terms := rfl
@[simp] theorem State.setPending_outputs (s : State) (v : List Instr) : (s.setPending v).outputs = s.outputs := rfl
@[simp] theorem State.setPending_outputTrace (s : State) (v : List Instr) : (s.setPending v).outputTrace = s.outputTrace := rfl
@[simp] theorem State.setPending_notices (s : State) (v : List Instr) : (s.setPending v).notices = s.notices := rfl
@[simp] theorem State.setPending_tap (s : State) (v : List Instr) : (s.setPending v).tap = s.tap := rfl
@[simp] theorem State.setPending_pending (s : State) (v : List Instr) : (s.setPending v).pending = v := rfl

end Sys2Proof.Machine
end

