-- ==== Sys2Proof/Laws/Frames.lean ====
section
/-! SUPPORT. The frame of each shared operation, one lemma each: the blocks of the state it leaves as they were. Tagged
@[simp], so that a proof about a command never unfolds an operation to see what it does not touch. -/

namespace Sys2Proof.Machine

/-- A fold of operations that each keep a part of the state keeps it. -/
theorem foldl_keeps {α β : Type} (part : State → β) (f : State → α → State) (h : ∀ s a, part (f s a) = part s)
    (l : List α) (s : State) : part (l.foldl f s) = part s := by
  induction l generalizing s with
  | nil => rfl
  | cons a l ih => rw [List.foldl_cons, ih, h]

/-! ### Notices and the table -/

@[simp] theorem State.raise_frame (k : NoticeKind) (n : Option Station) (t : Option (Fin 16)) (v : Option NoticeValue) (s : State) :
    (s.raise k n t v).pins = s.pins ∧ (s.raise k n t v).ctrl = s.ctrl ∧ (s.raise k n t v).loader = s.loader ∧
      (s.raise k n t v).watch = s.watch ∧ (s.raise k n t v).line = s.line ∧ (s.raise k n t v).engine = s.engine ∧
      (s.raise k n t v).table = s.table ∧ (s.raise k n t v).slate = s.slate ∧ (s.raise k n t v).health = s.health ∧
      (s.raise k n t v).terms = s.terms ∧ (s.raise k n t v).outputs = s.outputs ∧ (s.raise k n t v).outputTrace = s.outputTrace ∧
      (s.raise k n t v).tap = s.tap ∧ (s.raise k n t v).pending = s.pending := by
  simp [State.raise]

@[simp] theorem State.raiseStation_frame (k : NoticeKind) (n : Station) (s : State) :
    (s.raiseStation k n).pins = s.pins ∧ (s.raiseStation k n).ctrl = s.ctrl ∧ (s.raiseStation k n).loader = s.loader ∧
      (s.raiseStation k n).watch = s.watch ∧ (s.raiseStation k n).line = s.line ∧ (s.raiseStation k n).engine = s.engine ∧
      (s.raiseStation k n).table = s.table ∧ (s.raiseStation k n).slate = s.slate ∧ (s.raiseStation k n).health = s.health ∧
      (s.raiseStation k n).terms = s.terms ∧ (s.raiseStation k n).outputs = s.outputs ∧ (s.raiseStation k n).outputTrace = s.outputTrace ∧
      (s.raiseStation k n).tap = s.tap ∧ (s.raiseStation k n).pending = s.pending := by
  simp [State.raiseStation]

@[simp] theorem State.raiseTerm_frame (k : NoticeKind) (t : Fin 16) (s : State) :
    (s.raiseTerm k t).pins = s.pins ∧ (s.raiseTerm k t).ctrl = s.ctrl ∧ (s.raiseTerm k t).loader = s.loader ∧
      (s.raiseTerm k t).watch = s.watch ∧ (s.raiseTerm k t).line = s.line ∧ (s.raiseTerm k t).engine = s.engine ∧
      (s.raiseTerm k t).table = s.table ∧ (s.raiseTerm k t).slate = s.slate ∧ (s.raiseTerm k t).health = s.health ∧
      (s.raiseTerm k t).terms = s.terms ∧ (s.raiseTerm k t).outputs = s.outputs ∧ (s.raiseTerm k t).outputTrace = s.outputTrace ∧
      (s.raiseTerm k t).tap = s.tap ∧ (s.raiseTerm k t).pending = s.pending := by
  simp [State.raiseTerm]

@[simp] theorem State.raiseValue_frame (k : NoticeKind) (v : NoticeValue) (s : State) :
    (s.raiseValue k v).pins = s.pins ∧ (s.raiseValue k v).ctrl = s.ctrl ∧ (s.raiseValue k v).loader = s.loader ∧
      (s.raiseValue k v).watch = s.watch ∧ (s.raiseValue k v).line = s.line ∧ (s.raiseValue k v).engine = s.engine ∧
      (s.raiseValue k v).table = s.table ∧ (s.raiseValue k v).slate = s.slate ∧ (s.raiseValue k v).health = s.health ∧
      (s.raiseValue k v).terms = s.terms ∧ (s.raiseValue k v).outputs = s.outputs ∧ (s.raiseValue k v).outputTrace = s.outputTrace ∧
      (s.raiseValue k v).tap = s.tap ∧ (s.raiseValue k v).pending = s.pending := by
  simp [State.raiseValue]

@[simp] theorem State.setEntry_frame (n : Station) (e : Entry) (s : State) :
    (s.setEntry n e).pins = s.pins ∧ (s.setEntry n e).ctrl = s.ctrl ∧ (s.setEntry n e).loader = s.loader ∧
      (s.setEntry n e).watch = s.watch ∧ (s.setEntry n e).line = s.line ∧ (s.setEntry n e).engine = s.engine ∧
      (s.setEntry n e).slate = s.slate ∧ (s.setEntry n e).health = s.health ∧ (s.setEntry n e).terms = s.terms ∧
      (s.setEntry n e).outputs = s.outputs ∧ (s.setEntry n e).outputTrace = s.outputTrace ∧ (s.setEntry n e).notices = s.notices ∧
      (s.setEntry n e).tap = s.tap ∧ (s.setEntry n e).pending = s.pending := by
  simp [State.setEntry]

@[simp] theorem State.updateEntry_frame (n : Station) (f : Entry → Entry) (s : State) :
    (s.updateEntry n f).pins = s.pins ∧ (s.updateEntry n f).ctrl = s.ctrl ∧ (s.updateEntry n f).loader = s.loader ∧
      (s.updateEntry n f).watch = s.watch ∧ (s.updateEntry n f).line = s.line ∧ (s.updateEntry n f).engine = s.engine ∧
      (s.updateEntry n f).slate = s.slate ∧ (s.updateEntry n f).health = s.health ∧ (s.updateEntry n f).terms = s.terms ∧
      (s.updateEntry n f).outputs = s.outputs ∧ (s.updateEntry n f).outputTrace = s.outputTrace ∧ (s.updateEntry n f).notices = s.notices ∧
      (s.updateEntry n f).tap = s.tap ∧ (s.updateEntry n f).pending = s.pending := by
  simp [State.updateEntry]

@[simp] theorem State.updateSelfReport_frame (f : StoredReport → StoredReport) (s : State) :
    (s.updateSelfReport f).pins = s.pins ∧ (s.updateSelfReport f).ctrl = s.ctrl ∧ (s.updateSelfReport f).loader = s.loader ∧
      (s.updateSelfReport f).watch = s.watch ∧ (s.updateSelfReport f).line = s.line ∧ (s.updateSelfReport f).engine = s.engine ∧
      (s.updateSelfReport f).slate = s.slate ∧ (s.updateSelfReport f).health = s.health ∧ (s.updateSelfReport f).terms = s.terms ∧
      (s.updateSelfReport f).outputs = s.outputs ∧ (s.updateSelfReport f).outputTrace = s.outputTrace ∧ (s.updateSelfReport f).notices = s.notices ∧
      (s.updateSelfReport f).tap = s.tap ∧ (s.updateSelfReport f).pending = s.pending := by
  simp [State.updateSelfReport]

@[simp] theorem State.setSelfPhase_frame (p : PhaseCode) (s : State) :
    (s.setSelfPhase p).pins = s.pins ∧ (s.setSelfPhase p).ctrl = s.ctrl ∧ (s.setSelfPhase p).loader = s.loader ∧
      (s.setSelfPhase p).watch = s.watch ∧ (s.setSelfPhase p).line = s.line ∧ (s.setSelfPhase p).engine = s.engine ∧
      (s.setSelfPhase p).slate = s.slate ∧ (s.setSelfPhase p).health = s.health ∧ (s.setSelfPhase p).terms = s.terms ∧
      (s.setSelfPhase p).outputs = s.outputs ∧ (s.setSelfPhase p).outputTrace = s.outputTrace ∧ (s.setSelfPhase p).notices = s.notices ∧
      (s.setSelfPhase p).tap = s.tap ∧ (s.setSelfPhase p).pending = s.pending := by
  simp [State.setSelfPhase]

@[simp] theorem State.setSelfHealth_frame (h : HealthCode) (s : State) :
    (s.setSelfHealth h).pins = s.pins ∧ (s.setSelfHealth h).ctrl = s.ctrl ∧ (s.setSelfHealth h).loader = s.loader ∧
      (s.setSelfHealth h).watch = s.watch ∧ (s.setSelfHealth h).line = s.line ∧ (s.setSelfHealth h).engine = s.engine ∧
      (s.setSelfHealth h).slate = s.slate ∧ (s.setSelfHealth h).health = s.health ∧ (s.setSelfHealth h).terms = s.terms ∧
      (s.setSelfHealth h).outputs = s.outputs ∧ (s.setSelfHealth h).outputTrace = s.outputTrace ∧ (s.setSelfHealth h).notices = s.notices ∧
      (s.setSelfHealth h).tap = s.tap ∧ (s.setSelfHealth h).pending = s.pending := by
  simp [State.setSelfHealth]

@[simp] theorem State.raiseHeard_frame (n : Station) (s : State) :
    (s.raiseHeard n).pins = s.pins ∧ (s.raiseHeard n).ctrl = s.ctrl ∧ (s.raiseHeard n).loader = s.loader ∧
      (s.raiseHeard n).watch = s.watch ∧ (s.raiseHeard n).line = s.line ∧ (s.raiseHeard n).engine = s.engine ∧
      (s.raiseHeard n).table = s.table ∧ (s.raiseHeard n).slate = s.slate ∧ (s.raiseHeard n).health = s.health ∧
      (s.raiseHeard n).terms = s.terms ∧ (s.raiseHeard n).outputs = s.outputs ∧ (s.raiseHeard n).outputTrace = s.outputTrace ∧
      (s.raiseHeard n).tap = s.tap ∧ (s.raiseHeard n).pending = s.pending := by
  unfold State.raiseHeard
  repeat' split
  all_goals simp_all

@[simp] theorem State.evidence_frame (n : Station) (s : State) :
    (s.evidence n).pins = s.pins ∧ (s.evidence n).ctrl = s.ctrl ∧ (s.evidence n).loader = s.loader ∧
      (s.evidence n).watch = s.watch ∧ (s.evidence n).line = s.line ∧ (s.evidence n).engine = s.engine ∧
      (s.evidence n).slate = s.slate ∧ (s.evidence n).health = s.health ∧ (s.evidence n).terms = s.terms ∧
      (s.evidence n).outputs = s.outputs ∧ (s.evidence n).outputTrace = s.outputTrace ∧ (s.evidence n).tap = s.tap ∧
      (s.evidence n).pending = s.pending := by
  unfold State.evidence
  repeat' split
  all_goals simp

@[simp] theorem State.statePresence_frame (n : Station) (s : State) :
    (s.statePresence n).pins = s.pins ∧ (s.statePresence n).ctrl = s.ctrl ∧ (s.statePresence n).loader = s.loader ∧
      (s.statePresence n).watch = s.watch ∧ (s.statePresence n).line = s.line ∧ (s.statePresence n).engine = s.engine ∧
      (s.statePresence n).slate = s.slate ∧ (s.statePresence n).health = s.health ∧ (s.statePresence n).terms = s.terms ∧
      (s.statePresence n).outputs = s.outputs ∧ (s.statePresence n).outputTrace = s.outputTrace ∧ (s.statePresence n).tap = s.tap ∧
      (s.statePresence n).pending = s.pending := by
  unfold State.statePresence
  repeat' split
  all_goals simp

/-! ### The term evaluator -/

@[simp] theorem State.moveOutputs_frame (d : Vector Drive 8) (s : State) :
    (s.moveOutputs d).pins = s.pins ∧ (s.moveOutputs d).ctrl = s.ctrl ∧ (s.moveOutputs d).loader = s.loader ∧
      (s.moveOutputs d).watch = s.watch ∧ (s.moveOutputs d).line = s.line ∧ (s.moveOutputs d).engine = s.engine ∧
      (s.moveOutputs d).table = s.table ∧ (s.moveOutputs d).slate = s.slate ∧ (s.moveOutputs d).health = s.health ∧
      (s.moveOutputs d).terms = s.terms ∧ (s.moveOutputs d).notices = s.notices ∧ (s.moveOutputs d).tap = s.tap ∧
      (s.moveOutputs d).pending = s.pending := by
  simp [State.moveOutputs]

@[simp] theorem State.raiseChanges_frame (old new : Vector TermFlags 16) (s : State) :
    (s.raiseChanges old new).pins = s.pins ∧ (s.raiseChanges old new).ctrl = s.ctrl ∧ (s.raiseChanges old new).loader = s.loader ∧
      (s.raiseChanges old new).watch = s.watch ∧ (s.raiseChanges old new).line = s.line ∧ (s.raiseChanges old new).engine = s.engine ∧
      (s.raiseChanges old new).table = s.table ∧ (s.raiseChanges old new).slate = s.slate ∧ (s.raiseChanges old new).health = s.health ∧
      (s.raiseChanges old new).terms = s.terms ∧ (s.raiseChanges old new).outputs = s.outputs ∧ (s.raiseChanges old new).outputTrace = s.outputTrace ∧
      (s.raiseChanges old new).tap = s.tap ∧ (s.raiseChanges old new).pending = s.pending := by
  unfold State.raiseChanges
  refine ⟨foldl_keeps State.pins _ ?_ _ _, foldl_keeps State.ctrl _ ?_ _ _, foldl_keeps State.loader _ ?_ _ _, foldl_keeps State.watch _ ?_ _ _, foldl_keeps State.line _ ?_ _ _, foldl_keeps State.engine _ ?_ _ _, foldl_keeps State.table _ ?_ _ _, foldl_keeps State.slate _ ?_ _ _, foldl_keeps State.health _ ?_ _ _, foldl_keeps State.terms _ ?_ _ _, foldl_keeps State.outputs _ ?_ _ _, foldl_keeps State.outputTrace _ ?_ _ _, foldl_keeps State.tap _ ?_ _ _, foldl_keeps State.pending _ ?_ _ _⟩
  all_goals (intro s t; split <;> simp)

@[simp] theorem State.settleTerms_frame (c : StationConfig) (new : Vector TermFlags 16) (s : State) :
    (s.settleTerms c new).pins = s.pins ∧ (s.settleTerms c new).ctrl = s.ctrl ∧ (s.settleTerms c new).loader = s.loader ∧
      (s.settleTerms c new).watch = s.watch ∧ (s.settleTerms c new).line = s.line ∧ (s.settleTerms c new).engine = s.engine ∧
      (s.settleTerms c new).table = s.table ∧ (s.settleTerms c new).slate = s.slate ∧ (s.settleTerms c new).health = s.health ∧
      (s.settleTerms c new).tap = s.tap ∧ (s.settleTerms c new).pending = s.pending := by
  simp [State.settleTerms]

@[simp] theorem State.tableChanged_frame (s : State) :
    (s.tableChanged).pins = s.pins ∧ (s.tableChanged).ctrl = s.ctrl ∧ (s.tableChanged).loader = s.loader ∧
      (s.tableChanged).watch = s.watch ∧ (s.tableChanged).line = s.line ∧ (s.tableChanged).engine = s.engine ∧
      (s.tableChanged).table = s.table ∧ (s.tableChanged).slate = s.slate ∧ (s.tableChanged).health = s.health ∧
      (s.tableChanged).tap = s.tap ∧ (s.tableChanged).pending = s.pending := by
  unfold State.tableChanged
  repeat' split
  all_goals simp

@[simp] theorem State.departureSeen_frame (g : DepartureSignal) (s : State) :
    (s.departureSeen g).pins = s.pins ∧ (s.departureSeen g).ctrl = s.ctrl ∧ (s.departureSeen g).loader = s.loader ∧
      (s.departureSeen g).watch = s.watch ∧ (s.departureSeen g).line = s.line ∧ (s.departureSeen g).engine = s.engine ∧
      (s.departureSeen g).table = s.table ∧ (s.departureSeen g).slate = s.slate ∧ (s.departureSeen g).health = s.health ∧
      (s.departureSeen g).tap = s.tap ∧ (s.departureSeen g).pending = s.pending := by
  unfold State.departureSeen
  repeat' split
  all_goals simp

@[simp] theorem State.departuresSeen_frame (gs : List DepartureSignal) (s : State) :
    (s.departuresSeen gs).pins = s.pins ∧ (s.departuresSeen gs).ctrl = s.ctrl ∧ (s.departuresSeen gs).loader = s.loader ∧
      (s.departuresSeen gs).watch = s.watch ∧ (s.departuresSeen gs).line = s.line ∧ (s.departuresSeen gs).engine = s.engine ∧
      (s.departuresSeen gs).table = s.table ∧ (s.departuresSeen gs).slate = s.slate ∧ (s.departuresSeen gs).health = s.health ∧
      (s.departuresSeen gs).tap = s.tap ∧ (s.departuresSeen gs).pending = s.pending := by
  unfold State.departuresSeen
  refine ⟨foldl_keeps State.pins _ ?_ _ _, foldl_keeps State.ctrl _ ?_ _ _, foldl_keeps State.loader _ ?_ _ _, foldl_keeps State.watch _ ?_ _ _, foldl_keeps State.line _ ?_ _ _, foldl_keeps State.engine _ ?_ _ _, foldl_keeps State.table _ ?_ _ _, foldl_keeps State.slate _ ?_ _ _, foldl_keeps State.health _ ?_ _ _, foldl_keeps State.tap _ ?_ _ _, foldl_keeps State.pending _ ?_ _ _⟩
  all_goals (intro s g; simp)

@[simp] theorem State.raiseReleased_frame (c : StationConfig) (m : ZoneMask) (n : Option Station) (old : Vector TermFlags 16) (s : State) :
    (s.raiseReleased c m n old).pins = s.pins ∧ (s.raiseReleased c m n old).ctrl = s.ctrl ∧ (s.raiseReleased c m n old).loader = s.loader ∧
      (s.raiseReleased c m n old).watch = s.watch ∧ (s.raiseReleased c m n old).line = s.line ∧ (s.raiseReleased c m n old).engine = s.engine ∧
      (s.raiseReleased c m n old).table = s.table ∧ (s.raiseReleased c m n old).slate = s.slate ∧ (s.raiseReleased c m n old).health = s.health ∧
      (s.raiseReleased c m n old).terms = s.terms ∧ (s.raiseReleased c m n old).outputs = s.outputs ∧ (s.raiseReleased c m n old).outputTrace = s.outputTrace ∧
      (s.raiseReleased c m n old).tap = s.tap ∧ (s.raiseReleased c m n old).pending = s.pending := by
  unfold State.raiseReleased
  refine ⟨foldl_keeps State.pins _ ?_ _ _, foldl_keeps State.ctrl _ ?_ _ _, foldl_keeps State.loader _ ?_ _ _, foldl_keeps State.watch _ ?_ _ _, foldl_keeps State.line _ ?_ _ _, foldl_keeps State.engine _ ?_ _ _, foldl_keeps State.table _ ?_ _ _, foldl_keeps State.slate _ ?_ _ _, foldl_keeps State.health _ ?_ _ _, foldl_keeps State.terms _ ?_ _ _, foldl_keeps State.outputs _ ?_ _ _, foldl_keeps State.outputTrace _ ?_ _ _, foldl_keeps State.tap _ ?_ _ _, foldl_keeps State.pending _ ?_ _ _⟩
  all_goals (intro s t; repeat' split) <;> simp

@[simp] theorem State.applyRelease_frame (m : ZoneMask) (n : Option Station) (s : State) :
    (s.applyRelease m n).pins = s.pins ∧ (s.applyRelease m n).ctrl = s.ctrl ∧ (s.applyRelease m n).loader = s.loader ∧
      (s.applyRelease m n).watch = s.watch ∧ (s.applyRelease m n).line = s.line ∧ (s.applyRelease m n).engine = s.engine ∧
      (s.applyRelease m n).table = s.table ∧ (s.applyRelease m n).slate = s.slate ∧ (s.applyRelease m n).health = s.health ∧
      (s.applyRelease m n).tap = s.tap ∧ (s.applyRelease m n).pending = s.pending := by
  unfold State.applyRelease
  repeat' split
  all_goals simp

@[simp] theorem State.enterTerms_frame (s : State) :
    (s.enterTerms).pins = s.pins ∧ (s.enterTerms).ctrl = s.ctrl ∧ (s.enterTerms).loader = s.loader ∧
      (s.enterTerms).watch = s.watch ∧ (s.enterTerms).line = s.line ∧ (s.enterTerms).engine = s.engine ∧
      (s.enterTerms).table = s.table ∧ (s.enterTerms).slate = s.slate ∧ (s.enterTerms).health = s.health ∧
      (s.enterTerms).tap = s.tap ∧ (s.enterTerms).pending = s.pending := by
  unfold State.enterTerms
  repeat' split
  all_goals simp

@[simp] theorem State.clearTerms_frame (s : State) :
    (s.clearTerms).pins = s.pins ∧ (s.clearTerms).ctrl = s.ctrl ∧ (s.clearTerms).loader = s.loader ∧
      (s.clearTerms).watch = s.watch ∧ (s.clearTerms).line = s.line ∧ (s.clearTerms).engine = s.engine ∧
      (s.clearTerms).table = s.table ∧ (s.clearTerms).slate = s.slate ∧ (s.clearTerms).health = s.health ∧
      (s.clearTerms).tap = s.tap ∧ (s.clearTerms).pending = s.pending := by
  unfold State.clearTerms
  repeat' split
  all_goals simp

/-! ### The send slate -/

@[simp] theorem State.requestChange_frame (d : Bool) (s : State) :
    (s.requestChange d).pins = s.pins ∧ (s.requestChange d).ctrl = s.ctrl ∧ (s.requestChange d).loader = s.loader ∧
      (s.requestChange d).watch = s.watch ∧ (s.requestChange d).line = s.line ∧ (s.requestChange d).engine = s.engine ∧
      (s.requestChange d).table = s.table ∧ (s.requestChange d).health = s.health ∧ (s.requestChange d).terms = s.terms ∧
      (s.requestChange d).outputs = s.outputs ∧ (s.requestChange d).outputTrace = s.outputTrace ∧ (s.requestChange d).notices = s.notices ∧
      (s.requestChange d).tap = s.tap ∧ (s.requestChange d).pending = s.pending := by
  unfold State.requestChange
  repeat' split
  all_goals simp

@[simp] theorem State.requestRelease_frame (m : ZoneMask) (s : State) :
    (s.requestRelease m).pins = s.pins ∧ (s.requestRelease m).ctrl = s.ctrl ∧ (s.requestRelease m).loader = s.loader ∧
      (s.requestRelease m).watch = s.watch ∧ (s.requestRelease m).line = s.line ∧ (s.requestRelease m).engine = s.engine ∧
      (s.requestRelease m).table = s.table ∧ (s.requestRelease m).health = s.health ∧ (s.requestRelease m).terms = s.terms ∧
      (s.requestRelease m).outputs = s.outputs ∧ (s.requestRelease m).outputTrace = s.outputTrace ∧ (s.requestRelease m).notices = s.notices ∧
      (s.requestRelease m).tap = s.tap ∧ (s.requestRelease m).pending = s.pending := by
  unfold State.requestRelease
  repeat' split
  all_goals simp

@[simp] theorem State.requestRefresh_frame (s : State) :
    (s.requestRefresh).pins = s.pins ∧ (s.requestRefresh).ctrl = s.ctrl ∧ (s.requestRefresh).loader = s.loader ∧
      (s.requestRefresh).watch = s.watch ∧ (s.requestRefresh).line = s.line ∧ (s.requestRefresh).engine = s.engine ∧
      (s.requestRefresh).table = s.table ∧ (s.requestRefresh).health = s.health ∧ (s.requestRefresh).terms = s.terms ∧
      (s.requestRefresh).outputs = s.outputs ∧ (s.requestRefresh).outputTrace = s.outputTrace ∧ (s.requestRefresh).notices = s.notices ∧
      (s.requestRefresh).tap = s.tap ∧ (s.requestRefresh).pending = s.pending := by
  unfold State.requestRefresh
  repeat' split
  all_goals simp

@[simp] theorem State.requestJoin_frame (s : State) :
    (s.requestJoin).pins = s.pins ∧ (s.requestJoin).ctrl = s.ctrl ∧ (s.requestJoin).loader = s.loader ∧
      (s.requestJoin).watch = s.watch ∧ (s.requestJoin).line = s.line ∧ (s.requestJoin).engine = s.engine ∧
      (s.requestJoin).table = s.table ∧ (s.requestJoin).health = s.health ∧ (s.requestJoin).terms = s.terms ∧
      (s.requestJoin).outputs = s.outputs ∧ (s.requestJoin).outputTrace = s.outputTrace ∧ (s.requestJoin).notices = s.notices ∧
      (s.requestJoin).tap = s.tap ∧ (s.requestJoin).pending = s.pending := by
  unfold State.requestJoin
  repeat' split
  all_goals simp

@[simp] theorem State.requestResync_frame (s : State) :
    (s.requestResync).pins = s.pins ∧ (s.requestResync).ctrl = s.ctrl ∧ (s.requestResync).loader = s.loader ∧
      (s.requestResync).watch = s.watch ∧ (s.requestResync).line = s.line ∧ (s.requestResync).engine = s.engine ∧
      (s.requestResync).table = s.table ∧ (s.requestResync).health = s.health ∧ (s.requestResync).terms = s.terms ∧
      (s.requestResync).outputs = s.outputs ∧ (s.requestResync).outputTrace = s.outputTrace ∧ (s.requestResync).notices = s.notices ∧
      (s.requestResync).tap = s.tap ∧ (s.requestResync).pending = s.pending := by
  unfold State.requestResync
  repeat' split
  all_goals simp

@[simp] theorem State.localRelease_frame (m : ZoneMask) (s : State) :
    (s.localRelease m).pins = s.pins ∧ (s.localRelease m).ctrl = s.ctrl ∧ (s.localRelease m).loader = s.loader ∧
      (s.localRelease m).watch = s.watch ∧ (s.localRelease m).line = s.line ∧ (s.localRelease m).engine = s.engine ∧
      (s.localRelease m).table = s.table ∧ (s.localRelease m).health = s.health ∧ (s.localRelease m).tap = s.tap ∧
      (s.localRelease m).pending = s.pending := by
  unfold State.localRelease
  repeat' split
  all_goals simp

@[simp] theorem State.joinConcluded_frame (s : State) :
    (s.joinConcluded).pins = s.pins ∧ (s.joinConcluded).loader = s.loader ∧ (s.joinConcluded).watch = s.watch ∧
      (s.joinConcluded).line = s.line ∧ (s.joinConcluded).engine = s.engine ∧ (s.joinConcluded).health = s.health ∧
      (s.joinConcluded).tap = s.tap ∧ (s.joinConcluded).pending = s.pending := by
  unfold State.joinConcluded
  repeat' split
  all_goals simp

@[simp] theorem State.declareConflict_frame (s : State) :
    (s.declareConflict).pins = s.pins ∧ (s.declareConflict).loader = s.loader ∧ (s.declareConflict).watch = s.watch ∧
      (s.declareConflict).table = s.table ∧ (s.declareConflict).health = s.health ∧ (s.declareConflict).tap = s.tap ∧
      (s.declareConflict).pending = s.pending := by
  unfold State.declareConflict
  repeat' split
  all_goals simp

/-! ### The health monitor and the outcomes -/

@[simp] theorem State.healthActions_frame (old new : Health) (s : State) :
    (s.healthActions old new).pins = s.pins ∧ (s.healthActions old new).ctrl = s.ctrl ∧ (s.healthActions old new).loader = s.loader ∧
      (s.healthActions old new).watch = s.watch ∧ (s.healthActions old new).line = s.line ∧ (s.healthActions old new).engine = s.engine ∧
      (s.healthActions old new).table = s.table ∧ (s.healthActions old new).health = s.health ∧ (s.healthActions old new).terms = s.terms ∧
      (s.healthActions old new).outputs = s.outputs ∧ (s.healthActions old new).outputTrace = s.outputTrace ∧ (s.healthActions old new).notices = s.notices ∧
      (s.healthActions old new).tap = s.tap ∧ (s.healthActions old new).pending = s.pending := by
  unfold State.healthActions
  repeat' split
  all_goals simp

@[simp] theorem State.changeHealth_frame (new : Health) (s : State) :
    (s.changeHealth new).pins = s.pins ∧ (s.changeHealth new).ctrl = s.ctrl ∧ (s.changeHealth new).loader = s.loader ∧
      (s.changeHealth new).watch = s.watch ∧ (s.changeHealth new).line = s.line ∧ (s.changeHealth new).engine = s.engine ∧
      (s.changeHealth new).terms = s.terms ∧ (s.changeHealth new).outputs = s.outputs ∧ (s.changeHealth new).outputTrace = s.outputTrace ∧
      (s.changeHealth new).tap = s.tap ∧ (s.changeHealth new).pending = s.pending := by
  unfold State.changeHealth
  repeat' split
  all_goals simp

@[simp] theorem State.weighOutcome_frame (o : FrameOutcome) (s : State) :
    (s.weighOutcome o).pins = s.pins ∧ (s.weighOutcome o).ctrl = s.ctrl ∧ (s.weighOutcome o).loader = s.loader ∧
      (s.weighOutcome o).watch = s.watch ∧ (s.weighOutcome o).line = s.line ∧ (s.weighOutcome o).engine = s.engine ∧
      (s.weighOutcome o).terms = s.terms ∧ (s.weighOutcome o).outputs = s.outputs ∧ (s.weighOutcome o).outputTrace = s.outputTrace ∧
      (s.weighOutcome o).tap = s.tap ∧ (s.weighOutcome o).pending = s.pending := by
  simp [State.weighOutcome]

@[simp] theorem State.sighting_frame (s : State) :
    (s.sighting).pins = s.pins ∧ (s.sighting).loader = s.loader ∧ (s.sighting).watch = s.watch ∧
      (s.sighting).table = s.table ∧ (s.sighting).tap = s.tap ∧ (s.sighting).pending = s.pending := by
  unfold State.sighting
  repeat' split
  all_goals simp

@[simp] theorem State.countOutcome_frame (o : FrameOutcome) (s : State) :
    (s.countOutcome o).pins = s.pins ∧ (s.countOutcome o).ctrl = s.ctrl ∧ (s.countOutcome o).loader = s.loader ∧
      (s.countOutcome o).watch = s.watch ∧ (s.countOutcome o).line = s.line ∧ (s.countOutcome o).table = s.table ∧
      (s.countOutcome o).slate = s.slate ∧ (s.countOutcome o).health = s.health ∧ (s.countOutcome o).terms = s.terms ∧
      (s.countOutcome o).outputs = s.outputs ∧ (s.countOutcome o).outputTrace = s.outputTrace ∧ (s.countOutcome o).notices = s.notices ∧
      (s.countOutcome o).tap = s.tap ∧ (s.countOutcome o).pending = s.pending := by
  simp [State.countOutcome]

@[simp] theorem State.reportShort_frame (x : Series) (s : State) :
    (s.reportShort x).pins = s.pins ∧ (s.reportShort x).ctrl = s.ctrl ∧ (s.reportShort x).loader = s.loader ∧
      (s.reportShort x).watch = s.watch ∧ (s.reportShort x).line = s.line ∧ (s.reportShort x).engine = s.engine ∧
      (s.reportShort x).slate = s.slate ∧ (s.reportShort x).health = s.health ∧ (s.reportShort x).terms = s.terms ∧
      (s.reportShort x).outputs = s.outputs ∧ (s.reportShort x).outputTrace = s.outputTrace ∧ (s.reportShort x).tap = s.tap ∧
      (s.reportShort x).pending = s.pending := by
  unfold State.reportShort
  dsimp only
  repeat' split
  all_goals simp_all

@[simp] theorem State.changeAttempt_frame (heard : Option StationMap) (s : State) :
    (s.changeAttempt heard).pins = s.pins ∧ (s.changeAttempt heard).ctrl = s.ctrl ∧ (s.changeAttempt heard).loader = s.loader ∧
      (s.changeAttempt heard).watch = s.watch ∧ (s.changeAttempt heard).line = s.line ∧ (s.changeAttempt heard).engine = s.engine ∧
      (s.changeAttempt heard).health = s.health ∧ (s.changeAttempt heard).terms = s.terms ∧ (s.changeAttempt heard).outputs = s.outputs ∧
      (s.changeAttempt heard).outputTrace = s.outputTrace ∧ (s.changeAttempt heard).tap = s.tap ∧ (s.changeAttempt heard).pending = s.pending := by
  unfold State.changeAttempt
  repeat' split
  all_goals simp

@[simp] theorem State.releaseAttempt_frame (heard : Option StationMap) (s : State) :
    (s.releaseAttempt heard).pins = s.pins ∧ (s.releaseAttempt heard).ctrl = s.ctrl ∧ (s.releaseAttempt heard).loader = s.loader ∧
      (s.releaseAttempt heard).watch = s.watch ∧ (s.releaseAttempt heard).line = s.line ∧ (s.releaseAttempt heard).engine = s.engine ∧
      (s.releaseAttempt heard).health = s.health ∧ (s.releaseAttempt heard).terms = s.terms ∧ (s.releaseAttempt heard).outputs = s.outputs ∧
      (s.releaseAttempt heard).outputTrace = s.outputTrace ∧ (s.releaseAttempt heard).tap = s.tap ∧ (s.releaseAttempt heard).pending = s.pending := by
  unfold State.releaseAttempt
  repeat' split
  all_goals simp

@[simp] theorem State.stateFrameCompleted_frame (s : State) :
    (s.stateFrameCompleted).pins = s.pins ∧ (s.stateFrameCompleted).ctrl = s.ctrl ∧ (s.stateFrameCompleted).loader = s.loader ∧
      (s.stateFrameCompleted).watch = s.watch ∧ (s.stateFrameCompleted).line = s.line ∧ (s.stateFrameCompleted).engine = s.engine ∧
      (s.stateFrameCompleted).table = s.table ∧ (s.stateFrameCompleted).health = s.health ∧ (s.stateFrameCompleted).terms = s.terms ∧
      (s.stateFrameCompleted).outputs = s.outputs ∧ (s.stateFrameCompleted).outputTrace = s.outputTrace ∧ (s.stateFrameCompleted).notices = s.notices ∧
      (s.stateFrameCompleted).tap = s.tap ∧ (s.stateFrameCompleted).pending = s.pending := by
  simp [State.stateFrameCompleted]

@[simp] theorem State.slateCompleted_frame (k : Kind) (heard : StationMap) (s : State) :
    (s.slateCompleted k heard).pins = s.pins ∧ (s.slateCompleted k heard).loader = s.loader ∧ (s.slateCompleted k heard).watch = s.watch ∧
      (s.slateCompleted k heard).line = s.line ∧ (s.slateCompleted k heard).engine = s.engine ∧ (s.slateCompleted k heard).health = s.health ∧
      (s.slateCompleted k heard).tap = s.tap ∧ (s.slateCompleted k heard).pending = s.pending := by
  unfold State.slateCompleted
  repeat' split
  all_goals simp

@[simp] theorem State.slateAborted_frame (k : Kind) (s : State) :
    (s.slateAborted k).pins = s.pins ∧ (s.slateAborted k).loader = s.loader ∧ (s.slateAborted k).watch = s.watch ∧
      (s.slateAborted k).line = s.line ∧ (s.slateAborted k).engine = s.engine ∧ (s.slateAborted k).health = s.health ∧
      (s.slateAborted k).tap = s.tap ∧ (s.slateAborted k).pending = s.pending := by
  unfold State.slateAborted
  repeat' split
  all_goals simp

@[simp] theorem State.slateLost_frame (k : Kind) (s : State) :
    (s.slateLost k).pins = s.pins ∧ (s.slateLost k).ctrl = s.ctrl ∧ (s.slateLost k).loader = s.loader ∧
      (s.slateLost k).watch = s.watch ∧ (s.slateLost k).line = s.line ∧ (s.slateLost k).engine = s.engine ∧
      (s.slateLost k).table = s.table ∧ (s.slateLost k).health = s.health ∧ (s.slateLost k).terms = s.terms ∧
      (s.slateLost k).outputs = s.outputs ∧ (s.slateLost k).outputTrace = s.outputTrace ∧ (s.slateLost k).notices = s.notices ∧
      (s.slateLost k).tap = s.tap ∧ (s.slateLost k).pending = s.pending := by
  unfold State.slateLost
  repeat' split
  all_goals simp

/-! ### The engine and the line -/

@[simp] theorem State.enterIdle_frame (n : Nat) (s : State) :
    (s.enterIdle n).pins = s.pins ∧ (s.enterIdle n).ctrl = s.ctrl ∧ (s.enterIdle n).loader = s.loader ∧
      (s.enterIdle n).watch = s.watch ∧ (s.enterIdle n).line = s.line ∧ (s.enterIdle n).table = s.table ∧
      (s.enterIdle n).slate = s.slate ∧ (s.enterIdle n).health = s.health ∧ (s.enterIdle n).terms = s.terms ∧
      (s.enterIdle n).outputs = s.outputs ∧ (s.enterIdle n).outputTrace = s.outputTrace ∧ (s.enterIdle n).notices = s.notices ∧
      (s.enterIdle n).tap = s.tap ∧ (s.enterIdle n).pending = s.pending := by
  simp [State.enterIdle]

@[simp] theorem State.enterDiscarding_frame (s : State) :
    (s.enterDiscarding).pins = s.pins ∧ (s.enterDiscarding).ctrl = s.ctrl ∧ (s.enterDiscarding).loader = s.loader ∧
      (s.enterDiscarding).watch = s.watch ∧ (s.enterDiscarding).line = s.line ∧ (s.enterDiscarding).table = s.table ∧
      (s.enterDiscarding).slate = s.slate ∧ (s.enterDiscarding).health = s.health ∧ (s.enterDiscarding).terms = s.terms ∧
      (s.enterDiscarding).outputs = s.outputs ∧ (s.enterDiscarding).outputTrace = s.outputTrace ∧ (s.enterDiscarding).notices = s.notices ∧
      (s.enterDiscarding).tap = s.tap ∧ (s.enterDiscarding).pending = s.pending := by
  simp [State.enterDiscarding]

@[simp] theorem State.setFrame_frame (st : EngineState) (f : Frame) (s : State) :
    (s.setFrame st f).pins = s.pins ∧ (s.setFrame st f).ctrl = s.ctrl ∧ (s.setFrame st f).loader = s.loader ∧
      (s.setFrame st f).watch = s.watch ∧ (s.setFrame st f).line = s.line ∧ (s.setFrame st f).table = s.table ∧
      (s.setFrame st f).slate = s.slate ∧ (s.setFrame st f).health = s.health ∧ (s.setFrame st f).terms = s.terms ∧
      (s.setFrame st f).outputs = s.outputs ∧ (s.setFrame st f).outputTrace = s.outputTrace ∧ (s.setFrame st f).notices = s.notices ∧
      (s.setFrame st f).tap = s.tap ∧ (s.setFrame st f).pending = s.pending := by
  simp [State.setFrame]

@[simp] theorem State.passBits_frame (free : Bool) (ps : List BitPeriod) (q : Quarter) (s : State) :
    (s.passBits free ps q).pins = s.pins ∧ (s.passBits free ps q).ctrl = s.ctrl ∧ (s.passBits free ps q).loader = s.loader ∧
      (s.passBits free ps q).watch = s.watch ∧ (s.passBits free ps q).engine = s.engine ∧ (s.passBits free ps q).table = s.table ∧
      (s.passBits free ps q).slate = s.slate ∧ (s.passBits free ps q).health = s.health ∧ (s.passBits free ps q).terms = s.terms ∧
      (s.passBits free ps q).outputs = s.outputs ∧ (s.passBits free ps q).outputTrace = s.outputTrace ∧ (s.passBits free ps q).notices = s.notices ∧
      (s.passBits free ps q).tap = s.tap ∧ (s.passBits free ps q).pending = s.pending := by
  simp [State.passBits]

@[simp] theorem State.beginPeriod_frame (gap : List BitPeriod) (edge : Option Int) (s : State) :
    (s.beginPeriod gap edge).pins = s.pins ∧ (s.beginPeriod gap edge).ctrl = s.ctrl ∧ (s.beginPeriod gap edge).loader = s.loader ∧
      (s.beginPeriod gap edge).watch = s.watch ∧ (s.beginPeriod gap edge).engine = s.engine ∧ (s.beginPeriod gap edge).table = s.table ∧
      (s.beginPeriod gap edge).slate = s.slate ∧ (s.beginPeriod gap edge).health = s.health ∧ (s.beginPeriod gap edge).terms = s.terms ∧
      (s.beginPeriod gap edge).outputs = s.outputs ∧ (s.beginPeriod gap edge).outputTrace = s.outputTrace ∧ (s.beginPeriod gap edge).notices = s.notices ∧
      (s.beginPeriod gap edge).tap = s.tap ∧ (s.beginPeriod gap edge).pending = s.pending := by
  simp [State.beginPeriod]

@[simp] theorem State.drive_frame (qs : List QuarterDrive) (s : State) :
    (s.drive qs).pins = s.pins ∧ (s.drive qs).ctrl = s.ctrl ∧ (s.drive qs).loader = s.loader ∧
      (s.drive qs).watch = s.watch ∧ (s.drive qs).engine = s.engine ∧ (s.drive qs).table = s.table ∧
      (s.drive qs).slate = s.slate ∧ (s.drive qs).health = s.health ∧ (s.drive qs).terms = s.terms ∧
      (s.drive qs).outputs = s.outputs ∧ (s.drive qs).outputTrace = s.outputTrace ∧ (s.drive qs).notices = s.notices ∧
      (s.drive qs).tap = s.tap ∧ (s.drive qs).pending = s.pending := by
  simp [State.drive]

@[simp] theorem State.droveNothing_frame (s : State) :
    (s.droveNothing).pins = s.pins ∧ (s.droveNothing).ctrl = s.ctrl ∧ (s.droveNothing).loader = s.loader ∧
      (s.droveNothing).watch = s.watch ∧ (s.droveNothing).engine = s.engine ∧ (s.droveNothing).table = s.table ∧
      (s.droveNothing).slate = s.slate ∧ (s.droveNothing).health = s.health ∧ (s.droveNothing).terms = s.terms ∧
      (s.droveNothing).outputs = s.outputs ∧ (s.droveNothing).outputTrace = s.outputTrace ∧ (s.droveNothing).notices = s.notices ∧
      (s.droveNothing).tap = s.tap ∧ (s.droveNothing).pending = s.pending := by
  simp [State.droveNothing]

@[simp] theorem State.stopDriving_frame (s : State) :
    (s.stopDriving).pins = s.pins ∧ (s.stopDriving).ctrl = s.ctrl ∧ (s.stopDriving).loader = s.loader ∧
      (s.stopDriving).watch = s.watch ∧ (s.stopDriving).engine = s.engine ∧ (s.stopDriving).table = s.table ∧
      (s.stopDriving).slate = s.slate ∧ (s.stopDriving).health = s.health ∧ (s.stopDriving).terms = s.terms ∧
      (s.stopDriving).outputs = s.outputs ∧ (s.stopDriving).outputTrace = s.outputTrace ∧ (s.stopDriving).notices = s.notices ∧
      (s.stopDriving).tap = s.tap ∧ (s.stopDriving).pending = s.pending := by
  simp [State.stopDriving]

@[simp] theorem State.setTrails_frame (n : Nat) (s : State) :
    (s.setTrails n).pins = s.pins ∧ (s.setTrails n).ctrl = s.ctrl ∧ (s.setTrails n).loader = s.loader ∧
      (s.setTrails n).watch = s.watch ∧ (s.setTrails n).engine = s.engine ∧ (s.setTrails n).table = s.table ∧
      (s.setTrails n).slate = s.slate ∧ (s.setTrails n).health = s.health ∧ (s.setTrails n).terms = s.terms ∧
      (s.setTrails n).outputs = s.outputs ∧ (s.setTrails n).outputTrace = s.outputTrace ∧ (s.setTrails n).notices = s.notices ∧
      (s.setTrails n).tap = s.tap ∧ (s.setTrails n).pending = s.pending := by
  simp [State.setTrails]

@[simp] theorem State.followed_frame (f : Frame) (ps : List BitPeriod) (q : Quarter) (r : Reception) (s : State) :
    (s.followed f ps q r).pins = s.pins ∧ (s.followed f ps q r).ctrl = s.ctrl ∧ (s.followed f ps q r).loader = s.loader ∧
      (s.followed f ps q r).watch = s.watch ∧ (s.followed f ps q r).table = s.table ∧ (s.followed f ps q r).slate = s.slate ∧
      (s.followed f ps q r).health = s.health ∧ (s.followed f ps q r).terms = s.terms ∧ (s.followed f ps q r).outputs = s.outputs ∧
      (s.followed f ps q r).outputTrace = s.outputTrace ∧ (s.followed f ps q r).notices = s.notices ∧ (s.followed f ps q r).tap = s.tap ∧
      (s.followed f ps q r).pending = s.pending := by
  simp [State.followed]

@[simp] theorem State.lostTaken_frame (k : Kind) (s : State) :
    (s.lostTaken k).pins = s.pins ∧ (s.lostTaken k).ctrl = s.ctrl ∧ (s.lostTaken k).loader = s.loader ∧
      (s.lostTaken k).watch = s.watch ∧ (s.lostTaken k).line = s.line ∧ (s.lostTaken k).table = s.table ∧
      (s.lostTaken k).health = s.health ∧ (s.lostTaken k).terms = s.terms ∧ (s.lostTaken k).outputs = s.outputs ∧
      (s.lostTaken k).outputTrace = s.outputTrace ∧ (s.lostTaken k).notices = s.notices ∧ (s.lostTaken k).tap = s.tap ∧
      (s.lostTaken k).pending = s.pending := by
  simp [State.lostTaken]

@[simp] theorem State.setSelfSequence_frame (q : Nibble) (s : State) :
    (s.setSelfSequence q).pins = s.pins ∧ (s.setSelfSequence q).ctrl = s.ctrl ∧ (s.setSelfSequence q).loader = s.loader ∧
      (s.setSelfSequence q).watch = s.watch ∧ (s.setSelfSequence q).line = s.line ∧ (s.setSelfSequence q).engine = s.engine ∧
      (s.setSelfSequence q).slate = s.slate ∧ (s.setSelfSequence q).health = s.health ∧ (s.setSelfSequence q).terms = s.terms ∧
      (s.setSelfSequence q).outputs = s.outputs ∧ (s.setSelfSequence q).outputTrace = s.outputTrace ∧ (s.setSelfSequence q).notices = s.notices ∧
      (s.setSelfSequence q).tap = s.tap ∧ (s.setSelfSequence q).pending = s.pending := by
  simp [State.setSelfSequence]

@[simp] theorem State.setSelfRelease_frame (q : Nibble) (s : State) :
    (s.setSelfRelease q).pins = s.pins ∧ (s.setSelfRelease q).ctrl = s.ctrl ∧ (s.setSelfRelease q).loader = s.loader ∧
      (s.setSelfRelease q).watch = s.watch ∧ (s.setSelfRelease q).line = s.line ∧ (s.setSelfRelease q).engine = s.engine ∧
      (s.setSelfRelease q).slate = s.slate ∧ (s.setSelfRelease q).health = s.health ∧ (s.setSelfRelease q).terms = s.terms ∧
      (s.setSelfRelease q).outputs = s.outputs ∧ (s.setSelfRelease q).outputTrace = s.outputTrace ∧ (s.setSelfRelease q).notices = s.notices ∧
      (s.setSelfRelease q).tap = s.tap ∧ (s.setSelfRelease q).pending = s.pending := by
  simp [State.setSelfRelease]

@[simp] theorem State.openChange_frame (s : State) :
    (s.openChange).pins = s.pins ∧ (s.openChange).ctrl = s.ctrl ∧ (s.openChange).loader = s.loader ∧
      (s.openChange).watch = s.watch ∧ (s.openChange).line = s.line ∧ (s.openChange).engine = s.engine ∧
      (s.openChange).health = s.health ∧ (s.openChange).terms = s.terms ∧ (s.openChange).outputs = s.outputs ∧
      (s.openChange).outputTrace = s.outputTrace ∧ (s.openChange).notices = s.notices ∧ (s.openChange).tap = s.tap ∧
      (s.openChange).pending = s.pending := by
  unfold State.openChange
  repeat' split
  all_goals simp

@[simp] theorem State.openRelease_frame (s : State) :
    (s.openRelease).pins = s.pins ∧ (s.openRelease).ctrl = s.ctrl ∧ (s.openRelease).loader = s.loader ∧
      (s.openRelease).watch = s.watch ∧ (s.openRelease).line = s.line ∧ (s.openRelease).engine = s.engine ∧
      (s.openRelease).health = s.health ∧ (s.openRelease).terms = s.terms ∧ (s.openRelease).outputs = s.outputs ∧
      (s.openRelease).outputTrace = s.outputTrace ∧ (s.openRelease).notices = s.notices ∧ (s.openRelease).tap = s.tap ∧
      (s.openRelease).pending = s.pending := by
  unfold State.openRelease
  repeat' split
  all_goals simp

@[simp] theorem State.openSeries_frame (k : Kind) (s : State) :
    (s.openSeries k).pins = s.pins ∧ (s.openSeries k).ctrl = s.ctrl ∧ (s.openSeries k).loader = s.loader ∧
      (s.openSeries k).watch = s.watch ∧ (s.openSeries k).line = s.line ∧ (s.openSeries k).engine = s.engine ∧
      (s.openSeries k).health = s.health ∧ (s.openSeries k).terms = s.terms ∧ (s.openSeries k).outputs = s.outputs ∧
      (s.openSeries k).outputTrace = s.outputTrace ∧ (s.openSeries k).notices = s.notices ∧ (s.openSeries k).tap = s.tap ∧
      (s.openSeries k).pending = s.pending := by
  unfold State.openSeries
  repeat' split
  all_goals simp

@[simp] theorem State.abort_frame (k : Kind) (s : State) :
    (s.abort k).pins = s.pins ∧ (s.abort k).loader = s.loader ∧ (s.abort k).watch = s.watch ∧
      (s.abort k).tap = s.tap ∧ (s.abort k).pending = s.pending := by
  simp [State.abort]

@[simp] theorem State.abandon_frame (s : State) :
    (s.abandon).pins = s.pins ∧ (s.abandon).ctrl = s.ctrl ∧ (s.abandon).loader = s.loader ∧
      (s.abandon).watch = s.watch ∧ (s.abandon).line = s.line ∧ (s.abandon).terms = s.terms ∧
      (s.abandon).outputs = s.outputs ∧ (s.abandon).outputTrace = s.outputTrace ∧ (s.abandon).tap = s.tap ∧
      (s.abandon).pending = s.pending := by
  simp [State.abandon]

@[simp] theorem State.confirming_frame (v : Verdict) (c : Bool) (s : State) :
    (s.confirming v c).pins = s.pins ∧ (s.confirming v c).ctrl = s.ctrl ∧ (s.confirming v c).loader = s.loader ∧
      (s.confirming v c).watch = s.watch ∧ (s.confirming v c).line = s.line ∧ (s.confirming v c).table = s.table ∧
      (s.confirming v c).slate = s.slate ∧ (s.confirming v c).health = s.health ∧ (s.confirming v c).terms = s.terms ∧
      (s.confirming v c).outputs = s.outputs ∧ (s.confirming v c).outputTrace = s.outputTrace ∧ (s.confirming v c).notices = s.notices ∧
      (s.confirming v c).tap = s.tap ∧ (s.confirming v c).pending = s.pending := by
  simp [State.confirming]

@[simp] theorem State.reject_frame (s : State) :
    (s.reject).pins = s.pins ∧ (s.reject).ctrl = s.ctrl ∧ (s.reject).loader = s.loader ∧
      (s.reject).watch = s.watch ∧ (s.reject).line = s.line ∧ (s.reject).terms = s.terms ∧
      (s.reject).outputs = s.outputs ∧ (s.reject).outputTrace = s.outputTrace ∧ (s.reject).tap = s.tap ∧
      (s.reject).pending = s.pending := by
  simp [State.reject]

/-! ### The table takes frames, maps and ticks -/

@[simp] theorem State.countAccepted_frame (n : Station) (s : State) :
    (s.countAccepted n).pins = s.pins ∧ (s.countAccepted n).ctrl = s.ctrl ∧ (s.countAccepted n).loader = s.loader ∧
      (s.countAccepted n).watch = s.watch ∧ (s.countAccepted n).line = s.line ∧ (s.countAccepted n).engine = s.engine ∧
      (s.countAccepted n).slate = s.slate ∧ (s.countAccepted n).health = s.health ∧ (s.countAccepted n).terms = s.terms ∧
      (s.countAccepted n).outputs = s.outputs ∧ (s.countAccepted n).outputTrace = s.outputTrace ∧ (s.countAccepted n).notices = s.notices ∧
      (s.countAccepted n).tap = s.tap ∧ (s.countAccepted n).pending = s.pending := by
  simp [State.countAccepted]

@[simp] theorem State.storeReport_frame (n : Station) (q : Nibble) (r : ReportContent) (s : State) :
    (s.storeReport n q r).pins = s.pins ∧ (s.storeReport n q r).ctrl = s.ctrl ∧ (s.storeReport n q r).loader = s.loader ∧
      (s.storeReport n q r).watch = s.watch ∧ (s.storeReport n q r).line = s.line ∧ (s.storeReport n q r).engine = s.engine ∧
      (s.storeReport n q r).slate = s.slate ∧ (s.storeReport n q r).health = s.health ∧ (s.storeReport n q r).terms = s.terms ∧
      (s.storeReport n q r).outputs = s.outputs ∧ (s.storeReport n q r).outputTrace = s.outputTrace ∧ (s.storeReport n q r).notices = s.notices ∧
      (s.storeReport n q r).tap = s.tap ∧ (s.storeReport n q r).pending = s.pending := by
  simp [State.storeReport]

@[simp] theorem State.keepReport_frame (n : Station) (s : State) :
    (s.keepReport n).pins = s.pins ∧ (s.keepReport n).ctrl = s.ctrl ∧ (s.keepReport n).loader = s.loader ∧
      (s.keepReport n).watch = s.watch ∧ (s.keepReport n).line = s.line ∧ (s.keepReport n).engine = s.engine ∧
      (s.keepReport n).slate = s.slate ∧ (s.keepReport n).health = s.health ∧ (s.keepReport n).terms = s.terms ∧
      (s.keepReport n).outputs = s.outputs ∧ (s.keepReport n).outputTrace = s.outputTrace ∧ (s.keepReport n).notices = s.notices ∧
      (s.keepReport n).tap = s.tap ∧ (s.keepReport n).pending = s.pending := by
  simp [State.keepReport]

@[simp] theorem State.sequenceGap_frame (n : Station) (s : State) :
    (s.sequenceGap n).pins = s.pins ∧ (s.sequenceGap n).ctrl = s.ctrl ∧ (s.sequenceGap n).loader = s.loader ∧
      (s.sequenceGap n).watch = s.watch ∧ (s.sequenceGap n).line = s.line ∧ (s.sequenceGap n).engine = s.engine ∧
      (s.sequenceGap n).slate = s.slate ∧ (s.sequenceGap n).health = s.health ∧ (s.sequenceGap n).terms = s.terms ∧
      (s.sequenceGap n).outputs = s.outputs ∧ (s.sequenceGap n).outputTrace = s.outputTrace ∧ (s.sequenceGap n).tap = s.tap ∧
      (s.sequenceGap n).pending = s.pending := by
  simp [State.sequenceGap]

@[simp] theorem State.acceptState_frame (k : Kind) (n : Station) (q : Nibble) (r : ReportContent) (s : State) :
    (s.acceptState k n q r).pins = s.pins ∧ (s.acceptState k n q r).ctrl = s.ctrl ∧ (s.acceptState k n q r).loader = s.loader ∧
      (s.acceptState k n q r).watch = s.watch ∧ (s.acceptState k n q r).line = s.line ∧ (s.acceptState k n q r).engine = s.engine ∧
      (s.acceptState k n q r).slate = s.slate ∧ (s.acceptState k n q r).health = s.health ∧ (s.acceptState k n q r).tap = s.tap ∧
      (s.acceptState k n q r).pending = s.pending := by
  unfold State.acceptState
  repeat' split
  all_goals (first | (simp; done) | (dsimp only; repeat' split) <;> simp)

@[simp] theorem State.acceptJoin_frame (n : Station) (p : List Bool) (s : State) :
    (s.acceptJoin n p).pins = s.pins ∧ (s.acceptJoin n p).ctrl = s.ctrl ∧ (s.acceptJoin n p).loader = s.loader ∧
      (s.acceptJoin n p).watch = s.watch ∧ (s.acceptJoin n p).line = s.line ∧ (s.acceptJoin n p).engine = s.engine ∧
      (s.acceptJoin n p).health = s.health ∧ (s.acceptJoin n p).tap = s.tap ∧ (s.acceptJoin n p).pending = s.pending := by
  unfold State.acceptJoin
  dsimp only
  repeat' split
  all_goals simp_all

@[simp] theorem State.acceptResync_frame (n : Station) (s : State) :
    (s.acceptResync n).pins = s.pins ∧ (s.acceptResync n).ctrl = s.ctrl ∧ (s.acceptResync n).loader = s.loader ∧
      (s.acceptResync n).watch = s.watch ∧ (s.acceptResync n).line = s.line ∧ (s.acceptResync n).engine = s.engine ∧
      (s.acceptResync n).health = s.health ∧ (s.acceptResync n).tap = s.tap ∧ (s.acceptResync n).pending = s.pending := by
  simp [State.acceptResync]

@[simp] theorem State.acceptRelease_frame (n : Station) (q : Nibble) (m : ZoneMask) (s : State) :
    (s.acceptRelease n q m).pins = s.pins ∧ (s.acceptRelease n q m).ctrl = s.ctrl ∧ (s.acceptRelease n q m).loader = s.loader ∧
      (s.acceptRelease n q m).watch = s.watch ∧ (s.acceptRelease n q m).line = s.line ∧ (s.acceptRelease n q m).engine = s.engine ∧
      (s.acceptRelease n q m).slate = s.slate ∧ (s.acceptRelease n q m).health = s.health ∧ (s.acceptRelease n q m).tap = s.tap ∧
      (s.acceptRelease n q m).pending = s.pending := by
  unfold State.acceptRelease
  repeat' split
  all_goals simp

@[simp] theorem State.tableAccepts_frame (f : ReceivedFrame) (s : State) :
    (s.tableAccepts f).pins = s.pins ∧ (s.tableAccepts f).ctrl = s.ctrl ∧ (s.tableAccepts f).loader = s.loader ∧
      (s.tableAccepts f).watch = s.watch ∧ (s.tableAccepts f).line = s.line ∧ (s.tableAccepts f).engine = s.engine ∧
      (s.tableAccepts f).health = s.health ∧ (s.tableAccepts f).tap = s.tap ∧ (s.tableAccepts f).pending = s.pending := by
  unfold State.tableAccepts
  repeat' split
  all_goals simp

@[simp] theorem State.accept_frame (f : ReceivedFrame) (s : State) :
    (s.accept f).pins = s.pins ∧ (s.accept f).ctrl = s.ctrl ∧ (s.accept f).loader = s.loader ∧
      (s.accept f).watch = s.watch ∧ (s.accept f).line = s.line ∧ (s.accept f).health = s.health ∧
      (s.accept f).tap = s.tap ∧ (s.accept f).pending = s.pending := by
  simp [State.accept]

@[simp] theorem State.judged_frame (f : ReceivedFrame) (s : State) :
    (s.judged f).pins = s.pins ∧ (s.judged f).loader = s.loader ∧ (s.judged f).watch = s.watch ∧
      (s.judged f).tap = s.tap ∧ (s.judged f).pending = s.pending := by
  unfold State.judged
  repeat' split
  all_goals simp

@[simp] theorem State.mapEvidence_frame (m : StationMap) (s : State) :
    (s.mapEvidence m).pins = s.pins ∧ (s.mapEvidence m).ctrl = s.ctrl ∧ (s.mapEvidence m).loader = s.loader ∧
      (s.mapEvidence m).watch = s.watch ∧ (s.mapEvidence m).line = s.line ∧ (s.mapEvidence m).engine = s.engine ∧
      (s.mapEvidence m).slate = s.slate ∧ (s.mapEvidence m).health = s.health ∧ (s.mapEvidence m).tap = s.tap ∧
      (s.mapEvidence m).pending = s.pending := by
  simp only [State.mapEvidence, State.tableChanged_frame]
  refine ⟨foldl_keeps State.pins _ ?_ _ _, foldl_keeps State.ctrl _ ?_ _ _, foldl_keeps State.loader _ ?_ _ _, foldl_keeps State.watch _ ?_ _ _, foldl_keeps State.line _ ?_ _ _, foldl_keeps State.engine _ ?_ _ _, foldl_keeps State.slate _ ?_ _ _, foldl_keeps State.health _ ?_ _ _, foldl_keeps State.tap _ ?_ _ _, foldl_keeps State.pending _ ?_ _ _⟩
  all_goals (intro s n; split <;> simp)

@[simp] theorem State.completedWeighed_frame (b : Bool) (s : State) :
    (s.completedWeighed b).pins = s.pins ∧ (s.completedWeighed b).loader = s.loader ∧ (s.completedWeighed b).watch = s.watch ∧
      (s.completedWeighed b).tap = s.tap ∧ (s.completedWeighed b).pending = s.pending := by
  unfold State.completedWeighed
  repeat' split
  all_goals simp_all

@[simp] theorem State.senderClosed_frame (k : Kind) (m : StationMap) (s : State) :
    (s.senderClosed k m).pins = s.pins ∧ (s.senderClosed k m).loader = s.loader ∧ (s.senderClosed k m).watch = s.watch ∧
      (s.senderClosed k m).tap = s.tap ∧ (s.senderClosed k m).pending = s.pending := by
  simp [State.senderClosed]

@[simp] theorem State.receiverClosed_frame (m : StationMap) (s : State) :
    (s.receiverClosed m).pins = s.pins ∧ (s.receiverClosed m).ctrl = s.ctrl ∧ (s.receiverClosed m).loader = s.loader ∧
      (s.receiverClosed m).watch = s.watch ∧ (s.receiverClosed m).line = s.line ∧ (s.receiverClosed m).tap = s.tap ∧
      (s.receiverClosed m).pending = s.pending := by
  simp [State.receiverClosed]

@[simp] theorem State.closeFrame_frame (f : Frame) (m : StationMap) (s : State) :
    (s.closeFrame f m).pins = s.pins ∧ (s.closeFrame f m).loader = s.loader ∧ (s.closeFrame f m).watch = s.watch ∧
      (s.closeFrame f m).tap = s.tap ∧ (s.closeFrame f m).pending = s.pending := by
  unfold State.closeFrame
  repeat' split
  all_goals simp

@[simp] theorem State.afterWindow_frame (s : State) :
    (s.afterWindow).pins = s.pins ∧ (s.afterWindow).ctrl = s.ctrl ∧ (s.afterWindow).loader = s.loader ∧
      (s.afterWindow).watch = s.watch ∧ (s.afterWindow).line = s.line ∧ (s.afterWindow).table = s.table ∧
      (s.afterWindow).slate = s.slate ∧ (s.afterWindow).health = s.health ∧ (s.afterWindow).terms = s.terms ∧
      (s.afterWindow).outputs = s.outputs ∧ (s.afterWindow).outputTrace = s.outputTrace ∧ (s.afterWindow).notices = s.notices ∧
      (s.afterWindow).tap = s.tap ∧ (s.afterWindow).pending = s.pending := by
  unfold State.afterWindow
  repeat' split
  all_goals simp

@[simp] theorem State.ageEntry_frame (threshold : Nat) (n : Station) (s : State) :
    (s.ageEntry threshold n).pins = s.pins ∧ (s.ageEntry threshold n).ctrl = s.ctrl ∧ (s.ageEntry threshold n).loader = s.loader ∧
      (s.ageEntry threshold n).watch = s.watch ∧ (s.ageEntry threshold n).line = s.line ∧ (s.ageEntry threshold n).engine = s.engine ∧
      (s.ageEntry threshold n).slate = s.slate ∧ (s.ageEntry threshold n).health = s.health ∧ (s.ageEntry threshold n).terms = s.terms ∧
      (s.ageEntry threshold n).outputs = s.outputs ∧ (s.ageEntry threshold n).outputTrace = s.outputTrace ∧ (s.ageEntry threshold n).tap = s.tap ∧
      (s.ageEntry threshold n).pending = s.pending := by
  unfold State.ageEntry
  repeat' split
  all_goals simp_all

@[simp] theorem State.ageTable_frame (s : State) :
    (s.ageTable).pins = s.pins ∧ (s.ageTable).ctrl = s.ctrl ∧ (s.ageTable).loader = s.loader ∧
      (s.ageTable).watch = s.watch ∧ (s.ageTable).line = s.line ∧ (s.ageTable).engine = s.engine ∧
      (s.ageTable).slate = s.slate ∧ (s.ageTable).health = s.health ∧ (s.ageTable).tap = s.tap ∧
      (s.ageTable).pending = s.pending := by
  unfold State.ageTable
  split
  · simp only [State.tableChanged_frame]
    refine ⟨foldl_keeps State.pins _ ?_ _ _, foldl_keeps State.ctrl _ ?_ _ _, foldl_keeps State.loader _ ?_ _ _, foldl_keeps State.watch _ ?_ _ _, foldl_keeps State.line _ ?_ _ _, foldl_keeps State.engine _ ?_ _ _, foldl_keeps State.slate _ ?_ _ _, foldl_keeps State.health _ ?_ _ _, foldl_keeps State.tap _ ?_ _ _, foldl_keeps State.pending _ ?_ _ _⟩
    all_goals (intro s n; simp)
  · simp

@[simp] theorem State.judgeRefresh_frame (s : State) :
    (s.judgeRefresh).pins = s.pins ∧ (s.judgeRefresh).ctrl = s.ctrl ∧ (s.judgeRefresh).loader = s.loader ∧
      (s.judgeRefresh).watch = s.watch ∧ (s.judgeRefresh).line = s.line ∧ (s.judgeRefresh).engine = s.engine ∧
      (s.judgeRefresh).table = s.table ∧ (s.judgeRefresh).health = s.health ∧ (s.judgeRefresh).terms = s.terms ∧
      (s.judgeRefresh).outputs = s.outputs ∧ (s.judgeRefresh).outputTrace = s.outputTrace ∧ (s.judgeRefresh).notices = s.notices ∧
      (s.judgeRefresh).tap = s.tap ∧ (s.judgeRefresh).pending = s.pending := by
  unfold State.judgeRefresh
  dsimp only
  repeat' split
  all_goals simp_all

@[simp] theorem State.listenExpired_frame (s : State) :
    (s.listenExpired).pins = s.pins ∧ (s.listenExpired).loader = s.loader ∧ (s.listenExpired).watch = s.watch ∧
      (s.listenExpired).line = s.line ∧ (s.listenExpired).engine = s.engine ∧ (s.listenExpired).table = s.table ∧
      (s.listenExpired).health = s.health ∧ (s.listenExpired).terms = s.terms ∧ (s.listenExpired).outputs = s.outputs ∧
      (s.listenExpired).outputTrace = s.outputTrace ∧ (s.listenExpired).tap = s.tap ∧ (s.listenExpired).pending = s.pending := by
  simp [State.listenExpired]

@[simp] theorem State.listenTick_frame (s : State) :
    (s.listenTick).pins = s.pins ∧ (s.listenTick).loader = s.loader ∧ (s.listenTick).watch = s.watch ∧
      (s.listenTick).line = s.line ∧ (s.listenTick).engine = s.engine ∧ (s.listenTick).table = s.table ∧
      (s.listenTick).health = s.health ∧ (s.listenTick).terms = s.terms ∧ (s.listenTick).outputs = s.outputs ∧
      (s.listenTick).outputTrace = s.outputTrace ∧ (s.listenTick).tap = s.tap ∧ (s.listenTick).pending = s.pending := by
  unfold State.listenTick
  repeat' split
  all_goals simp

@[simp] theorem State.countTick_frame (s : State) :
    (s.countTick).pins = s.pins ∧ (s.countTick).loader = s.loader ∧ (s.countTick).watch = s.watch ∧
      (s.countTick).line = s.line ∧ (s.countTick).engine = s.engine ∧ (s.countTick).table = s.table ∧
      (s.countTick).slate = s.slate ∧ (s.countTick).health = s.health ∧ (s.countTick).terms = s.terms ∧
      (s.countTick).outputs = s.outputs ∧ (s.countTick).outputTrace = s.outputTrace ∧ (s.countTick).notices = s.notices ∧
      (s.countTick).tap = s.tap ∧ (s.countTick).pending = s.pending := by
  simp [State.countTick]

@[simp] theorem State.refreshTicked_frame (order : TickOrder) (s : State) :
    (s.refreshTicked order).pins = s.pins ∧ (s.refreshTicked order).loader = s.loader ∧ (s.refreshTicked order).watch = s.watch ∧
      (s.refreshTicked order).line = s.line ∧ (s.refreshTicked order).engine = s.engine ∧ (s.refreshTicked order).health = s.health ∧
      (s.refreshTicked order).tap = s.tap ∧ (s.refreshTicked order).pending = s.pending := by
  unfold State.refreshTicked
  dsimp only
  repeat' split
  all_goals simp

/-! ### The watch unit and the tap port -/

@[simp] theorem State.publish_frame (r : Vector GroupRecord 4) (s : State) :
    (s.publish r).pins = s.pins ∧ (s.publish r).ctrl = s.ctrl ∧ (s.publish r).loader = s.loader ∧
      (s.publish r).watch = s.watch ∧ (s.publish r).line = s.line ∧ (s.publish r).engine = s.engine ∧
      (s.publish r).slate = s.slate ∧ (s.publish r).health = s.health ∧ (s.publish r).tap = s.tap ∧
      (s.publish r).pending = s.pending := by
  simp [State.publish]

@[simp] theorem State.announce_frame (old new : WatchUnit) (s : State) :
    (s.announce old new).pins = s.pins ∧ (s.announce old new).ctrl = s.ctrl ∧ (s.announce old new).loader = s.loader ∧
      (s.announce old new).watch = s.watch ∧ (s.announce old new).line = s.line ∧ (s.announce old new).engine = s.engine ∧
      (s.announce old new).table = s.table ∧ (s.announce old new).health = s.health ∧ (s.announce old new).terms = s.terms ∧
      (s.announce old new).outputs = s.outputs ∧ (s.announce old new).outputTrace = s.outputTrace ∧ (s.announce old new).notices = s.notices ∧
      (s.announce old new).tap = s.tap ∧ (s.announce old new).pending = s.pending := by
  unfold State.announce
  dsimp only
  repeat' split
  all_goals simp_all

@[simp] theorem State.relSampled_frame (z : ZoneMask) (a : Bool) (s : State) :
    (s.relSampled z a).pins = s.pins ∧ (s.relSampled z a).ctrl = s.ctrl ∧ (s.relSampled z a).loader = s.loader ∧
      (s.relSampled z a).watch = s.watch ∧ (s.relSampled z a).line = s.line ∧ (s.relSampled z a).engine = s.engine ∧
      (s.relSampled z a).table = s.table ∧ (s.relSampled z a).health = s.health ∧ (s.relSampled z a).tap = s.tap ∧
      (s.relSampled z a).pending = s.pending := by
  unfold State.relSampled
  dsimp only
  repeat' split
  all_goals simp_all

@[simp] theorem State.sampleTaken_frame (c : StationConfig) (x : SenseSample) (s : State) :
    (s.sampleTaken c x).pins = s.pins ∧ (s.sampleTaken c x).ctrl = s.ctrl ∧ (s.sampleTaken c x).loader = s.loader ∧
      (s.sampleTaken c x).line = s.line ∧ (s.sampleTaken c x).engine = s.engine ∧ (s.sampleTaken c x).health = s.health ∧
      (s.sampleTaken c x).tap = s.tap ∧ (s.sampleTaken c x).pending = s.pending := by
  unfold State.sampleTaken
  dsimp only
  repeat' split
  all_goals simp

@[simp] theorem State.requestEffect_frame (r : Request) (b : Byte) (s : State) :
    (s.requestEffect r b).pins = s.pins ∧ (s.requestEffect r b).ctrl = s.ctrl ∧ (s.requestEffect r b).loader = s.loader ∧
      (s.requestEffect r b).watch = s.watch ∧ (s.requestEffect r b).line = s.line ∧ (s.requestEffect r b).engine = s.engine ∧
      (s.requestEffect r b).table = s.table ∧ (s.requestEffect r b).health = s.health ∧ (s.requestEffect r b).tap = s.tap ∧
      (s.requestEffect r b).pending = s.pending := by
  unfold State.requestEffect
  repeat' split
  all_goals simp

@[simp] theorem State.judgementPoint_frame (b : Byte) (bs : List Byte) (s : State) :
    (s.judgementPoint b bs).pins = s.pins ∧ (s.judgementPoint b bs).ctrl = s.ctrl ∧ (s.judgementPoint b bs).loader = s.loader ∧
      (s.judgementPoint b bs).watch = s.watch ∧ (s.judgementPoint b bs).line = s.line ∧ (s.judgementPoint b bs).engine = s.engine ∧
      (s.judgementPoint b bs).table = s.table ∧ (s.judgementPoint b bs).health = s.health ∧ (s.judgementPoint b bs).pending = s.pending := by
  unfold State.judgementPoint
  dsimp only
  repeat' split
  all_goals simp

@[simp] theorem State.tapByte_frame (b : Byte) (s : State) :
    (s.tapByte b).pins = s.pins ∧ (s.tapByte b).ctrl = s.ctrl ∧ (s.tapByte b).loader = s.loader ∧
      (s.tapByte b).watch = s.watch ∧ (s.tapByte b).line = s.line ∧ (s.tapByte b).engine = s.engine ∧
      (s.tapByte b).table = s.table ∧ (s.tapByte b).health = s.health ∧ (s.tapByte b).pending = s.pending := by
  unfold State.tapByte
  repeat' split
  all_goals simp

@[simp] theorem State.tapCollect_frame (b : Bool) (s : State) :
    (s.tapCollect b).pins = s.pins ∧ (s.tapCollect b).ctrl = s.ctrl ∧ (s.tapCollect b).loader = s.loader ∧
      (s.tapCollect b).watch = s.watch ∧ (s.tapCollect b).line = s.line ∧ (s.tapCollect b).engine = s.engine ∧
      (s.tapCollect b).table = s.table ∧ (s.tapCollect b).health = s.health ∧ (s.tapCollect b).pending = s.pending := by
  unfold State.tapCollect
  dsimp only
  repeat' split
  all_goals simp_all

@[simp] theorem State.tapBit_frame (b : Bool) (s : State) :
    (s.tapBit b).pins = s.pins ∧ (s.tapBit b).ctrl = s.ctrl ∧ (s.tapBit b).loader = s.loader ∧
      (s.tapBit b).watch = s.watch ∧ (s.tapBit b).line = s.line ∧ (s.tapBit b).engine = s.engine ∧
      (s.tapBit b).table = s.table ∧ (s.tapBit b).health = s.health ∧ (s.tapBit b).pending = s.pending := by
  unfold State.tapBit
  repeat' split
  all_goals simp

@[simp] theorem State.tapBits_frame (bs : List Bool) (s : State) :
    (s.tapBits bs).pins = s.pins ∧ (s.tapBits bs).ctrl = s.ctrl ∧ (s.tapBits bs).loader = s.loader ∧
      (s.tapBits bs).watch = s.watch ∧ (s.tapBits bs).line = s.line ∧ (s.tapBits bs).engine = s.engine ∧
      (s.tapBits bs).table = s.table ∧ (s.tapBits bs).health = s.health ∧ (s.tapBits bs).pending = s.pending := by
  unfold State.tapBits
  refine ⟨foldl_keeps State.pins _ ?_ _ _, foldl_keeps State.ctrl _ ?_ _ _, foldl_keeps State.loader _ ?_ _ _, foldl_keeps State.watch _ ?_ _ _, foldl_keeps State.line _ ?_ _ _, foldl_keeps State.engine _ ?_ _ _, foldl_keeps State.table _ ?_ _ _, foldl_keeps State.health _ ?_ _ _, foldl_keeps State.pending _ ?_ _ _⟩
  all_goals (intro s b; simp)

@[simp] theorem State.tapBytes_frame (bs : List Byte) (s : State) :
    (s.tapBytes bs).pins = s.pins ∧ (s.tapBytes bs).ctrl = s.ctrl ∧ (s.tapBytes bs).loader = s.loader ∧
      (s.tapBytes bs).watch = s.watch ∧ (s.tapBytes bs).line = s.line ∧ (s.tapBytes bs).engine = s.engine ∧
      (s.tapBytes bs).table = s.table ∧ (s.tapBytes bs).health = s.health ∧ (s.tapBytes bs).pending = s.pending := by
  simp [State.tapBytes]

@[simp] theorem State.takeRemoval_frame (s : State) :
    (s.takeRemoval).pins = s.pins ∧ (s.takeRemoval).ctrl = s.ctrl ∧ (s.takeRemoval).loader = s.loader ∧
      (s.takeRemoval).watch = s.watch ∧ (s.takeRemoval).line = s.line ∧ (s.takeRemoval).engine = s.engine ∧
      (s.takeRemoval).table = s.table ∧ (s.takeRemoval).slate = s.slate ∧ (s.takeRemoval).health = s.health ∧
      (s.takeRemoval).terms = s.terms ∧ (s.takeRemoval).outputs = s.outputs ∧ (s.takeRemoval).outputTrace = s.outputTrace ∧
      (s.takeRemoval).tap = s.tap ∧ (s.takeRemoval).pending = s.pending := by
  unfold State.takeRemoval
  repeat' split
  all_goals simp

end Sys2Proof.Machine
end

