-- ==== Sys2Proof/Laws/Bits.lean ====
section
/-! SUPPORT. Bits and bytes, the check, read-back and the bits of a transaction (11_formats.md, R104, R187, R201). -/

namespace Sys2Proof.Machine

/-! ### Rows of bits -/

@[simp] theorem natBits_length (n v : Nat) : (natBits n v).length = n := by
  induction n with
  | zero => rfl
  | succ n ih => simp [natBits, ih]

/-- Reading a row of bits on from a number. -/
theorem foldl_bits (acc : Nat) (bs : List Bool) :
    bs.foldl (fun acc b => 2 * acc + b.toNat) acc = 2 ^ bs.length * acc + bitsToNat bs := by
  induction bs generalizing acc with
  | nil => simp [bitsToNat]
  | cons b bs ih =>
    have h0 := ih (2 * 0 + b.toNat)
    simp only [bitsToNat, List.foldl_cons, List.length_cons] at h0 ⊢
    rw [ih, h0, pow_succ]
    simp only [bitsToNat]
    ring

theorem bitsToNat_cons (b : Bool) (bs : List Bool) : bitsToNat (b :: bs) = 2 ^ bs.length * b.toNat + bitsToNat bs := by
  rw [bitsToNat, List.foldl_cons, foldl_bits]
  simp

theorem bitsToNat_append (as bs : List Bool) : bitsToNat (as ++ bs) = 2 ^ bs.length * bitsToNat as + bitsToNat bs := by
  rw [bitsToNat, List.foldl_append, foldl_bits]
  rfl

/-- The bits of a number spell its value below 2 to their count. -/
theorem bitsToNat_natBits (n v : Nat) : bitsToNat (natBits n v) = v % 2 ^ n := by
  induction n with
  | zero => simp [natBits, bitsToNat, Nat.mod_one]
  | succ n ih =>
    rw [natBits, bitsToNat_cons, ih, natBits_length, Nat.mod_pow_succ, Nat.testBit_eq_decide_div_mod_eq]
    have : (decide (v / 2 ^ n % 2 = 1)).toNat = v / 2 ^ n % 2 := by
      rcases Nat.mod_two_eq_zero_or_one (v / 2 ^ n) with h | h <;> simp [h]
    rw [this]
    omega

/-- A bit vector is read back from its bits. -/
theorem ofNat_natBits {w : Nat} (v : BitVec w) : BitVec.ofNat w (bitsToNat (natBits w v.toNat)) = v := by
  rw [bitsToNat_natBits, Nat.mod_eq_of_lt v.isLt, BitVec.ofNat_toNat, BitVec.setWidth_eq]

@[simp] theorem byteBits_length (b : Byte) : (byteBits b).length = 8 := natBits_length 8 _

@[simp] theorem byteOfBits_byteBits (b : Byte) : byteOfBits (byteBits b) = b := ofNat_natBits b

@[simp] theorem bytesBits_length (bs : List Byte) : (bytesBits bs).length = 8 * bs.length := by
  induction bs with
  | nil => rfl
  | cons b bs ih =>
    have : bytesBits (b :: bs) = byteBits b ++ bytesBits bs := rfl
    rw [this, List.length_append, ih, byteBits_length, List.length_cons]
    omega

/-- A field that stands between two rows is read back (R200). -/
theorem fieldAt_middle (as bs cs : List Bool) : fieldAt (as ++ bs ++ cs) as.length bs.length = bitsToNat bs := by
  simp [fieldAt, List.append_assoc]

/-! ### The check (R201) -/

theorem strictly_eq {α : Type} (n : Nat) (k : Nat → α) : strictly n k = k n := by cases n <;> rfl

/-- The register after a row of bits is the fold of its step. -/
theorem crcFrom_eq_foldl (r : Word16) (bs : List Bool) : crcFrom r bs = bs.foldl crcStep r := by
  induction bs generalizing r with
  | nil => rfl
  | cons b bs ih => rw [crcFrom, strictly_eq, ih, List.foldl_cons]; simp

theorem crcFrom_append (r : Word16) (as bs : List Bool) : crcFrom r (as ++ bs) = crcFrom (crcFrom r as) bs := by
  simp [crcFrom_eq_foldl]

/-! ### Read-back of undisturbed bit periods (R104) -/

/-- A contender alone on the line reads its key back as sent (R56). -/
theorem contend_driven (bs : List Bool) : contend bs (bs.map drivenPeriod) = .sent := by
  induction bs with
  | nil => rfl
  | cons b bs ih => cases b <;> simpa [contend, drivenPeriod, driveLevel] using ih

/-- A winner alone on the line reads its body back as sent (R62). -/
theorem sendBody_driven (bs : List Bool) : sendBody bs (bs.map drivenPeriod) = .sent := by
  induction bs with
  | nil => rfl
  | cons b bs ih => cases b <;> simpa [sendBody, drivenPeriod, driveLevel] using ih

/-- A run that brings a contender's last bit back as sent has one bit period for each bit. -/
theorem contend_sent_length {bs : List Bool} {ps : List BitPeriod} (h : contend bs ps = .sent) : ps.length = bs.length := by
  induction bs generalizing ps with
  | nil => cases ps with
    | nil => rfl
    | cons p ps => cases h
  | cons b bs ih => cases ps with
    | nil => cases h
    | cons p ps =>
      simp only [contend] at h
      repeat' split at h
      all_goals first
        | exact congrArg Nat.succ (ih h)
        | (simp only [endsWith] at h; split at h <;> cases h)

/-! ### A byte on TSDI (R187, R203) -/

/-- Bits taken into a byte before its eighth. -/
theorem tapBits_collect (bs : List Bool) (s : State) (ht : s.tap.state = .request ∨ s.tap.state = .arguments)
    (hl : s.tap.bitsIn.length + bs.length < 8) :
    s.tapBits bs = s.setTap { s.tap with bitsIn := s.tap.bitsIn ++ bs } := by
  induction bs generalizing s with
  | nil => simp [State.tapBits, State.setTap]
  | cons b bs ih =>
    have hlen : s.tap.bitsIn.length + (bs.length + 1) < 8 := hl
    have hstep : s.tapBit b = s.setTap { s.tap with bitsIn := s.tap.bitsIn ++ [b] } := by
      have hb : ¬ (s.tap.bitsIn ++ [b]).length = 8 := by simp; omega
      have hc : s.tapCollect b = s.setTap { s.tap with bitsIn := s.tap.bitsIn ++ [b] } := by
        simp only [State.tapCollect, if_neg hb]
      rcases ht with h | h <;> simp only [State.tapBit, h, hc]
    have hfold : s.tapBits (b :: bs) = (s.tapBit b).tapBits bs := rfl
    rw [hfold, hstep, ih _ (by simpa using ht) (by simp; omega)]
    simp [State.setTap]

/-- A whole byte, from a byte boundary, is taken at its last bit (R187). -/
theorem tapBytes_one (b : Byte) (s : State) (ht : s.tap.state = .request ∨ s.tap.state = .arguments)
    (h0 : s.tap.bitsIn = []) :
    s.tapBytes [b] = (s.setTap { s.tap with bitsIn := (byteBits b).dropLast }).tapByte b := by
  have hbits : bytesBits [b] = (byteBits b).dropLast ++ [(byteBits b).getLast (by simp [← List.length_pos_iff])] := by
    rw [List.dropLast_concat_getLast]; simp [bytesBits]
  have hlen : ((byteBits b).dropLast).length = 7 := by simp
  have hsplit : s.tapBytes [b] = (s.tapBits (byteBits b).dropLast).tapBit
      ((byteBits b).getLast (by simp [← List.length_pos_iff])) := by
    rw [State.tapBytes, hbits, State.tapBits, List.foldl_append]; rfl
  rw [hsplit, tapBits_collect _ _ ht (by rw [h0]; simp), h0, List.nil_append]
  have hfull : (byteBits b).dropLast ++ [(byteBits b).getLast (by simp [← List.length_pos_iff])] = byteBits b :=
    List.dropLast_concat_getLast _
  have hcollect : ∀ u : State, u.tap.bitsIn = (byteBits b).dropLast →
      u.tapCollect ((byteBits b).getLast (by simp [← List.length_pos_iff])) = u.tapByte b := by
    intro u hu
    simp only [State.tapCollect, hu, hfull, byteBits_length, if_true, byteOfBits_byteBits]
  rcases ht with h | h <;>
    simp only [State.tapBit, State.setTap_tap, h] <;>
    exact hcollect _ rfl

end Sys2Proof.Machine
end

