-- ==== Sys2Proof/Laws/Health.lean ====
section
/-! SUPPORT. The health monitor: what an outcome does to it, and that the count stays in the range of its state (R111 to
R113). -/

namespace Sys2Proof.Machine

/-- The condition of State.healthOk on count and state. -/
def inHealthRange (count : Nat) : Health → Bool
  | .normal => decide (count < restrainedFrom)
  | .restrained => decide (restrainedFrom ≤ count ∧ count < withdrawnFrom)
  | .withdrawn => decide (1 ≤ count ∧ count ≤ garbleMax)

theorem State.healthOk_eq (s : State) :
    s.healthOk = (inHealthRange s.health.garble s.health.state && decide (s.health.sightings ≤ 2)) := by
  cases h : s.health.state <;> simp only [State.healthOk, inHealthRange, h]

theorem State.healthOk_of_health {s t : State} (h : t.health = s.health) (hs : s.healthOk = true) : t.healthOk = true := by
  rw [State.healthOk_eq, h, ← State.healthOk_eq]; exact hs

/-- A weight moves the count by 8 up or by 1 down at most, and within 0 to 255 (R111). -/
theorem weigh_bounds (o : FrameOutcome) {count : Nat} (h : count ≤ 255) :
    count - 1 ≤ o.weigh count ∧ o.weigh count ≤ count + 8 ∧ o.weigh count ≤ 255 := by
  cases o
  case lost => exact ⟨Nat.sub_le .., Nat.le_add_right .., h⟩
  case aborted => show _ ≤ min (count + 8) 255 ∧ min (count + 8) 255 ≤ _ ∧ min (count + 8) 255 ≤ 255; omega
  case rejected => show _ ≤ min (count + 1) 255 ∧ min (count + 1) 255 ≤ _ ∧ min (count + 1) 255 ≤ 255; omega
  case abandoned => show _ ≤ min (count + 1) 255 ∧ min (count + 1) 255 ≤ _ ∧ min (count + 1) 255 ≤ 255; omega
  case completed => show _ ≤ count - 1 ∧ count - 1 ≤ _ ∧ count - 1 ≤ 255; omega
  case accepted => show _ ≤ count - 1 ∧ count - 1 ≤ _ ∧ count - 1 ≤ 255; omega

/-- After an outcome's weight the next state's range holds the count (R111, R112). -/
theorem weigh_inHealthRange (o : FrameOutcome) (count : Nat) (h : Health) (hr : inHealthRange count h = true) :
    inHealthRange (o.weigh count) (nextHealth (o.weigh count) h) = true := by
  have hn : ∀ n, inHealthRange n .normal = true ↔ n < 96 := fun n => decide_eq_true_iff
  have hres : ∀ n, inHealthRange n .restrained = true ↔ 96 ≤ n ∧ n < 192 := fun n => decide_eq_true_iff
  have hw : ∀ n, inHealthRange n .withdrawn = true ↔ 1 ≤ n ∧ n ≤ 255 := fun n => decide_eq_true_iff
  have h96 : restrainedFrom = 96 := rfl
  have h192 : withdrawnFrom = 192 := rfl
  have hmax : count ≤ 255 := by
    cases h
    · have := (hn count).mp hr; omega
    · have := (hres count).mp hr; omega
    · exact ((hw count).mp hr).2
  have hb := weigh_bounds o hmax
  cases h
  · have hr := (hn count).mp hr
    rw [nextHealth]
    split
    · exact (hres _).mpr (by omega)
    · exact (hn _).mpr (by omega)
  · have hr := (hres count).mp hr
    rw [nextHealth]
    split
    · exact (hw _).mpr (by omega)
    · split
      · exact (hres _).mpr (by omega)
      · exact (hn _).mpr (by omega)
  · rw [nextHealth]
    split
    · exact (hn _).mpr (by omega)
    · exact (hw _).mpr (by omega)

/-- An action on entering a health state leaves the monitor (R113). -/
theorem State.healthActions_health (old new : Health) (s : State) : (s.healthActions old new).health = s.health := by
  simp

/-- A change of health state sets the state alone of the monitor. -/
theorem State.changeHealth_health (new : Health) (s : State) :
    (s.changeHealth new).health = { s.health with state := new } := by
  rw [State.changeHealth]
  split
  · next h => rw [h]
  · rw [State.healthActions_health]
    simp

/-- The monitor after an outcome (R111, R112). -/
theorem State.weighOutcome_health (o : FrameOutcome) (s : State) :
    (s.weighOutcome o).health =
      { garble := o.weigh s.health.garble, state := nextHealth (o.weigh s.health.garble) s.health.state,
        sightings := s.health.sightings } := by
  rw [State.weighOutcome, State.changeHealth_health]
  rfl

/-- An outcome keeps the ranges. -/
theorem State.weighOutcome_healthOk (o : FrameOutcome) (s : State) (h : s.healthOk = true) :
    (s.weighOutcome o).healthOk = true := by
  rw [State.healthOk_eq, Bool.and_eq_true] at h ⊢
  rw [State.weighOutcome_health]
  exact ⟨weigh_inHealthRange o _ _ h.1, h.2⟩

/-- The monitor after a sighting (R120). -/
theorem State.sighting_health (s : State) :
    s.sighting.health =
      { s.health with sightings := if s.health.sightings < 2 then s.health.sightings + 1 else s.health.sightings } := by
  rw [State.sighting]
  split
  · next h => simp [h]
  · next h => simp [h]
  · next h0 h1 =>
    have h : ¬ s.health.sightings < 2 := by
      intro hlt
      have h0' : s.health.sightings ≠ 0 := h0
      have h1' : s.health.sightings ≠ 1 := h1
      omega
    rw [if_neg h]

/-- A sighting keeps the ranges. -/
theorem State.sighting_healthOk (s : State) (h : s.healthOk = true) : s.sighting.healthOk = true := by
  rw [State.healthOk_eq, Bool.and_eq_true] at h ⊢
  rw [State.sighting_health]
  have h2 : s.health.sightings ≤ 2 := of_decide_eq_true h.2
  refine ⟨h.1, decide_eq_true (?_ : (if s.health.sightings < 2 then s.health.sightings + 1 else s.health.sightings) ≤ 2)⟩
  by_cases hlt : s.health.sightings < 2
  · rw [if_pos hlt]; omega
  · rw [if_neg hlt]; exact h2

end Sys2Proof.Machine
end

