-- ==== Sys2Proof/Laws/Slate.lean ====
section
/-! SUPPORT. The send slate: what each request and each outcome leaves in the slots (R74, R75, R80 to R94). -/

namespace Sys2Proof.Machine

/-- The slate after a REFRESH request (R74, R75, R87). -/
theorem State.requestRefresh_slate (s : State) :
    s.requestRefresh.slate = { s.slate with refresh := s.slate.refresh || s.takes .refresh } := by
  rw [State.requestRefresh]
  split
  · next h => simp [h]
  · next h => simp [h]

/-- The slate after a JOIN request (R74, R75, R88). -/
theorem State.requestJoin_slate (s : State) :
    s.requestJoin.slate = { s.slate with join := s.slate.join || s.takes .join } := by
  rw [State.requestJoin]
  split
  · next h => simp [h]
  · next h => simp [h]

/-- The slate after a RESYNC request (R74, R75, R88). -/
theorem State.requestResync_slate (s : State) :
    s.requestResync.slate = { s.slate with resync := s.slate.resync || s.takes .resync } := by
  rw [State.requestResync]
  split
  · next h => simp [h]
  · next h => simp [h]

/-- The slate after a CHANGE request it takes (R89, R92). -/
theorem State.requestChange_slate (departure : Bool) (s : State) (h : s.takes .change = true) :
    (s.requestChange departure).slate =
      { s.slate with
        change := some (match s.slate.change with
          | none => Series.fresh
          | some x => x.askedAgain (s.onLine .change))
        departureOwed := s.slate.departureOwed || departure } := by
  rw [State.requestChange, if_pos h]
  rfl

/-- A CHANGE request it does not take leaves the station as it was (R75). -/
theorem State.requestChange_not_taken (departure : Bool) (s : State) (h : s.takes .change = false) :
    s.requestChange departure = s := by rw [State.requestChange, if_neg (by simp [h])]

/-- A RELEASE request it does not take leaves the station as it was (R75). -/
theorem State.requestRelease_not_taken (m : ZoneMask) (s : State) (h : s.takes .release = false) :
    s.requestRelease m = s := by rw [State.requestRelease, if_neg (by simp [h])]

/-- The phase and the health alone say which requests are taken. -/
theorem State.takes_congr {s t : State} (hp : t.ctrl.phase = s.ctrl.phase) (hh : t.health.state = s.health.state)
    (k : Kind) : t.takes k = s.takes k := by rw [State.takes, State.takes, hp, hh]

/-- A WITHDRAWN station's slate takes nothing (R75, R94). -/
theorem State.takes_withdrawn (s : State) (h : s.health.state = .withdrawn) (k : Kind) : s.takes k = false := by
  simp [State.takes, takesKind, h]

/-- What an attempt leaves of a series (R81, R82, R90). -/
theorem Series.afterAttempt_cases (limit : Nat) (heard : Option StationMap) (x : Series) :
    (x.superseded = true ∧ x.afterAttempt limit heard = .goesOn Series.fresh) ∨
    (x.superseded = false ∧ heard.isSome = true ∧ x.afterAttempt limit heard = .delivered) ∨
    (x.superseded = false ∧ x.attempts + 1 < limit ∧ x.afterAttempt limit heard =
      .goesOn { x with attempts := x.attempts + 1, heard := x.heard ||| heard.getD 0 }) ∨
    (x.superseded = false ∧ ¬ x.attempts + 1 < limit ∧ x.afterAttempt limit heard =
      .short { x with attempts := x.attempts + 1, heard := x.heard ||| heard.getD 0 }) := by
  simp only [Series.afterAttempt]
  split
  · next h => exact .inl ⟨h, rfl⟩
  · next h =>
    have h : x.superseded = false := by simpa using h
    split
    · next h' => exact .inr (.inl ⟨h, (Bool.and_eq_true _ _ ▸ h').1, rfl⟩)
    · split
      · next h' => exact .inr (.inr (.inl ⟨h, h', rfl⟩))
      · next h' => exact .inr (.inr (.inr ⟨h, h', rfl⟩))

/-- A series that goes on has attempts left (R82). -/
theorem Series.afterAttempt_attempts {limit : Nat} {heard : Option StationMap} {x y : Series} (hl : 0 < limit)
    (h : x.afterAttempt limit heard = .goesOn y) : y.attempts < limit := by
  rcases Series.afterAttempt_cases limit heard x with ⟨_, h'⟩ | ⟨_, _, h'⟩ | ⟨_, hlt, h'⟩ | ⟨_, _, h'⟩
  · rw [h'] at h; cases h; exact hl
  · rw [h'] at h; cases h
  · rw [h'] at h; cases h; exact hlt
  · rw [h'] at h; cases h

/-- The model's and the statements' words for a series after LOST agree (R80, R90). -/
theorem Series.afterLost_eq (x : Series) : x.afterLost = seriesAfterLost x := by
  cases hs : x.superseded <;> simp [Series.afterLost, seriesAfterLost, Series.fresh, hs]

/-- The pending slots of an emptied slate: none (R93, R94). -/
theorem Slate.emptied_nonEmpty (x : Slate) : x.emptied.nonEmpty = false := rfl

/-- The most urgent slot is pending (R76). -/
theorem Slate.mostUrgent_pending {x : Slate} {k : Kind} (h : x.mostUrgent = some k) : x.pendingSlot k = true := by
  simp only [Slate.mostUrgent] at h
  repeat' split at h
  all_goals first
    | (cases h; assumption)
    | cases h

/-- No pending slot is more urgent than the one served (R76). -/
theorem Slate.mostUrgent_max {x : Slate} {k j : Kind} (owed : Bool) (h : x.mostUrgent = some k)
    (hj : x.pendingSlot j = true) : j.urgency owed ≤ k.urgency owed := by
  simp only [Slate.mostUrgent] at h
  cases j <;> simp only [Slate.pendingSlot] at hj <;> cases owed <;> repeat' split at h
  all_goals
    cases h
    decide

/-- A slate with a pending slot has one to serve, and the other way round. -/
theorem Slate.mostUrgent_isSome (x : Slate) : x.mostUrgent.isSome = x.nonEmpty := by
  rcases x with ⟨change, release, refresh, join, resync, _, _, _, _⟩
  cases change <;> cases release <;> cases refresh <;> cases join <;> cases resync <;> rfl

/-! ### The model's and the statements' words agree -/

/-- A pending CHANGE slot asked again, by the rows of R89. -/
theorem Series.askedAgain_eq (onLine : Bool) (x : Series) : x.askedAgain onLine = changeMerged onLine (some x) := rfl

/-- The CHANGE slot after a request that is taken (R89). -/
theorem State.requestChange_merged (departure : Bool) (s : State) (h : s.takes .change = true) :
    (s.requestChange departure).slate =
      { s.slate with
        change := some (changeMerged (s.onLine .change) s.slate.change)
        departureOwed := s.slate.departureOwed || departure } := by
  rw [State.requestChange_slate departure s h]
  cases s.slate.change <;> rfl

/-- A zone mask contained in another adds no zone to it. -/
theorem contained_iff (m z : ZoneMask) : z ||| m = z ↔ m &&& ~~~z = 0 := by
  constructor
  · intro h
    have hm : m &&& ~~~(z ||| m) = 0 := by
      ext i hi
      simp only [BitVec.getElem_and, BitVec.getElem_not, BitVec.getElem_or, BitVec.ofNat_eq_ofNat, BitVec.getElem_zero]
      cases m[i] <;> cases z[i] <;> rfl
    rwa [h] at hm
  · intro h
    ext i hi
    have hb : (m &&& ~~~z)[i] = (0 : ZoneMask)[i] := by rw [h]
    simp at hb
    simp only [BitVec.getElem_or]
    cases hz : z[i] <;> simp_all

/-- The RELEASE slot after a request that is taken (R91). -/
theorem State.requestRelease_slate (m : ZoneMask) (s : State) (h : s.takes .release = true) :
    (s.requestRelease m).slate =
      { s.slate with release := some (releaseMerged (s.onLine .release) m s.slate.release) } := by
  rw [State.requestRelease, if_pos h]
  simp only [State.setSlate_slate]
  congr 2
  cases hr : s.slate.release with
  | none => rfl
  | some r =>
    simp only [releaseMerged, contained_iff, Series.askedAgain]
    split
    · rfl
    · cases s.onLine .release
      · simp only [Bool.false_eq_true, if_false]
        split <;> rfl
      · rfl

/-- What a slot holds after an attempt (R81, R82, R90). -/
theorem Series.afterAttempt_slot (limit : Nat) (heard : Option StationMap) (x : Series) :
    slotAfter limit heard x = match x.afterAttempt limit heard with
      | .goesOn y => some y
      | .delivered => none
      | .short _ => none := by
  rcases x with ⟨attempts, sequence, targets, old, superseded⟩
  have hreach : ∀ m, Series.delivered ⟨attempts + 1, sequence, targets, old ||| m, superseded⟩ =
      decide (unreached (targets.getD 0) (some m) ⟨attempts, sequence, targets, old, superseded⟩ = 0) := fun _ => rfl
  cases superseded
  · cases heard with
    | none => by_cases hl : attempts + 1 < limit <;> simp [slotAfter, deliveredBy, endsShort, Series.afterAttempt, hl]
    | some m =>
      simp only [slotAfter, deliveredBy, endsShort, Series.afterAttempt, Option.getD_some, hreach]
      by_cases hd : unreached (targets.getD 0) (some m) ⟨attempts, sequence, targets, old, false⟩ = 0
      · simp only [decide_eq_true hd]
        rfl
      · simp only [decide_eq_false hd]
        by_cases hl : attempts + 1 < limit <;> simp [hl]
  · rfl

end Sys2Proof.Machine
end

