-- ==== Sys2Proof/Laws/Line.lean ====
section
/-! SUPPORT. The line: the boundaries of a gap at which a station may start (R53), and the quarters in which it drives
(R96, R98, R108). -/

namespace Sys2Proof.Machine

/-! ### Boundaries (R50, R53) -/

@[simp] theorem releasedAfter_nil (n : Nat) : releasedAfter n [] = n := rfl

@[simp] theorem releasedAfter_cons (n : Nat) (p : BitPeriod) (ps : List BitPeriod) :
    releasedAfter n (p :: ps) = releasedAfter (releasedRun n p) ps := rfl

/-- The boundaries looked at are those from `skip` on, before the end of the run. -/
theorem reachedBefore_iff (length skip count : Nat) (ps : List BitPeriod) :
    reachedBefore length skip count ps = true ↔
      ∃ j, skip ≤ j ∧ j < ps.length ∧ length ≤ releasedAfter count (ps.take j) := by
  induction ps generalizing skip count with
  | nil => simp [reachedBefore]
  | cons p ps ih =>
    cases skip with
    | zero =>
      rw [reachedBefore, Bool.or_eq_true, decide_eq_true_iff, ih]
      constructor
      · rintro (h | ⟨j, _, hj, h⟩)
        · exact ⟨0, Nat.zero_le _, Nat.succ_pos _, h⟩
        · exact ⟨j + 1, Nat.zero_le _, Nat.succ_lt_succ hj, h⟩
      · rintro ⟨j, _, hj, h⟩
        cases j with
        | zero => exact .inl h
        | succ j => exact .inr ⟨j, Nat.zero_le _, Nat.lt_of_succ_lt_succ hj, h⟩
    | succ skip =>
      rw [reachedBefore, ih]
      constructor
      · rintro ⟨j, hs, hj, h⟩
        exact ⟨j + 1, Nat.succ_le_succ hs, Nat.succ_lt_succ hj, h⟩
      · rintro ⟨j, hs, hj, h⟩
        cases j with
        | zero => exact absurd hs (Nat.not_succ_le_zero _)
        | succ j => exact ⟨j, Nat.le_of_succ_le_succ hs, Nat.lt_of_succ_lt_succ hj, h⟩

/-- Some slot is pending exactly where the slate is non-empty (R74). -/
theorem Slate.nonEmpty_iff (x : Slate) : x.nonEmpty = true ↔ ∃ k, x.pendingSlot k = true := by
  constructor
  · intro h
    rw [← Slate.mostUrgent_isSome] at h
    obtain ⟨k, hk⟩ := Option.isSome_iff_exists.mp h
    exact ⟨k, Slate.mostUrgent_pending hk⟩
  · rintro ⟨k, hk⟩
    cases k <;> simp only [Slate.pendingSlot] at hk <;> simp [Slate.nonEmpty, hk]

/-- The station may contend as far as its phase, its health and its slate go (R53). -/
theorem State.mayContend_iff (s : State) :
    s.mayContend = true ↔
      (s.ctrl.phase = .joining ∨ s.ctrl.phase = .running) ∧ s.health.state ≠ .withdrawn ∧
        ∃ k, s.slate.pendingSlot k = true := by
  simp only [State.mayContend, Bool.and_eq_true, Bool.or_eq_true, decide_eq_true_iff, Slate.nonEmpty_iff, and_assoc]

/-- The first boundary looked at, in the words of the statements. -/
theorem State.ableFrom_le (able j : Nat) (s : State) :
    s.ableFrom able ≤ j ↔ (s.engine.ableAtIdle = false → able ≤ j) := by
  cases h : s.engine.ableAtIdle <;> simp [State.ableFrom, h]

/-- Where a station may start, in the words of the model. -/
theorem State.mayStartAfter_iff (gap : List BitPeriod) (able j : Nat) (s : State) :
    s.mayStartAfter gap able j ↔
      s.mayContend = true ∧ s.ableFrom able ≤ j ∧
        s.engine.gapRequirement ≤ releasedAfter s.engine.gapCount (gap.take j) := by
  rw [State.mayStartAfter, State.mayContend_iff, State.ableFrom_le]
  simp only [and_assoc]

/-- The station started before the end of the gap: at some boundary in it every condition held (R53). -/
theorem State.startedBefore_iff (gap : List BitPeriod) (able : Nat) (s : State) :
    s.startedBefore gap able = true ↔ ∃ j, j < gap.length ∧ s.mayStartAfter gap able j := by
  simp only [State.startedBefore, Bool.and_eq_true, reachedBefore_iff, State.mayStartAfter_iff]
  constructor
  · rintro ⟨h, j, hs, hj, hr⟩; exact ⟨j, hj, h, hs, hr⟩
  · rintro ⟨j, hj, h, hs, hr⟩; exact ⟨h, j, hs, hj, hr⟩

/-- The start of a frame of the station's own: the first boundary, no lead, and an edge as R102 gives (R53, R102). -/
theorem State.startsAt_iff (gap : List BitPeriod) (able : Nat) (edge : Option Int) (s : State) :
    s.startsAt gap able edge = true ↔
      s.engine.state = .idle ∧ gap.any isLead = false ∧ s.firstStartAt gap able ∧
        ∀ d, edge = some d → -8 < d ∧ d ≤ 0 := by
  have hb : s.startedBefore gap able = false ↔ ∀ j, j < gap.length → ¬ s.mayStartAfter gap able j := by
    rw [← Bool.not_eq_true, State.startedBefore_iff]
    simp only [not_exists, not_and]
  have he : edge.all (fun d => decide (-halfQuarter < d ∧ d ≤ 0)) = true ↔ ∀ d, edge = some d → -8 < d ∧ d ≤ 0 := by
    cases edge with
    | none => simp
    | some d =>
      rw [Option.all_some, decide_eq_true_iff]
      exact ⟨fun h e he => Option.some.inj he ▸ h, fun h => h d rfl⟩
  have hlast := State.mayStartAfter_iff gap able gap.length s
  rw [List.take_length] at hlast
  simp only [State.startsAt, State.firstStartAt, Bool.and_eq_true, Bool.not_eq_true', decide_eq_true_iff, hb, he, hlast]
  constructor
  · rintro ⟨⟨⟨⟨⟨⟨h1, h2⟩, h3⟩, h4⟩, h5⟩, h6⟩, h7⟩; exact ⟨h1, h3, ⟨⟨h2, h5, h6⟩, h4⟩, h7⟩
  · rintro ⟨h1, h3, ⟨⟨h2, h5, h6⟩, h4⟩, h7⟩; exact ⟨⟨⟨⟨⟨⟨h1, h2⟩, h3⟩, h4⟩, h5⟩, h6⟩, h7⟩

/-! ### Quarters (R96, R98, R108) -/

@[simp] theorem State.drive_line (qs : List QuarterDrive) (s : State) : (s.drive qs).line = s.line.drive qs := rfl

@[simp] theorem State.droveNothing_line (s : State) : s.droveNothing.line = { s.line with drove := [] } := rfl

@[simp] theorem LineInterface.drive_drove (qs : List QuarterDrive) (l : LineInterface) : (l.drive qs).drove = qs := rfl

@[simp] theorem drivenQuarters_length (bits : List Bool) : (drivenQuarters bits).length = 4 * bits.length := by
  induction bits with
  | nil => rfl
  | cons b bits ih =>
    have h : drivenQuarters (b :: bits) = quartersOf b ++ drivenQuarters bits := rfl
    rw [h, List.length_append, ih, List.length_cons]
    have : (quartersOf b).length = 4 := rfl
    omega

/-- No quarter of a driven bit period has LTX driven with LEN off (R96). -/
theorem quartersOf_len (b : Bool) : ∀ q ∈ quartersOf b, q.len = true := by
  intro q hq
  simp only [quartersOf, List.map_cons, List.map_nil, List.mem_cons, List.not_mem_nil, or_false] at hq
  rcases hq with rfl | rfl | rfl | rfl <;> rfl

theorem drivenQuarters_len (bits : List Bool) : ∀ q ∈ drivenQuarters bits, q.len = true := by
  intro q hq
  obtain ⟨b, _, hb⟩ := List.mem_flatMap.mp hq
  exact quartersOf_len b q hb

/-- The four quarters of each slot: driven with value 1 in the own slot, else off (R66, R96, R108). -/
theorem windowQuarters_slot (own : Option Station) (k : Station) (h : k ≠ 0) :
    ((windowQuarters own).drop (4 * (k.toNat - 1))).take 4 =
      if own = some k then quartersOf true else List.replicate 4 QuarterDrive.off := by
  revert own k
  have : ∀ (n : Option Station) (k : Station), k ≠ 0 →
      ((windowQuarters n).drop (4 * (k.toNat - 1))).take 4 =
        if n = some k then quartersOf true else List.replicate 4 QuarterDrive.off := by
    intro n
    cases n with
    | none => decide +kernel
    | some n => revert n; decide +kernel
  exact this

theorem windowQuarters_length (own : Option Station) : (windowQuarters own).length = 124 := by
  cases own with
  | none => decide +kernel
  | some n => revert n; decide +kernel

end Sys2Proof.Machine
end

