-- ==== Sys2Proof/Laws/Notices.lean ====
section
/-! SUPPORT. The notice queue: what a push does, and that every push and every removal keeps the queue's form (R182,
R184). -/

namespace Sys2Proof.Machine

/-- The condition of State.noticesOk, on the queue alone. -/
def queueOk (q : List Notice) : Bool :=
  q.dropLast.all (fun n => decide (n.kind ≠ .overflow)) &&
    (decide (q.length ≤ queueCapacity) ||
      (decide (q.length = queueCapacity + 1) && q.getLast?.any (fun n => decide (n.kind = .overflow))))

theorem State.noticesOk_eq (s : State) : s.noticesOk = queueOk s.notices := rfl

/-- States with one queue meet the condition together. -/
theorem State.noticesOk_of_notices {s t : State} (h : t.notices = s.notices) (hs : s.noticesOk = true) :
    t.noticesOk = true := by rw [State.noticesOk_eq, h]; exact hs

/-- With an OVERFLOW in the queue a push changes nothing. -/
theorem pushNotice_full {q : List Notice} (n : Notice) (h : q.any (fun m => decide (m.kind = .overflow)) = true) :
    pushNotice q n = q := by rw [pushNotice, if_pos h]

/-- With none, and a position of any kind free, the notice is stored. -/
theorem pushNotice_stored {q : List Notice} (n : Notice) (h : q.any (fun m => decide (m.kind = .overflow)) = false)
    (hl : q.length < queueCapacity) : pushNotice q n = q ++ [n] := by
  rw [pushNotice, if_neg (by simp [h]), if_pos hl]

/-- With none, and no such position free, it is replaced by OVERFLOW. -/
theorem pushNotice_replaced {q : List Notice} (n : Notice) (h : q.any (fun m => decide (m.kind = .overflow)) = false)
    (hl : ¬ q.length < queueCapacity) :
    pushNotice q n = q ++ [{ kind := .overflow, stamp := n.stamp, station := none, term := none, value := none }] := by
  rw [pushNotice, if_neg (by simp [h]), if_neg hl]

/-- A queue in form without OVERFLOW holds at most fifteen notices. -/
theorem queueOk_length {q : List Notice} (hq : queueOk q = true)
    (h : q.any (fun m => decide (m.kind = .overflow)) = false) : q.length ≤ queueCapacity := by
  simp only [queueOk, Bool.and_eq_true, Bool.or_eq_true, decide_eq_true_eq] at hq
  rcases hq.2 with h1 | ⟨_, h2⟩
  · exact h1
  · exfalso
    cases hlast : q.getLast? with
    | none => simp [hlast] at h2
    | some x =>
      have hmem : x ∈ q := List.mem_of_getLast? hlast
      simp only [hlast, Option.any_some] at h2
      have := List.any_eq_false.mp h x hmem
      exact this h2

/-- A push keeps the form (R182). -/
theorem pushNotice_queueOk {q : List Notice} (n : Notice) (hq : queueOk q = true) : queueOk (pushNotice q n) = true := by
  by_cases h : q.any (fun m => decide (m.kind = .overflow)) = true
  · rwa [pushNotice_full n h]
  have h : q.any (fun m => decide (m.kind = .overflow)) = false := by simpa using h
  have hall : q.all (fun m => decide (m.kind ≠ .overflow)) = true := by
    rw [List.all_eq_true]
    intro x hx
    simpa using List.any_eq_false.mp h x hx
  have hlen := queueOk_length hq h
  by_cases hl : q.length < queueCapacity
  · rw [pushNotice_stored n h hl, queueOk, List.dropLast_concat, hall]
    simp only [List.length_append, List.length_cons, List.length_nil, Bool.true_and, Bool.or_eq_true, decide_eq_true_eq]
    left; omega
  · rw [pushNotice_replaced n h hl, queueOk, List.dropLast_concat, hall]
    simp only [List.length_append, List.length_cons, List.length_nil, Bool.true_and, Bool.or_eq_true, decide_eq_true_eq]
    right
    simp only [Bool.and_eq_true, decide_eq_true_eq, List.getLast?_append, List.getLast?_singleton, Option.some_or,
      Option.any_some]
    exact ⟨by omega, trivial⟩

/-- Taking the oldest notice keeps the form (R184). -/
theorem drop_queueOk {q : List Notice} (hq : queueOk q = true) : queueOk (q.drop 1) = true := by
  cases q with
  | nil => exact hq
  | cons a q =>
    cases q with
    | nil => rfl
    | cons b q =>
      simp only [queueOk, List.drop_succ_cons, List.drop_zero, List.dropLast_cons_cons, List.all_cons, List.length_cons,
        List.getLast?_cons_cons, Bool.and_eq_true, Bool.or_eq_true, decide_eq_true_eq] at hq ⊢
      refine ⟨hq.1.2, ?_⟩
      rcases hq.2 with h | ⟨h, _⟩
      · left; omega
      · left; omega

/-- Raising a notice keeps the form. -/
theorem State.raise_noticesOk (k : NoticeKind) (n : Option Station) (t : Option (Fin 16)) (v : Option NoticeValue)
    (s : State) (h : s.noticesOk = true) : (s.raise k n t v).noticesOk = true := pushNotice_queueOk _ h

theorem State.raiseStation_noticesOk (k : NoticeKind) (n : Station) (s : State) (h : s.noticesOk = true) :
    (s.raiseStation k n).noticesOk = true := State.raise_noticesOk _ _ _ _ s h

theorem State.raiseTerm_noticesOk (k : NoticeKind) (t : Fin 16) (s : State) (h : s.noticesOk = true) :
    (s.raiseTerm k t).noticesOk = true := State.raise_noticesOk _ _ _ _ s h

theorem State.raiseValue_noticesOk (k : NoticeKind) (v : NoticeValue) (s : State) (h : s.noticesOk = true) :
    (s.raiseValue k v).noticesOk = true := State.raise_noticesOk _ _ _ _ s h

/-- A row of operations that each keep a condition keeps it. -/
theorem foldl_keeps_condition {α : Type} (ok : State → Prop) (f : State → α → State) (h : ∀ s a, ok s → ok (f s a))
    (l : List α) (s : State) (hs : ok s) : ok (l.foldl f s) := by
  induction l generalizing s with
  | nil => exact hs
  | cons a l ih => exact ih _ (h s a hs)

/-- The notices of value changes keep the form (R137). -/
theorem State.raiseChanges_noticesOk (old new : Vector TermFlags 16) (s : State) (h : s.noticesOk = true) :
    (s.raiseChanges old new).noticesOk = true := by
  refine foldl_keeps_condition (fun s => s.noticesOk = true) _ (fun s t hs => ?_) _ s h
  split
  · exact State.raiseTerm_noticesOk _ _ s hs
  · exact State.raiseTerm_noticesOk _ _ s hs
  · exact hs
  · exact hs

/-- The notices of a release keep the form (R138). -/
theorem State.raiseReleased_noticesOk (c : StationConfig) (m : ZoneMask) (n : Option Station)
    (old : Vector TermFlags 16) (s : State) (h : s.noticesOk = true) :
    (s.raiseReleased c m n old).noticesOk = true := by
  refine foldl_keeps_condition (fun s => s.noticesOk = true) _ (fun s t hs => ?_) _ s h
  split
  · split
    · exact State.raise_noticesOk _ _ _ _ s hs
    · exact State.raiseTerm_noticesOk _ _ s hs
  · exact hs

/-- An evaluator event keeps the form (R132, R137). -/
theorem State.settleTerms_noticesOk (c : StationConfig) (new : Vector TermFlags 16) (s : State)
    (h : s.noticesOk = true) : (s.settleTerms c new).noticesOk = true := by
  have hset : ((s.setTerms { s.terms with flags := new }).moveOutputs (runningDrives c new)).noticesOk = true :=
    State.noticesOk_of_notices (by simp) h
  exact State.raiseChanges_noticesOk _ _ _ hset

/-- A change handed to the evaluator keeps the form (R132). -/
theorem State.tableChanged_noticesOk (s : State) (h : s.noticesOk = true) : s.tableChanged.noticesOk = true := by
  rw [State.tableChanged]
  split
  · exact State.settleTerms_noticesOk _ _ s h
  · exact h

/-- A release keeps the form (R138). -/
theorem State.applyRelease_noticesOk (m : ZoneMask) (n : Option Station) (s : State) (h : s.noticesOk = true) :
    (s.applyRelease m n).noticesOk = true := by
  rw [State.applyRelease]
  split
  · refine State.raiseReleased_noticesOk _ _ _ _ _ (State.noticesOk_of_notices ?_ h)
    simp
  · exact h

/-- Evidence keeps the form (R6 to R8). -/
theorem State.evidence_noticesOk (n : Station) (s : State) (h : s.noticesOk = true) : (s.evidence n).noticesOk = true := by
  have hkept : ∀ f : Entry → Entry, (s.updateEntry n f).noticesOk = true := fun f =>
    State.noticesOk_of_notices (by simp) h
  rw [State.evidence]
  split
  · rw [State.raiseHeard]
    split
    · exact State.raiseStation_noticesOk _ _ _ (hkept _)
    · exact State.raiseStation_noticesOk _ _ _ (State.raiseStation_noticesOk _ _ _ (hkept _))
  · exact hkept _
  · exact hkept _
  · exact State.raiseStation_noticesOk _ _ _ (hkept _)
  · exact h

/-! ### Which notices an event raises -/

/-- The queue after a row of operations, each of which changes the queue by itself and keeps the stamp. -/
theorem foldl_notices {α : Type} (op : State → α → State) (push : List Notice → α → List Notice) (tick : Word16)
    (hop : ∀ s a, s.ctrl.tick = tick → (op s a).notices = push s.notices a ∧ (op s a).ctrl.tick = tick)
    (l : List α) (s : State) (ht : s.ctrl.tick = tick) : (l.foldl op s).notices = l.foldl push s.notices := by
  induction l generalizing s with
  | nil => rfl
  | cons a l ih =>
    obtain ⟨hn, ht'⟩ := hop s a ht
    rw [List.foldl_cons, List.foldl_cons, ih _ ht', hn]

/-- The notices of value changes (R137). -/
theorem State.raiseChanges_notices (old new : Vector TermFlags 16) (s : State) :
    (s.raiseChanges old new).notices = changeNotices s (fun i => old[i]) (fun i => new[i]) s.notices := by
  rw [State.raiseChanges, changeNotices]
  refine foldl_notices _ _ s.ctrl.tick (fun u i hu => ?_) _ s rfl
  cases ho : old[i].value <;> cases hn : new[i].value <;>
    simp [State.raiseTerm, State.raise, hu, plainNotice]

/-- The notices of a release (R138). -/
theorem State.raiseReleased_notices (c : StationConfig) (m : ZoneMask) (n : Option Station) (old : Vector TermFlags 16)
    (s : State) :
    (s.raiseReleased c m n old).notices = releaseNotices c m n (fun i => old[i]) s s.notices := by
  rw [State.raiseReleased, releaseNotices]
  refine foldl_notices _ _ s.ctrl.tick (fun u i hu => ?_) _ s rfl
  have hmeet : releaseMeets c.terms[i] m old[i] = true ↔ old[i].latched = true ∧ c.terms[i].zones &&& m ≠ 0 := by
    rw [releaseMeets, zonesMeet, Bool.and_eq_true, decide_eq_true_iff]
  by_cases hm : releaseMeets c.terms[i] m old[i] = true
  · rw [if_pos hm]
    simp only [if_pos (hmeet.mp hm)]
    cases old[i].live <;> simp [State.raiseTerm, State.raise, plainNotice, hu]
  · rw [if_neg hm]
    simp only [if_neg (fun h => hm (hmeet.mpr h))]
    exact ⟨trivial, hu⟩

/-- The notices of an evaluator event in RUNNING (R137). -/
theorem State.settleTerms_notices (c : StationConfig) (new : Vector TermFlags 16) (s : State) :
    (s.settleTerms c new).notices = changeNotices s (fun i => s.terms.flags[i]) (fun i => new[i]) s.notices := by
  rw [State.settleTerms, State.raiseChanges_notices]
  rfl

end Sys2Proof.Machine
end

