-- ==== Sys2Proof/Laws/Table.lean ====
section
/-! SUPPORT. The peer table: what an entry reads after an update of it or of another, and after an operation over all
stations. -/

namespace Sys2Proof.Machine

/-- A change handed to the evaluator leaves the table (R132). -/
theorem State.tableChanged_table (s : State) : s.tableChanged.table = s.table := by simp

/-! ### One entry -/

theorem station_index_lt {n : Station} (h : n ≠ 0) : n.toNat - 1 < 31 := by
  have := n.isLt
  have : n.toNat ≠ 0 := fun h0 => h (BitVec.eq_of_toNat_eq h0)
  omega

theorem station_index_inj {m n : Station} (hm : m ≠ 0) (hn : n ≠ 0) (h : n.toNat - 1 = m.toNat - 1) : m = n := by
  have : m.toNat ≠ 0 := fun h0 => hm (BitVec.eq_of_toNat_eq h0)
  have : n.toNat ≠ 0 := fun h0 => hn (BitVec.eq_of_toNat_eq h0)
  exact BitVec.eq_of_toNat_eq (by omega)

theorem PeerTable.entry_zero (t : PeerTable) : PeerTable.entry t 0 = Entry.blank := if_pos rfl

theorem PeerTable.setEntry_zero (t : PeerTable) (e : Entry) : PeerTable.setEntry t 0 e = t := if_pos rfl

theorem PeerTable.entry_eq (t : PeerTable) {n : Station} (h : n ≠ 0) :
    PeerTable.entry t n = t[n.toNat - 1]'(station_index_lt h) := by
  rw [PeerTable.entry, if_neg h, Vector.getElem?_eq_getElem (station_index_lt h), Option.getD_some]

theorem PeerTable.setEntry_eq (t : PeerTable) {n : Station} (h : n ≠ 0) (e : Entry) :
    PeerTable.setEntry t n e = t.setIfInBounds (n.toNat - 1) e := if_neg h

theorem PeerTable.entry_setEntry_same (t : PeerTable) {n : Station} (h : n ≠ 0) (e : Entry) :
    PeerTable.entry (PeerTable.setEntry t n e) n = e := by
  rw [PeerTable.entry_eq _ h]
  simp [PeerTable.setEntry_eq t h]

theorem PeerTable.entry_setEntry_ne (t : PeerTable) {m n : Station} (h : m ≠ n) (e : Entry) :
    PeerTable.entry (PeerTable.setEntry t n e) m = PeerTable.entry t m := by
  by_cases hn : n = 0
  · rw [hn, PeerTable.setEntry_zero]
  by_cases hm : m = 0
  · rw [hm, PeerTable.entry_zero, PeerTable.entry_zero]
  have hi : n.toNat - 1 ≠ m.toNat - 1 := fun hi => h (station_index_inj hm hn hi)
  rw [PeerTable.entry_eq _ hm, PeerTable.entry_eq _ hm]
  simp only [PeerTable.setEntry_eq t hn]
  exact Vector.getElem_setIfInBounds_ne (station_index_lt hm) hi

/-- Entry m after entry n is replaced. -/
theorem PeerTable.entry_setEntry (t : PeerTable) (m n : Station) (e : Entry) :
    PeerTable.entry (PeerTable.setEntry t n e) m = if m = n ∧ n ≠ 0 then e else PeerTable.entry t m := by
  split
  · next h => rw [h.1]; exact PeerTable.entry_setEntry_same t h.2 e
  · next h =>
    by_cases hmn : m = n
    · have hn : n = 0 := Classical.byContradiction fun hn => h ⟨hmn, hn⟩
      rw [hn, PeerTable.setEntry_zero]
    · exact PeerTable.entry_setEntry_ne t hmn e

/-- Two states with one table read the same entries. -/
theorem State.entry_of_table {s t : State} (h : t.table = s.table) (n : Station) : t.entry n = s.entry n := by
  simp [State.entry, h]

/-- Entry m of the state after entry n is changed. -/
theorem State.entry_updateEntry (s : State) (m n : Station) (f : Entry → Entry) :
    (s.updateEntry n f).entry m = if m = n ∧ n ≠ 0 then f (s.entry n) else s.entry m := by
  simp [State.updateEntry, State.setEntry, State.entry, PeerTable.entry_setEntry]

theorem State.entry_updateEntry_same (s : State) {n : Station} (h : n ≠ 0) (f : Entry → Entry) :
    (s.updateEntry n f).entry n = f (s.entry n) := by rw [State.entry_updateEntry, if_pos ⟨rfl, h⟩]

theorem State.entry_updateEntry_ne (s : State) {m n : Station} (h : m ≠ n) (f : Entry → Entry) :
    (s.updateEntry n f).entry m = s.entry m := by
  rw [State.entry_updateEntry, if_neg (fun hc => h hc.1)]

/-- Number 0 names no entry, and updating it changes nothing (R1). -/
theorem State.updateEntry_zero (s : State) (f : Entry → Entry) : s.updateEntry 0 f = s := by
  simp [State.updateEntry, State.setEntry, State.setTable, PeerTable.setEntry]

/-- The self entry after its report is changed. -/
theorem State.entry_updateSelfReport (s : State) (f : StoredReport → StoredReport) (m : Station) :
    (s.updateSelfReport f).entry m =
      if m = s.ctrl.ownNumber ∧ s.ctrl.ownNumber ≠ 0 then
        { s.entry m with report := (s.entry m).report.map f }
      else s.entry m := by
  rw [State.updateSelfReport, State.entry_updateEntry]
  split
  · next h => rw [h.1]
  · rfl

/-! ### All stations -/

theorem mem_stations (n : Station) : n ∈ stations ↔ n ≠ 0 := by
  revert n; decide +kernel

theorem stations_nodup : stations.Nodup := by decide +kernel

/-- An operation that changes each entry of a list of stations by itself. -/
theorem PeerTable.entry_foldl (f : Station → Entry → Entry) (l : List Station) (hl : l.Nodup) (t : PeerTable)
    (m : Station) (hm : m ≠ 0) :
    PeerTable.entry (l.foldl (fun t n => PeerTable.setEntry t n (f n (PeerTable.entry t n))) t) m =
      if m ∈ l then f m (PeerTable.entry t m) else PeerTable.entry t m := by
  induction l generalizing t with
  | nil => simp
  | cons n l ih =>
    obtain ⟨hn, hl⟩ := List.nodup_cons.mp hl
    rw [List.foldl_cons, ih hl]
    by_cases hmn : m = n
    · subst hmn
      simp [hn, PeerTable.entry_setEntry_same t hm]
    · simp [hmn, PeerTable.entry_setEntry_ne t hmn]

/-- The sets of station numbers built by a condition on each. -/
theorem inMap_foldl (p : Station → Bool) (l : List Station) (m : StationMap) (n : Station) :
    inMap (l.foldl (fun m k => if p k then m ||| stationBit k else m) m) n =
      (inMap m n || decide (n ∈ l ∧ p n = true)) := by
  induction l generalizing m with
  | nil => simp
  | cons k l ih =>
    rw [List.foldl_cons, ih]
    have hbit : ∀ k : Station, inMap (m ||| stationBit k) n = (inMap m n || decide (n = k)) := by
      intro k
      have hk := k.isLt
      have hn := n.isLt
      have hnk : (n = k) ↔ n.toNat = k.toNat := ⟨fun h => by rw [h], BitVec.eq_of_toNat_eq⟩
      simp only [inMap, stationBit, BitVec.getLsbD_or, BitVec.getLsbD_shiftLeft, hnk]
      congr 1
      by_cases h : n.toNat = k.toNat
      · have h32 : k.toNat < 32 := by omega
        simp [h, h32]
      · have : (decide (n.toNat < k.toNat) || !(1#32).getLsbD (n.toNat - k.toNat)) = true := by
          by_cases hlt : n.toNat < k.toNat
          · simp [hlt]
          · have : n.toNat - k.toNat ≠ 0 := by omega
            simp [BitVec.getLsbD_one, this]
        simp only [h, decide_false]
        rcases Bool.or_eq_true _ _ ▸ this with h1 | h1
        · simp [h1]
        · have : (1#32).getLsbD (n.toNat - k.toNat) = false := by simpa using h1
          simp [this]
    by_cases hp : p k = true
    · simp only [hp, if_true, hbit]
      by_cases hnk : n = k
      · simp [hnk, hp]
      · simp [hnk]
    · simp only [hp]
      by_cases hnk : n = k
      · simp [hnk, hp]
      · simp [hnk]

/-- The delivery targets, one by one (R78). -/
theorem inMap_currentTargets (t : PeerTable) (n : Station) :
    inMap (currentTargets t) n = true ↔ n ≠ 0 ∧ isTarget (PeerTable.entry t n) = true := by
  rw [currentTargets, inMap_foldl (fun n => isTarget (PeerTable.entry t n))]
  simp [inMap, mem_stations]

/-- The roster flags that a load sets (R2). -/
theorem entry_rosterTable (roster : StationMap) (t : PeerTable) (n : Station) (h : n ≠ 0) :
    PeerTable.entry (rosterTable roster t) n = { PeerTable.entry t n with roster := inMap roster n } := by
  rw [rosterTable, PeerTable.entry_foldl (fun n e => { e with roster := inMap roster n }) _ stations_nodup t n h,
    if_pos ((mem_stations n).mpr h)]

/-- An update of entry n where a condition on n alone holds is an update by that condition. -/
theorem PeerTable.setEntry_if (p : Bool) (f : Entry → Entry) (t : PeerTable) (n : Station) :
    (if p then PeerTable.setEntry t n (f (PeerTable.entry t n)) else t) =
      PeerTable.setEntry t n (if p then f (PeerTable.entry t n) else PeerTable.entry t n) := by
  cases p
  · by_cases hn : n = 0
    · rw [hn, if_neg (by decide), PeerTable.setEntry_zero]
    · apply Vector.ext
      intro i hlt
      simp only [PeerTable.setEntry_eq t hn, PeerTable.entry_eq t hn]
      by_cases h : n.toNat - 1 = i
      · subst h; simp
      · simp [Vector.getElem_setIfInBounds_ne hlt h]
  · simp

/-- The misses counted against a map of stations (R83). -/
theorem entry_countMisses (missing : StationMap) (t : PeerTable) (n : Station) (h : n ≠ 0) :
    PeerTable.entry (countMisses missing t) n =
      if inMap missing n then
        { PeerTable.entry t n with deliveriesMissed := saturate8 (PeerTable.entry t n).deliveriesMissed }
      else PeerTable.entry t n := by
  have hstep : ∀ (t : PeerTable) (n : Station),
      (if inMap missing n then
        let e := PeerTable.entry t n
        PeerTable.setEntry t n { e with deliveriesMissed := saturate8 e.deliveriesMissed }
      else t) =
      PeerTable.setEntry t n ((fun n e => if inMap missing n then
        { e with deliveriesMissed := saturate8 e.deliveriesMissed } else e) n (PeerTable.entry t n)) := fun t n =>
    PeerTable.setEntry_if (inMap missing n) (fun e => { e with deliveriesMissed := saturate8 e.deliveriesMissed }) t n
  rw [countMisses, funext (fun t => funext (hstep t)),
    PeerTable.entry_foldl (fun n e => if inMap missing n then
      { e with deliveriesMissed := saturate8 e.deliveriesMissed } else e) _ stations_nodup t n h,
    if_pos ((mem_stations n).mpr h)]

/-! ### Evidence and aging -/

/-- An entry after evidence other than a STATE frame (R6 to R8). -/
def Entry.evidenced (e : Entry) : Entry :=
  if e.presence = .self then e else { e with presence := evidencePresence e.presence, age := 0 }

/-- The entry of a station after evidence. -/
theorem State.entry_evidence (s : State) (m n : Station) :
    (s.evidence n).entry m = if m = n ∧ n ≠ 0 then (s.entry n).evidenced else s.entry m := by
  have hheard : ∀ u : State, (u.raiseHeard n).entry m = u.entry m := fun u =>
    State.entry_of_table (by simp) m
  have hraise : ∀ (k : NoticeKind) (u : State), (u.raiseStation k n).entry m = u.entry m := fun k u =>
    State.entry_of_table (by simp) m
  cases hp : (s.entry n).presence <;>
    simp only [State.evidence, Entry.evidenced, evidencePresence, hp, hheard, hraise, State.entry_updateEntry]
  case heard => split <;> simp_all
  case present => split <;> simp_all
  case self => split <;> simp_all
  all_goals rfl

/-- The entry of a station after it takes a tick (R10). -/
theorem State.entry_ageEntry (s : State) (threshold : Nat) (m n : Station) :
    (s.ageEntry threshold n).entry m =
      if m = n ∧ n ≠ 0 then Entry.aged threshold (s.entry n) else s.entry m := by
  have hraise : ∀ (k : NoticeKind) (u : State), (u.raiseStation k n).entry m = u.entry m := fun k u =>
    State.entry_of_table (by simp) m
  simp only [State.ageEntry]
  split
  · rw [hraise, State.entry_updateEntry]
  · rw [State.entry_updateEntry]

/-- A row of operations of which the one for station n changes entry n by itself and no other entry. -/
theorem State.entry_foldl (op : State → Station → State) (g : Station → Entry → Entry)
    (h : ∀ (s : State) (m n : Station), (op s n).entry m = if m = n ∧ n ≠ 0 then g n (s.entry n) else s.entry m)
    (l : List Station) (hl : l.Nodup) (s : State) (m : Station) (hm : m ≠ 0) :
    (l.foldl op s).entry m = if m ∈ l then g m (s.entry m) else s.entry m := by
  induction l generalizing s with
  | nil => simp
  | cons n l ih =>
    obtain ⟨hn, hl⟩ := List.nodup_cons.mp hl
    rw [List.foldl_cons, ih hl]
    by_cases hmn : m = n
    · subst hmn
      rw [if_neg hn, h, if_pos ⟨rfl, hm⟩, if_pos (List.mem_cons_self ..)]
    · have hs : (op s n).entry m = s.entry m := by rw [h, if_neg (fun hc => hmn hc.1)]
      simp [hs, hmn]

/-- An entry after the aging of the whole table, in the phases in which it ages (R3, R10). -/
theorem State.entry_ageTable (s : State) (n : Station) (h : n ≠ 0) :
    s.ageTable.entry n = if s.engineRuns then Entry.aged s.silenceThreshold (s.entry n) else s.entry n := by
  by_cases hr : s.engineRuns = true
  · rw [State.ageTable, if_pos hr, if_pos hr, State.entry_of_table (State.tableChanged_table _),
      State.entry_foldl _ (fun _ => Entry.aged s.silenceThreshold) (fun s m n => State.entry_ageEntry s _ m n) _
        stations_nodup s n h, if_pos ((mem_stations n).mpr h)]
  · rw [State.ageTable, if_neg hr, if_neg hr]

/-- An entry after the evidence of a confirm map (R5, R68). -/
theorem State.entry_mapEvidence (m : StationMap) (s : State) (n : Station) (h : n ≠ 0) :
    (s.mapEvidence m).entry n = if inMap m n then (s.entry n).evidenced else s.entry n := by
  have hop : ∀ (s : State) (k' k : Station), (if inMap m k then s.evidence k else s).entry k' =
      if k' = k ∧ k ≠ 0 then (if inMap m k then (s.entry k).evidenced else s.entry k) else s.entry k' := by
    intro s k' k
    by_cases hin : inMap m k = true
    · simp only [hin, if_true, State.entry_evidence]
    · simp only [if_neg hin]
      split
      · next h1 => rw [h1.1]
      · rfl
  rw [State.mapEvidence, State.entry_of_table (State.tableChanged_table _),
    State.entry_foldl (fun s n => if inMap m n then s.evidence n else s)
      (fun k e => if inMap m k then e.evidenced else e) hop _ stations_nodup s n h, if_pos ((mem_stations n).mpr h)]

/-- The model's and the statements' words for an aging entry agree (R10). -/
theorem Entry.aged_eq (threshold : Nat) (e : Entry) : Entry.aged threshold e = agedEntry threshold e := by
  have hages : e.ages = true ↔ e.presence = .heard ∨ e.presence = .present := by simp [Entry.ages]
  rw [Entry.aged, agedEntry]
  by_cases ha : e.presence = .heard ∨ e.presence = .present
  · rw [if_pos ha]
    by_cases ht : e.age + 1 = threshold
    · rw [if_pos ht, if_pos (by rw [Entry.fallsSilent, hages.mpr ha, decide_eq_true ht]; rfl), ht]
    · rw [if_neg ht, if_neg (by simp [Entry.fallsSilent, ht]), if_pos (hages.mpr ha)]
  · have hn : e.ages = false := by rw [← Bool.not_eq_true, hages]; exact ha
    rw [if_neg ha, if_neg (by simp [Entry.fallsSilent, hn]), if_neg (by simp [hn])]

/-- The notices of evidence (R6, R8). -/
theorem State.evidence_notices (n : Station) (s : State) : (s.evidence n).notices = heardNotices s n s.notices := by
  have hroster : ∀ f : Entry → Entry, (∀ e, (f e).roster = e.roster) →
      ((s.updateEntry n f).entry n).roster = (s.entry n).roster := by
    intro f hf
    rw [State.entry_updateEntry]
    split
    · rw [hf]
    · rfl
  cases hp : (s.entry n).presence <;> simp only [State.evidence, heardNotices, hp]
  · have hr := hroster (fun e => { e with presence := .heard, age := 0 }) (fun _ => rfl)
    cases hm : (s.entry n).roster <;>
      simp [State.raiseHeard, hr, hm, State.raiseStation, State.raise, plainNotice]
  · simp
  · simp
  · simp [State.raiseStation, State.raise, plainNotice]

/-! ### What the live conditions look at (R128 to R131) -/

/-- Two entries that agree in roster flag, presence, group records, zone map and plan. -/
def Entry.sameToTerms (e e' : Entry) : Prop :=
  e'.roster = e.roster ∧ e'.presence = e.presence ∧ e'.zoneMap = e.zoneMap ∧ e'.plan = e.plan ∧
    e'.report.map (fun r => r.content.groups) = e.report.map (fun r => r.content.groups)

/-- An entry with its group records alone. -/
theorem entryDeparted_congr (mask : ZoneMask) {e e' : Entry} (h : e.sameToTerms e') :
    entryDeparted mask e' = entryDeparted mask e := by
  obtain ⟨_, hp, hz, _, hr⟩ := h
  rw [entryDeparted, entryDeparted, hp, hz]
  cases h1 : e.report <;> cases h2 : e'.report <;> simp only [h1, h2, Option.map_none, Option.map_some, reduceCtorEq] at hr
  · rfl
  · simp only [Option.some.inj hr]

/-- Two entries that agree so agree to every term. -/
theorem termEntry_congr (c : TermConfig) {e e' : Entry} (h : e.sameToTerms e') :
    (inScope c.scope e' &&
      (c.departed && entryDeparted c.zones e' || c.unseen && entryUnseen c.zones e' || c.plan && entryPlan e')) =
    (inScope c.scope e &&
      (c.departed && entryDeparted c.zones e || c.unseen && entryUnseen c.zones e || c.plan && entryPlan e)) := by
  rw [entryDeparted_congr _ h]
  obtain ⟨hro, hp, hz, hpl, _⟩ := h
  simp only [inScope, entryUnseen, entryPlan, hro, hp, hz, hpl]

/-- Two tables whose entries agree so make the same terms live (R132). -/
theorem termLive_congr (c : TermConfig) {t t' : PeerTable} (h : ∀ i : Fin 31, (t[i]).sameToTerms t'[i]) :
    termLive c t' = termLive c t := by
  rw [termLive, termLive, Bool.eq_iff_iff, List.any_eq_true, List.any_eq_true]
  constructor
  · rintro ⟨e, he, hc⟩
    obtain ⟨i, hi, rfl⟩ := List.getElem_of_mem he
    rw [Vector.length_toList] at hi
    refine ⟨t[i], by simp, ?_⟩
    rw [Vector.getElem_toList] at hc
    exact (termEntry_congr c (h ⟨i, hi⟩)).symm.trans hc
  · rintro ⟨e, he, hc⟩
    obtain ⟨i, hi, rfl⟩ := List.getElem_of_mem he
    rw [Vector.length_toList] at hi
    refine ⟨t'[i], by simp, ?_⟩
    rw [Vector.getElem_toList] at hc
    exact (termEntry_congr c (h ⟨i, hi⟩)).trans hc

end Sys2Proof.Machine
end

