-- ==== Sys2Proof/Laws/Terms.lean ====
section
/-! SUPPORT. The evaluator's events: flags and drives after each (R132 to R140, R149 to R155). -/

namespace Sys2Proof.Machine

/-- The output stage set to a row of drives: they stand, and the trace ends with them (R149, R156). -/
@[simp] theorem State.moveOutputs_outputs (d : Vector Drive 8) (s : State) : (s.moveOutputs d).outputs = d := rfl

@[simp] theorem State.moveOutputs_outputTrace (d : Vector Drive 8) (s : State) :
    (s.moveOutputs d).outputTrace = s.outputTrace ++ [d] := rfl

/-- A row of drives taken, then another: the two rows one after the other. -/
theorem drivesTaken_trans {rows rows' : List (Vector Drive 8)} {s t u : State} (h : drivesTaken rows s t)
    (h' : drivesTaken rows' t u) : drivesTaken (rows ++ rows') s u := by
  obtain ⟨ht, ho⟩ := h
  obtain ⟨ht', ho'⟩ := h'
  refine ⟨by rw [ht', ht, List.append_assoc], ?_⟩
  rw [ho', ho]
  cases hr : rows'.getLast? <;> simp_all [List.getLastD_eq_getLast?, List.getLast?_append]

/-- The notices of value changes leave flags and drives (R137). -/
theorem State.raiseChanges_terms (old new : Vector TermFlags 16) (s : State) :
    (s.raiseChanges old new).terms = s.terms := by simp

theorem State.raiseChanges_outputs (old new : Vector TermFlags 16) (s : State) :
    (s.raiseChanges old new).outputs = s.outputs := by simp

theorem State.raiseChanges_outputTrace (old new : Vector TermFlags 16) (s : State) :
    (s.raiseChanges old new).outputTrace = s.outputTrace := by simp

/-- Flags and drives after an event of the evaluator in RUNNING. -/
theorem State.settleTerms_terms (c : StationConfig) (new : Vector TermFlags 16) (s : State) :
    (s.settleTerms c new).terms = { s.terms with flags := new } := by
  rw [State.settleTerms, State.raiseChanges_terms]; rfl

theorem State.settleTerms_outputs (c : StationConfig) (new : Vector TermFlags 16) (s : State) :
    (s.settleTerms c new).outputs = runningDrives c new := by
  rw [State.settleTerms, State.raiseChanges_outputs]; rfl

/-- An event of the evaluator in RUNNING sets the drives once (R155, R156). -/
theorem State.settleTerms_drives (c : StationConfig) (new : Vector TermFlags 16) (s : State) :
    drivesTaken [runningDrives c new] s (s.settleTerms c new) :=
  ⟨by simp [State.settleTerms], State.settleTerms_outputs c new s⟩

/-- Outside RUNNING a change of the table reaches no term (R132). -/
theorem State.tableChanged_of_not_running (s : State) (h : s.ctrl.phase ≠ .running) : s.tableChanged = s := by
  rw [State.tableChanged]
  split
  · next h' _ => exact absurd h' h
  · rfl

/-- In RUNNING all sixteen terms are re-evaluated and every output follows (R132, R150). -/
theorem State.tableChanged_running (s : State) (c : StationConfig) (h : s.ctrl.phase = .running)
    (hc : s.loader.config = some c) :
    s.tableChanged =
      s.settleTerms c (Vector.ofFn (fun t : Fin 16 => s.terms.flags[t].reevaluate c.terms[t] s.table)) := by
  simp only [State.tableChanged, h, hc]

theorem State.tableChanged_flag (s : State) (c : StationConfig) (h : s.ctrl.phase = .running)
    (hc : s.loader.config = some c) (i : Fin 16) :
    s.tableChanged.terms.flags[i] = s.terms.flags[i].reevaluate c.terms[i] s.table := by
  rw [State.tableChanged_running s c h hc, State.settleTerms_terms]
  simp

theorem State.tableChanged_outputs (s : State) (c : StationConfig) (h : s.ctrl.phase = .running)
    (hc : s.loader.config = some c) : s.tableChanged.outputs = runningDrives c s.tableChanged.terms.flags := by
  rw [State.tableChanged_running s c h hc, State.settleTerms_outputs, State.settleTerms_terms]

/-- A re-evaluation sets the drives once in RUNNING, and not at all elsewhere (R132, R155). -/
theorem State.tableChanged_drives (s : State) (c : StationConfig) (hc : s.loader.config = some c) :
    drivesTaken (if s.ctrl.phase = .running then [runningDrives c s.tableChanged.terms.flags] else []) s
      s.tableChanged := by
  split
  · next h =>
    rw [State.tableChanged_running s c h hc, State.settleTerms_terms]
    exact State.settleTerms_drives c _ s
  · next h => rw [State.tableChanged_of_not_running s h]; exact ⟨by simp, rfl⟩

/-- The held zones and REL's filter are no part of a re-evaluation. -/
theorem State.tableChanged_held (s : State) :
    s.tableChanged.terms.heldOwn = s.terms.heldOwn ∧ s.tableChanged.terms.heldPeer = s.terms.heldPeer ∧
      s.tableChanged.terms.rel = s.terms.rel := by
  rw [State.tableChanged]
  split
  · rw [State.settleTerms_terms]; exact ⟨rfl, rfl, rfl⟩
  · exact ⟨rfl, rfl, rfl⟩

/-- After a re-evaluation a term is live as the table gives, and latched once live where it latches (R132, R133). -/
theorem TermFlags.reevaluate_spec (c : TermConfig) (table : PeerTable) (f : TermFlags)
    (hl : f.latched = true → c.latch = true) :
    (f.reevaluate c table).live = termLive c table ∧
      ((c.latch && (f.reevaluate c table).live) = true → (f.reevaluate c table).latched = true) ∧
      ((f.reevaluate c table).latched = true → c.latch = true) := by
  refine ⟨rfl, fun h => ?_, fun h => ?_⟩
  · have h' : (c.latch && termLive c table) = true := h
    simp [TermFlags.reevaluate, h']
  · have h' : (f.latched || (c.latch && termLive c table)) = true := h
    rcases Bool.or_eq_true _ _ ▸ h' with h1 | h1
    · exact hl h1
    · exact (Bool.and_eq_true _ _ ▸ h1).1

/-- A release in RUNNING: each term met and not live is cleared, and every output follows (R138, R150). -/
theorem State.applyRelease_running (m : ZoneMask) (n : Option Station) (s : State) (c : StationConfig)
    (h : s.ctrl.phase = .running) (hc : s.loader.config = some c) :
    (s.applyRelease m n).terms =
        { s.terms with flags := Vector.ofFn (fun t : Fin 16 => s.terms.flags[t].released c.terms[t] m) } ∧
      drivesTaken [runningDrives c (s.applyRelease m n).terms.flags] s (s.applyRelease m n) := by
  have hkept : ∀ u : State, (u.raiseReleased c m n s.terms.flags).terms = u.terms ∧
      (u.raiseReleased c m n s.terms.flags).outputs = u.outputs ∧
      (u.raiseReleased c m n s.terms.flags).outputTrace = u.outputTrace := fun u => by simp
  simp only [State.applyRelease, h, hc, drivesTaken]
  rw [(hkept _).1, (hkept _).2.1, (hkept _).2.2]
  exact ⟨rfl, rfl, rfl⟩

/-- Entry into CONFLICT: every term quiet, nothing held, every output at rest (R140, R154). -/
theorem State.clearTerms_spec (s : State) (c : StationConfig) (hc : s.loader.config = some c) :
    s.clearTerms.terms = { s.terms with flags := quietTerms, heldOwn := 0, heldPeer := 0 } ∧
      drivesTaken [restDrives c] s s.clearTerms := by
  simp only [State.clearTerms, hc, drivesTaken, State.raiseChanges_terms, State.raiseChanges_outputs,
    State.raiseChanges_outputTrace]
  exact ⟨rfl, rfl, rfl⟩

/-- Entry into RUNNING: the terms are evaluated with the zones held, and every output follows (R136, R153). -/
theorem State.enterTerms_spec (s : State) (c : StationConfig) (hc : s.loader.config = some c) :
    s.enterTerms.terms =
        { s.terms with
          flags := Vector.ofFn (fun t : Fin 16 =>
            TermFlags.entering c.terms[t] s.table s.terms.heldOwn s.terms.heldPeer)
          heldOwn := 0, heldPeer := 0 } ∧
      drivesTaken [runningDrives c s.enterTerms.terms.flags] s s.enterTerms := by
  simp only [State.enterTerms, hc, drivesTaken, State.raiseChanges_terms, State.raiseChanges_outputs,
    State.raiseChanges_outputTrace]
  exact ⟨rfl, rfl, rfl⟩

end Sys2Proof.Machine
end

