-- ==== Sys2Proof/Tests/Slice0.lean ====
section
/-! SUPPORT. Tests of one step each, with expected values from the worked examples and tables of the spec, and for every
statement with hypotheses a witness that meets them. -/

namespace Sys2Proof.Tests

open Sys2Proof.Machine

-- One declaration at a time: the tests are many, and each would take a thread of its own.
set_option Elab.async false

/-! ### Looking at an answer -/

/-- A part of the next state; none if there is no next state. -/
def after {α : Type} (r : Result) (f : State → α) : Option α :=
  match r with
  | .next t => some (f t)
  | .fault _ => none
  | .refused _ => none

/-- The answer is a next state. -/
def goesOn (r : Result) : Bool := (after r (fun _ => ())).isSome

/-- The next state of an answer. -/
def nextOf (r : Result) : State := (after r id).getD State.reset

theorem eq_nextOf (r : Result) (h : goesOn r = true) : r = .next (nextOf r) := by
  cases r with
  | next t => rfl
  | fault f => cases f
  | refused f => simp [goesOn, after] at h

/-! ### The line of 12_worked_sequences.md -/

/-- Station 9 and the others by their zones: roster 4, 9, 17; 125 kbit/s; ticks of 100 ms; threshold 3; retry limit 2; T2
on zones 2 and 3, DEPARTED and UNSEEN, PEERS, latching; D0 a PERMIT of T2. G1 selects S4 (high) and S5 (low) at depth 2,
as in 02_watch_groups.md. -/
def plan (own : Station) (zones : Vector Zone 4) : StationConfig :=
  { revision := 1, number := own, bitRate := 2, tickCode := 2, sampleCode := 2, silence := 3, retryLimit := 2
    roster := 0x00020210
    groups := Vector.ofFn (fun g : Fin 4 =>
      if g = 1 then { selected := 0b0011, expected := 0b0001, zone := zones[g], depth := 2 }
      else { selected := 0, expected := 0, zone := zones[g], depth := 0 })
    terms := Vector.ofFn (fun t : Fin 16 =>
      if t = 2 then { zones := 0b1100, departed := true, unseen := true, plan := false, scope := .peers, latch := true }
      else { zones := 0, departed := false, unseen := false, plan := false, scope := .all, latch := false })
    outputs := Vector.ofFn (fun d : Fin 8 =>
      if d = 0 then { binding := some 2, mode := .permit, permitHigh := true, rest := .driven }
      else { binding := none, mode := .permit, permitHigh := true, rest := .openRest })
    releaseZones := 0b1100, networkRelease := true }

/-- The image of a plan's line-wide fields, zones and T2 and D0, with its check word. -/
def imageOf (own silence scope3 rosterLow release : Byte) : List Byte :=
  let groups : List Byte := [0, 0, 0, 0] ++ [3, 1, 2, 2] ++ [0, 0, 0, 0] ++ [0, 0, 0, 0]
  let terms : List Byte :=
    List.replicate 8 0 ++ [0x0C, 3, 1, 1] ++ [0, 0, scope3, 0] ++ List.replicate 48 0
  let outputs : List Byte := [2, 0, 1, 0] ++ (List.replicate 7 [0xFF, 0, 1, 1]).flatten
  let body : List Byte :=
    [0x5D, 0x31, 130, 1, own, 2, 2, 2, silence, 2, 0, 2, 2, rosterLow] ++ groups ++ terms ++ outputs ++ [0x0C, release]
  body ++ word16Bytes (crc (bytesBits body))

/-- S4 high and S5 low, the others low; REL inactive. -/
def quiet : SenseSample := { lines := 0x0010, rel := true }

/-- A station of this line right after its valid load. -/
def listening (own : Station) : State := State.reset.validLoad (plan own #v[0, 2, 0, 0]) [] quiet

/-- A report of a peer, every group conforming but G1 as given. -/
def report (g1 : Bool) (tally1 : Nibble) : ReportContent :=
  { phase := .running, health := .normal
    groups := Vector.ofFn (fun g : Fin 4 =>
      if g = 1 then { lines := 0, conforming := g1, tally := tally1 } else { lines := 0, conforming := true, tally := 0 }) }

/-- A roster peer that is PRESENT with report sequence 0 and every group conforming. -/
def present (zones : Vector Zone 4) : Entry :=
  { Entry.blank with
    roster := true, presence := .present, zoneMap := some zones
    plan := some { fingerprint := 0, agrees := true }
    report := some { sequence := 0, content := report true 0, stale := false } }

/-- Station 4 RUNNING with 9 and 17 PRESENT, every term clear, its engine IDLE, its groups settled. -/
def running : State :=
  let s := listening 4
  let settled := { s.watch with groups := Vector.replicate 4 { state := .conforming, tally := 0 } }
  let peers := PeerTable.setEntry (PeerTable.setEntry s.table 9 (present #v[0, 2, 0, 0])) 17 (present #v[3, 3, 3, 3])
  { s with
    ctrl := { s.ctrl with phase := .running, listenCount := 3, tick := 811 }
    watch := settled
    table := PeerTable.setEntry peers 4
      { PeerTable.entry s.table 4 with
        report := some { sequence := 0, content := { phase := .running, health := .normal, groups := settled.records },
                         stale := false } }
    engine := { s.engine with state := .idle }
    outputs := runningDrives (plan 4 #v[0, 2, 0, 0]) quietTerms
    outputTrace := [runningDrives (plan 4 #v[0, 2, 0, 0]) quietTerms]
    notices := [] }

/-- The station in another state of its engine. -/
def inEngine (st : EngineState) (f : Option Frame) (s : State) : State :=
  { s with engine := { s.engine with state := st, frame := f } }

/-- A frame of the station's own, at its start bit. -/
def ownFrame (k : Kind) (urgency : BitVec 3) (payload : List Bool) : Frame :=
  Frame.begun .sender (some { slot := k, urgency := urgency, payload := payload, sequence := none })

/-- A series not yet open. -/
def newSeries : Series := { attempts := 0, sequence := none, targets := none, heard := 0, superseded := false }

/-- Contending with a CHANGE of urgency u. -/
def contending (u : BitVec 3) (s : State) : State :=
  inEngine .contending (some (ownFrame .change u (report false 1).bits))
    { s with slate := { s.slate with change := some newSeries, departureOwed := true } }

/-- Sending a REFRESH whose key is won. -/
def sending (s : State) : State :=
  inEngine .sending
    (some { ownFrame .refresh 1 (report true 0).bits with
      position := 9, bits := keyBits 1 s.ctrl.ownNumber
      served := some { slot := .refresh, urgency := 1, payload := (report true 0).bits, sequence := some 0 } })
    { s with slate := { s.slate with refresh := true } }

/-- In the window of a CHANGE of its own, opened with sequence 4 for stations 9 and 17. -/
def confirming (s : State) : State :=
  inEngine .confirming
    (some { ownFrame .change 7 (report false 1).bits with
      position := 70, confirmMap := some 0
      served := some { slot := .change, urgency := 7, payload := (report false 1).bits, sequence := some 4 } })
    { s with slate := { s.slate with
        change := some { newSeries with sequence := some 4, targets := some 0x00020200 }, departureOwed := true } }

/-- Receiving a frame whose start bit has just begun. -/
def receiving (s : State) : State := inEngine .receiving (some (Frame.begun .receiver none)) s

/-- In the window of a frame received with a verdict. -/
def following (v : Verdict) (s : State) : State :=
  inEngine .confirming (some { Frame.begun .receiver none with position := 70, verdict := some v }) s

/-- Bit periods driven by one station, undisturbed. -/
def driven (bs : List Bool) : List BitPeriod := bs.map drivenPeriod

/-- The bit periods of a frame up to its last check bit. -/
def frame (k : Kind) (urgency : BitVec 3) (n : Station) (q : Nibble) (payload : List Bool) : List BitPeriod :=
  driven (true :: keyBits urgency n ++ drivenBody (keyBits urgency n) k q payload)

/-- The 31 slots of a window in which the stations of a list confirm. -/
def window (ns : List Nat) : List BitPeriod :=
  (List.range 31).map (fun i => if i + 1 ∈ ns then drivenPeriod true else releasedPeriod)

/-- A tick that ages the table and judges the refresh before the listen interval. -/
def agingFirst : TickOrder := { expiryBeforeAging := false, expiryBeforeJudgement := false }

/-- A tick that takes the listen interval first. -/
def listenFirst : TickOrder := { expiryBeforeAging := true, expiryBeforeJudgement := true }

/-- Released bit periods. -/
def released (n : Nat) : List BitPeriod := List.replicate n releasedPeriod

/-- With TSEL asserted and a transaction begun. -/
def selected (s : State) : State :=
  { s with pins := { s.pins with tsel := true }, tap := { Tap.noTransaction with state := .request } }

/-- The station with n notices waiting, each a PEER_SILENT. -/
def withNotices (n : Nat) (s : State) : State :=
  { s with notices := (List.range n).map (fun i =>
      { kind := .peerSilent, stamp := BitVec.ofNat 16 i, station := some 17, term := none, value := none }) }

/-- The station's health. -/
def withHealth (garble : Nat) (h : Health) (sightings : Nat) (s : State) : State :=
  { s with health := { garble := garble, state := h, sightings := sightings } }

/-- T2 with flags. -/
def withT2 (live latched : Bool) (s : State) : State :=
  { s with terms := { s.terms with
      flags := Vector.ofFn (fun i : Fin 16 =>
        if i = 2 then { live := live, latched := latched } else { live := false, latched := false }) } }

/-! ### Formats -/

/-- R201: fed the nine bytes 31 to 39 the register ends at 29B1. -/
theorem test_crc_of_digits :
    crc (bytesBits [0x31, 0x32, 0x33, 0x34, 0x35, 0x36, 0x37, 0x38, 0x39]) = 0x29B1#16 := by decide +kernel

/-- R200: the RESYNC of station 9 drives 010 01001, 100, 0000. -/
theorem test_resync_head :
    keyBits 2 9 ++ bodyBits .resync 0 [] =
      [false, true, false] ++ [false, true, false, false, true] ++ [true, false, false] ++
        [false, false, false, false] := by decide +kernel

/-- R49: the bits before the window, 70, 70, 62, 32 and 40, with the start bit. -/
theorem test_frame_lengths :
    [Kind.change, .refresh, .join, .resync, .release].map (fun k => 1 + k.checkedBits) = [70, 70, 62, 32, 40] := by decide

/-! ### Well-formedness: an ill-formed command for each check -/

theorem test_ill_formed_header : (Instr.headerRead 10 0x5D 0x31 130 1).wellFormed = false := by decide
theorem test_ill_formed_failure_freeing : (Instr.transportFailure 10 (.clockHeldLow 0) []).wellFormed = false := by decide
theorem test_ill_formed_failure_held : (Instr.transportFailure 8 .dataHeldLow []).wellFormed = false := by decide
theorem test_ill_formed_failure_read :
    (Instr.transportFailure 0 (.clockHeldLow 6) (List.replicate 127 0)).wellFormed = false := by decide +kernel
theorem test_ill_formed_image : (Instr.imageComplete [] quiet).wellFormed = false := by decide
theorem test_ill_formed_silent : (Instr.peerSilent 0 agingFirst).wellFormed = false := by decide
theorem test_ill_formed_discard : (Instr.discardEnd (released 34)).wellFormed = false := by decide
theorem test_ill_formed_contention : (Instr.contentionStart [] (some 1) 0).wellFormed = false := by decide
theorem test_ill_formed_contention_able : (Instr.contentionStart [] none 1).wellFormed = false := by decide
theorem test_ill_formed_start_able : (Instr.frameStart [] 0 1).wellFormed = false := by decide
theorem test_ill_formed_lost : (Instr.keyLost (released 10)).wellFormed = false := by decide
theorem test_ill_formed_won : (Instr.keyWon (released 8)).wellFormed = false := by decide
theorem test_ill_formed_aborted : (Instr.sendAborted []).wellFormed = false := by decide
theorem test_ill_formed_kind : (Instr.invalidKind (released 13)).wellFormed = false := by decide
theorem test_ill_formed_framing : (Instr.framingFault []).wellFormed = false := by decide
theorem test_ill_formed_stuck : (Instr.stuckDominant (released 71)).wellFormed = false := by decide
theorem test_ill_formed_frame : (Instr.frameReceived (released 71)).wellFormed = false := by decide
theorem test_ill_formed_window : (Instr.windowEnd (released 30)).wellFormed = false := by decide
theorem test_ill_formed_unknown : (Instr.unknownRequest 9).wellFormed = false := by decide
theorem test_ill_formed_last_check : (Instr.lastCheckBitSent (released 24)).wellFormed = false := by decide
theorem test_well_formed : (Instr.frameReceived (frame .resync 2 9 0 [])).wellFormed = true := by decide +kernel

/-! ### Resets and loading -/

/-- R163: a pin asserted while the power-on reset is held, and released first, leaves cause POWER. -/
theorem test_resetEnd_power_last :
    after (exec (.resetEnd .power) { (State.reset.resetBy .pin { powerHeld := true, pinHeld := false, tsel := true }) with
      pending := [] }) (fun t => (t.ctrl.cause, t.tap.state)) = some (.power, .waitRelease) := by decide +kernel

theorem test_powerOnReset : after (exec .powerOnReset running) (fun t => (t.ctrl.phase, t.outputs[(0 : Fin 8)], t.inReset)) =
    some (.loading, .openDrive, true) := by decide +kernel

theorem test_resetPin : after (exec .resetPin running) (fun t => (t.ctrl.cause, t.notices)) = some (.pin, []) := by
  decide +kernel

/-- R166: the signature is judged before the length. -/
theorem test_header_signature : after (exec (.headerRead 0 0x5D 0x30 0 1) State.reset) (fun t => (t.ctrl.phase, t.ctrl.fault)) =
    some (.halted, .badSignature) := by decide +kernel

theorem test_header_good : after (exec (.headerRead 9 0x5D 0x31 130 1) State.reset) (fun t => t.loader.image) =
    some [0x5D, 0x31, 130, 1] := by decide +kernel

/-- 09, A Load with a Transport Failure: PAUSED, then attempt 2; all three failed give NO_MEMORY with one notice, stamp 0. -/
theorem test_transport_pauses :
    after (exec (.transportFailure 0 (.noAckBusAddress false) []) State.reset) (fun t => (t.loader.progress, t.loader.attempt)) =
      some (.paused, 1) := by decide +kernel

/-- The reset state in a later attempt. -/
def inAttempt (n : Nat) (p : LoadProgress) : State :=
  { State.reset with loader := { State.reset.loader with attempt := n, progress := p } }

theorem test_transport_third :
    after (exec (.transportFailure 0 (.noAckBusAddress false) []) (inAttempt 3 .reading)) (fun t => (t.ctrl.fault, t.notices)) =
      some (.noMemory, [{ kind := .phaseChanged, stamp := 0, station := none, term := none,
                          value := some (.fault .noMemory) }]) := by decide +kernel

theorem test_pauseEnd : after (exec .pauseEnd (inAttempt 1 .paused)) (fun t => (t.loader.progress, t.loader.attempt)) =
    some (.reading, 2) := by decide +kernel

/-- The reset state with the header of an image read. -/
def headed : State := { State.reset with loader := { State.reset.loader with image := [0x5D, 0x31, 130, 1] } }

/-- R202: the addressing as far as the low address byte, and three bytes read before the clock is held. -/
theorem test_port_in_addressing :
    after (exec (.transportFailure 2 (.noAckMemoryAddress true) []) State.reset) (fun t => t.loader.port) =
      some [.freeClocks 2, .start, .send 0xA6, .send 0, .send 0, .stop] := by decide +kernel

theorem test_port_in_header :
    after (exec (.transportFailure 0 (.clockHeldLow 6) [0x5D, 0x31]) State.reset) (fun t => t.loader.port) =
      some [.start, .send 0xA6, .send 0, .send 0, .repeatedStart, .send 0xA7, .take 0x5D true, .take 0x31 true, .released] :=
  by decide +kernel

/-- R202: byte 129 is not acknowledged, though the clock is held before the stop condition. -/
theorem test_port_at_last_byte :
    after (exec (.transportFailure 0 (.clockHeldLow 6) (List.replicate 126 7)) headed) (fun t =>
      (t.loader.port.length, t.loader.port.drop 124)) =
      some (127, [.take 7 true, .take 7 false, .released]) := by decide +kernel

/-- A fault of the addressing cannot fall after the header. -/
theorem test_fault_out_of_place :
    after (exec (.transportFailure 0 (.noAckBusAddress true) []) headed) (fun t => t.loader.progress) = some .reading := by
  decide +kernel

/-- R202: a silence threshold byte of 1 halts with index 7, term 3's scope 3 with index 40. -/
theorem test_bad_silence : after (exec (.imageComplete ((imageOf 4 1 3 0x10 1).drop 4) quiet) headed) (fun t => t.ctrl.fault) =
    some (.badValue 7) := by decide +kernel

theorem test_bad_scope : after (exec (.imageComplete ((imageOf 4 3 3 0x10 1).drop 4) quiet) headed) (fun t => t.ctrl.fault) =
    some (.badValue 40) := by decide +kernel

/-- R202's layout: the image of the plan is the plan. -/
theorem test_parse_image : parseImage (imageOf 4 3 0 0x10 1) = plan 4 #v[0, 2, 0, 0] := by decide +kernel

/-! ### Watch unit, ticks -/

/-- 02, Group G1 from Start-Up to Restore, before sample 8: S5 has read high twice. -/
def beforeDeparture : State :=
  let line := fun (last : Bool) (count : Nat) (filtered : Bool) =>
    ({ last := some last, count := count, filtered := some filtered } : Filter)
  { running with watch := { running.watch with
      lines := Vector.ofFn (fun k : Fin 16 =>
        if k = 4 then line true 3 true else if k = 5 then line true 2 false else line false 1 false) } }

/-- Sample 8: G1 departs, its tally goes to 1, and a departure CHANGE is requested. -/
theorem test_departure :
    after (exec (.sampleEvent { quiet with lines := 0x0030 }) beforeDeparture) (fun t =>
      (t.watch.groups[(1 : Fin 4)], (t.watch.record 1).lines, t.slate.change, t.slate.departureOwed)) =
      some ({ state := .departed, tally := 1 }, 0b0011, some newSeries, true) := by decide +kernel

/-- Sample 7: only the agreement count moves. -/
theorem test_bounce :
    after (exec (.sampleEvent quiet) beforeDeparture) (fun t =>
      (t.watch.groups[(1 : Fin 4)].state, t.watch.lines[(5 : Fin 16)].count, t.slate.change)) =
      some (.conforming, 1, none) := by decide +kernel

/-- Entry 17 at an age. -/
def aged17 (n : Nat) (s : State) : State := s.updateEntry 17 (fun e => { e with age := n })

/-- 12, Sequence 3, tick k+3: entry 17 goes SILENT, T2 asserts and latches, D0 goes LOW; the stamp is the tick's. -/
theorem test_tick_silent :
    after (exec (.refreshTick agingFirst) (aged17 2 running))
      (fun t => ((t.entry 17).presence, t.terms.flags[(2 : Fin 16)], t.notices.map (fun n => (n.kind, n.stamp)))) =
      some (.silent, { live := true, latched := true }, [(.peerSilent, 812), (.termAsserted, 812)]) := by
  decide +kernel

/-- Tick k+2: PRESENT at age 2, nothing raised; the mark was no, so a REFRESH is queued (R86). -/
theorem test_tick_ages :
    after (exec (.refreshTick agingFirst) (aged17 1 running))
      (fun t => ((t.entry 17).presence, (t.entry 17).age, t.slate.refresh, t.notices)) =
      some (.present, 2, true, []) := by decide +kernel

/-- R10: the same tick as a row of its own: every entry ages in it, and its notices bear the advanced counter. -/
theorem test_peerSilent : after (exec (.peerSilent 17 agingFirst) (aged17 2 running)) (fun t =>
    ((t.entry 17).report.map (fun r => r.stale), (t.entry 9).age, t.ctrl.tick, t.notices.map (fun n => (n.kind, n.stamp)))) =
    some (some true, 1, 812, [(.peerSilent, 812), (.termAsserted, 812)]) := by decide +kernel

/-- An entry that is not about to reach the threshold: no such event. -/
theorem test_peerSilent_not_due : after (exec (.peerSilent 17 agingFirst) (aged17 1 running)) (fun t => t.ctrl.tick) =
    some 811 := by decide +kernel

/-- R175: JOINING, with the JOIN requested. -/
theorem test_listen_expiry :
    after (exec (.listenExpiry listenFirst) { listening 9 with ctrl := { (listening 9).ctrl with listenCount := 2 } })
      (fun t => (t.ctrl.phase, t.ctrl.tick, t.slate.join, t.notices.map (fun n => n.stamp))) =
      some (.joining, 1, true, [0, 1]) := by decide +kernel

/-- R142, R144: REL has read active three times after a settled inactive; the fourth is a press, which clears T2 and asks
for a RELEASE. -/
theorem test_rel_press :
    let s := withT2 false true running
    after (exec (.sampleEvent { quiet with rel := false })
      { s with terms := { s.terms with rel := { last := some true, count := 3, filtered := some false } } })
      (fun t => (t.terms.flags[(2 : Fin 16)].latched, t.slate.release, t.notices.map (fun n => n.kind))) =
      some (false, some { zones := 0b1100, series := newSeries }, [.termCleared]) := by decide +kernel

/-! ### Sending -/

/-- A bit period in which this station drives 0 and the line reads 1. -/
def lostBit : BitPeriod := drivenPeriod true

/-- R55: a CHANGE with departure owed goes out at urgency 7. -/
theorem test_contention_start :
    after (exec (.contentionStart (released 11) none 0)
      { running with slate := { running.slate with change := some newSeries, departureOwed := true, refresh := true } })
      (fun t => (t.engine.state, (t.engine.frame.bind (fun f => f.served)).map (fun v => (v.slot, v.urgency)), t.line.len)) =
      some (.contending, some (.change, 7), true) := by decide +kernel

/-- R53: ten released bit periods are not enough. -/
theorem test_contention_too_early :
    after (exec (.contentionStart (released 10) none 0) { running with slate := { running.slate with refresh := true } })
      (fun t => t.engine.state) = some .idle := by decide +kernel

/-- R53: at the boundary after the first one the station has started already; one able to send only then starts there. -/
theorem test_contention_too_late :
    after (exec (.contentionStart (released 12) none 0) { running with slate := { running.slate with refresh := true } })
      (fun t => t.engine.state) = some .idle := by decide +kernel

theorem test_contention_when_able :
    after (exec (.contentionStart (released 12) none 12) { running with slate := { running.slate with refresh := true } })
      (fun t => (t.engine.state, t.line.drove)) = some (.contending, [{ len := true, ltx := true }]) := by decide +kernel

/-- 03, Round 1: station 4 (101 00100) meets 101 01001 and loses at key bit 5. -/
theorem test_key_lost :
    after (exec (.keyLost (driven (true :: natBits 5 0b10101))) (contending 5 running)) (fun t =>
      (t.engine.state, t.engine.counters.lost, t.engine.frame.map (fun f => f.bits))) =
      some (.receiving, 1, some (natBits 5 0b10101)) := by decide +kernel

/-- 04's example: the series opens with sequence 4 after 3, its targets the other two roster members. -/
theorem test_key_won :
    after (exec (.keyWon (driven (true :: natBits 8 0b11100100)))
      (let s := contending 7 running
       { s with slate := { s.slate with reportSequence := 3 } }))
      (fun t => (t.slate.change.bind (fun x => x.targets), t.slate.reportSequence,
        (t.entry 4).report.map (fun r => r.sequence))) =
      some (some 0x00020200, 4, some 4) := by decide +kernel

/-- 06, second episode: 187 and an abort make 195, WITHDRAWN, and the slate is emptied. -/
theorem test_abort_withdraws :
    after (exec (.sendAborted [drivenPeriod false]) (withHealth 187 .restrained 0 (contending 7 running))) (fun t =>
      (t.health.garble, t.slate.nonEmpty, t.notices.map (fun n => n.value))) =
      some (195, false, [some (.health .withdrawn)]) := by decide +kernel

/-- 05's example: a trail found dominant in the body aborts; 04's: the REFRESH slot is then empty. -/
theorem test_abort_trail :
    after (exec (.sendAborted [{ drivenPeriod false with trail := true }]) (sending running)) (fun t =>
      (t.health.garble, t.slate.refresh, t.engine.counters.aborted, t.line.len)) = some (8, false, 1, false) := by
  decide +kernel

/-- R48: the record stands at the bit found wrong, and keeps the bits driven up to it. -/
theorem test_abort_record :
    after (exec (.sendAborted (driven [false] ++ [{ drivenPeriod true with trail := true }])) (sending running)) (fun t =>
      (t.engine.state, t.engine.frame.map (fun f => (f.position, f.bits)), t.line.drove.length)) =
      some (.discarding, some (11, keyBits 1 4 ++ [false, true]), 8) := by decide +kernel

/-- 04's example, had the retry found the superseded mark: the abort's attempt is counted and the series begun again. -/
theorem test_abort_superseded :
    let s := contending 7 running
    after (exec (.sendAborted [drivenPeriod false])
      { s with slate := { s.slate with change := some { newSeries with attempts := 2, superseded := true } } })
      (fun t => t.slate.change) = some (some newSeries) := by decide +kernel

/-- R83: the last attempt aborted with 17 unreached counts its miss and raises DELIVERY_SHORT. -/
theorem test_abort_short :
    let s := contending 7 running
    after (exec (.sendAborted [drivenPeriod false])
      { s with slate := { s.slate with
          change := some { newSeries with attempts := 2, sequence := some 4, targets := some 0x00020200, heard := 0x200 } } })
      (fun t => (t.slate.change, (t.entry 17).deliveriesMissed, (t.entry 9).deliveriesMissed,
        t.notices.map (fun n => n.value))) = some (none, 1, 0, [some (.map 0x00020000)]) := by decide +kernel

/-- R62: the body and check read back as sent enter the window. -/
theorem test_last_check_bit :
    after (exec (.lastCheckBitSent ((frame .refresh 1 4 0 (report true 0).bits).drop 9)) (sending running)) (fun t =>
      (t.engine.state, t.engine.frame.map (fun f => f.position))) = some (.confirming, some 70) := by decide +kernel

/-! ### Receiving -/

theorem test_frame_start : after (exec (.frameStart (released 3) 5 0) running) (fun t =>
    (t.engine.state, t.engine.frame.map (fun f => f.role))) = some (.receiving, some .receiver) := by decide +kernel

/-- R53, R102: with a slot waiting and the requirement reached, an edge 7 units early begins the own frame and not
another's; one 8 units early begins another's. -/
theorem test_frame_start_own :
    after (exec (.frameStart (released 11) (-7) 0) { running with slate := { running.slate with refresh := true } })
      (fun t => t.engine.state) = some .idle := by decide +kernel

theorem test_frame_start_half_quarter :
    after (exec (.frameStart (released 11) (-8) 0) { running with slate := { running.slate with refresh := true } })
      (fun t => t.engine.state) = some .receiving := by decide +kernel

/-- R58: kind code 0 is abandoned at the last kind bit. -/
theorem test_invalid_kind :
    after (exec (.invalidKind (driven (true :: natBits 11 0b00101001000))) (receiving running)) (fun t =>
      (t.engine.state, t.engine.counters.abandoned, t.health.garble)) = some (.discarding, 1, 1) := by decide +kernel

/-- R101: a start bit that reads 0 is abandoned as a framing fault is. -/
theorem test_start_bit_zero :
    after (exec (.framingFault [drivenPeriod false]) (receiving running)) (fun t => t.engine.state) = some .discarding := by
  decide +kernel

/-- R107: the eighth dominant trail, not the seventh. -/
theorem test_stuck_dominant :
    after (exec (.stuckDominant (List.replicate 8 { drivenPeriod true with trail := true })) (receiving running)) (fun t =>
      (t.engine.state, t.line.trailCount)) = some (.discarding, 8) := by decide +kernel

theorem test_not_yet_stuck :
    after (exec (.stuckDominant (List.replicate 7 { drivenPeriod true with trail := true })) (receiving running)) (fun t =>
      t.engine.state) = some .receiving := by decide +kernel

/-- 12, frame 11 at station 4: sequence 1 follows 0, T2 asserts once and D0 goes LOW. -/
theorem test_change_accepted :
    after (exec (.frameReceived (frame .change 7 9 1 (report false 1).bits)) (receiving running)) (fun t =>
      ((t.entry 9).report.map (fun r => r.sequence), t.outputs[(0 : Fin 8)],
        t.notices.map (fun n => (n.kind, n.term)))) =
      some (some 1, .low, [(.termAsserted, some 2)]) := by decide +kernel

/-- R17, R134: G1's tally moved on while it reads conforming: T2 latches without going live. -/
theorem test_missed_departure :
    after (exec (.frameReceived (frame .change 5 9 2 (report true 1).bits)) (receiving running)) (fun t =>
      (t.terms.flags[(2 : Fin 16)], t.notices.map (fun n => n.kind))) =
      some ({ live := false, latched := true }, [.sequenceGap, .termAsserted]) := by decide +kernel

/-- R135: in LISTENING the zone of that group is held. -/
theorem test_held_departure :
    after (exec (.frameReceived (frame .change 5 9 1 (report true 1).bits))
      (receiving { listening 4 with table := running.table })) (fun t => (t.terms.heldPeer, t.terms.heldOwn)) =
      some (0b100, 0) := by decide +kernel

/-- R23: a duplicate RELEASE leaves the latch. -/
theorem test_duplicate_release :
    after (exec (.frameReceived (frame .release 4 9 3 (releasePayload 4)))
      (receiving (withT2 false true (running.updateEntry 9 (fun e => { e with lastRelease := some 3 })))))
      (fun t => t.terms.flags[(2 : Fin 16)].latched) = some true := by decide +kernel

/-- 12, Sequence 4: a REFRESH bearing the own number. -/
theorem test_own_number :
    after (exec (.frameReceived (frame .refresh 1 9 0 (report true 0).bits)) (receiving (listening 9))) (fun t =>
      (t.ctrl.phase, t.notices.map (fun n => n.kind), t.engine.counters.accepted)) =
      some (.conflict, [.phaseChanged, .duplicateNumber, .phaseChanged], 0) := by decide +kernel

/-- 04's example: COMPLETED with heard map 17 alone, one attempt counted, the slot stays. -/
theorem test_window_partial :
    after (exec (.windowEnd (window [17])) (confirming running)) (fun t =>
      (t.slate.change.map (fun x => (x.attempts, x.heard)), t.slate.stateSent, t.engine.gapRequirement)) =
      some (some (1, 0x00020000), true, 16) := by decide +kernel

/-- 06, A sighting and a second one: count 0 stays 0, and the second sighting is a conflict. -/
theorem test_second_sighting :
    after (exec (.windowEnd (window [4, 9, 17])) (withHealth 0 .normal 1 (confirming running))) (fun t =>
      (t.health.garble, t.health.sightings, t.ctrl.phase, t.slate.change, t.outputs[(0 : Fin 8)])) =
      some (0, 2, .conflict, none, .low) := by decide +kernel

/-- R66, R96: the window of an accepted frame, with the own slot, slot 4, driven: quarters 12 to 15 of 124. -/
theorem test_own_slot_driven :
    let s := following .accepted running
    after (exec (.windowEnd (window [4, 17]))
      { s with engine := { s.engine with frame := s.engine.frame.map (fun f => { f with confirms := true }) } })
      (fun t => (t.line.drove.length, (t.line.drove.drop 12).take 4, (t.line.drove.filter (fun q => q.len)).length,
        t.line.len)) =
      some (124, [⟨true, true⟩, ⟨true, true⟩, ⟨true, true⟩, ⟨true, false⟩], 4, false) := by decide +kernel

/-- R117: the last accepted frame of the way back asks for a RESYNC and a REFRESH. -/
theorem test_return_to_normal :
    after (exec (.windowEnd (window [])) (withHealth 1 .withdrawn 0 (following .accepted running)))
      (fun t => (t.health.state, t.slate.resync, t.slate.refresh, t.slate.join)) =
      some (.normal, true, true, false) := by decide +kernel

/-- R103: after a load the 35 released bit periods are the grid's first 35. -/
theorem test_first_gap :
    after (exec (.discardEnd (released 35)) (listening 4)) (fun t => t.line.grid.map (fun g => (g.period, g.start))) =
      some (some (34, 34 * 64)) := by decide +kernel

/-- Log 36: after a frame the list's first bit period is the one after that in which the frame was left. -/
theorem test_gap_after_frame :
    let s := inEngine .discarding (some (ownFrame .change 7 [])) (listening 4)
    after (exec (.discardEnd (released 35)) s) (fun t => t.line.grid.map (fun g => (g.period, g.start))) =
      some (some (35, 35 * 64)) := by decide +kernel

/-- R101: a lead edge 9 units late restarts the grid there, and the next bit period is counted from it. -/
theorem test_grid_restarts_at_lead :
    after (exec (.frameStart (released 3) 9 0) running) (fun t => t.line.grid.map (fun g => (g.period, g.start))) =
      some (some (4, 4 * 64 + 9)) := by decide +kernel

/-- R52, R51: 35 released bit periods, then IDLE at 35; after an own frame the requirement is 16. -/
theorem test_discard_end :
    after (exec (.discardEnd (released 35)) (inEngine .discarding (some (ownFrame .change 7 [])) running)) (fun t =>
      (t.engine.state, t.engine.gapCount, t.engine.gapRequirement)) = some (.idle, 35, 16) := by decide +kernel

/-! ### The tap port -/

theorem test_tsel_assert : after (exec .tselAssert running) (fun t => t.tap.state) = some .request := by decide +kernel

/-- A TAKE judged, with its response of twelve bytes waiting. -/
def taking : State := nextOf (exec .take (selected (withNotices 15 running)))

/-- R203: 96 rising edges shift the response out; 95 do not. -/
theorem test_take_removes : after (exec (.tselRelease (List.replicate 96 true)) taking) (fun t =>
    (t.notices.length, t.notices.head?.map (fun n => n.stamp))) = some (14, some 1) := by decide +kernel

theorem test_take_cut_short : after (exec (.tselRelease (List.replicate 95 true)) taking) (fun t => t.notices.length) =
    some 15 := by decide +kernel

/-- R191: STATUS in LOADING after a power-on reset. -/
theorem test_status_loading : after (exec .status (selected State.reset)) (fun t => t.tap.response) =
    some (some [0, 0, 0, 0, 0, 0, 0, 1, 0, 0, 0, 0, 0, 0]) := by decide +kernel

/-- R192: an entry never heard, with its roster flag as configured. -/
theorem test_entry_unheard : after (exec (.entry (some 5)) (selected running)) (fun t => t.tap.response) =
    some (some ([0, 5] ++ List.replicate 23 0)) := by decide +kernel

theorem test_entry_bad_argument : after (exec (.entry (some 32)) (selected running)) (fun t => t.tap.response) =
    some (some [4]) := by decide +kernel

/-- R193: outside RUNNING every term reads no; D0 rests LOW and the others OPEN. -/
theorem test_terms_listening : after (exec .terms (selected (listening 4))) (fun t => t.tap.response) =
    some (some [0, 0, 0, 0, 0, 0, 0, 0b10101010, 0b10101000]) := by decide +kernel

theorem test_counters : after (exec .counters (selected
    { running with engine := { running.engine with counters := { StationCounters.zero with lost := 0x0102 } } }))
    (fun t => t.tap.response) = some (some [0, 0, 0, 0, 0, 1, 2, 0, 0, 0, 0, 0, 0]) := by decide +kernel

/-- R204: the PHASE_CHANGED of a valid load, value type 2, phase LISTENING. -/
theorem test_peek : after (exec .peek (selected (listening 4))) (fun t => t.tap.response) =
    some (some [0, 13, 0, 0, 0, 0, 0, 2, 1, 0, 0, 0]) := by decide +kernel

theorem test_take_empty : after (exec .take (selected running)) (fun t => (t.tap.response, t.tap.takeArmed)) =
    some (some [3], false) := by decide +kernel

/-- R143: an empty mask is BAD_ARGUMENT; another outside RUNNING is NOT_RUNNING. -/
theorem test_release_empty : after (exec (.release (some 0)) (selected (listening 4))) (fun t => t.tap.response) =
    some (some [4]) := by decide +kernel

theorem test_release_not_running : after (exec (.release (some 4)) (selected (listening 4))) (fun t => t.tap.response) =
    some (some [2]) := by decide +kernel

/-- R197: taken no while WITHDRAWN. -/
theorem test_resync_withdrawn : after (exec .resync (selected (withHealth 200 .withdrawn 0 running))) (fun t =>
    (t.tap.response, t.slate.resync)) = some (some [0, 0], false) := by decide +kernel

theorem test_restart_arms : after (exec .restart (selected running)) (fun t => (t.tap.restartArmed, t.ctrl.phase)) =
    some (true, .running) := by decide +kernel

theorem test_unknown : after (exec (.unknownRequest 0x0A) (selected running)) (fun t => t.tap.response) = some (some [5]) := by
  decide +kernel

/-! ### Notices -/

/-- R182: the sixteenth push is replaced by OVERFLOW, the next one discarded. -/
theorem test_overflow :
    let q := (withNotices 15 running).notices
    let n : Notice := { kind := .peerSilent, stamp := 812, station := some 17, term := none, value := none }
    (pushNotice q n).getLast?.map (fun m => (m.kind, m.stamp, m.station)) = some (.overflow, 812, none) ∧
      pushNotice (pushNotice q n) n = pushNotice q n := by decide +kernel

/-! ### Witnesses: states and operands that meet the hypotheses of each statement, one for each of its clauses -/

/-- A next state with a property. -/
theorem reaches (r : Result) (p : State → Bool) (h : after r p = some true) : ∃ t, r = .next t ∧ p t = true := by
  cases r with
  | next t => exact ⟨t, rfl, by simpa [after] using h⟩
  | fault f => cases f
  | refused f => simp [after] at h

/-- The state with one command waiting. -/
def queued (c : Instr) (s : State) : State := { s with pending := [c] }

/-- Fields of an image checked in a row are in range one by one. -/
theorem fields_below (img : List Byte) (n : Nat)
    (h : (List.range n).all (fun j => decide (j < 2) || fieldOk img j) = true) :
    ∀ j, 2 ≤ j → j < n → fieldOk img j = true := by
  intro j h2 hn
  have hj := List.all_eq_true.mp h j (List.mem_range.mpr hn)
  simpa [Nat.not_lt.mpr h2] using hj

/-- The frame that `frame` drives, as received. -/
def taken (k : Kind) (urgency : BitVec 3) (n : Station) (q : Nibble) (payload : List Bool) : ReceivedFrame :=
  let check := crc (keyBits urgency n ++ bodyBits k q payload)
  { urgency := urgency, number := n, kind := k, sequence := q, payload := payload, checkRead := check,
    checkComputed := check }

theorem taken_sound (k : Kind) (urgency : BitVec 3) (n : Station) (q : Nibble) (payload : List Bool) (hn : n ≠ 0)
    (hu : k.urgencyFits urgency = true) (hj : k = .join → joinRevision payload = 1) :
    ¬ (taken k urgency n q payload).malformed := by
  rintro (h | h | h | ⟨h, h'⟩)
  · exact h rfl
  · exact hn h
  · exact absurd hu (by simpa [taken] using h)
  · exact h' (hj h)

/-! #### The queue and the resets -/

theorem met_StepRunsFrontCommand : (queued .take running).pending = .take :: [] := by decide
theorem met_StepIdlesOnEmptyQueue : running.pending = [] := by decide

theorem met_ArmedRestart :
    let s := nextOf (exec .restart (selected running))
    s.pins.tsel = true ∧ s.tap.state = .response ∧ s.tap.restartArmed = true := by decide +kernel

/-- Both held: one ends, the reset goes on; one held: it ends; not held: nothing. -/
theorem met_ResetEnd :
    let both := State.reset.resetBy .pin { powerHeld := true, pinHeld := true, tsel := false }
    let one := State.reset.resetBy .pin { powerHeld := false, pinHeld := true, tsel := true }
    both.pins.holds .power = true ∧ (both.pins.unhold .power).pinHeld = true ∧ one.pins.holds .pin = true ∧
      one.pins.holds .power = false := by decide +kernel

/-! #### Loading -/

theorem met_GoodHeader : State.reset.reading = true ∧ State.reset.loader.image = [] ∧ 9 ≤ 9 := by decide +kernel

theorem met_BadHeader : State.reset.reading = true ∧ State.reset.loader.image = [] ∧ 0 ≤ 9 ∧
    ¬((0x5D#8 : Byte) = 0x5D ∧ (0x30#8 : Byte) = 0x31) ∧ (129#8 : Byte) ≠ 130 := by decide +kernel

/-- In the addressing at its two ends, among the bytes of the header, after it, and at the stop condition. -/
theorem met_TransportFailure :
    (inAttempt 2 .reading).reading = true ∧ (inAttempt 2 .reading).loader.image.isEmpty = true ∧
      (inAttempt 2 .reading).loader.attempt < 3 ∧ failureOk 9 .dataHeldLow = true ∧
      faultPlaceOk false [] .dataHeldLow = true ∧ faultPlaceOk false [] (.noAckBusAddress true) = true ∧
      faultPlaceOk false [1, 2, 3] (.clockHeldLow 6) = true ∧ headed.reading = true ∧
      headed.loader.image.isEmpty = false ∧ faultPlaceOk true [] (.clockHeldLow 6) = true ∧
      faultPlaceOk true (List.replicate 126 0) (.dataLowInCondition .stop) = true := by decide +kernel

theorem met_TransportFailure_last :
    (inAttempt 3 .reading).reading = true ∧ failureOk 0 (.clockHeldLow 0) = true ∧
      faultPlaceOk (!(inAttempt 3 .reading).loader.image.isEmpty) [] (.clockHeldLow 0) = true ∧
      3 ≤ (inAttempt 3 .reading).loader.attempt := by decide +kernel

theorem met_TransportFailure_pause :
    (inAttempt 2 .paused).ctrl.phase = .loading ∧ (inAttempt 2 .paused).inReset = false ∧
      (inAttempt 2 .paused).loader.progress = .paused := by decide +kernel

/-- The image of `headed` completed by these bytes. -/
def completedBy (rest : List Byte) : List Byte := headed.loader.image ++ rest

/-- Bytes 4 to 129 of an image. -/
def restOf (own silence scope3 rosterLow release : Byte) : List Byte :=
  (imageOf own silence scope3 rosterLow release).drop 4

theorem met_FirstFailingCheck_word :
    headed.reading = true ∧ headed.loader.image.length = 4 ∧ (List.replicate 126 (0 : Byte)).length = 126 ∧
      checkWordOk (completedBy (List.replicate 126 0)) = false := by decide +kernel

theorem met_FirstFailingCheck_field :
    (restOf 4 1 0 0x10 1).length = 126 ∧ checkWordOk (completedBy (restOf 4 1 0 0x10 1)) = true ∧
      fieldOk (completedBy (restOf 4 1 0 0x10 1)) 7 = false ∧
      ∀ j, 2 ≤ j → j < 7 → fieldOk (completedBy (restOf 4 1 0 0x10 1)) j = true :=
  ⟨by decide +kernel, by decide +kernel, by decide +kernel, fields_below _ _ (by decide +kernel)⟩

/-- The last field index, 123. -/
theorem met_FirstFailingCheck_last_field :
    (restOf 4 3 0 0x10 2).length = 126 ∧ checkWordOk (completedBy (restOf 4 3 0 0x10 2)) = true ∧
      fieldOk (completedBy (restOf 4 3 0 0x10 2)) 123 = false ∧
      ∀ j, 2 ≤ j → j < 123 → fieldOk (completedBy (restOf 4 3 0 0x10 2)) j = true :=
  ⟨by decide +kernel, by decide +kernel, by decide +kernel, fields_below _ _ (by decide +kernel)⟩

theorem met_FirstFailingCheck_roster :
    (restOf 4 3 0 0 1).length = 126 ∧ checkWordOk (completedBy (restOf 4 3 0 0 1)) = true ∧
      (∀ i, 2 ≤ i → i ≤ 123 → fieldOk (completedBy (restOf 4 3 0 0 1)) i = true) ∧
      (imageRoster (completedBy (restOf 4 3 0 0 1))).getLsbD (imageByte (completedBy (restOf 4 3 0 0 1)) 4).toNat = false :=
  ⟨by decide +kernel, by decide +kernel,
    fun i h2 h => fields_below _ 124 (by decide +kernel) i h2 (Nat.lt_succ_of_le h), by decide +kernel⟩

theorem met_ValidLoad :
    headed.reading = true ∧ headed.loader.image.length = 4 ∧ (restOf 4 3 0 0x10 1).length = 126 ∧
      checkWordOk (completedBy (restOf 4 3 0 0x10 1)) = true ∧
      (∀ i, 2 ≤ i → i ≤ 123 → fieldOk (completedBy (restOf 4 3 0 0x10 1)) i = true) ∧
      (imageRoster (completedBy (restOf 4 3 0 0x10 1))).getLsbD
        (imageByte (completedBy (restOf 4 3 0 0x10 1)) 4).toNat = true :=
  ⟨by decide +kernel, by decide +kernel, by decide +kernel, by decide +kernel,
    fun i h2 h => fields_below _ 124 (by decide +kernel) i h2 (Nat.lt_succ_of_le h), by decide +kernel⟩

/-! #### Samples and releases -/

theorem met_SampleEvent :
    running.watch.sampling = true ∧ running.loader.config = some (plan 4 #v[0, 2, 0, 0]) ∧
      State.reset.watch.sampling = false := by decide +kernel

/-- REL about to be pressed, with the slate's RELEASE slot as given. -/
def pressing (r : Option ReleaseSlot) (s : State) : State :=
  { s with
    terms := { s.terms with rel := { last := some true, count := 3, filtered := some false } }
    slate := { s.slate with release := r } }

/-- A departure and a press in RUNNING, with the slot EMPTY and held; a departure in LISTENING. -/
theorem met_SampleEvent_terms :
    (pressing none running).watch.sampling = true ∧ (pressing none running).ctrl.phase = .running ∧
    (∃ t, exec (.sampleEvent { quiet with rel := false }) (pressing none running) = .next t ∧
      decide (t.terms.rel.filtered = some true) = true) ∧
    (∃ t, exec (.sampleEvent { lines := 0x0030, rel := false })
        (pressing (some { zones := 1, series := newSeries }) beforeDeparture) = .next t ∧
      (departedAt beforeDeparture.watch t.watch 1 && decide (t.slate.release.map (fun r => r.zones) = some 13)) = true) ∧
    (∃ t, exec (.sampleEvent { quiet with lines := 0x0030 })
        { beforeDeparture with ctrl := { beforeDeparture.ctrl with phase := .listening } } = .next t ∧
      decide (t.terms.heldOwn = 4) = true) :=
  ⟨by decide +kernel, by decide +kernel, reaches _ _ (by decide +kernel), reaches _ _ (by decide +kernel),
    reaches _ _ (by decide +kernel)⟩

/-- A departure moves the tally by 1; a reset puts it to 0. -/
theorem met_Tally :
    (∃ t, exec (.sampleEvent { quiet with lines := 0x0030 }) beforeDeparture = .next t ∧
      decide (t.watch.groups[(1 : Fin 4)].tally = 1) = true) ∧
    resets .resetPin beforeDeparture :=
  ⟨reaches _ _ (by decide +kernel), .inr (.inl rfl)⟩

/-- The state with its self entry showing the watch unit's records (R41). -/
def republished (s : State) : State :=
  s.updateSelfReport (fun r => { r with content := { r.content with groups := s.watch.records } })

/-- A sample that departs G1, and one that changes no group. -/
theorem met_SamplePublishes :
    let s := republished beforeDeparture
    s.watch.sampling = true ∧ s.loader.config = some (plan 4 #v[0, 2, 0, 0]) ∧ s.ctrl.ownNumber ≠ 0 ∧
      ((s.entry s.ctrl.ownNumber).report.map (fun r => r.content.groups)) = some s.watch.records ∧
      s.takes .change = true ∧
      departedAt s.watch (s.watch.sampled (plan 4 #v[0, 2, 0, 0]).groups { quiet with lines := 0x0030 }) 1 = true ∧
      departedAt s.watch (s.watch.sampled (plan 4 #v[0, 2, 0, 0]).groups quiet) 1 = false := by decide +kernel

/-- The rows of R89 on a departure: a slot kept, one begun again, and one marked. -/
theorem met_SamplePublishes_pending :
    let pending := fun (x : Series) => { beforeDeparture with slate := { beforeDeparture.slate with change := some x } }
    let onTheLine := contending 5 beforeDeparture
    (∃ t, exec (.sampleEvent { quiet with lines := 0x0030 }) (pending newSeries) = .next t ∧
      decide (t.slate.change = some newSeries) = true) ∧
    (∃ t, exec (.sampleEvent { quiet with lines := 0x0030 }) (pending { newSeries with attempts := 1, heard := 2 }) =
      .next t ∧ decide (t.slate.change = some newSeries) = true) ∧
    (onTheLine.onLine .change = true ∧ ∃ t, exec (.sampleEvent { quiet with lines := 0x0030 }) onTheLine = .next t ∧
      decide (t.slate.change = some { newSeries with superseded := true }) = true) :=
  ⟨reaches _ _ (by decide +kernel), reaches _ _ (by decide +kernel), by decide +kernel, reaches _ _ (by decide +kernel)⟩

/-- G1 in a state with tally 5, S4 settled high and S5 settled low with two high readings. -/
def groupIn (g : GroupState) : State :=
  { beforeDeparture with watch := { beforeDeparture.watch with
      groups := beforeDeparture.watch.groups.set 1 { state := g, tally := 5 } } }

/-- R35 to R40, one case each: still settling, settled at the expected levels and away from them, a departure, a restore. -/
theorem met_SampleEvent_groups :
    let g1 := fun (s : State) (x : SenseSample) => after (exec (.sampleEvent x) s) (fun t =>
      (t.watch.groups[(1 : Fin 4)].state, t.watch.groups[(1 : Fin 4)].tally))
    let away : SenseSample := { quiet with lines := 0x0030 }
    g1 (listening 4) quiet = some (.settling, 0) ∧ g1 (groupIn .settling) quiet = some (.conforming, 5) ∧
      g1 (groupIn .settling) away = some (.departed, 5) ∧ g1 (groupIn .conforming) away = some (.departed, 6) ∧
      g1 (groupIn .departed) quiet = some (.conforming, 5) ∧ g1 (groupIn .departed) away = some (.departed, 5) := by
  decide +kernel

/-- T2 cleared by mask 4, T2 refused, and a release outside RUNNING. -/
theorem met_Release :
    running.ctrl.phase = .running ∧ running.loader.config = some (plan 4 #v[0, 2, 0, 0]) ∧
      ((withT2 false true running).applyRelease 4 none).terms.flags[(2 : Fin 16)].latched = false ∧
      ((withT2 true true running).applyRelease 4 (some 9)).terms.flags[(2 : Fin 16)].latched = true ∧
      (listening 4).ctrl.phase ≠ .running := by decide +kernel

/-! #### Ticks -/

/-- LISTENING with a listen count. -/
def counting (n : Nat) : State := { listening 9 with ctrl := { (listening 9).ctrl with listenCount := n } }

/-- Not listening; the second and the third tick of the listen interval; a stopped timer. -/
theorem met_RefreshTick :
    running.ctrl.ticking = true ∧ running.ctrl.phase ≠ .listening ∧
      (counting 1).ctrl.ticking = true ∧ (counting 1).ctrl.phase = .listening ∧ (counting 1).ctrl.listenCount + 1 < 3 ∧
      (counting 2).ctrl.ticking = true ∧ (counting 2).ctrl.phase = .listening ∧ ¬ (counting 2).ctrl.listenCount + 1 < 3 ∧
      State.reset.ctrl.ticking = false := by decide +kernel

/-- An entry below the threshold, at it, and one that does not age. -/
theorem met_RefreshTickAges :
    running.ctrl.ticking = true ∧ running.loader.config = some (plan 4 #v[0, 2, 0, 0]) ∧ running.engineRuns = true ∧
      ((aged17 1 running).entry 17).presence = .present ∧ ((aged17 1 running).entry 17).age + 1 ≠ 3 ∧
      ((aged17 2 running).entry 17).age + 1 = (plan 4 #v[0, 2, 0, 0]).silence.toNat ∧
      (running.entry 4).presence = .self := by decide +kernel

/-- In RUNNING, and in LISTENING where only PEER_SILENT is raised. -/
theorem met_PeerFallsSilent :
    (17 : Station) ≠ 0 ∧ (aged17 2 running).ctrl.ticking = true ∧ (aged17 2 running).engineRuns = true ∧
      (aged17 2 running).loader.config = some (plan 4 #v[0, 2, 0, 0]) ∧
      ((aged17 2 running).entry 17).presence = .present ∧
      ((aged17 2 running).entry 17).age + 1 = (plan 4 #v[0, 2, 0, 0]).silence.toNat := by decide +kernel

theorem met_PeerFallsSilent_listening :
    let s := (listening 4).updateEntry 9 (fun e => { e with presence := .heard, age := 2 })
    s.ctrl.ticking = true ∧ s.engineRuns = true ∧ (s.entry 9).presence = .heard ∧
      (s.entry 9).age + 1 = (plan 4 #v[0, 2, 0, 0]).silence.toNat ∧ s.ctrl.phase ≠ .running := by decide +kernel

theorem met_ListenExpiry :
    (counting 2).ctrl.ticking = true ∧ (counting 2).ctrl.phase = .listening ∧ (counting 2).ctrl.listenCount = 2 ∧
      (counting 2).loader.config = some (plan 9 #v[0, 2, 0, 0]) := by decide +kernel

/-! #### The station's own frames -/

/-- A slate with a CHANGE and a REFRESH waiting. -/
def waiting (s : State) : State := { s with slate := { s.slate with change := some newSeries, refresh := true } }

/-- A boundary checked one by one. -/
theorem not_before (gap : List BitPeriod) (able : Nat) (s : State) (h : s.startedBefore gap able = false) :
    ∀ j, j < gap.length → ¬ s.mayStartAfter gap able j := fun j hj hs =>
  absurd ((State.startedBefore_iff gap able s).mpr ⟨j, hj, hs⟩) (by simp [h])

/-- The station may start at a boundary. -/
theorem may_start (gap : List BitPeriod) (able j : Nat) (s : State)
    (h : (s.mayContend && decide (s.ableFrom able ≤ j) &&
      decide (s.engine.gapRequirement ≤ releasedAfter s.engine.gapCount (gap.take j))) = true) :
    s.mayStartAfter gap able j := by
  simp only [Bool.and_eq_true, decide_eq_true_eq] at h
  exact (State.mayStartAfter_iff gap able j s).mpr ⟨h.1.1, h.1.2, h.2⟩

/-- Gap 11 of requirement 11, a station able from boundary 12 on, one able when it entered IDLE; and no edge, one 7 units
early, or one on time. -/
theorem met_ContentionStart :
    (waiting running).engine.state = .idle ∧ (released 11).any isLead = false ∧ (released 12).any isLead = false ∧
      (waiting running).firstStartAt (released 11) 0 ∧ (waiting running).firstStartAt (released 12) 12 ∧
      (-8 < (-7 : Int) ∧ (-7 : Int) ≤ 0) ∧ (-8 < (0 : Int) ∧ (0 : Int) ≤ 0) :=
  ⟨by decide +kernel, by decide +kernel, by decide +kernel,
    ⟨may_start _ _ _ _ (by decide +kernel), not_before _ _ _ (by decide +kernel)⟩,
    ⟨may_start _ _ _ _ (by decide +kernel), not_before _ _ _ (by decide +kernel)⟩, by decide, by decide⟩

theorem met_ContentionOnly :
    (∃ t, exec (.contentionStart (released 11) (some (-7)) 0) (waiting running) = .next t ∧
      decide (t.engine.state = .contending) = true) ∧ (waiting running).engine.state ≠ .contending :=
  ⟨reaches _ _ (by decide +kernel), by decide +kernel⟩

/-- What a contender or a sender of a kind serves. -/
def serving (k : Kind) (urgency : BitVec 3) (payload : List Bool) (q : Option Nibble) : Served :=
  { slot := k, urgency := urgency, payload := payload, sequence := q }

/-- Contending with a frame of a kind, over a slate. -/
def contendingWith (k : Kind) (x : Slate) (s : State) : State :=
  inEngine .contending (some (ownFrame k (k.urgency false) [])) { s with slate := x }

theorem met_KeyLost :
    (contending 5 running).ownFrameIn .contending =
        some (ownFrame .change 5 (report false 1).bits, serving .change 5 (report false 1).bits none) ∧
      contend ((contending 5 running).contenderBits (serving .change 5 (report false 1).bits none))
        (driven (true :: natBits 5 0b10101)) = .lost := by decide +kernel

/-- The key of a kind at station 4, read back as sent. -/
def wonKey (k : Kind) : List BitPeriod := driven (true :: keyBits (k.urgency false) 4)

/-- A key of a kind won over a slate in which its slot waits. -/
def wins (k : Kind) (x : Slate) : Prop :=
  (contendingWith k x running).ownFrameIn .contending =
      some (ownFrame k (k.urgency false) [], serving k (k.urgency false) [] none) ∧
    contend ((contendingWith k x running).contenderBits (serving k (k.urgency false) [] none)) (wonKey k) = .sent ∧
    x.pendingSlot k = true

/-- A series open with sequence 15. -/
def openSeries : Series := { newSeries with attempts := 1, sequence := some 15, targets := some 0x00020200 }

theorem met_KeyWon_change : wins .change { Slate.afterReset with change := some newSeries, reportSequence := 15 } := by
  unfold wins; decide +kernel
theorem met_KeyWon_change_open : wins .change { Slate.afterReset with change := some openSeries } := by
  unfold wins; decide +kernel
theorem met_KeyWon_release :
    wins .release { Slate.afterReset with release := some { zones := 4, series := newSeries } } := by
  unfold wins; decide +kernel
theorem met_KeyWon_release_open :
    wins .release { Slate.afterReset with release := some { zones := 4, series := openSeries } } := by
  unfold wins; decide +kernel
theorem met_KeyWon_refresh : wins .refresh { Slate.afterReset with refresh := true } := by unfold wins; decide +kernel
theorem met_KeyWon_join : wins .join { Slate.afterReset with join := true } := by unfold wins; decide +kernel
theorem met_KeyWon_resync : wins .resync { Slate.afterReset with resync := true } := by unfold wins; decide +kernel

/-- A bit driven 1 and read 0. -/
def missed : BitPeriod := { drivenPeriod true with value := false }

/-- In the key: with an attempt left after it, with none, superseded, and for a RELEASE. -/
theorem met_Abort_key :
    let v := serving .change 5 (report false 1).bits none
    let f := ownFrame .change 5 (report false 1).bits
    let holding := fun x => { contending 5 running with slate := { (contending 5 running).slate with change := some x } }
    let last := holding { openSeries with attempts := 2 }
    let marked := holding { openSeries with superseded := true }
    let release := contendingWith .release
      { Slate.afterReset with release := some { zones := 4, series := openSeries } } running
    (contending 5 running).ownFrameIn .contending = some (f, v) ∧
      contend ((contending 5 running).contenderBits v) [missed] = .aborted .q2 ∧
      (slotAfter running.attemptLimit none newSeries).isSome = true ∧
      last.ownFrameIn .contending = some (f, v) ∧ contend (last.contenderBits v) [missed] = .aborted .q2 ∧
      missedBy none .change last = 0x00020200 ∧
      marked.ownFrameIn .contending = some (f, v) ∧
      slotAfter marked.attemptLimit none { openSeries with superseded := true } = some freshSeries ∧
      (release.ownFrameIn .contending).map (fun x => x.2.slot) = some .release ∧
      contend (release.contenderBits (serving .release 4 [] none)) [missed] = .aborted .q2 := by decide +kernel

/-- A JOIN aborted in JOINING: the station enters RUNNING. -/
theorem met_Abort_join :
    let s := contendingWith .join { Slate.afterReset with join := true }
      { listening 4 with ctrl := { (listening 4).ctrl with phase := .joining } }
    s.entersRunning .join = true ∧ s.loader.config = some (plan 4 #v[0, 2, 0, 0]) ∧
      s.ownFrameIn .contending = some (ownFrame .join 3 [], serving .join 3 [] none) ∧
      contend (s.contenderBits (serving .join 3 [] none)) [missed] = .aborted .q2 := by decide +kernel

/-- What the REFRESH of `sending` serves. -/
def sentRefresh : Served := serving .refresh 1 (report true 0).bits (some 0)

theorem met_Abort_body :
    ((sending running).ownFrameIn .sending).map Prod.snd = some sentRefresh ∧
      sendBody ((sending running).senderBits sentRefresh) [{ drivenPeriod false with trail := true }] = .aborted .q4 := by
  decide +kernel

theorem met_LastCheckBit :
    ((sending running).ownFrameIn .sending).map Prod.snd = some sentRefresh ∧
      sendBody ((sending running).senderBits sentRefresh) ((frame .refresh 1 4 0 (report true 0).bits).drop 9) = .sent := by
  decide +kernel

/-! #### The frames of others -/

/-- With nothing to send; with a slot waiting, early in the gap and with an edge half a quarter early; and where the station
starts itself, at the end of the gap and before it. -/
theorem met_LeadInIdle :
    running.engineRuns = true ∧ running.engine.state = .idle ∧ (released 0).any isLead = false ∧
      (released 3).any isLead = false ∧
      (∀ j, j < 11 → ¬ (waiting running).mayStartAfter (released 11) 0 j) ∧ ((-8 : Int) ≤ -8) ∧
      ((waiting running).mayStartAfter (released 11) 0 (released 11).length ∧ -8 < (-7 : Int)) ∧
      (∃ j, j < (released 12).length ∧ (waiting running).mayStartAfter (released 12) 0 j) :=
  ⟨by decide +kernel, by decide +kernel, by decide +kernel, by decide +kernel,
    not_before (released 11) _ _ (by decide +kernel), by decide, ⟨may_start _ _ _ _ (by decide +kernel), by decide⟩,
    11, by decide, may_start _ _ _ _ (by decide +kernel)⟩

/-- The record of a frame just begun by another. -/
def begunByOther : Frame := Frame.begun .receiver none

/-- Kind codes 0, 6 and 7; a start bit that reads 0 and a lead missing; the eighth dominant trail. -/
theorem met_Faults :
    let s := receiving running
    let bits := fun code => driven (true :: keyBits 1 9 ++ natBits 3 code)
    let found := fun code => match s.received begunByOther (bits code) with | .invalidKind _ => true | _ => false
    let framing := fun ps => match s.received begunByOther ps with | .framingFault _ _ => true | _ => false
    let stuck := fun ps => match s.received begunByOther ps with | .stuckDominant _ => true | _ => false
    s.frameIn .receiving = some begunByOther ∧ found 0 = true ∧ found 6 = true ∧ found 7 = true ∧
      framing [drivenPeriod false] = true ∧ framing [drivenPeriod true, releasedPeriod] = true ∧
      stuck (List.replicate 8 { drivenPeriod true with trail := true }) = true := by decide +kernel

/-- The tests of R64 that reject: the check, number 0, the urgency, the revision of a JOIN. -/
theorem met_FailedFrame_check :
    ((receiving running).receivedFrame ((frame .resync 2 9 0 []).dropLast ++ [drivenPeriod false])).any
      (fun r => decide (r.checkRead ≠ r.checkComputed)) = true := by decide +kernel

theorem met_FailedFrame_number :
    (receiving running).receivedFrame (frame .resync 2 0 0 []) = some (taken .resync 2 0 0 []) ∧
      (taken .resync 2 0 0 []).malformed := ⟨by decide +kernel, .inr (.inl rfl)⟩

theorem met_FailedFrame_urgency :
    (receiving running).receivedFrame (frame .resync 1 9 0 []) = some (taken .resync 1 9 0 []) ∧
      (taken .resync 1 9 0 []).malformed := ⟨by decide +kernel, .inr (.inr (.inl (by decide)))⟩

/-- A JOIN of station 9 with the fingerprint of the line and a revision. -/
def joinOf (revision : Nat) : List Bool :=
  (joinPayload (planFingerprint (plan 9 #v[0, 2, 0, 0])) #v[0, 2, 0, 0]).take 28 ++ natBits 2 revision

theorem met_FailedFrame_revision :
    (receiving running).receivedFrame (frame .join 3 9 0 (joinOf 2)) = some (taken .join 3 9 0 (joinOf 2)) ∧
      (taken .join 3 9 0 (joinOf 2)).malformed :=
  ⟨by decide +kernel, .inr (.inr (.inr ⟨rfl, by decide⟩))⟩

theorem met_OwnNumber :
    (receiving running).receivedFrame (frame .resync 2 4 0 []) = some (taken .resync 2 4 0 []) ∧
      ¬ (taken .resync 2 4 0 []).malformed ∧ (taken .resync 2 4 0 []).number = (receiving running).ctrl.ownNumber ∧
      (receiving running).loader.config = some (plan 4 #v[0, 2, 0, 0]) :=
  ⟨by decide +kernel, taken_sound _ _ _ _ _ (by decide) (by decide) (by decide), by decide +kernel, by decide +kernel⟩

/-- A frame of a kind from station n is received whole by `running`, and bears neither its number nor a fault. -/
def arrives (s : State) (k : Kind) (urgency : BitVec 3) (n : Station) (q : Nibble) (payload : List Bool) : Prop :=
  (receiving s).receivedFrame (frame k urgency n q payload) = some (taken k urgency n q payload) ∧
    ¬ (taken k urgency n q payload).malformed ∧ n ≠ (receiving s).ctrl.ownNumber ∧
    ((receiving s).entry n).presence ≠ .self

/-- A CHANGE in sequence 0 to 1, a repeat of 0 with the same content, one that is neither, and one that finds no
report. -/
theorem met_AcceptedState_change :
    arrives running .change 7 9 1 (report false 1).bits ∧ arrives running .change 5 9 0 (report true 0).bits ∧
      arrives running .change 5 9 15 (report false 1).bits ∧ arrives running .change 5 30 15 (report false 1).bits ∧
      ((receiving running).entry 9).report = some { sequence := 0, content := report true 0, stale := false } ∧
      ((receiving running).entry 30).report = none :=
  ⟨⟨by decide +kernel, taken_sound _ _ _ _ _ (by decide) (by decide) (by decide), by decide +kernel, by decide +kernel⟩,
    ⟨by decide +kernel, taken_sound _ _ _ _ _ (by decide) (by decide) (by decide), by decide +kernel, by decide +kernel⟩,
    ⟨by decide +kernel, taken_sound _ _ _ _ _ (by decide) (by decide) (by decide), by decide +kernel, by decide +kernel⟩,
    ⟨by decide +kernel, taken_sound _ _ _ _ _ (by decide) (by decide) (by decide), by decide +kernel, by decide +kernel⟩,
    by decide +kernel, by decide +kernel⟩

/-- A CHANGE whose tally moves on, in RUNNING and in LISTENING. -/
theorem met_AcceptedState_signal :
    arrives running .change 5 9 1 (report true 1).bits ∧
      arrives { listening 4 with table := running.table } .change 5 9 1 (report true 1).bits ∧
      (running.entry 9).roster = true ∧ (listening 4).ctrl.phase = .listening ∧
      running.loader.config = some (plan 4 #v[0, 2, 0, 0]) :=
  ⟨⟨by decide +kernel, taken_sound _ _ _ _ _ (by decide) (by decide) (by decide), by decide +kernel, by decide +kernel⟩,
    ⟨by decide +kernel, taken_sound _ _ _ _ _ (by decide) (by decide) (by decide), by decide +kernel, by decide +kernel⟩,
    by decide +kernel, by decide +kernel, by decide +kernel⟩

/-- A REFRESH with the stored sequence and one with another. -/
theorem met_AcceptedState_refresh :
    arrives running .refresh 1 9 0 (report true 0).bits ∧ arrives running .refresh 1 9 3 (report true 0).bits :=
  ⟨⟨by decide +kernel, taken_sound _ _ _ _ _ (by decide) (by decide) (by decide), by decide +kernel, by decide +kernel⟩,
    ⟨by decide +kernel, taken_sound _ _ _ _ _ (by decide) (by decide) (by decide), by decide +kernel, by decide +kernel⟩⟩

theorem met_AcceptedJoin : arrives running .join 3 9 0 (joinOf 1) :=
  ⟨by decide +kernel, taken_sound _ _ _ _ _ (by decide) (by decide) (fun _ => by decide), by decide +kernel,
    by decide +kernel⟩

theorem met_AcceptedResync : arrives running .resync 2 9 0 [] :=
  ⟨by decide +kernel, taken_sound _ _ _ _ _ (by decide) (by decide) (by decide), by decide +kernel, by decide +kernel⟩

/-- The fingerprint of the line and one that is not. -/
theorem met_AcceptedJoin_plans :
    (receiving running).ctrl.fingerprint = some (joinFingerprint (joinOf 1)) ∧
      arrives running .join 3 9 0 (List.replicate 28 false ++ natBits 2 1) ∧
      (receiving running).ctrl.fingerprint ≠ some (joinFingerprint (List.replicate 28 false ++ natBits 2 1)) ∧
      (receiving running).loader.config = some (plan 4 #v[0, 2, 0, 0]) ∧ (receiving running).ctrl.phase = .running :=
  ⟨by decide +kernel,
    ⟨by decide +kernel, taken_sound _ _ _ _ _ (by decide) (by decide) (fun _ => by decide), by decide +kernel,
      by decide +kernel⟩,
    by decide +kernel, by decide +kernel, by decide +kernel⟩

/-- A release of zone 2 from a roster member, its sequence not stored, T2 latched and its condition false. -/
theorem met_AcceptedRelease :
    arrives (withT2 false true running) .release 4 9 3 (releasePayload 4) ∧
      (running.entry 9).roster = true ∧ (running.entry 9).lastRelease ≠ some 3 ∧
      (plan 4 #v[0, 2, 0, 0]).terms[(2 : Fin 16)].zones &&& releaseMaskOfBits (releasePayload 4) ≠ 0 ∧
      termLive (plan 4 #v[0, 2, 0, 0]).terms[(2 : Fin 16)] running.table = false :=
  ⟨⟨by decide +kernel, taken_sound _ _ _ _ _ (by decide) (by decide) (by decide), by decide +kernel, by decide +kernel⟩,
    by decide +kernel, by decide +kernel, by decide +kernel, by decide +kernel⟩

/-- A duplicate, a stranger's RELEASE, one that a live term refuses, and one outside RUNNING. -/
theorem met_AcceptedRelease_kept :
    arrives (running.updateEntry 9 (fun e => { e with lastRelease := some 3 })) .release 4 9 3 (releasePayload 4) ∧
      arrives running .release 4 30 3 (releasePayload 4) ∧ (running.entry 30).roster = false ∧
      arrives (aged17 2 (running.updateEntry 17 (fun e => { e with presence := .silent }))) .release 4 9 3
        (releasePayload 4) ∧
      termLive (plan 4 #v[0, 2, 0, 0]).terms[(2 : Fin 16)]
        (running.updateEntry 17 (fun e => { e with presence := .silent })).table = true ∧
      arrives (listening 4) .release 4 9 3 (releasePayload 4) ∧ (listening 4).ctrl.phase ≠ .running :=
  ⟨⟨by decide +kernel, taken_sound _ _ _ _ _ (by decide) (by decide) (by decide), by decide +kernel, by decide +kernel⟩,
    ⟨by decide +kernel, taken_sound _ _ _ _ _ (by decide) (by decide) (by decide), by decide +kernel, by decide +kernel⟩,
    by decide +kernel,
    ⟨by decide +kernel, taken_sound _ _ _ _ _ (by decide) (by decide) (by decide), by decide +kernel, by decide +kernel⟩,
    by decide +kernel,
    ⟨by decide +kernel, taken_sound _ _ _ _ _ (by decide) (by decide) (by decide), by decide +kernel, by decide +kernel⟩,
    by decide +kernel⟩

/-! #### The end of the window -/

/-- A sender's window with no slot confirmed, with peers', and with the own slot at sighting counts 0 and 1. -/
theorem met_SenderWindow :
    ((confirming running).frameIn .confirming).any (fun f => f.served.isSome && decide (f.role = .sender)) = true ∧
      (window []).length = 31 ∧ inMap (confirmMapOf (window [9, 31])) 31 = true ∧
      inMap (confirmMapOf (window [4])) running.ctrl.ownNumber = true ∧ running.health.sightings = 0 ∧
      (withHealth 0 .normal 1 (confirming running)).health.sightings = 1 ∧
      ((withHealth 0 .normal 1 (confirming running)).frameIn .confirming).isSome = true := by decide +kernel

/-- A window's CHANGE series: delivered, kept with an attempt left, ended short, and superseded. -/
theorem met_SenderWindow_series :
    let x := { openSeries with attempts := 2 }
    let holding := fun (y : Series) =>
      { confirming running with slate := { (confirming running).slate with change := some y } }
    (confirming running).loader.config = some (plan 4 #v[0, 2, 0, 0]) ∧
      slotAfter (confirming running).attemptLimit (some 0x00020200) newSeries = none ∧
      deliveredBy (some 0x00020200) x = true ∧ deliveredBy (some 0x00020000) openSeries = false ∧
      endsShort (confirming running).attemptLimit (some 0x00020000) openSeries = false ∧
      missedBy (some 0x00020000) .change (holding x) = 0x200 ∧ ((holding x).frameIn .confirming).isSome = true ∧
      slotAfter (confirming running).attemptLimit (some 0x00020200) { x with superseded := true } = some freshSeries := by
  decide +kernel

/-- The record of a received frame in its window. -/
def windowFrame (v : Verdict) : Frame := { begunByOther with position := 70, verdict := some v }

theorem met_ReceiverWindow :
    (following .accepted running).frameIn .confirming = some (windowFrame .accepted) ∧
      (following .rejected running).frameIn .confirming = some (windowFrame .rejected) ∧
      (windowFrame .accepted).served = none ∧ (windowFrame .rejected).role = .receiver ∧
      (window [1, 31]).length = 31 := by decide +kernel

/-- A window driven and one that is not; the way back to NORMAL, in RUNNING and in JOINING. -/
theorem met_ReceiverWindow_health :
    ({ windowFrame .accepted with confirms := true }).served = none ∧ (windowFrame .accepted).confirms = false ∧
      (withHealth 1 .withdrawn 0 (following .accepted running)).frameIn .confirming = some (windowFrame .accepted) ∧
      nextHealth (1 - 1) .withdrawn = .normal ∧
      (withHealth 1 .withdrawn 0 (following .accepted
        { listening 4 with ctrl := { (listening 4).ctrl with phase := .joining } })).frameIn .confirming =
        some (windowFrame .accepted) := by decide +kernel

/-- At the start of LISTENING. -/
theorem met_DiscardEnd_first :
    (listening 4).engineRuns = true ∧ (listening 4).engine.state = .discarding ∧ (listening 4).engine.frame = none ∧
      reachesAtEnd 35 (listening 4).engine.gapCount (released 35) = true := by decide +kernel

theorem met_DiscardEnd :
    let s := inEngine .discarding (some (ownFrame .change 7 [])) running
    s.engineRuns = true ∧ s.engine.state = .discarding ∧ s.engine.gapCount = 0 ∧
      reachesAtEnd 35 0 (released 35) = true ∧ reachesAtEnd 35 0 (released 34) = false ∧
      reachesAtEnd 35 0 (released 34 ++ [drivenPeriod false] ++ released 35) = true := by decide +kernel

/-! #### Rules of the whole station -/

/-- 95 and a REJECTED frame make 96. -/
theorem met_HealthChanges :
    ∃ t, exec (.frameReceived (frame .resync 1 9 0 [])) (withHealth 95 .normal 0 (receiving running)) = .next t ∧
      decide (t.health.state ≠ .normal) = true := reaches _ _ (by decide +kernel)

/-- JOINING with its JOIN on the line. -/
def joiningWindow : State :=
  let s := listening 4
  inEngine .confirming
    (some { ownFrame .join 3 [] with
      position := 62, confirmMap := some 0, served := some (serving .join 3 [] (some 0)) })
    { s with ctrl := { s.ctrl with phase := .joining }, slate := { s.slate with join := true } }

/-- R156, R180: entry into RUNNING, then CONFLICT, in one event; the outputs took the drives of both. -/
theorem test_enters_and_conflicts :
    after (exec (.windowEnd (window [4])) (withHealth 0 .normal 1 joiningWindow)) (fun t =>
      (t.ctrl.phase, t.outputTrace.drop 1, t.notices.drop 1 |>.map (fun n => (n.kind, n.value)))) =
      some (.conflict, [runningDrives (plan 4 #v[0, 2, 0, 0])
          (Vector.ofFn (fun i : Fin 16 =>
            if i = 2 then { live := true, latched := true } else { live := false, latched := false })),
          restDrives (plan 4 #v[0, 2, 0, 0])],
        [(.phaseChanged, some (.phase .running)), (.termAsserted, none), (.duplicateNumber, none),
          (.phaseChanged, some (.phase .conflict)), (.termCleared, none)]) := by decide +kernel

/-- The second sighting in RUNNING, in JOINING with another kind's frame, and at the entry into RUNNING. -/
theorem met_SenderWindow_conflict :
    let conflicts := fun (s : State) =>
      after (exec (.windowEnd (window [4])) (withHealth 0 .normal 1 s)) (fun t => decide (t.ctrl.phase = .conflict))
    conflicts (confirming running) = some true ∧ conflicts joiningWindow = some true ∧
      joiningWindow.entersRunning .join = true ∧ (confirming running).entersRunning .change = false ∧
      (joiningWindow.frameIn .confirming).any (fun f => f.served.isSome && decide (f.role = .sender)) = true := by
  decide +kernel

/-- The transitions of the table, one each. -/
theorem met_PhaseFollows :
    (∃ t, exec .resetPin running = .next t ∧ decide (t.ctrl.phase = .loading) = true) ∧
    (∃ t, exec (.imageComplete (restOf 4 3 0 0x10 1) quiet) headed = .next t ∧
      decide (t.ctrl.phase = .listening) = true) ∧
    (∃ t, exec (.headerRead 0 0 0 0 0) State.reset = .next t ∧ decide (t.ctrl.phase = .halted) = true) ∧
    (∃ t, exec (.listenExpiry agingFirst) (counting 2) = .next t ∧ decide (t.ctrl.phase = .joining) = true) ∧
    (∃ t, exec (.windowEnd (window [9])) joiningWindow = .next t ∧ decide (t.ctrl.phase = .running) = true) ∧
    (∃ t, exec (.frameReceived (frame .resync 2 4 0 [])) (receiving running) = .next t ∧
      decide (t.ctrl.phase = .conflict) = true) :=
  ⟨reaches _ _ (by decide +kernel), reaches _ _ (by decide +kernel), reaches _ _ (by decide +kernel),
    reaches _ _ (by decide +kernel), reaches _ _ (by decide +kernel), reaches _ _ (by decide +kernel)⟩

/-- The report sequence of station 9 changes at its CHANGE, goes with its JOIN, and goes at a reset. -/
theorem met_PeerReportSequence :
    (9 : Station) ≠ running.ctrl.ownNumber ∧
    (∃ t, exec (.frameReceived (frame .change 7 9 1 (report false 1).bits)) (receiving running) = .next t ∧
      (decide (9 ≠ t.ctrl.ownNumber) && decide ((t.entry 9).report.map (fun r => r.sequence) ≠
        (running.entry 9).report.map (fun r => r.sequence))) = true) ∧
    (∃ t, exec (.frameReceived (frame .join 3 9 0 (joinOf 1))) (receiving running) = .next t ∧
      decide ((t.entry 9).report.map (fun r => r.sequence) ≠
        (running.entry 9).report.map (fun r => r.sequence)) = true) ∧
    (∃ t, exec .powerOnReset running = .next t ∧ (t.entry 9).report.isNone = true) ∧ resets .powerOnReset running :=
  ⟨by decide +kernel, reaches _ _ (by decide +kernel), reaches _ _ (by decide +kernel), reaches _ _ (by decide +kernel),
    .inl rfl⟩

/-- Entries in the four presences of a peer. -/
theorem met_Evidence :
    (31 : Station) ≠ 0 ∧ (running.entry 31).presence = .absent ∧ (running.entry 31).roster = false ∧
      ((listening 4).entry 9).presence = .absent ∧ ((listening 4).entry 9).roster = true ∧
      (running.entry 17).presence = .present ∧
      ((running.updateEntry 17 (fun e => { e with presence := .heard })).entry 17).presence = .heard ∧
      ((running.updateEntry 17 (fun e => { e with presence := .silent })).entry 17).presence = .silent := by
  decide +kernel

/-- A gap at 0, and at 255. -/
theorem met_SequenceGap :
    (1 : Station) ≠ 0 ∧ (running.entry 9).sequenceGaps = 0 ∧
      ((running.updateEntry 31 (fun e => { e with sequenceGaps := 255 })).entry 31).sequenceGaps = 255 := by
  decide +kernel

theorem met_CompletedChange_join : joiningWindow.ctrl.phase = .joining := by decide +kernel

/-! #### The tap port -/

/-- The port IDLE, with no reset held and with one held. -/
theorem met_TselAssert :
    running.pins.tsel = false ∧ running.tap.state = .idle ∧ running.inReset = false ∧
      (nextOf (exec .resetPin running)).pins.tsel = false ∧ (nextOf (exec .resetPin running)).tap.state = .idle ∧
      (nextOf (exec .resetPin running)).inReset = true := by decide +kernel

/-- A request begun, in LOADING, LISTENING and RUNNING, and with a notice waiting; codes 0 and 10 name none. -/
theorem met_Requests :
    (selected State.reset).tap.state = .request ∧ (selected State.reset).tap.bitsIn = [] ∧
      (selected (listening 4)).tap.state = .request ∧ (selected (withNotices 1 running)).tap.state = .request ∧
      (selected (withNotices 1 running)).tap.bitsIn = [] ∧ ((0 : Byte) = 0 ∨ 9 < (0 : Byte).toNat) ∧
      ((10 : Byte) = 0 ∨ 9 < (10 : Byte).toNat) := by decide +kernel

/-- The same for ENTRY and RELEASE: LOADING, LISTENING, RUNNING with network release configured. -/
theorem met_EntryAndRelease :
    (selected running).tap.state = .request ∧ (selected running).tap.bitsIn = [] ∧ running.ctrl.phase = .running ∧
      running.loader.config.any (fun c => c.networkRelease) = true ∧ running.health.state ≠ .withdrawn ∧
      (selected (listening 4)).tap.state = .request ∧ (listening 4).ctrl.phase ≠ .running ∧
      (selected State.reset).ctrl.phase = .loading := by decide +kernel

/-- The rows of R91, and a WITHDRAWN station. -/
theorem met_EntryAndRelease_rows :
    let slot := fun (z : ZoneMask) (x : Series) => some ({ zones := z, series := x } : ReleaseSlot)
    (releaseMerged false 4 none).zones = 4 ∧ releaseMerged false 4 (slot 12 openSeries) = { zones := 12, series := openSeries } ∧
      releaseMerged false 4 (slot 8 newSeries) = { zones := 12, series := newSeries } ∧
      releaseMerged false 4 (slot 8 openSeries) = { zones := 12, series := freshSeries } ∧
      releaseMerged true 4 (slot 8 openSeries) = { zones := 12, series := { openSeries with superseded := true } } ∧
      (selected (withHealth 200 .withdrawn 0 running)).tap.state = .request ∧
      (withHealth 200 .withdrawn 0 running).health.state = .withdrawn := by decide +kernel

/-- TSDO needs TSEL asserted and no reset held. -/
theorem met_Requests_tsdo :
    (selected running).pins.tsel = true ∧ (selected running).inReset = false ∧ (selected running).tsdo = some true := by
  decide +kernel

/-- TSEL released in REQUEST after no bit and after seven, after the request byte and seven bits of its argument, in
ARGUMENTS, and in WAIT_RELEASE. -/
theorem met_Take_early :
    let waits := { selected running with tap := { Tap.noTransaction with state := .waitRelease } }
    let argued := nextOf (exec (.entry none) (selected running))
    (selected running).pins.tsel = true ∧ (selected running).tap.state = .request ∧
      (selected running).tap.takeArmed = false ∧ (selected running).tap.restartArmed = false ∧
      (selected running).tap.bitsIn.length + (List.replicate 7 true).length < 8 ∧
      byteOfBits (((selected running).tap.bitsIn ++ (byteBits 2 ++ List.replicate 7 true)).take 8) = 0x02 ∧
      (byteBits 7 ++ List.replicate 7 true).length < 16 ∧
      argued.tap.state = .arguments ∧ argued.pins.tsel = true ∧ argued.tap.restartArmed = false ∧
      argued.tap.bitsIn.length + 7 < 8 ∧
      waits.tap.state = .waitRelease ∧ waits.pins.tsel = true ∧ waits.tap.restartArmed = false := by decide +kernel

/-- A TAKE with a notice, at the boundary of its twelve bytes. -/
theorem met_Take :
    taking.pins.tsel = true ∧ taking.tap.state = .response ∧ taking.tap.response.map List.length = some 12 ∧
      taking.tap.clocked ≤ 8 * 12 ∧ taking.tap.restartArmed = false ∧ taking.tap.takeArmed = true := by decide +kernel

/-- What the release of TSEL with these bits leaves: notices, the RESYNC slot, T2's latch, the phase. -/
def leftBy (bits : List Bool) (s : State) : Option (Nat × Bool × Bool × Phase) :=
  after (exec (.tselRelease bits) s) (fun t =>
    (t.notices.length, t.slate.resync, t.terms.flags[(2 : Fin 16)].latched, t.ctrl.phase))

/-- T2 latched, and the mask of a RELEASE awaited. -/
def argued : State := nextOf (exec (.release none) (selected (withT2 false true running)))

/-- The bits of the release of TSEL may complete a request in REQUEST and in ARGUMENTS. -/
theorem met_Take_completed :
    (selected running).pins.tsel = true ∧ (selected running).tap.state = .request ∧
      (selected running).tap.bitsIn = [] ∧ argued.pins.tsel = true ∧ argued.tap.state = .arguments ∧
      argued.tap.request = some 0x07 ∧ argued.tap.bitsIn = [] := by decide +kernel

/-- A TAKE with 96 and with 95 bits after it, a TAKE of nothing, and a RESYNC. -/
theorem met_Take_completed_take :
    leftBy (bytesBits [6] ++ List.replicate 96 true) (selected (withNotices 2 running)) =
        some (1, false, false, .running) ∧
      leftBy (bytesBits [6] ++ List.replicate 95 true) (selected (withNotices 2 running)) =
        some (2, false, false, .running) ∧
      leftBy (bytesBits [6] ++ List.replicate 8 true) (selected running) = some (0, false, false, .running) ∧
      leftBy (bytesBits [8]) (selected running) = some (0, true, false, .running) := by decide +kernel

/-- A RELEASE with its mask, one completed by its mask alone, a RESTART, and a code that names nothing. -/
theorem met_Take_completed_release :
    leftBy (bytesBits [7, 4, 0]) (selected (withT2 false true running)) = some (1, false, false, .running) ∧
      leftBy (bytesBits [4]) argued = some (1, false, false, .running) ∧
      leftBy (bytesBits [9]) (selected (withNotices 2 running)) = some (0, false, false, .loading) ∧
      leftBy (bytesBits [10]) (selected (withT2 false true running)) = some (0, false, true, .running) := by
  decide +kernel

theorem met_Snapshot :
    (∃ t, exec (.sampleEvent quiet) taking = .next t ∧ (!(t.tap.response.isNone)) = true) ∧
    isTapCommand (.sampleEvent quiet) = false ∧ ¬ resets (.sampleEvent quiet) taking ∧
    (∀ source, Instr.sampleEvent quiet ≠ .resetEnd source) :=
  ⟨reaches _ _ (by decide +kernel), rfl, (by rintro (h | h | ⟨_, h, _⟩) <;> cases h), (by intro _ h; cases h)⟩

theorem met_FrameDriven :
    (report false 1).bits.length = Kind.payloadBits .change ∧
    ([] : List Bool).length = Kind.payloadBits .resync ∧
    (joinOf 1).length = Kind.payloadBits .join ∧ (releasePayload 255).length = Kind.payloadBits .release := by decide +kernel

/-! #### The invariants: a state that meets each, and a command that puts it to work -/

/-- Fifteen notices, and one more raised. -/
theorem met_NoticeQueue :
    (queued (.peerSilent 17 agingFirst) (aged17 2 (withNotices 15 running))).noticesOk = true ∧
    ∃ t, step (queued (.peerSilent 17 agingFirst) (aged17 2 (withNotices 15 running))) = .next t ∧
      decide (t.notices.length = 16) = true := ⟨by decide +kernel, reaches _ _ (by decide +kernel)⟩

/-- ATN goes off with the last notice taken. -/
theorem met_NoticeQueue_last :
    let s := nextOf (exec .take (selected (withNotices 1 running)))
    s.noticesOk = true ∧ s.atn = true ∧ s.notices.length = 1 ∧
      ∃ t, step (queued (.tselRelease (List.replicate 96 true)) s) = .next t ∧ (!t.atn) = true :=
  ⟨by decide +kernel, by decide +kernel, by decide +kernel, reaches _ _ (by decide +kernel)⟩

/-- 255 kept, 192 reached, and 0 left by a WITHDRAWN station. -/
theorem met_HealthRanges :
    (withHealth 191 .restrained 2 (receiving running)).healthOk = true ∧
    (withHealth 255 .withdrawn 0 (receiving running)).healthOk = true ∧
    (withHealth 1 .withdrawn 0 (following .accepted running)).healthOk = true ∧
    (∃ t, step (queued (.frameReceived (frame .resync 1 9 0 [])) (withHealth 191 .restrained 2 (receiving running))) =
      .next t ∧ decide (t.health.garble = 192) = true) ∧
    (∃ t, step (queued (.windowEnd (window [])) (withHealth 1 .withdrawn 0 (following .accepted running))) = .next t ∧
      decide (t.health.garble = 0) = true) :=
  ⟨by decide +kernel, by decide +kernel, by decide +kernel, reaches _ _ (by decide +kernel),
    reaches _ _ (by decide +kernel)⟩

theorem met_LoaderAndPhase :
    (inAttempt 3 .reading).loaderOk = true ∧ headed.loaderOk = true ∧
    (∃ t, step (queued (.transportFailure 0 (.clockHeldLow 0) []) (inAttempt 3 .reading)) = .next t ∧
      decide (t.ctrl.phase = .halted) = true) ∧
    (∃ t, step (queued (.imageComplete (restOf 4 3 0 0x10 1) quiet) headed) = .next t ∧
      decide (t.ctrl.phase = .listening) = true) :=
  ⟨by decide +kernel, by decide +kernel, reaches _ _ (by decide +kernel), reaches _ _ (by decide +kernel)⟩

/-- Contending, with the driver on. -/
def drivingKey : State := nextOf (exec (.contentionStart (released 11) none 0) (waiting running))

theorem met_DriverOff :
    drivingKey.driverOk = true ∧
    ∃ t, step (queued (.sendAborted [missed]) drivingKey) = .next t ∧ decide (t.engine.state = .discarding) = true :=
  ⟨by decide +kernel, reaches _ _ (by decide +kernel)⟩

theorem met_SlateWithinLimits :
    drivingKey.slateOk = true ∧
    ∃ t, step (queued (.sendAborted [missed]) drivingKey) = .next t ∧
      decide (t.slate.change.map (fun x => x.attempts) = some 1) = true :=
  ⟨by decide +kernel, reaches _ _ (by decide +kernel)⟩

/-- Station 17 about to fall silent. -/
def nearlySilent : State := queued (.peerSilent 17 agingFirst) (aged17 2 running)

theorem met_TermsTrueToTable :
    nearlySilent.loaderOk = true ∧ nearlySilent.termsOk = true ∧
    ∃ t, step nearlySilent = .next t ∧ t.terms.flags[(2 : Fin 16)].live = true :=
  ⟨by decide +kernel, by decide +kernel, reaches _ (fun t => t.terms.flags[(2 : Fin 16)].live) (by decide +kernel)⟩

/-- A latch of RUNNING cleared, by a RELEASE request and by the RELEASE frame of a roster member. -/
theorem met_TermsTrueToTable_release :
    let asked := queued (.release (some 4)) (selected (withT2 false true running))
    let told := queued (.frameReceived (frame .release 4 9 1 (releasePayload 4))) (receiving (withT2 false true running))
    asked.loaderOk = true ∧ asked.termsOk = true ∧ asked.ctrl.phase = .running ∧
      asked.loader.config = some (plan 4 #v[0, 2, 0, 0]) ∧ asked.terms.flags[(2 : Fin 16)].latched = true ∧
      told.loaderOk = true ∧ told.termsOk = true ∧
      after (step asked) (fun t => (t.ctrl.phase, t.terms.flags[(2 : Fin 16)].latched)) = some (.running, false) ∧
      after (step told) (fun t => (t.ctrl.phase, t.terms.flags[(2 : Fin 16)].latched)) = some (.running, false) := by
  decide +kernel

theorem met_OutputsFollowing :
    nearlySilent.loaderOk = true ∧ nearlySilent.outputsOk = true ∧
    ∃ t, step nearlySilent = .next t ∧ decide (t.outputs[(0 : Fin 8)] = .low) = true :=
  ⟨by decide +kernel, by decide +kernel, reaches _ _ (by decide +kernel)⟩

/-- A CHANGE whose key is about to be won. -/
def nearlyWon : State :=
  queued (.keyWon (wonKey .change)) (contendingWith .change { Slate.afterReset with change := some newSeries } running)

theorem met_SelfEntryTrue :
    nearlyWon.loaderOk = true ∧ nearlyWon.selfOk = true ∧
    ∃ t, step nearlyWon = .next t ∧ decide ((t.entry 4).report.map (fun r => r.sequence) = some 1) = true :=
  ⟨by decide +kernel, by decide +kernel, reaches _ _ (by decide +kernel)⟩

theorem met_TableConsistent :
    nearlySilent.loaderOk = true ∧ nearlySilent.tableOk = true ∧
    ∃ t, step nearlySilent = .next t ∧ decide ((t.entry 17).presence = .silent) = true :=
  ⟨by decide +kernel, by decide +kernel, reaches _ _ (by decide +kernel)⟩

theorem met_TapConsistent :
    taking.tapOk = true ∧
    ∃ t, step (queued (.tselRelease (List.replicate 96 true)) taking) = .next t ∧
      decide (t.tap.state = .idle ∧ t.notices.length = 14) = true :=
  ⟨by decide +kernel, reaches _ _ (by decide +kernel)⟩

end Sys2Proof.Tests
end

