-- ==== Sys2Proof/Proofs/PeerTable01_Effects.lean ====
section
/-! SUPPORT. What the remaining operations leave in each entry of the peer table, and what an outcome leaves in the health
monitor, the slate, the notices and the self entry (R25 to R27, R81 to R85, R113 to R117). -/

namespace Sys2Proof.Machine

/-! ### Entries under updates of the other blocks -/

@[simp] theorem State.entry_setPins (s : State) (v : Pins) (n : Station) : (s.setPins v).entry n = s.entry n := rfl
@[simp] theorem State.entry_setCtrl (s : State) (v : Controller) (n : Station) : (s.setCtrl v).entry n = s.entry n := rfl
@[simp] theorem State.entry_setLoader (s : State) (v : Loader) (n : Station) : (s.setLoader v).entry n = s.entry n := rfl
@[simp] theorem State.entry_setWatch (s : State) (v : WatchUnit) (n : Station) : (s.setWatch v).entry n = s.entry n := rfl
@[simp] theorem State.entry_setLine (s : State) (v : LineInterface) (n : Station) : (s.setLine v).entry n = s.entry n := rfl
@[simp] theorem State.entry_setEngine (s : State) (v : Engine) (n : Station) : (s.setEngine v).entry n = s.entry n := rfl
@[simp] theorem State.entry_setSlate (s : State) (v : Slate) (n : Station) : (s.setSlate v).entry n = s.entry n := rfl
@[simp] theorem State.entry_setHealth (s : State) (v : HealthMonitor) (n : Station) :
    (s.setHealth v).entry n = s.entry n := rfl
@[simp] theorem State.entry_setTerms (s : State) (v : TermEvaluator) (n : Station) : (s.setTerms v).entry n = s.entry n := rfl
@[simp] theorem State.entry_setTap (s : State) (v : Tap) (n : Station) : (s.setTap v).entry n = s.entry n := rfl
@[simp] theorem State.entry_setPending (s : State) (v : List Instr) (n : Station) :
    (s.setPending v).entry n = s.entry n := rfl
@[simp] theorem State.entry_setTable (s : State) (v : PeerTable) (n : Station) :
    (s.setTable v).entry n = PeerTable.entry v n := rfl
@[simp] theorem State.entry_raise (k : NoticeKind) (a : Option Station) (b : Option (Fin 16)) (v : Option NoticeValue)
    (s : State) (n : Station) : (s.raise k a b v).entry n = s.entry n := rfl
@[simp] theorem State.entry_raiseStation (k : NoticeKind) (a : Station) (s : State) (n : Station) :
    (s.raiseStation k a).entry n = s.entry n := rfl
@[simp] theorem State.entry_raiseValue (k : NoticeKind) (v : NoticeValue) (s : State) (n : Station) :
    (s.raiseValue k v).entry n = s.entry n := rfl
@[simp] theorem State.entry_raiseHeard (a : Station) (s : State) (n : Station) : (s.raiseHeard a).entry n = s.entry n :=
  State.entry_of_table (by simp) n
@[simp] theorem State.entry_tableChanged (s : State) (n : Station) : s.tableChanged.entry n = s.entry n :=
  State.entry_of_table (by simp) n
@[simp] theorem State.entry_departuresSeen (gs : List DepartureSignal) (s : State) (n : Station) :
    (s.departuresSeen gs).entry n = s.entry n := State.entry_of_table (by simp) n
@[simp] theorem State.entry_applyRelease (m : ZoneMask) (a : Option Station) (s : State) (n : Station) :
    (s.applyRelease m a).entry n = s.entry n := State.entry_of_table (by simp) n
@[simp] theorem State.entry_enterTerms (s : State) (n : Station) : s.enterTerms.entry n = s.entry n :=
  State.entry_of_table (by simp) n
@[simp] theorem State.entry_requestRefresh (s : State) (n : Station) : s.requestRefresh.entry n = s.entry n :=
  State.entry_of_table (by simp) n
@[simp] theorem State.entry_healthActions (old new : Health) (s : State) (n : Station) :
    (s.healthActions old new).entry n = s.entry n := State.entry_of_table (by simp) n
@[simp] theorem State.entry_declareConflict (s : State) (n : Station) : s.declareConflict.entry n = s.entry n :=
  State.entry_of_table (by simp) n
@[simp] theorem State.entry_sighting (s : State) (n : Station) : s.sighting.entry n = s.entry n :=
  State.entry_of_table (by simp) n
@[simp] theorem State.entry_countOutcome (o : FrameOutcome) (s : State) (n : Station) :
    (s.countOutcome o).entry n = s.entry n := rfl
@[simp] theorem State.entry_enterDiscarding (s : State) (n : Station) : s.enterDiscarding.entry n = s.entry n := rfl
@[simp] theorem State.entry_enterIdle (g : Nat) (s : State) (n : Station) : (s.enterIdle g).entry n = s.entry n := rfl
@[simp] theorem State.entry_setFrame (x : EngineState) (f : Frame) (s : State) (n : Station) :
    (s.setFrame x f).entry n = s.entry n := rfl
@[simp] theorem State.entry_confirming (v : Verdict) (b : Bool) (s : State) (n : Station) :
    (s.confirming v b).entry n = s.entry n := rfl
@[simp] theorem State.entry_followed (f : Frame) (ps : List BitPeriod) (q : Quarter) (r : Reception) (s : State)
    (n : Station) : (s.followed f ps q r).entry n = s.entry n := rfl
@[simp] theorem State.entry_afterWindow (s : State) (n : Station) : s.afterWindow.entry n = s.entry n :=
  State.entry_of_table (by simp) n

/-- Number 0 names no entry (R1). -/
@[simp] theorem State.entry_zero (s : State) : s.entry 0 = Entry.blank := PeerTable.entry_zero _

/-- The self entry after its phase code is replaced (R26). -/
theorem State.entry_setSelfPhase (p : PhaseCode) (s : State) (m : Station) :
    (s.setSelfPhase p).entry m =
      if m = s.ctrl.ownNumber ∧ s.ctrl.ownNumber ≠ 0 then
        { s.entry m with
          report := (s.entry m).report.map (fun r => { r with content := { r.content with phase := p } }) }
      else s.entry m := State.entry_updateSelfReport s _ m

/-! ### A change of health (R113) -/

/-- The reported code of a health state, in the words of the statements (R26). -/
theorem Health.reportCode_eq (h : Health) :
    h.reportCode = if h = .normal then HealthCode.normal else HealthCode.restrained := by
  cases h <;> rfl

/-- Each entry after an outcome's weight: the self entry's health code follows a change of health (R26, R113). -/
theorem State.entry_weighOutcome (o : FrameOutcome) (s : State) (m : Station) :
    (s.weighOutcome o).entry m =
      if m = s.ctrl.ownNumber ∧ s.ctrl.ownNumber ≠ 0 then
        { s.entry m with report := selfReportAfterHealth s (s.weighOutcome o) (s.entry m).report }
      else s.entry m := by
  have hstate : (s.weighOutcome o).health.state = nextHealth (o.weigh s.health.garble) s.health.state := by
    rw [State.weighOutcome_health]
  rw [selfReportAfterHealth, hstate, State.weighOutcome, State.changeHealth]
  split
  · next h =>
    have h : nextHealth (o.weigh s.health.garble) s.health.state = s.health.state := h
    rw [if_pos h, State.entry_setHealth]
    exact (ite_self _).symm
  · next h =>
    have h : ¬ nextHealth (o.weigh s.health.garble) s.health.state = s.health.state := h
    rw [if_neg h, State.entry_healthActions, State.entry_raiseValue, State.setSelfHealth, State.entry_updateSelfReport,
      Health.reportCode_eq]
    rfl

/-- The requests of the return to NORMAL (R117). -/
theorem State.returnRequests_slate (s : State) (h : s.health.state = .normal) :
    (if s.ctrl.phase = .joining then s.requestResync.requestRefresh.requestJoin
      else s.requestResync.requestRefresh).slate =
      { s.slate with
        resync := s.slate.resync || (decide (s.ctrl.phase = .joining) || decide (s.ctrl.phase = .running))
        refresh := s.slate.refresh || (decide (s.ctrl.phase = .joining) || decide (s.ctrl.phase = .running))
        join := s.slate.join || decide (s.ctrl.phase = .joining) } := by
  by_cases hj : s.ctrl.phase = .joining
  · simp [hj, State.requestJoin_slate, State.requestRefresh_slate, State.requestResync_slate, State.takes, takesKind, h]
  · simp [hj, State.requestRefresh_slate, State.requestResync_slate, State.takes, takesKind, h]

/-- The slate after a change of health (R113, R115, R117). -/
theorem State.changeHealth_slate (new : Health) (s : State) :
    (s.changeHealth new).slate = slateAfterHealth s.ctrl.phase s (s.changeHealth new) s.slate := by
  have hkept : new = s.health.state → (s.changeHealth new).slate = s.slate := fun h => by rw [State.changeHealth, if_pos h]
  rw [slateAfterHealth, State.changeHealth_health]
  split
  · next h => exact hkept h
  · next h =>
    rw [State.changeHealth, if_neg h]
    cases hs : s.health.state <;> cases new <;>
      first
        | exact absurd hs.symm h
        | rfl
        | exact State.returnRequests_slate _ rfl

/-- The notices after a change of health (R113). -/
theorem State.changeHealth_notices (new : Health) (s : State) :
    (s.changeHealth new).notices = healthNotices s (s.changeHealth new) s.notices := by
  rw [healthNotices, State.changeHealth_health, State.changeHealth]
  split
  · rfl
  · simp [State.raiseValue, State.raise, plainNotice]

/-- What an outcome's weight does beside the count (R113 to R117). -/
theorem State.weighOutcome_follows (o : FrameOutcome) (s : State) :
    healthFollows s.ctrl.phase s.slate s.notices (s.entry s.ctrl.ownNumber).report s (s.weighOutcome o) := by
  refine ⟨State.changeHealth_slate _ _, State.changeHealth_notices _ _, ?_⟩
  rw [State.entry_weighOutcome]
  by_cases h : s.ctrl.ownNumber = 0
  · have hblank : (s.entry s.ctrl.ownNumber).report = none := by rw [h, State.entry_zero]; rfl
    rw [if_neg (fun hc => hc.2 h), hblank]
    simp [selfReportAfterHealth]
  · rw [if_pos ⟨rfl, h⟩]

/-- What follows an outcome speaks of these parts of the two states alone. -/
theorem healthFollows_congr {phase : Phase} {x : Slate} {q : List Notice} {r : Option StoredReport} {s s' t t' : State}
    (hstate : s'.health.state = s.health.state) (htick : s'.ctrl.tick = s.ctrl.tick)
    (hown : s'.ctrl.ownNumber = s.ctrl.ownNumber) (hhealth : t'.health.state = t.health.state)
    (hslate : t'.slate = t.slate) (hnotices : t'.notices = t.notices)
    (hentry : ∀ n, t'.entry n = t.entry n) (h : healthFollows phase x q r s t) : healthFollows phase x q r s' t' := by
  obtain ⟨h1, h2, h3⟩ := h
  refine ⟨?_, ?_, ?_⟩
  · rw [hslate, h1]; simp only [slateAfterHealth, hstate, hhealth]
  · rw [hnotices, h2]; simp only [healthNotices, hstate, hhealth, plainNotice, htick]
  · rw [hown, hentry, h3]; simp only [selfReportAfterHealth, hstate, hhealth]

/-- The monitor after an outcome, in the words of the statements. -/
theorem State.weighOutcome_healthAfter (o : FrameOutcome) (s : State) :
    healthAfter (o.weigh s.health.garble) s (s.weighOutcome o) := by
  rw [healthAfter, State.weighOutcome_health]
  exact ⟨rfl, rfl, rfl⟩

end Sys2Proof.Machine
end

