-- ==== Sys2Proof/Proofs/PeerTable02_Operations.lean ====
section
/-! The after-reset state, and the operations of the peer table taken alone (R6 to R9, R16, R29, R162). -/

namespace Sys2Proof.Machine

/-! ### Resets (R29, R162) -/

/-- Every entry after a reset (R29). -/
theorem State.entry_resetBy (cause : ResetCause) (pins : Pins) (s : State) (n : Station) :
    (s.resetBy cause pins).entry n = Entry.blank := by
  by_cases h : n = 0
  · rw [h, State.entry_zero]
  · rw [State.entry, PeerTable.entry_eq _ h]
    exact Vector.getElem_replicate _

/-- A reset leaves every block at the values its chapter gives (R162). -/
theorem State.resetBy_afterReset (cause : ResetCause) (pins : Pins) (s : State) :
    State.AfterReset cause (s.resetBy cause pins) where
  phase := rfl
  fault := rfl
  resetCause := rfl
  ownNumber := rfl
  ticks := ⟨rfl, rfl⟩
  fingerprint := rfl
  loader := ⟨rfl, rfl, rfl, rfl⟩
  sampling := rfl
  lines := fun k => Vector.getElem_replicate k.isLt
  groups := fun g => Vector.getElem_replicate g.isLt
  interface := ⟨rfl, rfl, rfl⟩
  driver := ⟨rfl, rfl, rfl⟩
  engine := ⟨rfl, rfl, rfl⟩
  counters := rfl
  entries := State.entry_resetBy cause pins s
  slots := ⟨rfl, rfl, rfl, rfl, rfl⟩
  sequences := ⟨rfl, rfl⟩
  marks := ⟨rfl, rfl⟩
  health := ⟨rfl, rfl, rfl⟩
  terms := fun i => Vector.getElem_replicate i.isLt
  held := ⟨rfl, rfl⟩
  rel := rfl
  outputs := ⟨fun d => Vector.getElem_replicate d.isLt, rfl⟩
  notices := rfl
  tap := ⟨rfl, rfl, rfl, rfl, rfl, rfl, rfl⟩

/-- Settles O4: both commands reset by their own cause, with the hold they begin. -/
theorem heldResetsClearEveryBlock : Obligations.HeldResetsClearEveryBlock := by
  unfold Obligations.HeldResetsClearEveryBlock
  intro s
  exact ⟨⟨_, rfl, State.resetBy_afterReset _ _ s, rfl, rfl⟩, ⟨_, rfl, State.resetBy_afterReset _ _ s, rfl, rfl⟩⟩

/-- Settles O7: State.reset is what a power-on reset leaves, with no hold and no command waiting. -/
theorem resetStateIsAfterPowerOn : Obligations.ResetStateIsAfterPowerOn := by
  unfold Obligations.ResetStateIsAfterPowerOn
  exact ⟨State.resetBy_afterReset .power State.reset.pins State.reset, rfl, rfl⟩

/-- Settles O50: each condition evaluated at State.reset; those over all stations and terms through their lists. -/
theorem resetMeetsEveryInvariant : Obligations.ResetMeetsEveryInvariant := by
  unfold Obligations.ResetMeetsEveryInvariant
  have hterms : State.reset.termsOk = true := by decide +kernel
  have houtputs : State.reset.outputsOk = true := by decide +kernel
  have hself : State.reset.selfOk = true := by decide +kernel
  have htable : State.reset.tableOk = true := by decide +kernel
  exact ⟨rfl, rfl, rfl, rfl, rfl, hterms, houtputs, hself, htable, rfl⟩

/-! ### A sequence gap (R16) -/

/-- Settles O41: one update of entry n, then its notice. -/
theorem sequenceGapCountsAndNotifies : Obligations.SequenceGapCountsAndNotifies := by
  unfold Obligations.SequenceGapCountsAndNotifies
  intro n s hn
  refine ⟨?_, ?_, ?_, ?_⟩
  · intro b hb
    cases b <;> simp_all [sameBlock]
  · intro m hm
    rw [State.sequenceGap, State.entry_raiseStation, State.entry_updateEntry_ne s hm]
  · rw [State.sequenceGap, State.entry_raiseStation, State.entry_updateEntry_same s hn]
    rfl
  · simp [State.sequenceGap, State.raiseStation, State.raise, plainNotice]

/-! ### Evidence and STATE frames (R6 to R9) -/

/-- Each entry after the presence effects of a STATE frame (R9). -/
theorem State.entry_statePresence (s : State) (m n : Station) :
    (s.statePresence n).entry m =
      if m = n ∧ n ≠ 0 ∧ (s.entry n).presence ≠ .self then { s.entry n with presence := .present, age := 0 }
      else s.entry m := by
  have hmoved := State.entry_updateEntry s m n (fun e => { e with presence := .present, age := 0 })
  cases hp : (s.entry n).presence <;>
    simp only [State.statePresence, hp, State.entry_raiseStation, State.entry_raiseHeard, hmoved] <;> simp

/-- The notices of a STATE frame's presence effects (R6, R9). -/
def presentNotices (s : State) (n : Station) (q : List Notice) : List Notice :=
  let present := { plainNotice .peerPresent s with station := some n }
  match (s.entry n).presence with
  | .absent => pushNotice (heardNotices s n q) present
  | .heard => pushNotice q present
  | .silent => pushNotice q present
  | .present => q
  | .self => q

theorem State.statePresence_notices (n : Station) (s : State) :
    (s.statePresence n).notices = presentNotices s n s.notices := by
  have hroster : ((s.updateEntry n (fun e => { e with presence := .present, age := 0 })).entry n).roster =
      (s.entry n).roster := by
    rw [State.entry_updateEntry]; split <;> rfl
  cases hp : (s.entry n).presence <;>
    simp [State.statePresence, presentNotices, heardNotices, hp, State.raiseHeard, hroster, State.raiseStation,
      State.raise, plainNotice]
  split <;> simp

/-- Settles O40, presence by presence. -/
theorem evidenceMovesPresence : Obligations.EvidenceMovesPresence := by
  unfold Obligations.EvidenceMovesPresence
  intro n s hn
  dsimp only
  have hentry : (s.evidence n).entry n = (s.entry n).evidenced := by rw [State.entry_evidence, if_pos ⟨rfl, hn⟩]
  have hstate : (s.entry n).presence ≠ .self →
      (s.statePresence n).entry n = { s.entry n with presence := .present, age := 0 } := by
    intro hself
    rw [State.entry_statePresence, if_pos ⟨rfl, hn, hself⟩]
  rw [hentry, State.evidence_notices, State.statePresence_notices]
  refine ⟨?_, ?_, fun hp => ?_, fun hp => ?_, fun hp => ?_⟩
  · intro b hb
    cases b <;> simp_all [sameBlock]
  · intro m hm
    rw [State.entry_evidence, if_neg (fun h => hm h.1)]
  · rw [hstate (by simp [hp])]
    simp [Entry.evidenced, evidencePresence, heardNotices, presentNotices, hp]
  · rcases hp with hp | hp
    all_goals
      rw [hstate (by simp [hp])]
      simp [Entry.evidenced, evidencePresence, heardNotices, hp]
  · simp [Entry.evidenced, evidencePresence, heardNotices, hp]

end Sys2Proof.Machine
end

