-- ==== Sys2Proof/Proofs/PeerTable03_Acceptance.lean ====
section
/-! SUPPORT. What the table does with an accepted frame: the sender's entry, the notices, and what reaches the evaluator
(R9, R13 to R24, R27). -/

namespace Sys2Proof.Machine

/-! ### Updates of one entry -/

/-- From s to t entry n alone changes, as g changes it. -/
def updatesEntry (n : Station) (g : Entry → Entry) (s t : State) : Prop :=
  ∀ m, t.entry m = if m = n ∧ n ≠ 0 then g (s.entry n) else s.entry m

theorem updatesEntry.same {n : Station} {g : Entry → Entry} {s t : State} (h : updatesEntry n g s t) (hn : n ≠ 0) :
    t.entry n = g (s.entry n) := by rw [h, if_pos ⟨rfl, hn⟩]

theorem updatesEntry.kept {n : Station} {g : Entry → Entry} {s t : State} (h : updatesEntry n g s t) :
    entriesKept n s t := fun m hm => by rw [h, if_neg (fun hc => hm hc.1)]

/-- An update, then another of the same entry. -/
theorem updatesEntry.trans {n : Station} {g g' : Entry → Entry} {s t u : State} (h : updatesEntry n g s t)
    (h' : updatesEntry n g' t u) : updatesEntry n (fun e => g' (g e)) s u := by
  intro m
  by_cases hm : m = n ∧ n ≠ 0
  · rw [h' m, if_pos hm, if_pos hm, h.same hm.2]
  · rw [h' m, if_neg hm, if_neg hm, h m, if_neg hm]

/-- The same update, in other words for the entry at hand. -/
theorem updatesEntry.congr {n : Station} {g g' : Entry → Entry} {s t : State} (h : updatesEntry n g s t)
    (hg : g (s.entry n) = g' (s.entry n)) : updatesEntry n g' s t := by
  intro m; rw [h m, hg]

/-- An update between states that read the same entries. -/
theorem updatesEntry.of_entries {n : Station} {g : Entry → Entry} {s s' t t' : State} (h : updatesEntry n g s t)
    (hs : ∀ m, s'.entry m = s.entry m) (ht : ∀ m, t'.entry m = t.entry m) : updatesEntry n g s' t' := by
  intro m; rw [ht, hs, hs]; exact h m

theorem State.updateEntry_updates (n : Station) (g : Entry → Entry) (s : State) :
    updatesEntry n g s (s.updateEntry n g) := fun m => State.entry_updateEntry s m n g

theorem State.evidence_updates (n : Station) (s : State) : updatesEntry n Entry.evidenced s (s.evidence n) :=
  fun m => State.entry_evidence s m n

theorem State.storeReport_updates (n : Station) (q : Nibble) (content : ReportContent) (s : State) :
    updatesEntry n (fun e => { e with report := some { sequence := q, content := content, stale := false } }) s
      (s.storeReport n q content) := State.updateEntry_updates n _ s

theorem State.keepReport_updates (n : Station) (s : State) :
    updatesEntry n (fun e => { e with report := e.report.map (fun r => { r with stale := false }) }) s
      (s.keepReport n) := State.updateEntry_updates n _ s

theorem State.sequenceGap_updates (n : Station) (s : State) :
    updatesEntry n (fun e => { e with sequenceGaps := saturate8 e.sequenceGaps }) s (s.sequenceGap n) :=
  (State.updateEntry_updates n _ s).of_entries (fun _ => rfl) (State.entry_raiseStation _ n _)

/-- An entry after a STATE frame's presence effects (R9). -/
def Entry.presented (e : Entry) : Entry :=
  if e.presence = .self then e else { e with presence := .present, age := 0 }

theorem State.statePresence_updates (n : Station) (s : State) :
    updatesEntry n Entry.presented s (s.statePresence n) := by
  intro m
  rw [State.entry_statePresence, Entry.presented]
  by_cases hself : (s.entry n).presence = .self
  · rw [if_neg (fun h => h.2.2 hself), if_pos hself]
    split
    · next h => rw [h.1]
    · rfl
  · by_cases hm : m = n ∧ n ≠ 0
    · rw [if_pos ⟨hm.1, hm.2, hself⟩, if_pos hm, if_neg hself]
    · rw [if_neg (fun h => hm ⟨h.1, h.2.1⟩), if_neg hm]

/-- An entry with its frames accepted counter advanced (R27). -/
def Entry.counted (e : Entry) : Entry := { e with framesAccepted := e.framesAccepted + 1 }

theorem State.countAccepted_updates (n : Station) (s : State) :
    updatesEntry n Entry.counted s (s.countAccepted n) := State.updateEntry_updates n _ s

/-! ### CHANGE and REFRESH (R13 to R18) -/

/-- A frame's report leaves a gap to the stored one (R14, R15). -/
def leavesGap (k : Kind) (q : Nibble) (content : ReportContent) (p : StoredReport) : Bool :=
  if k = .change then decide (q ≠ p.sequence + 1 ∧ ¬(q = p.sequence ∧ content = p.content))
  else decide (q ≠ p.sequence)

/-- The table up to the sequence gap, as the first part of an accepted CHANGE or REFRESH (R18). -/
def State.reportTaken (k : Kind) (n : Station) (q : Nibble) (content : ReportContent) (s : State) : State :=
  let present := s.statePresence n
  match (s.entry n).report with
  | none => present.storeReport n q content
  | some old =>
    let c := reportCase k q content old
    let stored := if c.stores then present.storeReport n q content else present.keepReport n
    if c.gap then stored.sequenceGap n else stored

/-- The groups of a roster member whose tally the frame changes (R17). -/
def talliesChanged (e : Entry) (content : ReportContent) : List (Fin 4) :=
  groupIndices.filter (fun g =>
    e.roster && e.report.any (fun p => decide (p.content.groups[g].tally ≠ content.groups[g].tally)))

/-- The signal for a group of an entry (R17). -/
def groupSignal (e : Entry) (g : Fin 4) : DepartureSignal := { own := false, zones := signalZones e.zoneMap g }

/-- The two cases of R14 and R15, where a report is stored: what is kept is what came, and the gap is as `leavesGap` says. -/
theorem reportCase_spec {k : Kind} (hk : k = .change ∨ k = .refresh) (q : Nibble) (content : ReportContent)
    (old : StoredReport) :
    (reportCase k q content old).gap = leavesGap k q content old ∧
      ((reportCase k q content old).stores = false → q = old.sequence ∧ content = old.content) := by
  rcases hk with rfl | rfl
  · by_cases h1 : q = old.sequence + 1
    · simp [reportCase, leavesGap, h1]
    · by_cases h2 : q = old.sequence ∧ content = old.content
      · simp only [reportCase, leavesGap, if_neg h1, if_pos h2]
        simp [h2]
      · simp only [reportCase, leavesGap, if_neg h1, if_neg h2]
        simp only [ne_eq, h1, h2, not_false_eq_true, and_self, decide_true, if_true]
        simp
  · exact ⟨rfl, fun h => by cases h⟩

/-- A report received again changes no tally. -/
theorem talliesChanged_same (e : Entry) (old : StoredReport) (h : e.report = some old) :
    talliesChanged e old.content = [] := by simp [talliesChanged, h]

/-- The signals of a stored report (R17). -/
theorem peerSignals_eq (e : Entry) (old : StoredReport) (content : ReportContent) (h : e.report = some old) :
    peerSignals e old.content content = (talliesChanged e content).map (groupSignal e) := by
  cases hr : e.roster <;> simp [peerSignals, talliesChanged, h, hr, groupSignal]

/-- The order of R18: the report with its gap, the terms, the signals, the counter. -/
theorem State.acceptState_eq {k : Kind} (hk : k = .change ∨ k = .refresh) (n : Station) (q : Nibble)
    (content : ReportContent) (s : State) :
    s.acceptState k n q content =
      (((s.reportTaken k n q content).tableChanged).departuresSeen
        ((talliesChanged (s.entry n) content).map (groupSignal (s.entry n)))).countAccepted n := by
  cases hr : (s.entry n).report with
  | none =>
    have hnone : talliesChanged (s.entry n) content = [] := by simp [talliesChanged, hr]
    rw [hnone]
    simp only [State.acceptState, State.reportTaken, hr]
    rfl
  | some old =>
    have hsignals : (if (reportCase k q content old).stores then peerSignals (s.entry n) old.content content else []) =
        (talliesChanged (s.entry n) content).map (groupSignal (s.entry n)) := by
      rw [peerSignals_eq _ _ _ hr]
      cases hs : (reportCase k q content old).stores
      · rw [((reportCase_spec hk q content old).2 hs).2, talliesChanged_same _ _ hr]; rfl
      · rfl
    rw [← hsignals]
    simp only [State.acceptState, State.reportTaken, hr]

@[simp] theorem State.reportTaken_frame (k : Kind) (n : Station) (q : Nibble) (r : ReportContent) (s : State) :
    (s.reportTaken k n q r).pins = s.pins ∧ (s.reportTaken k n q r).ctrl = s.ctrl ∧
      (s.reportTaken k n q r).loader = s.loader ∧ (s.reportTaken k n q r).watch = s.watch ∧
      (s.reportTaken k n q r).line = s.line ∧ (s.reportTaken k n q r).engine = s.engine ∧
      (s.reportTaken k n q r).slate = s.slate ∧ (s.reportTaken k n q r).health = s.health ∧
      (s.reportTaken k n q r).terms = s.terms ∧ (s.reportTaken k n q r).outputs = s.outputs ∧
      (s.reportTaken k n q r).outputTrace = s.outputTrace ∧ (s.reportTaken k n q r).tap = s.tap ∧
      (s.reportTaken k n q r).pending = s.pending := by
  unfold State.reportTaken
  dsimp only
  repeat' split
  all_goals simp

/-- An entry brought to PRESENT by a STATE frame, with its report and its gap (R9, R12 to R16). -/
def Entry.reported (k : Kind) (q : Nibble) (content : ReportContent) (e : Entry) : Entry :=
  { e.presented with
    report := some { sequence := q, content := content, stale := false }
    sequenceGaps := if e.report.any (leavesGap k q content) then saturate8 e.sequenceGaps else e.sequenceGaps }

/-- The presence effects leave the report and its counter. -/
theorem Entry.presented_report (e : Entry) :
    e.presented.report = e.report ∧ e.presented.sequenceGaps = e.sequenceGaps := by
  rw [Entry.presented]; split <;> exact ⟨rfl, rfl⟩

theorem State.reportTaken_updates {k : Kind} (hk : k = .change ∨ k = .refresh) (n : Station) (q : Nibble)
    (content : ReportContent) (s : State) :
    updatesEntry n (Entry.reported k q content) s (s.reportTaken k n q content) := by
  have hpresent := State.statePresence_updates n s
  have hentry := (s.entry n).presented_report
  have hstore : updatesEntry n (fun e => { e.presented with
      report := some { sequence := q, content := content, stale := false } }) s
      ((s.statePresence n).storeReport n q content) := hpresent.trans (State.storeReport_updates n q content _)
  cases hr : (s.entry n).report with
  | none =>
    have htaken : s.reportTaken k n q content = (s.statePresence n).storeReport n q content := by
      simp only [State.reportTaken, hr]
    rw [htaken]
    exact hstore.congr (by simp only [Entry.reported, hr, Option.any_none, hentry.2]; rfl)
  | some old =>
    obtain ⟨hgap, hkept⟩ := reportCase_spec hk q content old
    have hstored : updatesEntry n (fun e => { e.presented with
        report := some { sequence := q, content := content, stale := false } }) s
        (if (reportCase k q content old).stores then (s.statePresence n).storeReport n q content
          else (s.statePresence n).keepReport n) := by
      cases hs : (reportCase k q content old).stores
      · obtain ⟨rfl, rfl⟩ := hkept hs
        rw [if_neg Bool.false_ne_true]
        exact (hpresent.trans (State.keepReport_updates n _)).congr (by simp only [hentry.1, hr, Option.map_some])
      · exact hstore
    simp only [State.reportTaken, hr]
    cases hg : (reportCase k q content old).gap
    · refine hstored.congr ?_
      simp only [Entry.reported, hr, Option.any_some, ← hgap, hg, hentry.2]
      rfl
    · refine (hstored.trans (State.sequenceGap_updates n _)).congr ?_
      simp only [Entry.reported, hr, Option.any_some, ← hgap, hg, hentry.2]
      rfl

/-- The sender's entry after an accepted CHANGE or REFRESH (R9, R12 to R16, R27). -/
theorem State.acceptState_updates {k : Kind} (hk : k = .change ∨ k = .refresh) (n : Station) (q : Nibble)
    (content : ReportContent) (s : State) :
    updatesEntry n (fun e => (e.reported k q content).counted) s (s.acceptState k n q content) := by
  rw [State.acceptState_eq hk]
  have hsame : updatesEntry n (Entry.reported k q content) s
      (((s.reportTaken k n q content).tableChanged).departuresSeen
        ((talliesChanged (s.entry n) content).map (groupSignal (s.entry n)))) :=
    (State.reportTaken_updates hk n q content s).of_entries (fun _ => rfl) (fun m => by simp)
  exact hsame.trans (State.countAccepted_updates n _)

/-! ### JOIN, RESYNC and RELEASE (R20 to R24) -/

/-- A JOIN's fingerprint is the station's own (R21). -/
def State.planAgrees (payload : List Bool) (s : State) : Bool :=
  decide (s.ctrl.fingerprint = some (joinFingerprint payload))

/-- The table up to the notices, as the first part of an accepted JOIN (R20, R21). -/
def State.joinTaken (n : Station) (payload : List Bool) (s : State) : State :=
  let joined := (s.evidence n).updateEntry n
    (Entry.joined (joinFingerprint payload) (joinZones payload) (s.planAgrees payload))
  let noticed := joined.raiseStation .peerJoined n
  if s.planAgrees payload then noticed else noticed.raiseStation .planMismatch n

theorem State.acceptJoin_eq (n : Station) (payload : List Bool) (s : State) :
    s.acceptJoin n payload = (((s.joinTaken n payload).countAccepted n).tableChanged).requestRefresh := rfl

theorem State.joinTaken_updates (n : Station) (payload : List Bool) (s : State) :
    updatesEntry n (fun e => e.evidenced.joined (joinFingerprint payload) (joinZones payload) (s.planAgrees payload)) s
      (s.joinTaken n payload) := by
  refine ((State.evidence_updates n s).trans (State.updateEntry_updates n _ _)).of_entries (fun _ => rfl) (fun m => ?_)
  simp only [State.joinTaken]
  split <;> simp only [State.entry_raiseStation]

/-- The sender's entry after an accepted JOIN (R20, R21, R27). -/
theorem State.acceptJoin_updates (n : Station) (payload : List Bool) (s : State) :
    updatesEntry n (fun e =>
      (e.evidenced.joined (joinFingerprint payload) (joinZones payload) (s.planAgrees payload)).counted) s
      (s.acceptJoin n payload) := by
  rw [State.acceptJoin_eq]
  exact ((State.joinTaken_updates n payload s).trans (State.countAccepted_updates n _)).of_entries (fun _ => rfl)
    (fun m => by simp only [State.entry_requestRefresh, State.entry_tableChanged])

/-- The sender's entry after an accepted RESYNC (R22, R27). -/
theorem State.acceptResync_updates (n : Station) (s : State) :
    updatesEntry n (fun e => e.evidenced.counted) s (s.acceptResync n) :=
  ((State.evidence_updates n s).trans (State.countAccepted_updates n _)).of_entries (fun _ => rfl)
    (fun m => by simp [State.acceptResync])

/-- The sender's entry after an accepted RELEASE: a sequence not stored before is stored (R23, R27). -/
theorem State.acceptRelease_updates (n : Station) (q : Nibble) (z : ZoneMask) (s : State) :
    updatesEntry n (fun e => { e.evidenced.counted with lastRelease := some q }) s (s.acceptRelease n q z) := by
  have hheard := (State.evidence_updates n s).trans (State.countAccepted_updates n _)
  have hstored := hheard.trans (State.updateEntry_updates n (fun e => { e with lastRelease := some q }) _)
  have hlast : (s.entry n).evidenced.lastRelease = (s.entry n).lastRelease := by
    rw [Entry.evidenced]; split <;> rfl
  simp only [State.acceptRelease]
  split
  · next hdup =>
    refine (hheard.congr ?_).of_entries (fun _ => rfl) (fun m => by simp)
    rw [← hdup, ← hlast]
    rfl
  · split
    · exact hstored.of_entries (fun _ => rfl) (fun m => by simp)
    · exact hstored.of_entries (fun _ => rfl) (fun m => by simp)

/-! ### The frame received (R64, R65) -/

/-- A judgement other than REJECTED, in the words of the statements (R64). -/
theorem ReceivedFrame.judge_of_malformed {own : Station} {f : ReceivedFrame} (h : f.malformed) :
    f.judge own = .rejected := by
  rw [ReceivedFrame.judge]
  repeat' split
  all_goals first
    | rfl
    | simp_all [ReceivedFrame.malformed, protocolRevision]

theorem ReceivedFrame.judge_of_wellFormed {own : Station} {f : ReceivedFrame} (h : ¬ f.malformed) :
    f.judge own = if f.number = own then .numberConflict else .accepted := by
  simp only [ReceivedFrame.malformed, not_or] at h
  obtain ⟨hcheck, hzero, hurgency, hrevision⟩ := h
  have hrevision : ¬ (f.kind = .join ∧ joinRevision f.payload ≠ protocolRevision) := hrevision
  rw [ReceivedFrame.judge, if_neg hcheck, if_neg hzero, if_neg hurgency, if_neg hrevision]

theorem ReceivedFrame.number_ne_zero {f : ReceivedFrame} (h : ¬ f.malformed) : f.number ≠ 0 :=
  fun h0 => h (.inr (.inl h0))

/-- A frame received whole: the frame in progress it ends, and the judgement the command makes of it (R64, R65). -/
theorem State.receivedFrame_spec {bits : List BitPeriod} {s : State} {r : ReceivedFrame}
    (h : s.receivedFrame bits = some r) :
    ∃ f x, s.frameIn .receiving = some f ∧
      exec (.frameReceived bits) s = .next ((s.followed f bits .q4 x).judged r) := by
  simp only [State.receivedFrame, Option.bind_eq_some_iff] at h
  obtain ⟨f, hf, h⟩ := h
  refine ⟨f, ?_⟩
  cases hx : s.received f bits <;> rw [hx] at h <;> cases h
  case checkEnd k x => exact ⟨x, hf, by simp only [exec, execFrameReceived, hf, hx]⟩

/-- What FRAME_RECEIVED does: it judges the frame received, or nothing. -/
theorem execFrameReceived_cases {bits : List BitPeriod} {s t : State} (h : exec (.frameReceived bits) s = .next t) :
    t = s ∨ ∃ r f x, s.receivedFrame bits = some r ∧ s.frameIn .receiving = some f ∧
      t = (s.followed f bits .q4 x).judged r := by
  simp only [exec, execFrameReceived] at h
  cases hf : s.frameIn .receiving with
  | none => rw [hf] at h; cases h; exact .inl rfl
  | some f =>
    rw [hf] at h
    cases hx : s.received f bits <;> simp only [hx, Host.Outcome.next.injEq] at h
    case checkEnd k x =>
      exact .inr ⟨decodeFrame k x.bits, f, x, by simp [State.receivedFrame, hf, hx], rfl, h.symm⟩
    all_goals exact .inl h.symm

/-- A stopped engine has no frame in progress (R47). -/
theorem State.engineRuns_of_frameIn {s : State} {x : EngineState} {f : Frame} (h : s.frameIn x = some f) :
    s.engineRuns = true ∧ s.engine.state = x ∧ s.engine.frame = some f := by
  rw [State.frameIn] at h
  split at h
  · next hr => exact ⟨hr.1, hr.2, h⟩
  · cases h

/-- A frame that fails a test (R64, R70). -/
theorem State.judged_malformed {r : ReceivedFrame} {s : State} (h : r.malformed) : s.judged r = s.reject := by
  simp only [State.judged, ReceivedFrame.judge_of_malformed h]

/-- A frame that bears the own number (R121). -/
theorem State.judged_conflict {r : ReceivedFrame} {s : State} (h : ¬ r.malformed) (hn : r.number = s.ctrl.ownNumber) :
    s.judged r = s.declareConflict := by
  simp only [State.judged, ReceivedFrame.judge_of_wellFormed h, if_pos hn]

/-- An accepted frame, from the state the bit periods leave (R65, R66). -/
theorem State.judged_accepted {r : ReceivedFrame} {s : State} (h : ¬ r.malformed) (hn : r.number ≠ s.ctrl.ownNumber) :
    s.judged r = s.accept r := by
  simp only [State.judged, ReceivedFrame.judge_of_wellFormed h, if_neg hn]

end Sys2Proof.Machine
end

