-- ==== Sys2Proof/Proofs/PeerTable04_Kept.lean ====
section
/-! SUPPORT. What a command keeps of the table and of the self entry: the operations that disturb neither, those that
change the self entry with the station, and the commands one by one (R2, R12, R19, R25, R26). -/

namespace Sys2Proof.Machine

/-! ### Operations that disturb neither reports nor the self entry -/

/-- An entry as evidence, aging and the counters leave it: its roster flag, being SELF, its report's sequence and, where it
is PRESENT, its report stay; of a SELF entry all that shows the station stays. -/
structure Entry.Quiet (e e' : Entry) : Prop where
  roster : e'.roster = e.roster
  self : e'.presence = .self ↔ e.presence = .self
  present : e'.presence = .present → e.presence = .present ∧ e'.report = e.report
  sequence : e'.report.map (fun r => r.sequence) = e.report.map (fun r => r.sequence)
  shown : e.presence = .self → e'.report = e.report ∧ e'.lastRelease = e.lastRelease ∧ e'.age = e.age

theorem Entry.Quiet.refl (e : Entry) : e.Quiet e := ⟨rfl, Iff.rfl, fun h => ⟨h, rfl⟩, rfl, fun _ => ⟨rfl, rfl, rfl⟩⟩

theorem Entry.Quiet.trans {e e' e'' : Entry} (h : e.Quiet e') (h' : e'.Quiet e'') : e.Quiet e'' where
  roster := h'.roster.trans h.roster
  self := h'.self.trans h.self
  present := fun hp => ⟨(h.present (h'.present hp).1).1, (h'.present hp).2.trans (h.present (h'.present hp).1).2⟩
  sequence := h'.sequence.trans h.sequence
  shown := fun hs =>
    have ⟨r, l, a⟩ := h.shown hs
    have ⟨r', l', a'⟩ := h'.shown (h.self.mpr hs)
    ⟨r'.trans r, l'.trans l, a'.trans a⟩

theorem Entry.evidenced_quiet (e : Entry) : e.Quiet e.evidenced := by
  rw [Entry.evidenced]
  split
  · exact Entry.Quiet.refl e
  · next h =>
    cases hp : e.presence <;>
      exact ⟨rfl, by simp [evidencePresence, hp], by simp [evidencePresence, hp], rfl, fun hs => absurd hs h⟩

theorem Entry.aged_quiet (threshold : Nat) (e : Entry) : e.Quiet (Entry.aged threshold e) := by
  rw [Entry.aged_eq, agedEntry]
  split
  · next h =>
    have hself : e.presence ≠ .self := by rcases h with h | h <;> simp [h]
    split
    · exact ⟨rfl, by simp [hself], by simp, by simp [Option.map_map, Function.comp_def], fun hs => absurd hs hself⟩
    · exact ⟨rfl, Iff.rfl, fun h => ⟨h, rfl⟩, rfl, fun hs => absurd hs hself⟩
  · exact Entry.Quiet.refl e

theorem Entry.counted_quiet (e : Entry) : e.Quiet e.counted :=
  ⟨rfl, Iff.rfl, fun h => ⟨h, rfl⟩, rfl, fun _ => ⟨rfl, rfl, rfl⟩⟩

/-- The own sequences of the slate stay. -/
def sequencesKept (s t : State) : Prop :=
  t.slate.reportSequence = s.slate.reportSequence ∧ t.slate.releaseSequence = s.slate.releaseSequence

/-- A state as an operation leaves it that disturbs no entry and no value that the self entry shows. -/
structure State.Quiet (s t : State) : Prop where
  phase : t.ctrl.phase = s.ctrl.phase
  own : t.ctrl.ownNumber = s.ctrl.ownNumber
  config : t.loader.config = s.loader.config
  sequences : sequencesKept s t
  health : t.health.state = s.health.state
  watch : t.watch = s.watch
  entries : ∀ n, (s.entry n).Quiet (t.entry n)

theorem State.Quiet.refl (s : State) : s.Quiet s := ⟨rfl, rfl, rfl, ⟨rfl, rfl⟩, rfl, rfl, fun _ => Entry.Quiet.refl _⟩

theorem State.Quiet.trans {s t u : State} (h : s.Quiet t) (h' : t.Quiet u) : s.Quiet u where
  phase := h'.phase.trans h.phase
  own := h'.own.trans h.own
  config := h'.config.trans h.config
  sequences := ⟨h'.sequences.1.trans h.sequences.1, h'.sequences.2.trans h.sequences.2⟩
  health := h'.health.trans h.health
  watch := h'.watch.trans h.watch
  entries := fun n => (h.entries n).trans (h'.entries n)

/-- An operation that leaves these blocks whole is quiet. -/
theorem State.Quiet.of_blocks {s t : State} (hctrl : t.ctrl = s.ctrl) (hloader : t.loader = s.loader)
    (hhealth : t.health = s.health) (hwatch : t.watch = s.watch) (htable : t.table = s.table)
    (hslate : sequencesKept s t) : s.Quiet t :=
  ⟨by rw [hctrl], by rw [hctrl], by rw [hloader], hslate, by rw [hhealth], hwatch,
    fun n => by rw [State.entry_of_table htable]; exact Entry.Quiet.refl _⟩

/-- So is one that changes entries quietly. -/
theorem State.Quiet.of_entries {s t : State} (hctrl : t.ctrl = s.ctrl) (hloader : t.loader = s.loader)
    (hhealth : t.health = s.health) (hwatch : t.watch = s.watch) (hslate : sequencesKept s t)
    (hentries : ∀ n, n ≠ 0 → (s.entry n).Quiet (t.entry n)) : s.Quiet t :=
  ⟨by rw [hctrl], by rw [hctrl], by rw [hloader], hslate, by rw [hhealth], hwatch, fun n => by
    by_cases hn : n = 0
    · rw [hn, State.entry_zero, State.entry_zero]; exact Entry.Quiet.refl _
    · exact hentries n hn⟩

/-! ### The slate's requests and outcomes -/

theorem sequencesKept_of_slate {s t : State} (h : t.slate = s.slate) : sequencesKept s t := by
  rw [sequencesKept, h]; exact ⟨rfl, rfl⟩

theorem State.requestChange_sequences (d : Bool) (s : State) : sequencesKept s (s.requestChange d) := by
  rw [State.requestChange]; split <;> exact ⟨rfl, rfl⟩

theorem State.requestRelease_sequences (m : ZoneMask) (s : State) : sequencesKept s (s.requestRelease m) := by
  rw [State.requestRelease]; split <;> exact ⟨rfl, rfl⟩

theorem State.requestRefresh_sequences (s : State) : sequencesKept s s.requestRefresh := by
  rw [sequencesKept, State.requestRefresh_slate]; exact ⟨rfl, rfl⟩

theorem State.requestJoin_sequences (s : State) : sequencesKept s s.requestJoin := by
  rw [sequencesKept, State.requestJoin_slate]; exact ⟨rfl, rfl⟩

theorem State.requestResync_sequences (s : State) : sequencesKept s s.requestResync := by
  rw [sequencesKept, State.requestResync_slate]; exact ⟨rfl, rfl⟩

theorem State.localRelease_sequences (m : ZoneMask) (s : State) : sequencesKept s (s.localRelease m) := by
  have happlied : sequencesKept s (s.applyRelease m none) := sequencesKept_of_slate (by simp)
  rw [State.localRelease]
  split
  · obtain ⟨h1, h2⟩ := State.requestRelease_sequences m (s.applyRelease m none)
    exact ⟨h1.trans happlied.1, h2.trans happlied.2⟩
  · exact happlied

theorem State.requestRefresh_quiet (s : State) : s.Quiet s.requestRefresh :=
  .of_blocks (by simp) (by simp) (by simp) (by simp) (by simp) s.requestRefresh_sequences

theorem State.judgeRefresh_quiet (s : State) : s.Quiet s.judgeRefresh := by
  refine .of_blocks (by simp) (by simp) (by simp) (by simp) (by simp) ?_
  simp only [State.judgeRefresh, sequencesKept, State.setSlate_slate]
  split
  · exact s.requestRefresh_sequences
  · exact ⟨rfl, rfl⟩

/-- The misses of a series that ends short are quiet (R83). -/
theorem State.reportShort_quiet (x : Series) (s : State) : s.Quiet (s.reportShort x) := by
  refine .of_entries (by simp) (by simp) (by simp) (by simp) (sequencesKept_of_slate (by simp)) (fun n hn => ?_)
  have hentry : (s.reportShort x).entry n = PeerTable.entry (countMisses (missingMap s.table x) s.table) n := by
    simp only [State.reportShort]; split <;> rfl
  rw [hentry, entry_countMisses _ _ _ hn]
  split <;> exact ⟨rfl, Iff.rfl, fun h => ⟨h, rfl⟩, rfl, fun _ => ⟨rfl, rfl, rfl⟩⟩

/-- A slate that replaces the slots and the marks alone is quiet. -/
theorem State.setSlate_quiet {s : State} {x : Slate} (h : x.reportSequence = s.slate.reportSequence)
    (h' : x.releaseSequence = s.slate.releaseSequence) : s.Quiet (s.setSlate x) :=
  .of_blocks rfl rfl rfl rfl rfl ⟨h, h'⟩

theorem State.changeAttempt_quiet (heard : Option StationMap) (s : State) : s.Quiet (s.changeAttempt heard) := by
  rw [State.changeAttempt]
  split
  · exact .refl s
  · split
    · exact State.setSlate_quiet rfl rfl
    · exact State.setSlate_quiet rfl rfl
    · exact (s.reportShort_quiet _).trans (State.setSlate_quiet (by simp) (by simp))

theorem State.releaseAttempt_quiet (heard : Option StationMap) (s : State) : s.Quiet (s.releaseAttempt heard) := by
  rw [State.releaseAttempt]
  split
  · exact .refl s
  · split
    · exact State.setSlate_quiet rfl rfl
    · exact State.setSlate_quiet rfl rfl
    · exact (s.reportShort_quiet _).trans (State.setSlate_quiet (by simp) (by simp))

theorem State.lostTaken_quiet (k : Kind) (s : State) : s.Quiet (s.lostTaken k) := by
  refine .of_blocks (by simp) (by simp) (by simp) (by simp) (by simp) ?_
  cases k <;> exact ⟨rfl, rfl⟩

/-! ### Evidence and aging -/

theorem State.mapEvidence_quiet (m : StationMap) (s : State) : s.Quiet (s.mapEvidence m) := by
  refine .of_entries (by simp) (by simp) (by simp) (by simp) (sequencesKept_of_slate (by simp)) (fun n hn => ?_)
  rw [State.entry_mapEvidence m s n hn]
  split
  · exact Entry.evidenced_quiet _
  · exact Entry.Quiet.refl _

theorem State.ageTable_quiet (s : State) : s.Quiet s.ageTable := by
  refine .of_entries (by simp) (by simp) (by simp) (by simp) (sequencesKept_of_slate (by simp)) (fun n hn => ?_)
  rw [State.entry_ageTable s n hn]
  split
  · exact Entry.aged_quiet _ _
  · exact Entry.Quiet.refl _

theorem State.countTick_quiet (s : State) : s.Quiet s.countTick :=
  ⟨rfl, rfl, rfl, ⟨rfl, rfl⟩, rfl, rfl, fun _ => Entry.Quiet.refl _⟩

/-! ### The tap port -/

theorem State.requestEffect_sequences (r : Request) (b : Byte) (s : State) : sequencesKept s (s.requestEffect r b) := by
  cases r
  case release => exact s.localRelease_sequences b
  case resync => exact s.requestResync_sequences
  all_goals exact ⟨rfl, rfl⟩

theorem State.tapByte_sequences (b : Byte) (s : State) : sequencesKept s (s.tapByte b) := by
  have hjudged : ∀ (code : Byte) (args : List Byte), sequencesKept s (s.judgementPoint code args) := by
    intro code args
    simp only [State.judgementPoint, sequencesKept, State.setTap_slate]
    split
    · exact s.requestEffect_sequences _ _
    · exact ⟨rfl, rfl⟩
  rw [State.tapByte]
  split
  · split
    · exact ⟨rfl, rfl⟩
    · exact hjudged _ _
  · exact hjudged _ _
  all_goals exact ⟨rfl, rfl⟩

theorem State.tapBit_sequences (s : State) (b : Bool) : sequencesKept s (s.tapBit b) := by
  have hcollect : sequencesKept s (s.tapCollect b) := by
    simp only [State.tapCollect]
    split
    · exact s.tapByte_sequences _
    · exact ⟨rfl, rfl⟩
  rw [State.tapBit]
  split
  · exact hcollect
  · exact hcollect
  all_goals exact ⟨rfl, rfl⟩

theorem State.tapBits_quiet (bits : List Bool) (s : State) : s.Quiet (s.tapBits bits) := by
  refine .of_blocks (by simp) (by simp) (by simp) (by simp) (by simp) ⟨?_, ?_⟩
  · exact foldl_keeps (fun u => u.slate.reportSequence) _ (fun u b => (u.tapBit_sequences b).1) bits s
  · exact foldl_keeps (fun u => u.slate.releaseSequence) _ (fun u b => (u.tapBit_sequences b).2) bits s

end Sys2Proof.Machine
end

