-- ==== Sys2Proof/Proofs/PeerTable05_SelfEntry.lean ====
section
/-! SUPPORT. The self entry: what it shows, the operations that change it together with the station, and what a row of
operations keeps of it and of the table (R1, R2, R19, R25, R26, R41). -/

namespace Sys2Proof.Machine

/-! ### The condition on the self entry -/

/-- The self entry shows the station (R25, R26, R41). -/
structure State.SelfTrue (s : State) : Prop where
  own : s.ctrl.ownNumber ≠ 0
  only : ∀ n, n ≠ 0 → ((s.entry n).presence = .self ↔ n = s.ctrl.ownNumber)
  report : ∃ r, (s.entry s.ctrl.ownNumber).report = some r ∧ s.selfReportOk r = true
  release : (s.entry s.ctrl.ownNumber).lastRelease = some s.slate.releaseSequence
  age : (s.entry s.ctrl.ownNumber).age = 0

/-- No entry is SELF, and nothing is shown (R29, R95, R126, R160). -/
structure State.SelfAbsent (s : State) : Prop where
  own : s.ctrl.ownNumber = 0
  none : ∀ n, n ≠ 0 → (s.entry n).presence ≠ .self
  sequences : s.slate.reportSequence = 0 ∧ s.slate.releaseSequence = 0
  health : s.health.state = .normal

theorem all_stations (p : Station → Bool) : stations.all p = true ↔ ∀ n, n ≠ 0 → p n = true := by
  simp only [List.all_eq_true, mem_stations]

theorem State.selfOk_configured {s : State} (h : s.ctrl.phase.configured = true) : s.selfOk = true ↔ s.SelfTrue := by
  simp only [State.selfOk, h, if_true, Bool.and_eq_true, decide_eq_true_iff, all_stations, Option.any_eq_true]
  constructor
  · rintro ⟨⟨⟨⟨h1, h2⟩, h3⟩, h4⟩, h5⟩; exact ⟨h1, h2, h3, h4, h5⟩
  · rintro ⟨h1, h2, h3, h4, h5⟩; exact ⟨⟨⟨⟨h1, h2⟩, h3⟩, h4⟩, h5⟩

theorem State.selfOk_unconfigured {s : State} (h : s.ctrl.phase.configured = false) :
    s.selfOk = true ↔ s.SelfAbsent := by
  simp only [State.selfOk, h, Bool.false_eq_true, if_false, Bool.and_eq_true, decide_eq_true_iff, all_stations]
  constructor
  · rintro ⟨⟨⟨h1, h2⟩, h3⟩, h4⟩; exact ⟨h1, h2, h3, h4⟩
  · rintro ⟨h1, h2, h3, h4⟩; exact ⟨⟨⟨h1, h2⟩, h3⟩, h4⟩

/-- The condition on the self entry's report, part by part. -/
theorem State.selfReportOk_iff (s : State) (r : StoredReport) :
    s.selfReportOk r = true ↔
      r.sequence = s.slate.reportSequence ∧ phaseCodeFits s.ctrl.phase r.content.phase = true ∧
        r.content.health = s.health.state.reportCode ∧ r.content.groups = s.watch.records ∧ r.stale = false := by
  simp only [State.selfReportOk, Bool.and_eq_true, decide_eq_true_iff, and_assoc]

/-! ### What a row of operations keeps -/

/-- The roster flags, the staleness of a PRESENT entry's report and the report sequences of the peers stay. -/
structure State.TableKept (s t : State) : Prop where
  own : t.ctrl.ownNumber = s.ctrl.ownNumber
  config : t.loader.config = s.loader.config
  roster : ∀ n, (t.entry n).roster = (s.entry n).roster
  present : ∀ n, (t.entry n).presence = .present → (s.entry n).presence = .present ∧
    (t.entry n).report.map (fun r => r.stale) = (s.entry n).report.map (fun r => r.stale)
  sequence : ∀ n, n ≠ s.ctrl.ownNumber →
    (t.entry n).report.map (fun r => r.sequence) = (s.entry n).report.map (fun r => r.sequence)

/-- A row of operations keeps the table, whether a configuration is loaded, and the truth of the self entry. -/
structure State.Kept (s t : State) : Prop where
  table : s.TableKept t
  configured : t.ctrl.phase.configured = s.ctrl.phase.configured
  self : s.selfOk = true → t.selfOk = true

theorem State.Kept.trans {s t u : State} (h : s.Kept t) (h' : t.Kept u) : s.Kept u where
  table :=
    { own := h'.table.own.trans h.table.own
      config := h'.table.config.trans h.table.config
      roster := fun n => (h'.table.roster n).trans (h.table.roster n)
      present := fun n hp =>
        have ⟨p', r'⟩ := h'.table.present n hp
        have ⟨p, r⟩ := h.table.present n p'
        ⟨p, r'.trans r⟩
      sequence := fun n hn =>
        (h'.table.sequence n (by rw [h.table.own]; exact hn)).trans (h.table.sequence n hn) }
  configured := h'.configured.trans h.configured
  self := fun hs => h'.self (h.self hs)

/-- A quiet operation keeps all of it. -/
theorem State.Quiet.kept {s t : State} (h : s.Quiet t) : s.Kept t where
  table := ⟨h.own, h.config, fun n => (h.entries n).roster,
    fun n hp => have ⟨p, r⟩ := (h.entries n).present hp; ⟨p, by rw [r]⟩, fun n _ => (h.entries n).sequence⟩
  configured := by rw [h.phase]
  self := by
    intro hs
    cases hc : s.ctrl.phase.configured
    · have hs := (State.selfOk_unconfigured hc).mp hs
      refine (State.selfOk_unconfigured (by rw [h.phase]; exact hc)).mpr ⟨h.own.trans hs.own, fun n hn => ?_, ?_, ?_⟩
      · rw [ne_eq, (h.entries n).self]; exact hs.none n hn
      · rw [h.sequences.1, h.sequences.2]; exact hs.sequences
      · rw [h.health]; exact hs.health
    · have hs := (State.selfOk_configured hc).mp hs
      have hown : (s.entry s.ctrl.ownNumber).presence = .self := (hs.only _ hs.own).mpr rfl
      obtain ⟨hreport, hrelease, hage⟩ := (h.entries s.ctrl.ownNumber).shown hown
      refine (State.selfOk_configured (by rw [h.phase]; exact hc)).mpr ⟨?_, fun n hn => ?_, ?_, ?_, ?_⟩
      · rw [h.own]; exact hs.own
      · rw [(h.entries n).self, h.own]; exact hs.only n hn
      · obtain ⟨r, hr, hok⟩ := hs.report
        refine ⟨r, by rw [h.own, hreport, hr], ?_⟩
        rw [State.selfReportOk_iff] at hok ⊢
        rw [h.sequences.1, h.phase, h.health, h.watch]; exact hok
      · rw [h.own, hrelease, h.sequences.2]; exact hs.release
      · rw [h.own, hage]; exact hs.age

theorem State.Kept.refl (s : State) : s.Kept s := (State.Quiet.refl s).kept

/-- The self entry's report changes, as f changes it, and no other entry. -/
structure State.SelfUpdated (f : StoredReport → StoredReport) (s t : State) : Prop where
  own : t.ctrl.ownNumber = s.ctrl.ownNumber
  config : t.loader.config = s.loader.config
  release : t.slate.releaseSequence = s.slate.releaseSequence
  entries : updatesEntry s.ctrl.ownNumber (fun e => { e with report := e.report.map f }) s t

/-- An update of the self entry's report that leaves its staleness keeps the table. -/
theorem State.SelfUpdated.tableKept {f : StoredReport → StoredReport} {s t : State} (h : s.SelfUpdated f t)
    (hstale : ∀ r, (f r).stale = r.stale) : s.TableKept t := by
  have hentry : ∀ n, (n = s.ctrl.ownNumber ∧ s.ctrl.ownNumber ≠ 0 ∧
      t.entry n = { s.entry n with report := (s.entry n).report.map f }) ∨ t.entry n = s.entry n := by
    intro n
    by_cases hn : n = s.ctrl.ownNumber ∧ s.ctrl.ownNumber ≠ 0
    · exact .inl ⟨hn.1, hn.2, by rw [h.entries n, if_pos hn, hn.1]⟩
    · exact .inr (by rw [h.entries n, if_neg hn])
  refine ⟨h.own, h.config, fun n => ?_, fun n hp => ?_, fun n hn => by rw [h.entries.kept n hn]⟩
  · rcases hentry n with ⟨_, _, he⟩ | he <;> rw [he]
  · rcases hentry n with ⟨_, _, he⟩ | he
    · rw [he] at hp ⊢
      exact ⟨hp, by simp [Option.map_map, Function.comp_def, hstale]⟩
    · rw [he] at hp ⊢
      exact ⟨hp, rfl⟩

/-- While a configuration is loaded, an update of the self entry's report keeps what it shows where it shows the station
again. -/
theorem State.SelfUpdated.kept {f : StoredReport → StoredReport} {s t : State} (h : s.SelfUpdated f t)
    (hs : s.ctrl.phase.configured = true) (ht : t.ctrl.phase.configured = true)
    (hstale : ∀ r, (f r).stale = r.stale) (hreport : ∀ r, s.selfReportOk r = true → t.selfReportOk (f r) = true) :
    s.Kept t := by
  refine ⟨h.tableKept hstale, by rw [hs, ht], fun hok => ?_⟩
  have hok := (State.selfOk_configured hs).mp hok
  have hself := h.entries.same hok.own
  have hpresence : ∀ n, (t.entry n).presence = (s.entry n).presence := by
    intro n
    by_cases hn : n = s.ctrl.ownNumber
    · rw [hn, hself]
    · rw [h.entries.kept n hn]
  refine (State.selfOk_configured ht).mpr ⟨?_, fun n hn => ?_, ?_, ?_, ?_⟩
  · rw [h.own]; exact hok.own
  · rw [hpresence, h.own]; exact hok.only n hn
  · obtain ⟨r, hr, hshown⟩ := hok.report
    exact ⟨f r, by rw [h.own, hself, hr]; rfl, hreport r hshown⟩
  · rw [h.own, hself, h.release]; exact hok.release
  · rw [h.own, hself]; exact hok.age

/-- The engine runs with a configuration alone (R47, R170). -/
theorem State.configured_of_engineRuns {s : State} (h : s.engineRuns = true) : s.ctrl.phase.configured = true := by
  rw [State.engineRuns] at h
  cases hp : s.ctrl.phase <;> simp_all [Phase.engineRuns, Phase.configured]

/-! ### The operations that change the self entry -/

/-- A report shown again, after its phase code follows the phase, its health code the health, and its records the watch
unit. -/
theorem selfReportOk_of {s t : State} {r r' : StoredReport} (h : s.selfReportOk r = true)
    (hsequence : r.sequence = s.slate.reportSequence → r'.sequence = t.slate.reportSequence)
    (hphase : phaseCodeFits s.ctrl.phase r.content.phase = true → phaseCodeFits t.ctrl.phase r'.content.phase = true)
    (hhealth : r.content.health = s.health.state.reportCode → r'.content.health = t.health.state.reportCode)
    (hgroups : r.content.groups = s.watch.records → r'.content.groups = t.watch.records)
    (hstale : r.stale = false → r'.stale = false) : t.selfReportOk r' = true := by
  rw [State.selfReportOk_iff] at h ⊢
  obtain ⟨h1, h2, h3, h4, h5⟩ := h
  exact ⟨hsequence h1, hphase h2, hhealth h3, hgroups h4, hstale h5⟩

/-- Entry into RUNNING (R26, R178). -/
theorem State.joinConcluded_kept (s : State) : s.Kept s.joinConcluded := by
  rw [State.joinConcluded]
  split
  · next hp =>
    refine State.SelfUpdated.kept (f := fun r => { r with content := { r.content with phase := .running } })
      ⟨by simp, by simp, ?_, ?_⟩ (by rw [hp]; rfl) (by simp [Phase.configured]) (fun _ => rfl) (fun r hr => ?_)
    · rw [(State.requestRefresh_sequences _).2]; simp
    · refine updatesEntry.of_entries (State.updateEntry_updates _ _ s) (fun _ => rfl) (fun m => ?_)
      simp only [State.entry_requestRefresh, State.entry_enterTerms, State.entry_raiseValue]
      rfl
    · refine selfReportOk_of hr ?_ ?_ ?_ ?_ id
      · rw [(State.requestRefresh_sequences _).1]; simp
      · simp [phaseCodeFits]
      · simp
      · simp
  · exact State.Kept.refl s

/-- A report after a change of health, if there was one (R26). -/
def StoredReport.afterHealth (s t : State) (r : StoredReport) : StoredReport :=
  if t.health.state = s.health.state then r
  else { r with content := { r.content with health := t.health.state.reportCode } }

theorem selfReportAfterHealth_eq (s t : State) (r : Option StoredReport) :
    selfReportAfterHealth s t r = r.map (StoredReport.afterHealth s t) := by
  rw [selfReportAfterHealth, ← Health.reportCode_eq]
  by_cases h : t.health.state = s.health.state
  · rw [if_pos h, show StoredReport.afterHealth s t = id from funext fun x => if_pos h, Option.map_id, id]
  · rw [if_neg h]
    exact congrArg (fun f => r.map f) (funext fun x => (if_neg h).symm)

/-- An outcome's weight, with the change of health it may bring (R26, R113). -/
theorem State.weighOutcome_kept (o : FrameOutcome) (s : State) (hs : s.ctrl.phase.configured = true) :
    s.Kept (s.weighOutcome o) := by
  have hslate : sequencesKept s (s.weighOutcome o) := by
    rw [sequencesKept, (State.weighOutcome_follows o s).1, slateAfterHealth]
    repeat' split
    all_goals exact ⟨rfl, rfl⟩
  refine State.SelfUpdated.kept (f := StoredReport.afterHealth s (s.weighOutcome o))
    ⟨by simp, by simp, hslate.2, fun m => ?_⟩ hs (by simpa using hs) (fun r => ?_) (fun r hr => ?_)
  · rw [State.entry_weighOutcome, selfReportAfterHealth_eq]
    split
    · next h => rw [← h.1]
    · rfl
  · rw [StoredReport.afterHealth]; split <;> rfl
  · rw [StoredReport.afterHealth]
    refine selfReportOk_of hr ?_ ?_ ?_ ?_ ?_
    · rw [hslate.1]; split <;> exact id
    · rw [(State.weighOutcome_frame o s).2.1]; split <;> exact id
    · split
      · next h => rw [h]; exact id
      · exact fun _ => rfl
    · simp only [State.weighOutcome_frame]; split <;> exact id
    · split <;> exact id

/-- The watch unit's next state, published where its records changed (R32, R41). -/
def State.published (w : WatchUnit) (s : State) : State :=
  if w.records = s.watch.records then s.setWatch w else (s.setWatch w).publish w.records

@[simp] theorem State.published_frame (w : WatchUnit) (s : State) :
    (s.published w).ctrl = s.ctrl ∧ (s.published w).loader = s.loader ∧ (s.published w).slate = s.slate ∧
      (s.published w).health = s.health ∧ (s.published w).watch = w := by
  rw [State.published]; split <;> simp

/-- A report as the publication leaves it (R41). -/
def StoredReport.published (old new : WatchUnit) (r : StoredReport) : StoredReport :=
  if new.records = old.records then r else { r with content := { r.content with groups := new.records } }

theorem State.published_selfUpdated (w : WatchUnit) (s : State) :
    s.SelfUpdated (StoredReport.published s.watch w) (s.published w) := by
  refine ⟨by simp, by simp, by simp, ?_⟩
  rw [State.published]
  split
  · next h =>
    intro m
    rw [show StoredReport.published s.watch w = id from funext fun r => if_pos h]
    simp only [Option.map_id, id, State.entry_setWatch]
    split
    · next hm => rw [hm.1]
    · rfl
  · next h =>
    rw [show StoredReport.published s.watch w =
      fun r => { r with content := { r.content with groups := w.records } } from funext fun r => if_neg h]
    exact (State.updateEntry_updates _ _ (s.setWatch w)).of_entries (fun _ => rfl)
      (fun m => by rw [State.publish, State.entry_tableChanged]; rfl)

theorem StoredReport.published_stale (old new : WatchUnit) (r : StoredReport) :
    (r.published old new).stale = r.stale := by rw [StoredReport.published]; split <;> rfl

theorem State.published_kept (w : WatchUnit) (s : State) (hs : s.ctrl.phase.configured = true) :
    s.Kept (s.published w) := by
  refine (s.published_selfUpdated w).kept hs (by simpa using hs) (StoredReport.published_stale _ _) (fun r hr => ?_)
  rw [StoredReport.published]
  refine selfReportOk_of hr ?_ ?_ ?_ ?_ ?_
  · rw [(s.published_frame w).2.2.1]; split <;> exact id
  · rw [(s.published_frame w).1]; split <;> exact id
  · rw [(s.published_frame w).2.2.2.1]; split <;> exact id
  · rw [(s.published_frame w).2.2.2.2]
    split
    · next h => rw [h]; exact id
    · exact fun _ => rfl
  · split <;> exact id

/-- A station that changes its phase without its self entry: into JOINING at the listen interval's end, and into CONFLICT
(R26, R175, R180). -/
theorem State.phaseMoved_kept {s t : State} (hown : t.ctrl.ownNumber = s.ctrl.ownNumber) (hloader : t.loader = s.loader)
    (hslate : sequencesKept s t) (hhealth : t.health = s.health) (hwatch : t.watch = s.watch) (htable : t.table = s.table)
    (hs : s.ctrl.phase.configured = true) (ht : t.ctrl.phase.configured = true)
    (hfits : ∀ p, phaseCodeFits s.ctrl.phase p = true → phaseCodeFits t.ctrl.phase p = true) : s.Kept t := by
  refine State.SelfUpdated.kept (f := id) ⟨hown, by rw [hloader], hslate.2, fun m => ?_⟩ hs ht (fun _ => rfl)
    (fun r hr => ?_)
  · rw [State.entry_of_table htable]
    simp only [Option.map_id, id]
    split
    · next h => rw [h.1]
    · rfl
  · refine selfReportOk_of hr ?_ (hfits _) ?_ ?_ id
    · rw [hslate.1]; exact id
    · rw [hhealth]; exact id
    · rw [hwatch]; exact id

theorem State.declareConflict_kept (s : State) : s.Kept s.declareConflict := by
  by_cases h : s.engineRuns = true
  · have hctrl : s.declareConflict.ctrl = { s.ctrl with phase := .conflict } := by
      simp only [State.declareConflict, h]; simp
    have hslate : s.declareConflict.slate = s.slate.emptied := by
      simp only [State.declareConflict, h]; simp
    exact State.phaseMoved_kept (by rw [hctrl]) (by simp) (by rw [sequencesKept, hslate]; exact ⟨rfl, rfl⟩) (by simp)
      (by simp) (by simp) (State.configured_of_engineRuns h) (by rw [hctrl]; rfl) (by rw [hctrl]; exact fun _ _ => rfl)
  · rw [State.declareConflict, if_neg h]; exact State.Kept.refl s

/-- An update of the controller that keeps phase and own number is quiet. -/
theorem State.setCtrl_quiet {s : State} {v : Controller} (hphase : v.phase = s.ctrl.phase)
    (hown : v.ownNumber = s.ctrl.ownNumber) : s.Quiet (s.setCtrl v) :=
  ⟨hphase, hown, rfl, ⟨rfl, rfl⟩, rfl, rfl, fun _ => Entry.Quiet.refl _⟩

theorem State.sighting_kept (s : State) : s.Kept s.sighting := by
  have hcounted : ∀ k, s.Quiet (s.setHealth { s.health with sightings := k }) := fun k =>
    ⟨rfl, rfl, rfl, ⟨rfl, rfl⟩, rfl, rfl, fun _ => Entry.Quiet.refl _⟩
  rw [State.sighting]
  split
  · exact (hcounted 1).kept
  · exact (hcounted 2).kept.trans (State.declareConflict_kept _)
  · exact State.Kept.refl s

theorem State.listenTick_kept (s : State) : s.Kept s.listenTick := by
  rw [State.listenTick]
  split
  · next hp =>
    split
    · exact State.Quiet.kept (State.setCtrl_quiet (by rfl) (by rfl))
    · have hslate : sequencesKept s s.listenExpired := by
        obtain ⟨h1, h2⟩ := State.requestJoin_sequences ((s.setCtrl { s.ctrl with
          phase := .joining, listenCount := listenTicks }).raiseValue .phaseChanged (.phase .joining))
        exact ⟨h1.trans (by simp), h2.trans (by simp)⟩
      have hctrl : s.listenExpired.ctrl = { s.ctrl with phase := .joining, listenCount := listenTicks } := by
        simp [State.listenExpired]
      exact State.phaseMoved_kept (by rw [hctrl]) (by simp) hslate (by simp) (by simp) (by simp) (by rw [hp]; rfl)
        (by rw [hctrl]; rfl) (by rw [hctrl, hp]; exact fun _ h => h)
  · exact State.Kept.refl s

/-- The self entry takes a new release sequence with the slate (R25, R78). -/
theorem State.setSelfRelease_kept (q : Nibble) (x : Option ReleaseSlot) (s : State)
    (hs : s.ctrl.phase.configured = true) :
    s.Kept ((s.setSlate { s.slate with releaseSequence := q, release := x }).setSelfRelease q) := by
  have hupdates : updatesEntry s.ctrl.ownNumber (fun e => { e with lastRelease := some q }) s
      ((s.setSlate { s.slate with releaseSequence := q, release := x }).setSelfRelease q) :=
    (State.updateEntry_updates _ _ (s.setSlate _)).of_entries (fun _ => rfl) (fun _ => rfl)
  have hsame : ∀ n, ((s.setSlate { s.slate with releaseSequence := q, release := x }).setSelfRelease q).entry n =
      { s.entry n with
        lastRelease := (((s.setSlate { s.slate with releaseSequence := q, release := x }).setSelfRelease q).entry
          n).lastRelease } := by
    intro n
    rw [hupdates n]
    split
    · next h => rw [h.1]
    · rfl
  refine ⟨⟨by simp, by simp, fun n => by rw [hsame], fun n hp => ?_, fun n _ => by rw [hsame]⟩, by simp, fun hok => ?_⟩
  · rw [hsame] at hp
    exact ⟨hp, by rw [hsame]⟩
  · have hok := (State.selfOk_configured hs).mp hok
    refine (State.selfOk_configured (by simpa using hs)).mpr ⟨?_, fun n hn => ?_, ?_, ?_, ?_⟩
    · simpa using hok.own
    · rw [hsame]; simpa using hok.only n hn
    · obtain ⟨r, hr, hshown⟩ := hok.report
      refine ⟨r, ?_, selfReportOk_of hshown (by simp) (by simp) (by simp) (by simp) id⟩
      rw [hsame]; simpa using hr
    · simpa using congrArg Entry.lastRelease (hupdates.same hok.own)
    · rw [hsame]; simpa using hok.age

/-- A series opened: the self entry takes its sequence (R25, R78). -/
theorem State.openSeries_kept (k : Kind) (s : State) (hs : s.ctrl.phase.configured = true) :
    s.Kept (s.openSeries k) := by
  cases k
  case change =>
    simp only [State.openSeries, State.openChange]
    repeat' split
    · exact State.Kept.refl s
    · refine State.SelfUpdated.kept (f := fun r => { r with sequence := s.slate.reportSequence + 1 })
        ⟨by simp, by simp, by simp, ?_⟩ hs (by simpa using hs) (fun _ => rfl) (fun r hr => ?_)
      · exact (State.updateEntry_updates _ _ (s.setSlate _)).of_entries (fun _ => rfl) (fun _ => rfl)
      · refine selfReportOk_of hr ?_ ?_ ?_ ?_ id
        · simp
        · simp
        · simp
        · simp
    · exact State.Kept.refl s
  case release =>
    simp only [State.openSeries, State.openRelease]
    repeat' split
    · exact State.Kept.refl s
    · exact State.setSelfRelease_kept _ _ s hs
    · exact State.Kept.refl s
  all_goals exact State.Kept.refl s

end Sys2Proof.Machine
end

