-- ==== Sys2Proof/Proofs/PeerTable06_Invariants.lean ====
section
/-! The table and the self entry through every command (R1, R2, R12, R19, R25, R26, R41). -/

namespace Sys2Proof.Machine

/-! ### Rows of operations -/

theorem State.slateAborted_kept (k : Kind) (s : State) : s.Kept (s.slateAborted k) := by
  cases k
  case change => exact (State.changeAttempt_quiet none s).kept
  case release => exact (State.releaseAttempt_quiet none s).kept
  case join => exact (State.Quiet.kept (State.setSlate_quiet (by rfl) (by rfl))).trans (State.joinConcluded_kept _)
  all_goals exact State.Quiet.kept (State.setSlate_quiet (by rfl) (by rfl))

theorem State.slateCompleted_kept (k : Kind) (heard : StationMap) (s : State) : s.Kept (s.slateCompleted k heard) := by
  cases k
  case change =>
    exact (State.changeAttempt_quiet (some heard) s).kept.trans
      (State.Quiet.kept (State.setSlate_quiet (by rfl) (by rfl)))
  case release => exact (State.releaseAttempt_quiet (some heard) s).kept
  case join => exact (State.Quiet.kept (State.setSlate_quiet (by rfl) (by rfl))).trans (State.joinConcluded_kept _)
  all_goals exact State.Quiet.kept (State.setSlate_quiet (by rfl) (by rfl))

theorem State.countOutcome_quiet (o : FrameOutcome) (s : State) : s.Quiet (s.countOutcome o) :=
  .of_blocks rfl rfl rfl rfl rfl ⟨rfl, rfl⟩

theorem State.enterDiscarding_quiet (s : State) : s.Quiet s.enterDiscarding := .of_blocks rfl rfl rfl rfl rfl ⟨rfl, rfl⟩

theorem State.abort_kept (k : Kind) (s : State) (hs : s.ctrl.phase.configured = true) : s.Kept (s.abort k) := by
  have hstopped : s.Quiet s.stopDriving := .of_blocks rfl rfl rfl rfl rfl ⟨rfl, rfl⟩
  have htaken := (hstopped.trans (State.countOutcome_quiet .aborted _)).kept.trans (State.slateAborted_kept k _)
  exact (htaken.trans (State.weighOutcome_kept _ _ (htaken.configured.trans hs))).trans
    (State.enterDiscarding_quiet _).kept

theorem State.abandon_kept (s : State) (hs : s.ctrl.phase.configured = true) : s.Kept s.abandon :=
  ((State.countOutcome_quiet .abandoned s).kept.trans (State.weighOutcome_kept .abandoned _ hs)).trans
    (State.enterDiscarding_quiet _).kept

theorem State.confirming_quiet (v : Verdict) (b : Bool) (s : State) : s.Quiet (s.confirming v b) :=
  .of_blocks rfl rfl rfl rfl rfl ⟨rfl, rfl⟩

theorem State.reject_kept (s : State) (hs : s.ctrl.phase.configured = true) : s.Kept s.reject :=
  ((State.countOutcome_quiet .rejected s).kept.trans (State.weighOutcome_kept .rejected _ hs)).trans
    (State.confirming_quiet _ _ _).kept

theorem State.followed_quiet (f : Frame) (ps : List BitPeriod) (q : Quarter) (r : Reception) (s : State) :
    s.Quiet (s.followed f ps q r) := .of_blocks rfl rfl rfl rfl rfl ⟨rfl, rfl⟩

theorem State.completedWeighed_kept (b : Bool) (s : State) (hs : s.ctrl.phase.configured = true) :
    s.Kept (s.completedWeighed b) := by
  have hweighed := State.weighOutcome_kept .completed s hs
  simp only [State.completedWeighed]
  split
  · exact hweighed.trans (State.sighting_kept _)
  · exact hweighed

theorem State.closeFrame_kept (f : Frame) (m : StationMap) (s : State) (hs : s.ctrl.phase.configured = true) :
    s.Kept (s.closeFrame f m) := by
  rw [State.closeFrame]
  split
  · next v _ =>
    have htaken := ((State.mapEvidence_quiet (lessOwn s.ctrl.ownNumber m) s).trans
      (State.countOutcome_quiet .completed _)).kept.trans (State.slateCompleted_kept v.slot (lessOwn s.ctrl.ownNumber m) _)
    exact htaken.trans (State.completedWeighed_kept _ _ (htaken.configured.trans hs))
  · have htaken := ((State.mapEvidence_quiet (lessOwn s.ctrl.ownNumber m) s).trans
      (State.countOutcome_quiet .accepted _)).kept
    exact htaken.trans (State.weighOutcome_kept _ _ (htaken.configured.trans hs))
  · exact State.Kept.refl s
  · exact State.Kept.refl s

theorem State.afterWindow_quiet (s : State) : s.Quiet s.afterWindow :=
  .of_blocks (by simp) (by simp) (by simp) (by simp) (by simp) (sequencesKept_of_slate (by simp))

theorem State.refreshTicked_kept (order : TickOrder) (s : State) : s.Kept (s.refreshTicked order) := by
  have hticked := s.countTick_quiet.kept
  simp only [State.refreshTicked]
  split
  · exact ((hticked.trans (State.listenTick_kept _)).trans (State.ageTable_quiet _).kept).trans
      (State.judgeRefresh_quiet _).kept
  · exact ((hticked.trans (State.ageTable_quiet _).kept).trans (State.listenTick_kept _)).trans
      (State.judgeRefresh_quiet _).kept
  · exact ((hticked.trans (State.ageTable_quiet _).kept).trans (State.judgeRefresh_quiet _).kept).trans
      (State.listenTick_kept _)
  · exact ((hticked.trans (State.judgeRefresh_quiet _).kept).trans (State.listenTick_kept _)).trans
      (State.ageTable_quiet _).kept

theorem State.relSampled_sequences (z : ZoneMask) (a : Bool) (s : State) : sequencesKept s (s.relSampled z a) := by
  have hlocal := State.localRelease_sequences z (s.setTerms { s.terms with rel := s.terms.rel.sample relDepth a })
  simp only [State.relSampled]
  split
  · exact hlocal
  · exact ⟨rfl, rfl⟩

/-- A sample event after its publication is quiet (R32). -/
theorem State.sampleTaken_quiet (c : StationConfig) (x : SenseSample) (s : State) :
    (s.published (s.watch.sampled c.groups x)).Quiet (s.sampleTaken c x) := by
  have hsignalled : ∀ (gs : List DepartureSignal) (u : State), u.Quiet (u.departuresSeen gs) := fun gs u =>
    .of_blocks (by simp) (by simp) (by simp) (by simp) (by simp) (sequencesKept_of_slate (by simp))
  have hannounced : ∀ (old new : WatchUnit) (u : State), u.Quiet (u.announce old new) := by
    intro old new u
    refine .of_blocks (by simp) (by simp) (by simp) (by simp) (by simp) ?_
    simp only [State.announce]
    split
    · exact u.requestChange_sequences _
    · exact ⟨rfl, rfl⟩
  have hrel : ∀ (z : ZoneMask) (a : Bool) (u : State), u.Quiet (u.relSampled z a) := fun z a u =>
    .of_blocks (by simp) (by simp) (by simp) (by simp) (by simp) (u.relSampled_sequences z a)
  exact ((hsignalled _ _).trans (hannounced _ _ _)).trans (hrel _ _ _)

/-! ### The commands -/

/-- What a command does to the table and the self entry. -/
inductive Moved (c : Instr) (s t : State) : Prop
  /-- it keeps both; at a sample event, while sampling goes with a loaded configuration -/
  | kept (table : s.TableKept t) (kept : (s.watch.sampling = true → s.ctrl.phase.configured = true) → s.Kept t)
  /-- a reset -/
  | reset (cause : ResetCause) (pins : Pins) (u : State) (command : resets c s) (result : t = u.resetBy cause pins)
  /-- a load that ends in a fault -/
  | halted (f : FaultCode) (port : List BusOp) (l : Loader) (reading : s.reading = true)
      (result : t = (s.setLoader l).halt f port)
  /-- a valid load -/
  | loaded (image : List Byte) (port : List BusOp) (l : Loader) (sample : SenseSample) (reading : s.reading = true)
      (valid : imageFault image = none) (result : t = (s.setLoader l).validLoad (parseImage image) port sample)
  /-- a frame accepted from another station -/
  | accepted (bits : List BitPeriod) (r : ReceivedFrame) (f : Frame) (x : Reception) (command : c = .frameReceived bits)
      (received : s.receivedFrame bits = some r) (whole : ¬ r.malformed) (number : r.number ≠ s.ctrl.ownNumber)
      (runs : s.engineRuns = true) (result : t = (s.followed f bits .q4 x).accept r)

theorem State.Kept.moved {c : Instr} {s t : State} (h : s.Kept t) : Moved c s t := .kept h.table (fun _ => h)

theorem State.Quiet.moved {c : Instr} {s t : State} (h : s.Quiet t) : Moved c s t := h.kept.moved

/-- A command of the line that abandons the frame in progress (R63, R70). -/
theorem abandoned_moved {c : Instr} {s : State} {f : Frame} (hf : s.frameIn .receiving = some f) (bits : List BitPeriod)
    (q : Quarter) (r : Reception) : Moved c s (s.followed f bits q r).abandon :=
  ((s.followed_quiet f bits q r).kept.trans (State.abandon_kept _
    (State.configured_of_engineRuns (State.engineRuns_of_frameIn hf).1))).moved

/-- The engine runs while a frame of the station's own is in progress. -/
theorem State.configured_of_ownFrameIn {s : State} {x : EngineState} {f : Frame} {v : Served}
    (h : s.ownFrameIn x = some (f, v)) : s.ctrl.phase.configured = true := by
  simp only [State.ownFrameIn, Option.bind_eq_some_iff] at h
  obtain ⟨f', hf, _⟩ := h
  exact State.configured_of_engineRuns (State.engineRuns_of_frameIn hf).1

/-- FRAME_RECEIVED: a rejected frame and a number conflict keep both; an accepted frame is its own case. -/
theorem frameReceived_moved {bits : List BitPeriod} {s t : State} (h : exec (.frameReceived bits) s = .next t) :
    Moved (.frameReceived bits) s t := by
  rcases execFrameReceived_cases h with rfl | ⟨r, f, x, hr, hf, rfl⟩
  · exact (State.Quiet.refl _).moved
  · have hrun := (State.engineRuns_of_frameIn hf).1
    have hfollowed := (s.followed_quiet f bits .q4 x).kept
    have hconfigured := State.configured_of_engineRuns hrun
    by_cases hm : r.malformed
    · rw [State.judged_malformed hm]
      exact (hfollowed.trans (State.reject_kept _ hconfigured)).moved
    · by_cases hn : r.number = s.ctrl.ownNumber
      · rw [State.judged_conflict (s := s.followed f bits .q4 x) hm hn]
        exact (hfollowed.trans (State.declareConflict_kept _)).moved
      · rw [State.judged_accepted (s := s.followed f bits .q4 x) hm hn]
        exact .accepted bits r f x rfl hr hm hn hrun rfl

/-- An update of the loader that keeps the configuration is quiet. -/
theorem State.setLoader_quiet {s : State} {l : Loader} (h : l.config = s.loader.config) : s.Quiet (s.setLoader l) :=
  ⟨rfl, rfl, h, ⟨rfl, rfl⟩, rfl, rfl, fun _ => Entry.Quiet.refl _⟩

/-- The loader's commands (R164, R172). -/
theorem headerRead_moved {n : Nat} {a b l r : Byte} {s t : State} (h : exec (.headerRead n a b l r) s = .next t) :
    Moved (.headerRead n a b l r) s t := by
  simp only [exec, execHeaderRead] at h
  split at h
  · next hc =>
    simp only [Bool.and_eq_true] at hc
    split at h
    · cases h; exact .halted _ _ s.loader hc.1.1 rfl
    · cases h
      exact State.Quiet.moved (State.setLoader_quiet (by rfl))
  · cases h; exact (State.Quiet.refl _).moved

theorem transportFailure_moved {n : Nat} {f : BusFault} {read : List Byte} {s t : State}
    (h : exec (.transportFailure n f read) s = .next t) : Moved (.transportFailure n f read) s t := by
  simp only [exec, execTransportFailure] at h
  split at h
  · next hc =>
    simp only [Bool.and_eq_true] at hc
    split at h
    · cases h
      exact State.Quiet.moved (State.setLoader_quiet (by rfl))
    · cases h; exact .halted _ _ s.loader hc.1.1 rfl
  · cases h; exact (State.Quiet.refl _).moved

theorem imageComplete_moved {rest : List Byte} {x : SenseSample} {s t : State}
    (h : exec (.imageComplete rest x) s = .next t) : Moved (.imageComplete rest x) s t := by
  simp only [exec, execImageComplete] at h
  split at h
  · next hc =>
    simp only [Bool.and_eq_true] at hc
    split at h
    · cases h; exact .halted _ _ _ hc.1.1 rfl
    · next hvalid => cases h; exact .loaded _ _ _ x hc.1.1 hvalid rfl
  · cases h; exact (State.Quiet.refl _).moved

/-- A sample event (R32, R41). -/
theorem sampleEvent_moved {x : SenseSample} {s t : State} (h : exec (.sampleEvent x) s = .next t) :
    Moved (.sampleEvent x) s t := by
  simp only [exec, execSampleEvent] at h
  split at h
  · next c hsampling _ =>
    cases h
    have hpublished := s.published_selfUpdated (s.watch.sampled c.groups x)
    have hquiet := s.sampleTaken_quiet c x
    refine .kept ?_ (fun hs => (s.published_kept _ (hs hsampling)).trans hquiet.kept)
    have hkept := hpublished.tableKept (StoredReport.published_stale _ _)
    have hrest := hquiet.kept.table
    exact
      { own := hrest.own.trans hkept.own
        config := hrest.config.trans hkept.config
        roster := fun n => (hrest.roster n).trans (hkept.roster n)
        present := fun n hp =>
          have ⟨p', r'⟩ := hrest.present n hp
          have ⟨p, r⟩ := hkept.present n p'
          ⟨p, r'.trans r⟩
        sequence := fun n hn => (hrest.sequence n (by rw [hkept.own]; exact hn)).trans (hkept.sequence n hn) }
  · cases h; exact (State.Quiet.refl _).moved

/-- The release of TSEL: a restart, or the end of a transaction that reaches neither (R189, R198). -/
theorem tselRelease_moved {tsdi : List Bool} {s t : State} (h : exec (.tselRelease tsdi) s = .next t) :
    Moved (.tselRelease tsdi) s t := by
  simp only [exec, execTselRelease] at h
  split at h
  · next hsel =>
    cases h
    simp only [State.endTransaction]
    split
    · next harmed => exact .reset .tap _ _ (.inr (.inr ⟨tsdi, rfl, hsel, harmed⟩)) rfl
    · refine ((s.tapBits_quiet tsdi).trans (State.Quiet.of_blocks ?_ ?_ ?_ ?_ ?_ (sequencesKept_of_slate ?_))).moved <;>
        simp
  · cases h; exact (State.Quiet.refl _).moved

end Sys2Proof.Machine
end

