-- ==== Sys2Proof/Proofs/PeerTable07_Steps.lean ====
section
/-! Every command's effect on the table and the self entry, and what every step keeps of them (R1, R2, R12, R19, R25, R26,
R41). -/

namespace Sys2Proof.Machine

/-! ### Commands that leave the table (R47, R53, R96) -/

/-- A row of operations on the engine and the line alone is quiet. -/
theorem State.Quiet.of_line {s t : State} (hctrl : t.ctrl = s.ctrl) (hloader : t.loader = s.loader)
    (hhealth : t.health = s.health) (hwatch : t.watch = s.watch) (htable : t.table = s.table) (hslate : t.slate = s.slate) :
    s.Quiet t := .of_blocks hctrl hloader hhealth hwatch htable (sequencesKept_of_slate hslate)

theorem resetEnd_moved {x : HeldSource} {s t : State} (h : exec (.resetEnd x) s = .next t) : Moved (.resetEnd x) s t := by
  simp only [exec, execResetEnd] at h
  split at h
  · split at h
    · cases h; exact State.Quiet.moved (.of_line (by rfl) (by rfl) (by rfl) (by rfl) (by rfl) (by rfl))
    · cases h
      exact State.Quiet.moved
        ⟨by rfl, by rfl, by rfl, ⟨by rfl, by rfl⟩, by rfl, by rfl, fun _ => Entry.Quiet.refl _⟩
  · cases h; exact (State.Quiet.refl _).moved

theorem discardEnd_moved {gap : List BitPeriod} {s t : State} (h : exec (.discardEnd gap) s = .next t) :
    Moved (.discardEnd gap) s t := by
  simp only [exec, execDiscardEnd] at h
  split at h
  · cases h; exact State.Quiet.moved (.of_line (by simp) (by simp) (by simp) (by simp) (by simp) (by simp))
  · cases h; exact (State.Quiet.refl _).moved

theorem contentionStart_moved {gap : List BitPeriod} {edge : Option Int} {able : Nat} {s t : State}
    (h : exec (.contentionStart gap edge able) s = .next t) : Moved (.contentionStart gap edge able) s t := by
  simp only [exec, execContentionStart] at h
  split at h
  · cases h; exact State.Quiet.moved (.of_line (by simp) (by simp) (by simp) (by simp) (by simp) (by simp))
  · cases h; exact (State.Quiet.refl _).moved

theorem frameStart_moved {gap : List BitPeriod} {edge : Int} {able : Nat} {s t : State}
    (h : exec (.frameStart gap edge able) s = .next t) : Moved (.frameStart gap edge able) s t := by
  simp only [exec, execFrameStart] at h
  split at h
  · cases h; exact State.Quiet.moved (.of_line (by simp) (by simp) (by simp) (by simp) (by simp) (by simp))
  · cases h; exact (State.Quiet.refl _).moved

theorem keyLost_moved {bits : List BitPeriod} {s t : State} (h : exec (.keyLost bits) s = .next t) :
    Moved (.keyLost bits) s t := by
  simp only [exec, execKeyLost] at h
  split at h
  · next v _ =>
    split at h
    · cases h
      refine State.Quiet.moved (.of_blocks (by simp) (by simp) (by simp) (by simp) (by simp) ?_)
      generalize v.slot = k
      cases k <;> exact ⟨rfl, rfl⟩
    · cases h; exact (State.Quiet.refl _).moved
  · cases h; exact (State.Quiet.refl _).moved

theorem lastCheckBitSent_moved {bits : List BitPeriod} {s t : State} (h : exec (.lastCheckBitSent bits) s = .next t) :
    Moved (.lastCheckBitSent bits) s t := by
  simp only [exec, execLastCheckBitSent] at h
  split at h
  · split at h
    · cases h; exact State.Quiet.moved (.of_line (by simp) (by simp) (by simp) (by simp) (by simp) (by simp))
    · cases h; exact (State.Quiet.refl _).moved
  · cases h; exact (State.Quiet.refl _).moved

/-! ### Commands that open a series, end one, or close a window -/

theorem keyWon_moved {bits : List BitPeriod} {s t : State} (h : exec (.keyWon bits) s = .next t) :
    Moved (.keyWon bits) s t := by
  simp only [exec, execKeyWon] at h
  split at h
  · next f v hf =>
    have hconfigured := State.configured_of_ownFrameIn hf
    split at h
    · cases h
      have hpassed : s.Quiet (((s.drive (drivenQuarters (s.contenderBits v))).passBits false (laterPeriods f bits)
          .q4).setTrails (countTrails 0 bits)) :=
        .of_line (by simp) (by simp) (by simp) (by simp) (by simp) (by simp)
      refine ((hpassed.kept.trans (State.openSeries_kept v.slot _ (by simpa using hconfigured))).trans
        (State.Quiet.kept (.of_line ?_ ?_ ?_ ?_ ?_ ?_))).moved <;> simp
    · cases h; exact (State.Quiet.refl _).moved
  · cases h; exact (State.Quiet.refl _).moved

/-- What SEND_ABORTED does: it aborts the own frame from a state that the bit periods leave, or nothing. -/
theorem execSendAborted_cases {bits : List BitPeriod} {s t : State} (h : exec (.sendAborted bits) s = .next t) :
    t = s ∨ ∃ u k, s.Quiet u ∧ s.ctrl.phase.configured = true ∧ t = u.abort k := by
  simp only [exec, execSendAborted] at h
  split at h
  · next hf =>
    split at h
    · cases h
      refine .inr ⟨_, _, .of_line ?_ ?_ ?_ ?_ ?_ ?_, State.configured_of_ownFrameIn hf, rfl⟩ <;> simp
    · cases h; exact .inl rfl
  · next hf =>
    split at h
    · cases h
      refine .inr ⟨_, _, .of_line ?_ ?_ ?_ ?_ ?_ ?_, State.configured_of_ownFrameIn hf, rfl⟩ <;> simp
    · cases h; exact .inl rfl
  · cases h; exact .inl rfl

theorem sendAborted_moved {bits : List BitPeriod} {s t : State} (h : exec (.sendAborted bits) s = .next t) :
    Moved (.sendAborted bits) s t := by
  rcases execSendAborted_cases h with rfl | ⟨u, k, hu, hs, rfl⟩
  · exact (State.Quiet.refl _).moved
  · exact (hu.kept.trans (State.abort_kept k u (by rw [hu.phase]; exact hs))).moved

theorem windowEnd_moved {slots : List BitPeriod} {s t : State} (h : exec (.windowEnd slots) s = .next t) :
    Moved (.windowEnd slots) s t := by
  simp only [exec, execWindowEnd] at h
  split at h
  · next f hf =>
    have hconfigured := State.configured_of_engineRuns (State.engineRuns_of_frameIn hf).1
    split at h
    · cases h
      have hpassed : s.Quiet (((s.drive (windowQuarters (f.ownSlot s.ctrl.ownNumber))).passBits false slots
          .q4).stopDriving) := .of_line (by simp) (by simp) (by simp) (by simp) (by simp) (by simp)
      exact ((hpassed.kept.trans (State.closeFrame_kept f _ _ (by simpa using hconfigured))).trans
        (State.afterWindow_quiet _).kept).moved
    · cases h; exact (State.Quiet.refl _).moved
  · cases h; exact (State.Quiet.refl _).moved

/-- The three commands that abandon a frame (R58, R106, R107). -/
theorem abandoning_moved {c : Instr} {bits : List BitPeriod} {s t : State}
    (hc : c = .invalidKind bits ∨ c = .framingFault bits ∨ c = .stuckDominant bits) (h : exec c s = .next t) :
    Moved c s t := by
  rcases hc with rfl | rfl | rfl
  all_goals
    simp only [exec, execInvalidKind, execFramingFault, execStuckDominant] at h
    split at h
    · next f hf =>
      split at h
      · cases h; exact abandoned_moved hf bits _ _
      · cases h; exact (State.Quiet.refl _).moved
    · cases h; exact (State.Quiet.refl _).moved

/-! ### Ticks and requests -/

/-- The three commands of a tick (R173). -/
theorem tick_moved {c : Instr} {s t : State} (hc : t = s ∨ ∃ order, t = s.refreshTicked order) : Moved c s t := by
  rcases hc with rfl | ⟨order, rfl⟩
  · exact (State.Quiet.refl _).moved
  · exact (State.refreshTicked_kept order s).moved

/-- The commands whose bytes come on TSDI (R187). -/
theorem tapBytes_moved {c : Instr} {s t : State} (bytes : List Byte) (h : t = s ∨ t = s.tapBytes bytes) : Moved c s t := by
  rcases h with rfl | rfl
  · exact (State.Quiet.refl _).moved
  · exact (s.tapBits_quiet (bytesBits bytes)).moved

theorem unknownRequest_moved {b : Byte} {s t : State} (h : exec (.unknownRequest b) s = .next t) :
    Moved (.unknownRequest b) s t := by
  simp only [exec, execUnknownRequest] at h
  split at h
  · cases h; exact tapBytes_moved [b] (.inr rfl)
  · cases h; exact (State.Quiet.refl _).moved

theorem tselAssert_moved {s t : State} (h : exec .tselAssert s = .next t) : Moved .tselAssert s t := by
  simp only [exec, execTselAssert] at h
  split at h
  · cases h; exact (State.Quiet.refl _).moved
  · split at h
    all_goals cases h; exact State.Quiet.moved (.of_line (by rfl) (by rfl) (by rfl) (by rfl) (by rfl) (by rfl))

theorem pauseEnd_moved {s t : State} (h : exec .pauseEnd s = .next t) : Moved .pauseEnd s t := by
  simp only [exec, execPauseEnd] at h
  split at h
  · cases h; exact State.Quiet.moved (State.setLoader_quiet (by rfl))
  · cases h; exact (State.Quiet.refl _).moved

/-- A tick command's answer: a whole tick, or nothing. -/
theorem tick_answer {p : Bool} {s t u : State} {order : TickOrder} (hu : u = s.refreshTicked order)
    (h : (if p = true then Host.Outcome.next u else Host.Outcome.next s : Result) = .next t) :
    t = s ∨ ∃ order, t = s.refreshTicked order := by
  split at h
  · cases h; exact .inr ⟨order, hu⟩
  · cases h; exact .inl rfl

/-- What each command does to the table and the self entry. -/
theorem exec_moved {c : Instr} {s t : State} (h : exec c s = .next t) : Moved c s t := by
  cases c with
  | powerOnReset => cases h; exact .reset .power _ s (.inl rfl) rfl
  | resetPin => cases h; exact .reset .pin _ s (.inr (.inl rfl)) rfl
  | resetEnd x => exact resetEnd_moved h
  | headerRead n a b l r => exact headerRead_moved h
  | transportFailure n f read => exact transportFailure_moved h
  | pauseEnd => exact pauseEnd_moved h
  | imageComplete rest x => exact imageComplete_moved h
  | sampleEvent x => exact sampleEvent_moved h
  | refreshTick order => exact tick_moved (tick_answer rfl h)
  | peerSilent n order => exact tick_moved (tick_answer rfl h)
  | listenExpiry order => exact tick_moved (tick_answer rfl h)
  | discardEnd gap => exact discardEnd_moved h
  | contentionStart gap edge able => exact contentionStart_moved h
  | keyLost bits => exact keyLost_moved h
  | keyWon bits => exact keyWon_moved h
  | sendAborted bits => exact sendAborted_moved h
  | invalidKind bits => exact abandoning_moved (.inl rfl) h
  | framingFault bits => exact abandoning_moved (.inr (.inl rfl)) h
  | stuckDominant bits => exact abandoning_moved (.inr (.inr rfl)) h
  | frameReceived bits => exact frameReceived_moved h
  | windowEnd slots => exact windowEnd_moved h
  | tselAssert => exact tselAssert_moved h
  | tselRelease tsdi => exact tselRelease_moved h
  | status => cases h; exact tapBytes_moved [0x01] (.inr rfl)
  | entry n => cases h; exact tapBytes_moved (0x02 :: n.toList) (.inr rfl)
  | terms => cases h; exact tapBytes_moved [0x03] (.inr rfl)
  | counters => cases h; exact tapBytes_moved [0x04] (.inr rfl)
  | peek => cases h; exact tapBytes_moved [0x05] (.inr rfl)
  | take => cases h; exact tapBytes_moved [0x06] (.inr rfl)
  | release mask => cases h; exact tapBytes_moved (0x07 :: mask.toList) (.inr rfl)
  | resync => cases h; exact tapBytes_moved [0x08] (.inr rfl)
  | restart => cases h; exact tapBytes_moved [0x09] (.inr rfl)
  | unknownRequest b => exact unknownRequest_moved h
  | frameStart gap edge able => exact frameStart_moved h
  | lastCheckBitSent bits => exact lastCheckBitSent_moved h

/-! ### A frame accepted -/

/-- The sender's entry after an accepted frame (R9, R12 to R24, R27). -/
def Entry.accepting (s : State) (r : ReceivedFrame) (e : Entry) : Entry :=
  match r.kind with
  | .change => (e.reported .change r.sequence (reportOfBits r.payload)).counted
  | .refresh => (e.reported .refresh r.sequence (reportOfBits r.payload)).counted
  | .join => (e.evidenced.joined (joinFingerprint r.payload) (joinZones r.payload) (s.planAgrees r.payload)).counted
  | .resync => e.evidenced.counted
  | .release => { e.evidenced.counted with lastRelease := some r.sequence }

theorem State.tableAccepts_updates (r : ReceivedFrame) (s : State) :
    updatesEntry r.number (Entry.accepting s r) s (s.tableAccepts r) := by
  cases hk : r.kind <;> simp only [State.tableAccepts, hk]
  case change =>
    exact (State.acceptState_updates (.inl rfl) _ _ _ s).congr (by simp only [Entry.accepting, hk])
  case refresh =>
    exact (State.acceptState_updates (.inr rfl) _ _ _ s).congr (by simp only [Entry.accepting, hk])
  case join => exact (State.acceptJoin_updates _ _ s).congr (by simp only [Entry.accepting, hk])
  case resync => exact (State.acceptResync_updates _ s).congr (by simp only [Entry.accepting, hk])
  case release => exact (State.acceptRelease_updates _ _ _ s).congr (by simp only [Entry.accepting, hk])

/-- The sender's entry after the whole command (R65, R66). -/
theorem State.accept_updates (f : Frame) (bits : List BitPeriod) (x : Reception) (r : ReceivedFrame) (s : State) :
    updatesEntry r.number (Entry.accepting s r) s ((s.followed f bits .q4 x).accept r) := by
  refine ((State.tableAccepts_updates r (s.followed f bits .q4 x)).of_entries (fun _ => rfl) (fun _ => rfl)).congr ?_
  cases hk : r.kind <;> simp [Entry.accepting, hk, State.planAgrees]

/-- An accepted frame keeps the sequences the self entry shows. -/
theorem State.accept_sequences (r : ReceivedFrame) (s : State) : sequencesKept s (s.accept r) := by
  simp only [State.accept, sequencesKept, State.confirming_frame]
  cases hk : r.kind <;> simp only [State.tableAccepts, hk, State.acceptState_frame, State.acceptRelease_frame, and_self]
  case join =>
    obtain ⟨h1, h2⟩ := State.requestRefresh_sequences (((s.joinTaken r.number r.payload).countAccepted r.number).tableChanged)
    have hslate : (s.joinTaken r.number r.payload).slate = s.slate := by
      simp only [State.joinTaken]; split <;> simp
    rw [State.acceptJoin_eq, h1, h2]
    simp [hslate]
  case resync =>
    obtain ⟨h1, h2⟩ := State.requestRefresh_sequences (((s.evidence r.number).countAccepted r.number).tableChanged)
    rw [State.acceptResync, h1, h2]
    simp

end Sys2Proof.Machine
end

