-- ==== Sys2Proof/Proofs/PeerTable08_Kept.lean ====
section
/-! The statements on the peer table that every step keeps (R1, R2, R12, R19, R25, R26, R41). -/

namespace Sys2Proof.Machine

/-! ### The end of a load (R166 to R172) -/

/-- A load that ends in a fault, block by block (R169). -/
theorem State.halt_blocks (f : FaultCode) (port : List BusOp) (s : State) :
    (s.halt f port).ctrl = { s.ctrl with phase := .halted, fault := f } ∧ (s.halt f port).loader.config = none ∧
      (s.halt f port).watch = s.watch ∧ (s.halt f port).slate = s.slate ∧ (s.halt f port).health = s.health ∧
      (∀ n, (s.halt f port).entry n = s.entry n) := by
  simp [State.halt]

/-- An image passes its checks where the check word, every field and the roster do (R166 to R168). -/
theorem imageFault_none_iff (image : List Byte) :
    imageFault image = none ↔
      checkWordOk image = true ∧ (∀ i, 2 ≤ i → i ≤ 123 → fieldOk image i = true) ∧ rosterOk image = true := by
  have hfields : firstBadField image = none ↔ ∀ i, 2 ≤ i → i ≤ 123 → fieldOk image i = true := by
    simp only [firstBadField, List.find?_eq_none, rangeIndices, List.mem_map, List.mem_range, Bool.not_eq_true',
      Bool.not_eq_false]
    constructor
    · intro h i h2 h123
      exact h i ⟨i - 2, by omega, by omega⟩
    · rintro h _ ⟨j, hj, rfl⟩
      exact h _ (by omega) (by omega)
  rw [← hfields, imageFault]
  cases checkWordOk image <;> cases hb : firstBadField image <;> cases rosterOk image <;> simp

/-- The station number of a valid image names a station (R167). -/
theorem number_ne_zero_of_fields {image : List Byte} (h : fieldOk image 3 = true) : (parseImage image).number ≠ 0 := by
  have hrange : 1 ≤ (imageByte image 4).toNat ∧ (imageByte image 4).toNat ≤ 31 := by simpa [fieldOk] using h
  have hnumber : (parseImage image).number = BitVec.ofNat 5 (imageByte image 4).toNat := rfl
  intro h0
  have hnat := congrArg BitVec.toNat (hnumber.symm.trans h0)
  rw [BitVec.toNat_ofNat] at hnat
  simp at hnat
  omega

/-- The controller, the slate and the health monitor after a valid load (R172). -/
theorem State.validLoad_blocks (c : StationConfig) (port : List BusOp) (x : SenseSample) (s : State) :
    (s.validLoad c port x).ctrl =
        { s.ctrl with
          ownNumber := c.number, fingerprint := some (planFingerprint c), phase := .listening, listenCount := 0,
          ticking := true, tick := 0 } ∧
      (s.validLoad c port x).loader = { s.loader with progress := .done, config := some c, port := port } ∧
      (s.validLoad c port x).watch = WatchUnit.started c.groups x ∧ (s.validLoad c port x).slate = s.slate ∧
      (s.validLoad c port x).health = s.health := by
  simp [State.validLoad]

/-- The entries after a valid load: the roster flags, and the self entry (R2, R25). -/
theorem State.entry_validLoad (c : StationConfig) (port : List BusOp) (x : SenseSample) (s : State) (n : Station)
    (hn : n ≠ 0) :
    (s.validLoad c port x).entry n =
      if n = c.number then
        Entry.asSelf c (WatchUnit.started c.groups x).records { s.entry n with roster := inMap c.roster n }
      else { s.entry n with roster := inMap c.roster n } := by
  have htable : (s.validLoad c port x).table = PeerTable.setEntry (rosterTable c.roster s.table) c.number
      (Entry.asSelf c (WatchUnit.started c.groups x).records
        (PeerTable.entry (rosterTable c.roster s.table) c.number)) := by
    simp [State.validLoad]
  rw [State.entry, htable, PeerTable.entry_setEntry]
  by_cases h : n = c.number
  · rw [if_pos ⟨h, h ▸ hn⟩, if_pos h, ← h, entry_rosterTable _ _ _ hn]
    rfl
  · rw [if_neg (fun hc => h hc.1), if_neg h, entry_rosterTable _ _ _ hn]
    rfl

/-- While an attempt is read the phase is LOADING (R164). -/
theorem State.loading_of_reading {s : State} (h : s.reading = true) : s.ctrl.phase = .loading := by
  simp only [State.reading, Bool.and_eq_true, decide_eq_true_iff] at h
  exact h.1.1

/-! ### The loader's condition -/

/-- The parts of the loader's condition that speak of the phase (R164, R170, R172). -/
theorem State.loaderOk_phase {s : State} (h : s.loaderOk = true) :
    s.loader.config.isSome = s.ctrl.phase.configured ∧ s.watch.sampling = s.ctrl.phase.configured := by
  simp only [State.loaderOk, Bool.and_eq_true, decide_eq_true_iff] at h
  obtain ⟨⟨⟨⟨_, hconfig⟩, hsampling⟩, _⟩, _⟩ := h
  exact ⟨hconfig, hsampling⟩

/-- A step is a command on the state with the queue's rest, or idling (log 1). -/
theorem step_cases {s t : State} (h : step s = .next t) :
    t = s ∨ ∃ c rest, exec c (s.setPending rest) = .next t := by
  rw [step] at h
  split at h
  · cases h; exact .inl rfl
  · next c rest _ => exact .inr ⟨c, rest, h⟩

/-! ### Roster flags and PRESENT entries (R2, R12) -/

/-- The condition on the table, entry by entry. -/
theorem State.tableOk_iff (s : State) :
    s.tableOk = true ↔ ∀ n, n ≠ 0 →
      (s.entry n).roster = (s.loader.config.map (fun c => inMap c.roster n)).getD false ∧
        ((s.entry n).presence = .present → (s.entry n).report.map (fun r => r.stale) = some false) := by
  have hany : ∀ o : Option StoredReport, o.any (fun r => !r.stale) = true ↔ o.map (fun r => r.stale) = some false := by
    intro o; cases o <;> simp
  simp only [State.tableOk, all_stations, Bool.and_eq_true, Bool.or_eq_true, decide_eq_true_iff, hany,
    ← imp_iff_not_or]

theorem State.TableKept.tableOk {s t : State} (h : s.TableKept t) (hs : s.tableOk = true) : t.tableOk = true := by
  rw [State.tableOk_iff] at hs ⊢
  intro n hn
  obtain ⟨hroster, hpresent⟩ := hs n hn
  refine ⟨by rw [h.roster, h.config, hroster], fun hp => ?_⟩
  obtain ⟨hp', hstale⟩ := h.present n hp
  rw [hstale]
  exact hpresent hp'

/-- The sender's entry of an accepted frame keeps its roster flag, and holds a current report where it is PRESENT. -/
theorem Entry.accepting_ok (s : State) (r : ReceivedFrame) (e : Entry)
    (h : e.presence = .present → e.report.map (fun x => x.stale) = some false) :
    (Entry.accepting s r e).roster = e.roster ∧
      ((Entry.accepting s r e).presence = .present →
        (Entry.accepting s r e).report.map (fun x => x.stale) = some false) := by
  have hevidenced : e.evidenced.roster = e.roster ∧
      (e.evidenced.presence = .present → e.evidenced.report.map (fun x => x.stale) = some false) := by
    refine ⟨e.evidenced_quiet.roster, fun hp => ?_⟩
    obtain ⟨hp', hr⟩ := e.evidenced_quiet.present hp
    rw [hr]
    exact h hp'
  have hpresented : e.presented.roster = e.roster := by rw [Entry.presented]; split <;> rfl
  cases hk : r.kind <;> simp only [Entry.accepting, hk]
  case change => exact ⟨hpresented, fun _ => rfl⟩
  case refresh => exact ⟨hpresented, fun _ => rfl⟩
  case join => exact ⟨hevidenced.1, fun hp => by cases hp⟩
  case resync => exact hevidenced
  case release => exact hevidenced

theorem Moved.tableOk {c : Instr} {s t : State} (h : Moved c s t) (hl : s.loaderOk = true) (hs : s.tableOk = true) :
    t.tableOk = true := by
  cases h with
  | kept table _ => exact table.tableOk hs
  | reset cause pins u _ result =>
    subst result
    rw [State.tableOk_iff]
    intro n _
    rw [State.entry_resetBy]
    exact ⟨rfl, fun hp => by cases hp⟩
  | halted f port l reading result =>
    subst result
    have hnone : s.loader.config = none := by
      rw [← Option.not_isSome_iff_eq_none, (State.loaderOk_phase hl).1, State.loading_of_reading reading]
      simp [Phase.configured]
    rw [State.tableOk_iff] at hs ⊢
    obtain ⟨_, hconfig, _, _, _, hentry⟩ := State.halt_blocks f port (s.setLoader l)
    intro n hn
    rw [hentry, hconfig, State.entry_setLoader]
    rw [hnone] at hs
    exact hs n hn
  | loaded image port l x reading valid result =>
    subst result
    rw [State.tableOk_iff] at hs ⊢
    obtain ⟨_, hloader, _⟩ := State.validLoad_blocks (parseImage image) port x (s.setLoader l)
    intro n hn
    rw [State.entry_validLoad _ _ _ _ _ hn, hloader]
    split
    · exact ⟨rfl, fun hp => by cases hp⟩
    · exact ⟨rfl, (hs n hn).2⟩
  | accepted bits r f x _ _ whole _ _ result =>
    subst result
    rw [State.tableOk_iff] at hs ⊢
    have hupdates := State.accept_updates f bits x r s
    have hloader : ((s.followed f bits .q4 x).accept r).loader = s.loader := by simp
    intro n hn
    rw [hloader]
    by_cases hnr : n = r.number
    · subst hnr
      obtain ⟨hroster, hpresent⟩ := hs r.number hn
      obtain ⟨hroster', hpresent'⟩ := Entry.accepting_ok s r (s.entry r.number) hpresent
      rw [hupdates.same hn]
      exact ⟨hroster'.trans hroster, hpresent'⟩
    · rw [hupdates.kept n hnr]
      exact hs n hn

/-- Settles O59: every command keeps the condition, by what it does to the table. -/
theorem stepKeepsTableConsistent : Obligations.StepKeepsTableConsistent := by
  unfold Obligations.StepKeepsTableConsistent
  intro s t hl hs h
  rcases step_cases h with rfl | ⟨c, rest, h⟩
  · exact hs
  · exact (exec_moved h).tableOk hl hs

/-! ### The self entry (R1, R25, R26, R41) -/

/-- The sender's entry of an accepted frame is SELF only where it was. -/
theorem Entry.accepting_not_self (s : State) (r : ReceivedFrame) (e : Entry) (h : e.presence ≠ .self) :
    (Entry.accepting s r e).presence ≠ .self := by
  have hevidenced : e.evidenced.presence ≠ .self := by rw [ne_eq, e.evidenced_quiet.self]; exact h
  have hpresented : e.presented.presence ≠ .self := by rw [Entry.presented, if_neg h]; simp
  cases hk : r.kind <;> simp only [Entry.accepting, hk]
  case change => exact hpresented
  case refresh => exact hpresented
  case join => exact fun hp => by cases hp
  case resync => exact hevidenced
  case release => exact hevidenced

theorem Moved.selfOk {c : Instr} {s t : State} (h : Moved c s t) (hl : s.loaderOk = true) (hs : s.selfOk = true) :
    t.selfOk = true := by
  have hloading : s.reading = true → s.SelfAbsent := fun hr =>
    (State.selfOk_unconfigured (by rw [State.loading_of_reading hr]; rfl)).mp hs
  cases h with
  | kept _ kept => exact (kept (fun h => by rw [← (State.loaderOk_phase hl).2]; exact h)).self hs
  | reset cause pins u _ result =>
    subst result
    refine (State.selfOk_unconfigured rfl).mpr ⟨rfl, fun n _ => ?_, ⟨rfl, rfl⟩, rfl⟩
    rw [State.entry_resetBy]
    decide
  | halted f port l reading result =>
    subst result
    obtain ⟨hctrl, _, _, hslate, hhealth, hentry⟩ := State.halt_blocks f port (s.setLoader l)
    have habsent := hloading reading
    refine (State.selfOk_unconfigured (by rw [hctrl]; rfl)).mpr ⟨?_, fun n hn => ?_, ?_, ?_⟩
    · rw [hctrl]; exact habsent.own
    · rw [hentry]; exact habsent.none n hn
    · rw [hslate]; exact habsent.sequences
    · rw [hhealth]; exact habsent.health
  | loaded image port l x reading valid result =>
    subst result
    have habsent := hloading reading
    have hnumber := number_ne_zero_of_fields (((imageFault_none_iff image).mp valid).2.1 3 (by omega) (by omega))
    obtain ⟨hctrl, _, hwatch, hslate, hhealth⟩ := State.validLoad_blocks (parseImage image) port x (s.setLoader l)
    have hentry := State.entry_validLoad (parseImage image) port x (s.setLoader l)
    have hself := (hentry _ hnumber).trans (if_pos rfl)
    have hreport : ((State.validLoad (parseImage image) port x (s.setLoader l)).entry (parseImage image).number).report =
        some { sequence := 0, stale := false, content :=
          { phase := .joining, health := .normal
            groups := (WatchUnit.started (parseImage image).groups x).records } } := by rw [hself]; rfl
    refine (State.selfOk_configured (by rw [hctrl]; rfl)).mpr
      ⟨?_, fun n hn => ?_, ⟨_, (congrArg (fun v => ((State.validLoad _ port x (s.setLoader l)).entry
        v.ownNumber).report) hctrl).trans hreport, ?_⟩, ?_, ?_⟩
    · rw [hctrl]; exact hnumber
    · rw [hctrl, hentry n hn]
      split
      · next h => exact ⟨fun _ => h, fun _ => rfl⟩
      · next h => exact ⟨fun hp => absurd hp (habsent.none n hn), fun hc => absurd hc h⟩
    · rw [State.selfReportOk_iff, hctrl, hslate, hhealth, hwatch]
      exact ⟨habsent.sequences.1.symm, rfl, congrArg Health.reportCode habsent.health.symm, rfl, rfl⟩
    · rw [hctrl, hself, hslate]
      exact congrArg some habsent.sequences.2.symm
    · rw [hctrl, hself]; rfl
  | accepted bits r f x _ _ whole number runs result =>
    subst result
    have hconfigured := State.configured_of_engineRuns runs
    have hok := (State.selfOk_configured hconfigured).mp hs
    have hupdates := State.accept_updates f bits x r s
    have hpeer : (s.entry r.number).presence ≠ .self := fun hp =>
      number ((hok.only _ (ReceivedFrame.number_ne_zero whole)).mp hp)
    have hown := hupdates.kept s.ctrl.ownNumber (Ne.symm number)
    obtain ⟨hreport, hrelease⟩ := State.accept_sequences r (s.followed f bits .q4 x)
    have hctrl : ((s.followed f bits .q4 x).accept r).ctrl = s.ctrl := by simp
    have hhealth : ((s.followed f bits .q4 x).accept r).health = s.health := by simp
    have hwatch : ((s.followed f bits .q4 x).accept r).watch = s.watch := by simp
    refine (State.selfOk_configured (by rw [hctrl]; exact hconfigured)).mpr ⟨?_, fun n hn => ?_, ?_, ?_, ?_⟩
    · rw [hctrl]; exact hok.own
    · rw [hctrl]
      by_cases hnr : n = r.number
      · rw [hnr, hupdates.same (hnr ▸ hn)]
        exact ⟨fun hp => absurd hp (Entry.accepting_not_self s r _ hpeer), fun hc => absurd hc number⟩
      · rw [hupdates.kept n hnr]; exact hok.only n hn
    · obtain ⟨q, hq, hshown⟩ := hok.report
      refine ⟨q, by rw [hctrl, hown, hq], selfReportOk_of hshown ?_ ?_ ?_ ?_ id⟩
      · rw [hreport]; exact id
      · rw [hctrl]; exact id
      · rw [hhealth]; exact id
      · rw [hwatch]; exact id
    · rw [hctrl, hown, hrelease]; exact hok.release
    · rw [hctrl, hown]; exact hok.age

/-- Settles O58: every command keeps the condition, by what it does to the self entry. -/
theorem stepKeepsSelfEntryTrue : Obligations.StepKeepsSelfEntryTrue := by
  unfold Obligations.StepKeepsSelfEntryTrue
  intro s t hl hs h
  rcases step_cases h with rfl | ⟨c, rest, h⟩
  · exact hs
  · exact (exec_moved h).selfOk hl hs

/-! ### Report sequences (R19) -/

/-- The report of the sender's entry, where an accepted frame changes its sequence (R19). -/
theorem Entry.accepting_sequence (s : State) (r : ReceivedFrame) (e : Entry)
    (h : (Entry.accepting s r e).report.map (fun x => x.sequence) ≠ e.report.map (fun x => x.sequence)) :
    ((r.kind = .change ∨ r.kind = .refresh) ∧
        (Entry.accepting s r e).report.map (fun x => x.sequence) = some r.sequence) ∨
      (r.kind = .join ∧ (Entry.accepting s r e).report = none) := by
  cases hk : r.kind <;> simp only [Entry.accepting, hk] at h ⊢
  case change => exact .inl ⟨.inl trivial, rfl⟩
  case refresh => exact .inl ⟨.inr trivial, rfl⟩
  case join => exact .inr ⟨trivial, rfl⟩
  case resync => exact absurd e.evidenced_quiet.sequence h
  case release => exact absurd e.evidenced_quiet.sequence h

/-- A reset leaves no report (R29). -/
theorem exec_resets {c : Instr} {s t : State} (h : exec c s = .next t) (hr : resets c s) :
    ∃ (cause : ResetCause) (pins : Pins) (u : State), t = u.resetBy cause pins := by
  rcases hr with rfl | rfl | ⟨tsdi, rfl, hsel, harmed⟩
  · cases h; exact ⟨.power, _, s, rfl⟩
  · cases h; exact ⟨.pin, _, s, rfl⟩
  · simp only [exec, execTselRelease, hsel, if_true, State.endTransaction, harmed] at h
    cases h; exact ⟨.tap, _, _, rfl⟩

/-- Settles O39: what each command does to the table leaves a peer's report sequence, but for an accepted STATE frame or JOIN
of that peer, and a reset. -/
theorem peerReportSequenceChangesOnlyByItsFrames : Obligations.PeerReportSequenceChangesOnlyByItsFrames := by
  unfold Obligations.PeerReportSequenceChangesOnlyByItsFrames
  refine ⟨fun c s t n h hs ht hne => ?_, fun bits s t r h hr hm hn hk => ?_, fun c s t n h hr => ?_⟩
  · cases exec_moved h with
    | kept table _ => exact absurd (table.sequence n hs) hne
    | reset cause pins u command result =>
      exact .inr ⟨command, by rw [result, State.entry_resetBy]; rfl⟩
    | halted f port l _ result =>
      obtain ⟨_, _, _, _, _, hentry⟩ := State.halt_blocks f port (s.setLoader l)
      exact absurd (by rw [result, hentry]; rfl) hne
    | loaded image port l x _ _ result =>
      refine absurd ?_ hne
      by_cases h0 : n = 0
      · rw [h0, State.entry_zero, State.entry_zero]
      · have hn : n ≠ (parseImage image).number := by
          rw [result, (State.validLoad_blocks (parseImage image) port x (s.setLoader l)).1] at ht
          exact ht
        rw [result, State.entry_validLoad _ _ _ _ _ h0, if_neg hn]
        rfl
    | accepted bits r f x command received whole _ _ result =>
      have hupdates := State.accept_updates f bits x r s
      rw [← result] at hupdates
      by_cases hnr : n = r.number
      · subst hnr
        rw [hupdates.same (ReceivedFrame.number_ne_zero whole)] at hne ⊢
        exact .inl ⟨bits, r, command, received, whole, rfl, Entry.accepting_sequence s r _ hne⟩
      · exact absurd (by rw [hupdates.kept n hnr]) hne
  · obtain ⟨f, x, _, hexec⟩ := State.receivedFrame_spec hr
    rw [hexec, State.judged_accepted (s := s.followed f bits .q4 x) hm hn] at h
    cases h
    rw [(State.accept_updates f bits x r s).same (ReceivedFrame.number_ne_zero hm)]
    simp only [Entry.accepting, hk]
    rfl
  · obtain ⟨cause, pins, u, rfl⟩ := exec_resets h hr
    rw [State.entry_resetBy]; rfl

end Sys2Proof.Machine
end

