-- ==== Sys2Proof/Proofs/PeerTable09_Rejection.lean ====
section
/-! Frames that fail: REJECTED at the end of the check, ABANDONED before it (R58, R63, R64, R70, R106, R107). -/

namespace Sys2Proof.Machine

/-! ### An outcome weighed (R111 to R117) -/

/-- What the weight of outcome o on u may change, t shows. -/
structure Weighed (o : FrameOutcome) (u t : State) : Prop where
  health : t.health = (u.weighOutcome o).health
  slate : t.slate = (u.weighOutcome o).slate
  notices : t.notices = (u.weighOutcome o).notices
  table : t.table = (u.weighOutcome o).table

theorem Weighed.entry {o : FrameOutcome} {u t : State} (h : Weighed o u t) (n : Station) :
    t.entry n = (u.weighOutcome o).entry n := State.entry_of_table h.table n

/-- What follows the outcome, seen from a state s before it, of the same tick, number and health. -/
theorem Weighed.follows {o : FrameOutcome} {s u t : State} (h : Weighed o u t) (hhealth : u.health = s.health)
    (htick : u.ctrl.tick = s.ctrl.tick) (hown : u.ctrl.ownNumber = s.ctrl.ownNumber) :
    healthFollows u.ctrl.phase u.slate u.notices (u.entry s.ctrl.ownNumber).report s t := by
  rw [← hown]
  exact healthFollows_congr (by rw [hhealth]) htick.symm hown.symm (by rw [h.health]) h.slate h.notices h.entry
    (State.weighOutcome_follows o u)

theorem Weighed.after {o : FrameOutcome} {s u t : State} (h : Weighed o u t) (hhealth : u.health = s.health) :
    healthAfter (o.weigh s.health.garble) s t := by
  rw [healthAfter, h.health, State.weighOutcome_health, hhealth]
  exact ⟨rfl, rfl, rfl⟩

/-- An outcome leaves every entry but the self entry, and of that one all but the report. -/
theorem Weighed.entry_report {o : FrameOutcome} {u t : State} (h : Weighed o u t) (n : Station) :
    t.entry n = { u.entry n with
      report := if n = u.ctrl.ownNumber then (t.entry n).report else (u.entry n).report } := by
  rw [h.entry n, State.entry_weighOutcome]
  split
  · next hn => rw [if_pos hn.1]
  · split <;> rfl

theorem Weighed.self_entry {o : FrameOutcome} {u t : State} (h : Weighed o u t) {n : Station} (hn : n = u.ctrl.ownNumber) :
    t.entry n = { u.entry n with report := (t.entry n).report } := by
  have hentry := h.entry_report n
  simpa only [if_pos hn] using hentry

theorem Weighed.entriesKept {o : FrameOutcome} {u t : State} (h : Weighed o u t) :
    entriesKept u.ctrl.ownNumber u t := fun n hn => by rw [h.entry_report n, if_neg hn]

/-! ### REJECTED (R64, R70) -/

theorem State.reject_weighed (u : State) : Weighed .rejected (u.countOutcome .rejected) u.reject :=
  ⟨by simp [State.reject], by simp [State.reject], by simp [State.reject], by simp [State.reject]⟩

/-- Settles O29: the bit periods passed leave nothing but line and frame, and the judgement of a malformed frame is
`reject`. -/
theorem failedFrameIsRejected : Obligations.FailedFrameIsRejected := by
  unfold Obligations.FailedFrameIsRejected
  intro bits s r hr hbad
  obtain ⟨f, x, hf, hexec⟩ := State.receivedFrame_spec hr
  rw [State.judged_malformed hbad] at hexec
  have hw := State.reject_weighed (s.followed f bits .q4 x)
  refine ⟨_, hexec, ?_, ?_, ?_, ?_, ?_, hw.after rfl, ?_, hw.follows rfl rfl rfl⟩
  · intro b hb
    cases b <;> simp_all [sameBlock]
  · exact fun n hn => hw.entriesKept n hn
  · exact hw.self_entry rfl
  · simp [confirmingWith, State.reject, State.confirming, State.followed, State.setFrame, State.countOutcome]
  · simp [State.reject, State.confirming, State.followed, State.setFrame, State.countOutcome, StationCounters.count]
  · simp [State.reject, State.followed, State.setTrails, State.passBits]

end Sys2Proof.Machine
end

