-- ==== Sys2Proof/Proofs/PeerTable10_Abandoned.lean ====
section
/-! What a run of bit periods has read when it brings its event, and a frame abandoned (R58, R63, R101, R106, R107). -/

namespace Sys2Proof.Machine

/-! ### The bits read before an event -/

/-- The values that a reception takes from a run of bit periods: the start bit's is none of them (R101). -/
def valuesRead (started : Bool) (ps : List BitPeriod) : List Bool :=
  (if started then ps else ps.drop 1).map (fun p => p.value)

theorem valuesRead_snoc (started : Bool) (ps : List BitPeriod) (p : BitPeriod) :
    valuesRead started (ps ++ [p]) =
      valuesRead started ps ++ if started || !ps.isEmpty then [p.value] else [] := by
  cases started
  · cases ps <;> simp [valuesRead]
  · simp [valuesRead]

theorem valuesRead_cons (started : Bool) (p : BitPeriod) (ps : List BitPeriod) :
    valuesRead started (p :: ps) = (if started then [p.value] else []) ++ valuesRead true ps := by
  cases started <;> simp [valuesRead]

/-- After the trail sample nothing is faulty but the line. -/
theorem afterTrail_cases (r : Reception) :
    (r.trails = 8 ∧ afterTrail r = .stuckDominant r) ∨ (∃ k, afterTrail r = .checkEnd k r) ∨ afterTrail r = .more r := by
  rw [afterTrail]
  split
  · next h => exact .inl ⟨h, rfl⟩
  · split
    · next k _ =>
      split
      · exact .inr (.inl ⟨k, rfl⟩)
      · exact .inr (.inr rfl)
    · exact .inr (.inr rfl)

/-- The reception after the whole of a bit period (R101, R107). -/
def Reception.passed (r : Reception) (p : BitPeriod) : Reception :=
  { started := true
    bits := r.bits ++ if r.started then [p.value] else []
    trails := countTrail (if r.started then r.trails else 0) p.trail }

/-- What one bit period can bring (R58, R101, R106, R107). -/
theorem receiveBit_cases (r : Reception) (p : BitPeriod) :
    receiveBit r p = afterTrail (r.passed p) ∨
      (receiveBit r p = .framingFault r .q1 ∧ r.started = true ∧ p.lead = false) ∨
      (receiveBit r p = .framingFault r .q2 ∧ r.started = false ∧ p.value = false) ∨
      (receiveBit r p = .invalidKind { started := true, bits := r.bits ++ [p.value], trails := r.trails } ∧
        r.started = true ∧ (r.bits ++ [p.value]).length = 11 ∧ frameKind (r.bits ++ [p.value]) = none) ∨
      receiveBit r p = .overrun := by
  rw [receiveBit, Reception.passed]
  cases hs : r.started <;> cases hl : p.lead
  · simp
  · cases hv : p.value <;> simp
  · simp
  · by_cases hk : (r.bits ++ [p.value]).length = 11 ∧ frameKind (r.bits ++ [p.value]) = none
    · simp only [if_pos hk]; simp [hk.2]; exact .inr (by simpa using hk.1)
    · simp only [if_neg hk]; simp

/-- A bit period that brings nothing is passed. -/
theorem receiveBit_more {r x : Reception} {p : BitPeriod} (h : receiveBit r p = .more x) : x = r.passed p := by
  rcases receiveBit_cases r p with hb | ⟨hb, _⟩ | ⟨hb, _⟩ | ⟨hb, _⟩ | hb <;> rw [hb] at h
  · rcases afterTrail_cases (r.passed p) with ⟨_, ht⟩ | ⟨k, ht⟩ | ht <;> rw [ht] at h <;> cases h
    rfl
  all_goals cases h

/-- Bit periods that bring nothing are read, and the frame goes on. -/
theorem receive_more {r x : Reception} {ps : List BitPeriod} (h : receive r ps = .more x) :
    x.bits = r.bits ++ valuesRead r.started ps ∧ x.started = (r.started || !ps.isEmpty) := by
  induction ps generalizing r with
  | nil => cases h; simp [valuesRead]
  | cons p ps ih =>
    rw [receive] at h
    split at h
    · next r' hb =>
      obtain rfl := receiveBit_more hb
      obtain ⟨hbits, hstarted⟩ := ih h
      refine ⟨?_, by simp [hstarted, Reception.passed]⟩
      rw [hbits, valuesRead_cons]
      simp [Reception.passed]
    · next hne =>
      split at h
      · exact absurd h (hne x)
      · cases h

/-- An event falls in the last bit period of its run; those before it bring nothing. -/
theorem receive_event {r : Reception} {ps : List BitPeriod} {e : ReceiveEvent} (h : receive r ps = e)
    (hmore : ∀ x, e ≠ .more x) (hover : e ≠ .overrun) :
    ∃ before p x, ps = before ++ [p] ∧ receive r before = .more x ∧ receiveBit x p = e := by
  induction ps generalizing r with
  | nil => exact absurd h.symm (hmore r)
  | cons p ps ih =>
    rw [receive] at h
    split at h
    · next r' hb =>
      obtain ⟨before, q, x, rfl, hx, he⟩ := ih h
      exact ⟨p :: before, q, x, rfl, by rw [receive, hb]; exact hx, he⟩
    · split at h
      · next hnil => exact ⟨[], p, r, by simp [List.isEmpty_iff.mp hnil], rfl, h⟩
      · exact absurd h.symm hover

/-- A kind code that names none is 0, 6 or 7 (R58). -/
theorem invalid_kind_bits {bs : List Bool} (hl : bs.length = 11) (hk : frameKind bs = none) :
    bs.drop 8 = [false, false, false] ∨ bs.drop 8 = [true, true, false] ∨ bs.drop 8 = [true, true, true] := by
  have hlen : (bs.drop 8).length = 3 := by rw [List.length_drop, hl]
  obtain ⟨a, b, c, habc⟩ := List.length_eq_three.mp hlen
  rw [frameKind, if_pos (by omega), fieldAt, habc] at hk
  have hcodes : ∀ a b c : Bool, kindOfCode (bitsToNat ([a, b, c].take 3)) = none →
      [a, b, c] = [false, false, false] ∨ [a, b, c] = [true, true, false] ∨ [a, b, c] = [true, true, true] := by decide
  rw [habc]
  exact hcodes a b c hk

theorem receive_invalidKind {r x : Reception} {ps : List BitPeriod} (h : receive r ps = .invalidKind x) :
    x.bits = r.bits ++ valuesRead r.started ps ∧ x.bits.length = 11 ∧ frameKind x.bits = none := by
  obtain ⟨before, p, y, rfl, hy, hp⟩ := receive_event h (fun _ h => by cases h) (fun h => by cases h)
  obtain ⟨hbits, hstarted⟩ := receive_more hy
  rcases receiveBit_cases y p with hb | ⟨hb, _⟩ | ⟨hb, _⟩ | ⟨hb, hs, hl, hk⟩ | hb <;> rw [hb] at hp
  · rcases afterTrail_cases (y.passed p) with ⟨_, ht⟩ | ⟨k, ht⟩ | ht <;> rw [ht] at hp <;> cases hp
  · cases hp
  · cases hp
  · cases hp
    refine ⟨?_, hl, hk⟩
    rw [valuesRead_snoc, if_pos (hstarted ▸ hs), ← List.append_assoc, ← hbits]
  · cases hp

/-- A framing fault: what is read, and what the last bit period shows (R101, R106). -/
theorem receive_framingFault {r x : Reception} {ps : List BitPeriod} {q : Quarter} (h : receive r ps = .framingFault x q) :
    (x.bits = r.bits ++ valuesRead r.started ps ∨ x.bits = r.bits ++ (valuesRead r.started ps).dropLast) ∧
      ∃ p, ps.getLast? = some p ∧ (p.lead = false ∨ (p.value = false ∧ r.started = false ∧ ps.length = 1)) := by
  obtain ⟨before, p, y, rfl, hy, hp⟩ := receive_event h (fun _ h => by cases h) (fun h => by cases h)
  obtain ⟨hbits, hstarted⟩ := receive_more hy
  rcases receiveBit_cases y p with hb | ⟨hb, hs, hl⟩ | ⟨hb, hs, hv⟩ | ⟨hb, _⟩ | hb <;> rw [hb] at hp
  · rcases afterTrail_cases (y.passed p) with ⟨_, ht⟩ | ⟨k, ht⟩ | ht <;> rw [ht] at hp <;> cases hp
  · cases hp
    refine ⟨.inr ?_, p, by simp, .inl hl⟩
    rw [valuesRead_snoc, if_pos (hstarted ▸ hs), List.dropLast_concat, hbits]
  · cases hp
    rw [hs] at hstarted
    have hparts : r.started = false ∧ before = [] := by simpa using hstarted.symm
    obtain ⟨hr, rfl⟩ := hparts
    refine ⟨.inl ?_, p, by simp, .inr ⟨hv, hr, rfl⟩⟩
    rw [hbits, hr]; rfl
  · cases hp
  · cases hp

/-- A stuck line: everything is read, and the last trail is the eighth dominant one (R107). -/
theorem receive_stuckDominant {r x : Reception} {ps : List BitPeriod} (h : receive r ps = .stuckDominant x) :
    x.bits = r.bits ++ valuesRead r.started ps ∧ x.trails = 8 ∧ ∀ p, ps.getLast? = some p → p.trail = true := by
  obtain ⟨before, p, y, rfl, hy, hp⟩ := receive_event h (fun _ h => by cases h) (fun h => by cases h)
  obtain ⟨hbits, hstarted⟩ := receive_more hy
  rcases receiveBit_cases y p with hb | ⟨hb, _⟩ | ⟨hb, _⟩ | ⟨hb, _⟩ | hb <;> rw [hb] at hp
  · rcases afterTrail_cases (y.passed p) with ⟨h8, ht⟩ | ⟨k, ht⟩ | ht <;> rw [ht] at hp <;> cases hp
    refine ⟨?_, h8, ?_⟩
    · rw [valuesRead_snoc, ← List.append_assoc, ← hbits, ← hstarted]
      rfl
    · intro p' hp'
      obtain rfl : p = p' := by simpa using hp'
      cases htrail : p.trail
      · rw [Reception.passed, htrail] at h8; cases h8
      · rfl
  all_goals cases hp

/-! ### ABANDONED (R63, R70) -/

/-- What a fault has read of the frame, as the receiver found it. -/
theorem received_values (f : Frame) (bits : List BitPeriod) (s : State) :
    valuesRead (s.reception f).started bits = (if f.position = 0 then bits.drop 1 else bits).map (fun p => p.value) := by
  rw [valuesRead, State.reception]
  by_cases h : f.position = 0 <;> simp [h]

theorem State.abandon_weighed (u : State) : Weighed .abandoned (u.countOutcome .abandoned) u.abandon :=
  ⟨by simp [State.abandon], by simp [State.abandon], by simp [State.abandon], by simp [State.abandon]⟩

/-- The engine after a frame abandoned (R48, R52, R71). -/
theorem State.abandon_engine (u : State) :
    u.abandon.engine = { u.engine with
      state := .discarding, gapCount := 0
      counters := { u.engine.counters with abandoned := u.engine.counters.abandoned + 1 } } := by
  simp [State.abandon, State.enterDiscarding, State.countOutcome, StationCounters.count]

/-- The three commands that abandon a frame (R58, R106, R107). -/
def abandons (c : Instr) (bits : List BitPeriod) (f : Frame) (r : Reception) (s : State) : Prop :=
  (c = .invalidKind bits ∧ s.received f bits = .invalidKind r) ∨
    (c = .framingFault bits ∧ ∃ q, s.received f bits = .framingFault r q) ∨
    (c = .stuckDominant bits ∧ s.received f bits = .stuckDominant r)

theorem exec_abandons {c : Instr} {bits : List BitPeriod} {f : Frame} {r : Reception} {s : State}
    (hf : s.frameIn .receiving = some f) (h : abandons c bits f r s) :
    ∃ q, exec c s = .next (s.followed f bits q r).abandon := by
  rcases h with ⟨rfl, hr⟩ | ⟨rfl, q, hr⟩ | ⟨rfl, hr⟩
  · exact ⟨.q3, by simp only [exec, execInvalidKind, hf, hr]⟩
  · exact ⟨q, by simp only [exec, execFramingFault, hf, hr]⟩
  · exact ⟨.q4, by simp only [exec, execStuckDominant, hf, hr]⟩

/-- A receiver not stuck from the start reads the run. -/
theorem received_eq {f : Frame} {bits : List BitPeriod} {s : State} {e : ReceiveEvent} (h : s.received f bits = e)
    (hover : e ≠ .overrun) :
    receive (s.reception f) bits = e ∨
      (bits = [] ∧ f.position ≠ 0 ∧ s.line.trailCount = 8 ∧ e = .stuckDominant (s.reception f)) := by
  rw [State.received] at h
  split at h
  · next hs =>
    split at h
    · next hb => exact .inr ⟨List.isEmpty_iff.mp hb, hs.1, hs.2, h.symm⟩
    · exact absurd h.symm hover
  · exact .inl h

theorem received_stuckDominant {f : Frame} {bits : List BitPeriod} {r : Reception} {s : State}
    (h : s.received f bits = .stuckDominant r) :
    r.bits = f.bits ++ valuesRead (s.reception f).started bits ∧ r.trails = 8 ∧
      ∀ p, bits.getLast? = some p → p.trail = true := by
  rcases received_eq h (fun h => by cases h) with h | ⟨rfl, hpos, h8, he⟩
  · exact receive_stuckDominant h
  · cases he
    exact ⟨by rw [received_values]; simp [State.reception], h8, fun p hp => by cases hp⟩

theorem received_invalidKind {f : Frame} {bits : List BitPeriod} {r : Reception} {s : State}
    (h : s.received f bits = .invalidKind r) : receive (s.reception f) bits = .invalidKind r := by
  rcases received_eq h (fun h => by cases h) with h | ⟨_, _, _, he⟩
  · exact h
  · cases he

theorem received_framingFault {f : Frame} {bits : List BitPeriod} {r : Reception} {q : Quarter} {s : State}
    (h : s.received f bits = .framingFault r q) : receive (s.reception f) bits = .framingFault r q := by
  rcases received_eq h (fun h => by cases h) with h | ⟨_, _, _, he⟩
  · exact h
  · cases he

/-- What the record has read when the frame is abandoned (R48, log 33). -/
theorem abandons_bits {c : Instr} {bits : List BitPeriod} {f : Frame} {r : Reception} {s : State}
    (h : abandons c bits f r s) :
    r.bits = f.bits ++ valuesRead (s.reception f).started bits ∨
      (c = .framingFault bits ∧ r.bits = f.bits ++ (valuesRead (s.reception f).started bits).dropLast) := by
  rcases h with ⟨rfl, hr⟩ | ⟨rfl, q, hr⟩ | ⟨rfl, hr⟩
  · exact .inl (receive_invalidKind (received_invalidKind hr)).1
  · rcases (receive_framingFault (received_framingFault hr)).1 with h | h
    · exact .inl h
    · exact .inr ⟨rfl, h⟩
  · exact .inl (received_stuckDominant hr).1

/-- Settles O28: the reception before the event by induction over the bit periods, the rest by `abandon`. -/
theorem faultsAbandonTheFrame : Obligations.FaultsAbandonTheFrame := by
  unfold Obligations.FaultsAbandonTheFrame
  intro bits s f c r hf hc
  obtain ⟨q, hexec⟩ := exec_abandons hf hc
  have hw := State.abandon_weighed (s.followed f bits q r)
  have hbits := abandons_bits hc
  rw [received_values] at hbits
  refine ⟨_, hexec, ?_, fun n hn => hw.entriesKept n hn, ?_, ?_, ?_, ?_, ?_, ?_, hbits, ?_, ?_, ?_, ?_,
    hw.self_entry rfl, ?_, ?_, hw.after rfl, hw.follows rfl rfl rfl⟩
  · intro b hb
    cases b <;> simp_all [sameBlock]
  case refine_2 => rw [State.abandon_engine]
  case refine_3 => rw [State.abandon_engine]
  case refine_4 => rw [State.abandon_engine]; rfl
  case refine_5 => rw [State.abandon_engine]; rfl
  case refine_6 => rw [State.abandon_engine]; rfl
  case refine_7 => rw [State.abandon_engine]; rfl
  case refine_8 =>
    intro he
    rcases hc with ⟨_, hr⟩ | ⟨rfl, _⟩ | ⟨rfl, _⟩
    · obtain ⟨_, hl, hk⟩ := receive_invalidKind (received_invalidKind hr)
      exact ⟨hl, invalid_kind_bits hl hk⟩
    all_goals cases he
  case refine_9 =>
    intro he
    rcases hc with ⟨rfl, _⟩ | ⟨_, q, hr⟩ | ⟨rfl, _⟩
    · cases he
    · obtain ⟨_, p, hp, hl | ⟨hv, hs, hone⟩⟩ := receive_framingFault (received_framingFault hr)
      · exact ⟨p, hp, .inl hl⟩
      · exact ⟨p, hp, .inr ⟨hv, by simpa [State.reception] using hs, hone⟩⟩
    · cases he
  case refine_10 =>
    intro he
    rcases hc with ⟨rfl, _⟩ | ⟨rfl, _⟩ | ⟨_, hr⟩
    · cases he
    · cases he
    · exact (received_stuckDominant hr).2
  all_goals
    rw [State.abandon_frame _ |>.2.2.2.2.1]
    rfl

end Sys2Proof.Machine
end

