-- ==== Sys2Proof/Proofs/PeerTable11_Accepted.lean ====
section
/-! Accepted frames of other kinds than CHANGE and REFRESH, and a change of the table as the evaluator takes it (R20 to R24,
R65, R66, R132, R137, R145). -/

namespace Sys2Proof.Machine

/-! ### A change of the table at the evaluator (R132, R137) -/

/-- Two states alike in what an event of the evaluator starts from. -/
structure StartsAlike (s v : State) : Prop where
  ctrl : v.ctrl = s.ctrl
  loader : v.loader = s.loader
  terms : v.terms = s.terms
  outputs : v.outputs = s.outputs
  trace : v.outputTrace = s.outputTrace

/-- Two states alike in what an event of the evaluator leaves, and in the table it looked at. -/
structure EndsAlike (v t : State) : Prop where
  table : t.table = v.table
  terms : t.terms = v.terms
  outputs : t.outputs = v.outputs
  trace : t.outputTrace = v.outputTrace
  notices : t.notices = v.notices

theorem plainNotice_congr {s v : State} (h : v.ctrl.tick = s.ctrl.tick) (k : NoticeKind) :
    plainNotice k v = plainNotice k s := by rw [plainNotice, plainNotice, h]

theorem changeNotices_congr {s v : State} (h : v.ctrl.tick = s.ctrl.tick) (old new : Fin 16 → TermFlags)
    (q : List Notice) : changeNotices v old new q = changeNotices s old new q := by
  simp only [changeNotices, plainNotice_congr h]

theorem heardNotices_congr {s v : State} {n : Station} (h : v.ctrl.tick = s.ctrl.tick) (he : v.entry n = s.entry n)
    (q : List Notice) : heardNotices v n q = heardNotices s n q := by
  simp only [heardNotices, plainNotice_congr h, he]

/-- A row of drives, between states alike in their outputs. -/
theorem drivesTaken_alike {rows : List (Vector Drive 8)} {s v w t : State} (hs : StartsAlike s v) (ht : EndsAlike w t)
    (h : drivesTaken rows v w) : drivesTaken rows s t := by
  rw [drivesTaken, ht.trace, ht.outputs, ← hs.trace, ← hs.outputs]
  exact h

/-- A re-evaluation in RUNNING, seen from states alike (R132, R137, R155). -/
theorem tableChanged_evaluates {s v t : State} {c : StationConfig} (hs : StartsAlike s v) (ht : EndsAlike v.tableChanged t)
    (hrun : s.ctrl.phase = .running) (hc : s.loader.config = some c) :
    (∀ i : Fin 16, t.terms.flags[i] = flagsOver c s t i) ∧ drivesTaken [runningDrives c t.terms.flags] s t ∧
      t.notices = changeNotices s (fun i => s.terms.flags[i]) (fun i => t.terms.flags[i]) v.notices := by
  have hrun' : v.ctrl.phase = .running := by rw [hs.ctrl, hrun]
  have hc' : v.loader.config = some c := by rw [hs.loader, hc]
  have htable : t.table = v.table := by rw [ht.table, State.tableChanged_table]
  refine ⟨fun i => ?_, ?_, ?_⟩
  · rw [ht.terms, State.tableChanged_flag v c hrun' hc', flagsOver, htable, hs.terms]
    rfl
  · have hdrives := State.tableChanged_drives v c hc'
    rw [if_pos hrun', ← ht.terms] at hdrives
    exact drivesTaken_alike hs ht hdrives
  · have hflags : v.tableChanged.terms.flags =
        Vector.ofFn (fun i : Fin 16 => v.terms.flags[i].reevaluate c.terms[i] v.table) := by
      rw [State.tableChanged_running v c hrun' hc', State.settleTerms_terms]
    rw [ht.notices, ht.terms, hflags, State.tableChanged_running v c hrun' hc', State.settleTerms_notices,
      changeNotices_congr (s := s) (by rw [hs.ctrl]), hs.terms]

/-- What a change of the table does to the evaluator, in the words of the statements. -/
theorem tableChanged_reevaluated {s v t : State} {c : StationConfig} (hs : StartsAlike s v)
    (ht : EndsAlike v.tableChanged t) (hc : s.loader.config = some c) : reevaluated c v.notices s t := by
  obtain ⟨hown, hpeer, hrel⟩ := State.tableChanged_held v
  refine ⟨by rw [ht.terms, hown, hs.terms], by rw [ht.terms, hpeer, hs.terms], by rw [ht.terms, hrel, hs.terms], ?_⟩
  split
  · next hrun => exact tableChanged_evaluates hs ht hrun hc
  · next hrun =>
    rw [State.tableChanged_of_not_running v (by rw [hs.ctrl]; exact hrun)] at ht
    exact ⟨by rw [ht.terms, hs.terms], drivesTaken_alike hs ht ⟨by simp, rfl⟩, ht.notices⟩

/-! ### An accepted frame (R65, R66) -/

/-- What the command does with a frame it accepts. -/
theorem exec_accepts {bits : List BitPeriod} {s : State} {r : ReceivedFrame} (hr : s.receivedFrame bits = some r)
    (hgood : ¬ r.malformed) (hn : r.number ≠ s.ctrl.ownNumber) :
    ∃ f x, exec (.frameReceived bits) s = .next ((s.followed f bits .q4 x).accept r) := by
  obtain ⟨f, x, _, hexec⟩ := State.receivedFrame_spec hr
  rw [State.judged_accepted (s := s.followed f bits .q4 x) hgood hn] at hexec
  exact ⟨f, x, hexec⟩

theorem State.accept_confirming (f : Frame) (bits : List BitPeriod) (x : Reception) (r : ReceivedFrame) (s : State) :
    confirmingWith .accepted (decide (s.health.state ≠ .withdrawn)) ((s.followed f bits .q4 x).accept r) ∧
      ((s.followed f bits .q4 x).accept r).engine.counters = s.engine.counters := by
  simp [confirmingWith, State.accept, State.confirming, State.followed, State.setFrame]

/-- The evaluator, the table and the queue stand as the table left them. -/
theorem State.accept_ends (r : ReceivedFrame) (u : State) : EndsAlike (u.tableAccepts r) (u.accept r) :=
  ⟨rfl, rfl, rfl, rfl, rfl⟩

theorem State.accept_slate (r : ReceivedFrame) (u : State) : (u.accept r).slate = (u.tableAccepts r).slate := rfl

theorem EndsAlike.trans {v w t : State} (h : EndsAlike v w) (h' : EndsAlike w t) : EndsAlike v t where
  table := h'.table.trans h.table
  terms := h'.terms.trans h.terms
  outputs := h'.outputs.trans h.outputs
  trace := h'.trace.trans h.trace
  notices := h'.notices.trans h.notices

/-- A REFRESH request reaches the slate alone (R74, R75). -/
theorem State.requestRefresh_ends (v : State) : EndsAlike v v.requestRefresh :=
  ⟨by simp, by simp, by simp, by simp, by simp⟩

/-! ### JOIN (R20 to R22) -/

@[simp] theorem State.joinTaken_frame (n : Station) (p : List Bool) (s : State) :
    (s.joinTaken n p).ctrl = s.ctrl ∧ (s.joinTaken n p).loader = s.loader ∧ (s.joinTaken n p).slate = s.slate ∧
      (s.joinTaken n p).health = s.health ∧ (s.joinTaken n p).terms = s.terms ∧
      (s.joinTaken n p).outputs = s.outputs ∧ (s.joinTaken n p).outputTrace = s.outputTrace := by
  simp only [State.joinTaken]
  split <;> simp

/-- The notices of a JOIN before the terms' (R6, R20, R21). -/
theorem State.joinTaken_notices (n : Station) (payload : List Bool) (s : State) :
    (s.joinTaken n payload).notices =
      let joined := pushNotice (heardNotices s n s.notices) { plainNotice .peerJoined s with station := some n }
      if s.ctrl.fingerprint = some (joinFingerprint payload) then joined
      else pushNotice joined { plainNotice .planMismatch s with station := some n } := by
  have hheard := State.evidence_notices n s
  by_cases h : s.ctrl.fingerprint = some (joinFingerprint payload) <;>
    simp [State.joinTaken, State.planAgrees, h, State.raiseStation, State.raise, hheard, plainNotice]

/-- A request after an event that leaves phase, health and slate. -/
theorem State.requestRefresh_after {s v : State} (hctrl : v.ctrl = s.ctrl) (hhealth : v.health = s.health)
    (hslate : v.slate = s.slate) :
    v.requestRefresh.slate = { s.slate with refresh := s.slate.refresh || s.takes .refresh } := by
  rw [State.requestRefresh_slate, hslate, State.takes_congr (s := s) (by rw [hctrl]) (by rw [hhealth])]

/-- Settles O32: the entry by `Entry.accepting`, the notices by `State.joinTaken_notices`, then one re-evaluation. -/
theorem acceptedJoinRenewsSender : Obligations.AcceptedJoinRenewsSender := by
  unfold Obligations.AcceptedJoinRenewsSender
  intro bits s r hr hgood hn hk
  obtain ⟨f, x, hexec⟩ := exec_accepts hr hgood hn
  obtain ⟨hconf, hcount⟩ := State.accept_confirming f bits x r s
  have hentries := State.accept_updates f bits x r s
  have htakes : (s.followed f bits .q4 x).tableAccepts r =
      ((((s.followed f bits .q4 x).joinTaken r.number r.payload).countAccepted r.number).tableChanged).requestRefresh := by
    simp only [State.tableAccepts, hk, State.acceptJoin_eq]
  refine ⟨_, hexec, ?_, hentries.kept, hconf, hcount, ?_, ?_, ?_⟩
  · intro b hb
    cases b <;> simp_all [sameBlock]
  · rw [hentries.same (ReceivedFrame.number_ne_zero hgood), Entry.accepting, hk]
    cases hp : (s.entry r.number).presence <;> simp [Entry.evidenced, hp, Entry.joined, Entry.counted, State.planAgrees]
  · rw [State.accept_slate, htakes]
    exact State.requestRefresh_after (by simp) (by simp) (by simp)
  · intro joined told c hc
    have hends : EndsAlike _ ((s.followed f bits .q4 x).accept r) :=
      (htakes ▸ State.requestRefresh_ends _).trans (State.accept_ends r (s.followed f bits .q4 x))
    have hnotices : (((s.followed f bits .q4 x).joinTaken r.number r.payload).countAccepted r.number).notices = told :=
      State.joinTaken_notices r.number r.payload (s.followed f bits .q4 x)
    rw [← hnotices]
    exact tableChanged_reevaluated ⟨by simp, by simp, by simp, by simp, by simp⟩ hends hc

/-! ### RESYNC and RELEASE (R22 to R24, R138, R145) -/

/-- Evidence with its frame counted, as the first part of an accepted RESYNC or RELEASE. -/
def State.heardOnce (n : Station) (u : State) : State := (u.evidence n).countAccepted n

theorem State.heardOnce_starts (f : Frame) (bits : List BitPeriod) (x : Reception) (n : Station) (s : State) :
    StartsAlike s ((s.followed f bits .q4 x).heardOnce n) :=
  ⟨by simp [State.heardOnce], by simp [State.heardOnce], by simp [State.heardOnce], by simp [State.heardOnce],
    by simp [State.heardOnce]⟩

theorem State.heardOnce_notices (n : Station) (u : State) :
    (u.heardOnce n).notices = heardNotices u n u.notices := State.evidence_notices n u

/-- A peer entry after evidence (R6 to R8). -/
theorem Entry.evidenced_of_peer {e : Entry} (h : e.presence ≠ .self) :
    e.evidenced = { e with presence := evidencePresence e.presence, age := 0 } := if_neg h

/-- One term after a release, in the words of the statements (R138). -/
theorem released_eq (c : StationConfig) (m : ZoneMask) (flags : Fin 16 → TermFlags) (i : Fin 16) :
    (flags i).released c.terms[i] m = releasedFlags c m flags i := by
  have hmeet : releaseMeets c.terms[i] m (flags i) = true ↔ (flags i).latched = true ∧ c.terms[i].zones &&& m ≠ 0 := by
    rw [releaseMeets, zonesMeet, Bool.and_eq_true, decide_eq_true_iff]
  rw [TermFlags.released, releasedFlags]
  by_cases h : releaseMeets c.terms[i] m (flags i) = true ∧ (flags i).live = false
  · obtain ⟨hl, hz⟩ := hmeet.mp h.1
    rw [if_pos h, if_pos ⟨hl, hz, h.2⟩, h.2]
  · rw [if_neg h, if_neg (fun h' => h ⟨hmeet.mpr ⟨h'.1, h'.2.1⟩, h'.2.2⟩)]

theorem releaseNotices_congr {s v : State} (h : v.ctrl.tick = s.ctrl.tick) (c : StationConfig) (m : ZoneMask)
    (n : Option Station) (flags : Fin 16 → TermFlags) (q : List Notice) :
    releaseNotices c m n flags v q = releaseNotices c m n flags s q := by
  simp only [releaseNotices, plainNotice_congr h]

theorem State.applyRelease_notices (m : ZoneMask) (n : Option Station) (s : State) (c : StationConfig)
    (h : s.ctrl.phase = .running) (hc : s.loader.config = some c) :
    (s.applyRelease m n).notices = releaseNotices c m n (fun i => s.terms.flags[i]) s s.notices := by
  simp only [State.applyRelease, h, hc, State.raiseReleased_notices]
  rw [releaseNotices_congr (s := s) (by simp)]
  simp only [State.moveOutputs_frame, State.setTerms_notices]

/-- Flags given one by one, as a vector. -/
theorem flags_eq_ofFn {v : Vector TermFlags 16} {f : Fin 16 → TermFlags} (h : ∀ i : Fin 16, v[i] = f i) :
    v = Vector.ofFn f := by
  ext i hi
  simpa using h ⟨i, hi⟩

theorem flagsOver_congr {c : StationConfig} {s t t' : State} (h : t'.table = t.table) :
    flagsOver c s t' = flagsOver c s t := by
  funext i; simp only [flagsOver, h]

/-- The sequence is new and the sender a roster member (R23, R145). -/
def releasePasses (e : Entry) (q : Nibble) : Bool := decide (e.roster = true ∧ e.lastRelease ≠ some q)

/-- An accepted RELEASE re-evaluates for the evidence, then releases where it passes (R23, R24, R145). -/
theorem State.acceptRelease_cases (n : Station) (q : Nibble) (m : ZoneMask) (u : State) :
    ∃ v, StartsAlike (u.heardOnce n) v ∧ v.notices = (u.heardOnce n).notices ∧
      u.acceptRelease n q m =
        if u.ctrl.phase = .running ∧ releasePasses (u.entry n) q = true then v.tableChanged.applyRelease m (some n)
        else v.tableChanged := by
  by_cases hdup : (u.entry n).lastRelease = some q
  · refine ⟨u.heardOnce n, ⟨rfl, rfl, rfl, rfl, rfl⟩, rfl, ?_⟩
    simp only [State.acceptRelease, if_pos hdup]
    rw [if_neg (fun h => (of_decide_eq_true h.2).2 hdup)]
    rfl
  · refine ⟨(u.heardOnce n).updateEntry n (fun e => { e with lastRelease := some q }), ⟨rfl, rfl, rfl, rfl, rfl⟩, rfl, ?_⟩
    simp only [State.acceptRelease, if_neg hdup]
    by_cases hpass : u.ctrl.phase = .running ∧ (u.entry n).roster = true
    · rw [if_pos hpass, if_pos ⟨hpass.1, by simp [releasePasses, hpass.2, hdup]⟩]
      rfl
    · rw [if_neg hpass, if_neg (fun h => hpass ⟨h.1, (of_decide_eq_true h.2).1⟩)]
      rfl

theorem StartsAlike.trans {s v w : State} (h : StartsAlike s v) (h' : StartsAlike v w) : StartsAlike s w where
  ctrl := h'.ctrl.trans h.ctrl
  loader := h'.loader.trans h.loader
  terms := h'.terms.trans h.terms
  outputs := h'.outputs.trans h.outputs
  trace := h'.trace.trans h.trace

theorem EndsAlike.refl (v : State) : EndsAlike v v := ⟨rfl, rfl, rfl, rfl, rfl⟩

theorem StartsAlike.refl (v : State) : StartsAlike v v := ⟨rfl, rfl, rfl, rfl, rfl⟩

/-- What a RELEASE does to the evaluator in RUNNING (R132, R138, R145). -/
theorem release_evaluates {s v t : State} {c : StationConfig} {m : ZoneMask} {n : Station} {passes : Bool}
    (hs : StartsAlike s v) (hrun : s.ctrl.phase = .running) (hc : s.loader.config = some c)
    (ht : EndsAlike (if passes = true then v.tableChanged.applyRelease m (some n) else v.tableChanged) t) :
    let evaluated := flagsOver c s t
    let changed := changeNotices s (fun i => s.terms.flags[i]) evaluated v.notices
    (∀ i : Fin 16, t.terms.flags[i] = if passes then releasedFlags c m evaluated i else evaluated i) ∧
      t.terms.heldOwn = s.terms.heldOwn ∧ t.terms.heldPeer = s.terms.heldPeer ∧ t.terms.rel = s.terms.rel ∧
      drivesTaken (runningDrives c (Vector.ofFn evaluated) ::
        (if passes then [runningDrives c t.terms.flags] else [])) s t ∧
      t.notices = if passes then releaseNotices c m (some n) evaluated s changed else changed := by
  intro evaluated changed
  obtain ⟨hflags, hdrives, hnotices⟩ := tableChanged_evaluates hs (EndsAlike.refl _) hrun hc
  obtain ⟨hown, hpeer, hrel⟩ := State.tableChanged_held v
  rw [hs.terms] at hown hpeer hrel
  have htable : t.table = v.tableChanged.table := by
    rw [ht.table]; split <;> simp
  have hevaluated : flagsOver c s v.tableChanged = evaluated := (flagsOver_congr htable).symm
  rw [hevaluated] at hflags
  have hvector := flags_eq_ofFn hflags
  rw [hvector] at hdrives hnotices
  have hchanged : v.tableChanged.notices = changed := by
    rw [hnotices]
    simp [changed]
  cases passes with
  | false =>
    simp only [Bool.false_eq_true, if_false] at ht ⊢
    exact ⟨fun i => by rw [ht.terms, hflags], by rw [ht.terms, hown], by rw [ht.terms, hpeer], by rw [ht.terms, hrel],
      drivesTaken_alike (StartsAlike.refl s) ht hdrives, by rw [ht.notices, hchanged]⟩
  | true =>
    simp only [if_true] at ht ⊢
    have hrun' : v.tableChanged.ctrl.phase = .running := by simp [hs.ctrl, hrun]
    have hc' : v.tableChanged.loader.config = some c := by simp [hs.loader, hc]
    obtain ⟨hterms, hdrives'⟩ := State.applyRelease_running m (some n) _ c hrun' hc'
    refine ⟨fun i => ?_, by rw [ht.terms, hterms, hown], by rw [ht.terms, hterms, hpeer], by rw [ht.terms, hterms, hrel],
      ?_, ?_⟩
    · rw [ht.terms, hterms, ← released_eq, ← hflags i]
      simp
    · rw [ht.terms]
      exact drivesTaken_alike (StartsAlike.refl s) ht (drivesTaken_trans hdrives hdrives')
    · rw [ht.notices, State.applyRelease_notices m (some n) _ c hrun' hc', hchanged,
        releaseNotices_congr (s := s) (by simp [hs.ctrl])]
      simp only [hflags]

/-- Settles O33: both kinds are evidence and one re-evaluation; a RELEASE that passes then releases. -/
theorem acceptedResyncAndRelease : Obligations.AcceptedResyncAndRelease := by
  unfold Obligations.AcceptedResyncAndRelease
  intro bits s r hr hgood hn hpeer
  obtain ⟨f, x, hexec⟩ := exec_accepts hr hgood hn
  obtain ⟨hconf, hcount⟩ := State.accept_confirming f bits x r s
  have hentries := State.accept_updates f bits x r s
  have hentry := hentries.same (ReceivedFrame.number_ne_zero hgood)
  have hstarts := State.heardOnce_starts f bits x r.number s
  refine ⟨fun hk => ?_, fun hk => ?_⟩
  · have htakes : (s.followed f bits .q4 x).tableAccepts r =
        (((s.followed f bits .q4 x).heardOnce r.number).tableChanged).requestRefresh := by
      simp only [State.tableAccepts, hk]; rfl
    refine ⟨_, hexec, ?_, hentries.kept, hconf, hcount, ?_, ?_, ?_⟩
    · intro b hb
      cases b <;> simp_all [sameBlock]
    · rw [hentry, Entry.accepting, hk]
      simp only [Entry.evidenced_of_peer hpeer, Entry.counted]
    · rw [State.accept_slate, htakes]
      exact State.requestRefresh_after (by simp [State.heardOnce]) (by simp [State.heardOnce]) (by simp [State.heardOnce])
    · intro c hc
      have hends : EndsAlike _ ((s.followed f bits .q4 x).accept r) :=
        (htakes ▸ State.requestRefresh_ends _).trans (State.accept_ends r (s.followed f bits .q4 x))
      have hheard : ((s.followed f bits .q4 x).heardOnce r.number).notices = heardNotices s r.number s.notices :=
        State.heardOnce_notices _ _
      rw [← hheard]
      exact tableChanged_reevaluated hstarts hends hc
  · obtain ⟨v, hv, hnotices, htaken⟩ :=
      State.acceptRelease_cases r.number r.sequence (releaseMaskOfBits r.payload) (s.followed f bits .q4 x)
    have htakes : (s.followed f bits .q4 x).tableAccepts r =
        (s.followed f bits .q4 x).acceptRelease r.number r.sequence (releaseMaskOfBits r.payload) := by
      simp only [State.tableAccepts, hk]
    have hends := State.accept_ends r (s.followed f bits .q4 x)
    have hstarts' := hstarts.trans hv
    have hheard : v.notices = heardNotices s r.number s.notices := hnotices.trans (State.heardOnce_notices _ _)
    rw [htakes, htaken] at hends
    refine ⟨_, hexec, ?_, hentries.kept, hconf, hcount, ?_, ?_, ?_⟩
    · intro b hb
      have hslate : ((s.followed f bits .q4 x).accept r).slate = s.slate := by
        rw [State.accept_slate, htakes]; simp
      cases b <;> simp_all [sameBlock]
    · rw [hentry, Entry.accepting, hk]
      simp only [Entry.evidenced_of_peer hpeer, Entry.counted]
    · intro hrun
      rw [if_neg (fun h => hrun h.1), State.tableChanged_of_not_running v (by rw [hstarts'.ctrl]; exact hrun)] at hends
      exact ⟨hends.terms.trans hstarts'.terms, drivesTaken_alike hstarts' hends ⟨by simp, rfl⟩,
        hends.notices.trans hheard⟩
    · intro c hrun hc
      have hphase : (s.followed f bits .q4 x).ctrl.phase = .running := hrun
      simp only [hphase, true_and] at hends
      rw [← hheard]
      exact release_evaluates hstarts' hrun hc hends

end Sys2Proof.Machine
end

