-- ==== Sys2Proof/Proofs/PeerTable12_Reports.lean ====
section
/-! Departure-seen signals, and an accepted CHANGE or REFRESH (R9, R13 to R18, R132 to R137). -/

namespace Sys2Proof.Machine

/-! ### The zones of a signal (R17, R134) -/

theorem zoneBit_eq (z : Zone) : zoneBit z = BitVec.twoPow 8 z.toNat := by
  rw [BitVec.twoPow_eq]; rfl

theorem zonesMeet_zoneBit (a : ZoneMask) (z : Zone) : zonesMeet a (zoneBit z) = inZones a z := by
  have hz : BitVec.twoPow 8 z.toNat ≠ 0#8 := by
    intro h
    have hbit := congrArg (fun v => v.getLsbD z.toNat) h
    have hlt : z.toNat < 8 := z.isLt
    simp [hlt] at hbit
  rw [zonesMeet, zoneBit_eq, BitVec.and_twoPow, inZones]
  cases a.getLsbD z.toNat <;> simp [hz]

theorem zonesMeet_all (a : ZoneMask) : zonesMeet a 0xFF = decide (a ≠ 0) := by
  have hall : a &&& 0xFF = a := BitVec.and_allOnes
  rw [zonesMeet, hall]

theorem inZones_or_zoneBit (a : ZoneMask) (y z : Zone) :
    inZones (a ||| zoneBit y) z = (inZones a z || decide (y = z)) := by
  have hy : y.toNat < 8 := y.isLt
  rw [inZones, BitVec.getLsbD_or, zoneBit_eq, BitVec.getLsbD_twoPow, inZones]
  simp [hy, BitVec.toNat_inj]

theorem inZones_or_all (a : ZoneMask) (z : Zone) : inZones (a ||| 0xFF) z = true := by
  have hall : a ||| 0xFF = 0xFF := BitVec.or_allOnes
  have hz : z.toNat < 8 := z.isLt
  rw [inZones, hall]
  exact (BitVec.getLsbD_allOnes (v := 8)).trans (decide_eq_true hz)

/-- The signal of a group in a zone, or in none known (R17, R134). -/
def signalOf (own : Bool) (z : Option Zone) : DepartureSignal :=
  { own := own, zones := match z with | some z => zoneBit z | none => 0xFF }

theorem groupSignal_eq (e : Entry) (g : Fin 4) : groupSignal e g = signalOf false (e.zoneMap.map (fun z => z[g])) := by
  cases h : e.zoneMap <;> simp [groupSignal, signalOf, signalZones, h]

/-- The zones of a signal meet a mask as the statements say (R134). -/
theorem signalOf_meets (a : ZoneMask) (own : Bool) (z : Option Zone) :
    zonesMeet a (signalOf own z).zones = match z with | some z => inZones a z | none => decide (a ≠ 0) := by
  cases z with
  | some z => exact zonesMeet_zoneBit a z
  | none => exact zonesMeet_all a

theorem inZones_or_signalOf (a : ZoneMask) (own : Bool) (o : Option Zone) (z : Zone) :
    inZones (a ||| (signalOf own o).zones) z = (inZones a z || o.all (fun y => decide (y = z))) := by
  cases o with
  | some y => exact inZones_or_zoneBit a y z
  | none => rw [Option.all_none, Bool.or_true]; exact inZones_or_all a z

/-! ### Signals in RUNNING (R134, R137, R155) -/

/-- The scope covers the signal's side as the statements say. -/
theorem scopeCovers_eq (scope : TermScope) (own : Bool) :
    scopeCovers scope own = (decide (scope = .all) || decide (scope = if own then .self else .peers)) := by
  cases scope <;> cases own <;> rfl

@[simp] theorem signalledFlags_nil (c : StationConfig) (own : Bool) (zoneOf : Fin 4 → Option Zone)
    (flags : Fin 16 → TermFlags) : signalledFlags c own zoneOf [] flags = flags := by
  funext i; simp [signalledFlags]

/-- One signal more (R134). -/
theorem signalledFlags_snoc (c : StationConfig) (own : Bool) (zoneOf : Fin 4 → Option Zone) (gs : List (Fin 4)) (g : Fin 4)
    (flags : Fin 16 → TermFlags) (i : Fin 16) :
    signalledFlags c own zoneOf (gs ++ [g]) flags i =
      (signalledFlags c own zoneOf gs flags i).signalled c.terms[i] (signalOf own (zoneOf g)) := by
  have hown : (signalOf own (zoneOf g)).own = own := rfl
  simp only [signalledFlags, TermFlags.signalled, signalLatches, signalOf_meets, hown, scopeCovers_eq, List.any_append,
    List.any_cons, List.any_nil, Bool.or_false, Bool.and_or_distrib_left, Bool.or_assoc] <;> rfl

@[simp] theorem signalNotices_nil (c : StationConfig) (own : Bool) (zoneOf : Fin 4 → Option Zone)
    (flags : Fin 16 → TermFlags) (s : State) (q : List Notice) : signalNotices c own zoneOf [] flags s q = q := rfl

theorem signalNotices_snoc (c : StationConfig) (own : Bool) (zoneOf : Fin 4 → Option Zone) (gs : List (Fin 4)) (g : Fin 4)
    (flags : Fin 16 → TermFlags) (s : State) (q : List Notice) :
    signalNotices c own zoneOf (gs ++ [g]) flags s q =
      changeNotices s (signalledFlags c own zoneOf gs flags) (signalledFlags c own zoneOf (gs ++ [g]) flags)
        (signalNotices c own zoneOf gs flags s q) := by
  have hlen : (gs ++ [g]).length = gs.length + 1 := by simp
  rw [signalNotices, hlen, List.range_succ, List.foldl_append, List.foldl_cons, List.foldl_nil, signalNotices,
    List.take_append_of_le_length le_rfl, List.take_length, ← hlen, List.take_length]
  refine congrArg (changeNotices _ _ _) (List.foldl_ext _ _ _ (fun q k hk => ?_))
  have hk : k < gs.length := List.mem_range.mp hk
  rw [List.take_append_of_le_length hk.le, List.take_append_of_le_length hk]

@[simp] theorem signalDrives_nil (c : StationConfig) (own : Bool) (zoneOf : Fin 4 → Option Zone)
    (flags : Fin 16 → TermFlags) : signalDrives c own zoneOf [] flags = [] := rfl

theorem signalDrives_snoc (c : StationConfig) (own : Bool) (zoneOf : Fin 4 → Option Zone) (gs : List (Fin 4)) (g : Fin 4)
    (flags : Fin 16 → TermFlags) :
    signalDrives c own zoneOf (gs ++ [g]) flags =
      signalDrives c own zoneOf gs flags ++
        [runningDrives c (Vector.ofFn (signalledFlags c own zoneOf (gs ++ [g]) flags))] := by
  have hlen : (gs ++ [g]).length = gs.length + 1 := by simp
  rw [signalDrives, hlen, List.range_succ, List.map_append, List.map_singleton, ← hlen, List.take_length, signalDrives]
  refine congrArg (· ++ _) (List.map_congr_left (fun k hk => ?_))
  rw [List.take_append_of_le_length (Nat.succ_le_of_lt (List.mem_range.mp hk))]

/-- The signals of a row of groups. -/
def signalsOf (own : Bool) (zoneOf : Fin 4 → Option Zone) (gs : List (Fin 4)) : List DepartureSignal :=
  gs.map (fun g => signalOf own (zoneOf g))

theorem State.departuresSeen_snoc (own : Bool) (zoneOf : Fin 4 → Option Zone) (gs : List (Fin 4)) (g : Fin 4) (v : State) :
    v.departuresSeen (signalsOf own zoneOf (gs ++ [g])) =
      (v.departuresSeen (signalsOf own zoneOf gs)).departureSeen (signalOf own (zoneOf g)) := by
  simp [State.departuresSeen, signalsOf]

/-- The signals of one event in RUNNING, one after another (R134, R137, R155). -/
theorem State.departuresSeen_running (own : Bool) (zoneOf : Fin 4 → Option Zone) (gs : List (Fin 4)) {v : State}
    {c : StationConfig} (hrun : v.ctrl.phase = .running) (hc : v.loader.config = some c) :
    let f := fun i : Fin 16 => v.terms.flags[i]
    let w := v.departuresSeen (signalsOf own zoneOf gs)
    w.terms = { v.terms with flags := Vector.ofFn (signalledFlags c own zoneOf gs f) } ∧
      drivesTaken (signalDrives c own zoneOf gs f) v w ∧ w.notices = signalNotices c own zoneOf gs f v v.notices := by
  intro f w
  induction gs using List.reverseRecOn with
  | nil =>
    have hflags : Vector.ofFn f = v.terms.flags := (flags_eq_ofFn (fun _ => rfl)).symm
    exact ⟨by simp [w, signalsOf, State.departuresSeen, hflags], ⟨by simp [w, signalsOf, State.departuresSeen],
      by simp [w, signalsOf, State.departuresSeen]⟩, rfl⟩
  | append_singleton gs g ih =>
    obtain ⟨hterms, hdrives, hnotices⟩ := ih
    obtain ⟨u, hu⟩ : ∃ u, u = v.departuresSeen (signalsOf own zoneOf gs) := ⟨_, rfl⟩
    have hrun' : u.ctrl.phase = .running := by rw [hu]; simp [hrun]
    have hc' : u.loader.config = some c := by rw [hu]; simp [hc]
    have htick : u.ctrl.tick = v.ctrl.tick := by rw [hu]; simp
    have hw : w = u.settleTerms c (Vector.ofFn (signalledFlags c own zoneOf (gs ++ [g]) f)) := by
      have hnew : ∀ i : Fin 16, (u.terms.flags[i]).signalled c.terms[i] (signalOf own (zoneOf g)) =
          signalledFlags c own zoneOf (gs ++ [g]) f i := by
        intro i
        rw [signalledFlags_snoc, hu, hterms]
        simp
      simp only [w, State.departuresSeen_snoc, ← hu, State.departureSeen, hrun', hc', hnew]
    rw [← hu] at hterms hdrives hnotices
    refine ⟨?_, ?_, ?_⟩
    · rw [hw, State.settleTerms_terms, hterms]
    · rw [hw, signalDrives_snoc]
      exact drivesTaken_trans hdrives (State.settleTerms_drives _ _ _)
    · rw [hw, State.settleTerms_notices, changeNotices_congr (s := v) htick, signalNotices_snoc, hterms, hnotices]
      simp

/-- Outside RUNNING a peer's signals are held (R135). -/
theorem State.departuresSeen_held (zoneOf : Fin 4 → Option Zone) (gs : List (Fin 4)) {v : State}
    (hphase : v.ctrl.phase = .listening ∨ v.ctrl.phase = .joining) :
    let w := v.departuresSeen (signalsOf false zoneOf gs)
    w.terms = { v.terms with heldPeer := w.terms.heldPeer } ∧ w.outputs = v.outputs ∧ w.outputTrace = v.outputTrace ∧
      w.notices = v.notices ∧ ∀ z, inZones w.terms.heldPeer z = (inZones v.terms.heldPeer z || zoneNamed zoneOf gs z) := by
  intro w
  induction gs using List.reverseRecOn with
  | nil => exact ⟨rfl, rfl, rfl, rfl, fun z => by simp [w, zoneNamed, signalsOf, State.departuresSeen]⟩
  | append_singleton gs g ih =>
    obtain ⟨hterms, houtputs, htrace, hnotices, hzones⟩ := ih
    obtain ⟨u, hu⟩ : ∃ u, u = v.departuresSeen (signalsOf false zoneOf gs) := ⟨_, rfl⟩
    have hw : w = u.setTerms { u.terms with heldPeer := u.terms.heldPeer ||| (signalOf false (zoneOf g)).zones } := by
      have hphase' : u.ctrl.phase = .listening ∨ u.ctrl.phase = .joining := by rw [hu]; simpa using hphase
      simp only [w, State.departuresSeen_snoc, ← hu]
      rcases hphase' with h | h <;> simp only [State.departureSeen, h] <;> rfl
    rw [← hu] at hterms houtputs htrace hnotices hzones
    refine ⟨?_, ?_, ?_, ?_, fun z => ?_⟩
    · rw [hw, State.setTerms_terms, hterms]
    · rw [hw]; exact houtputs
    · rw [hw]; exact htrace
    · rw [hw]; exact hnotices
    · have hnamed : zoneNamed zoneOf (gs ++ [g]) z =
          (zoneNamed zoneOf gs z || (zoneOf g).all (fun y => decide (y = z))) := by simp [zoneNamed]
      rw [hw, State.setTerms_terms, inZones_or_signalOf, hzones, hnamed, Bool.or_assoc]

theorem signalNotices_congr {s v : State} (h : v.ctrl.tick = s.ctrl.tick) (c : StationConfig) (own : Bool)
    (zoneOf : Fin 4 → Option Zone) (gs : List (Fin 4)) (flags : Fin 16 → TermFlags) (q : List Notice) :
    signalNotices c own zoneOf gs flags v q = signalNotices c own zoneOf gs flags s q := by
  simp only [signalNotices, changeNotices_congr h]

/-! ### An accepted CHANGE or REFRESH (R9, R13 to R18) -/

/-- The notices of a report taken, up to the gap's (R6, R9, R16). -/
theorem State.reportTaken_notices {k : Kind} (hk : k = .change ∨ k = .refresh) (n : Station) (q : Nibble)
    (content : ReportContent) (s : State) :
    (s.reportTaken k n q content).notices =
      if (s.entry n).report.any (leavesGap k q content) then
        pushNotice (presentNotices s n s.notices) { plainNotice .sequenceGap s with station := some n }
      else presentNotices s n s.notices := by
  have hpresent := State.statePresence_notices n s
  cases hr : (s.entry n).report with
  | none => simp [State.reportTaken, hr, hpresent]
  | some old =>
    obtain ⟨hgap, _⟩ := reportCase_spec hk q content old
    cases hs : (reportCase k q content old).stores <;> cases hg : leavesGap k q content old <;>
      simp [State.reportTaken, hr, hs, hg, hgap, hpresent, State.sequenceGap, State.raiseStation, State.raise, plainNotice]

/-- The same, from the table through the entries of the stations (R1). -/
theorem termLive_of_entries (c : TermConfig) {s t : State} (h : ∀ n, n ≠ 0 → (s.entry n).sameToTerms (t.entry n)) :
    termLive c t.table = termLive c s.table := by
  refine termLive_congr c (fun i => ?_)
  have hn : BitVec.ofNat 5 (i.val + 1) ≠ 0 := by
    intro h0
    have := congrArg BitVec.toNat h0
    simp at this
    omega
  have hi : (BitVec.ofNat 5 (i.val + 1)).toNat - 1 = i.val := by
    rw [BitVec.toNat_ofNat]; omega
  have hentry := h _ hn
  rw [State.entry, State.entry, PeerTable.entry_eq _ hn, PeerTable.entry_eq _ hn] at hentry
  have hat : (s.table[i.val]).sameToTerms t.table[i.val] := by simpa only [hi] using hentry
  exact hat

theorem State.countAccepted_terms (n : Station) (v : State) : (v.countAccepted n).terms = v.terms := rfl

theorem State.countAccepted_notices (n : Station) (v : State) : (v.countAccepted n).notices = v.notices := rfl

/-- The frames accepted counter is nothing to a term (R128 to R131). -/
theorem termLive_countAccepted (x : TermConfig) (n : Station) (v : State) :
    termLive x (v.countAccepted n).table = termLive x v.table := by
  refine termLive_of_entries x (fun m _ => ?_)
  rw [State.countAccepted_updates n v m]
  split
  · next h => rw [h.1]; exact ⟨rfl, rfl, rfl, rfl, rfl⟩
  · exact ⟨rfl, rfl, rfl, rfl, rfl⟩

/-- A table that makes the same terms live gives the same flags. -/
theorem flagsOver_of_live {c : StationConfig} {s t t' : State}
    (h : ∀ x : TermConfig, termLive x t'.table = termLive x t.table) : flagsOver c s t' = flagsOver c s t := by
  funext i; simp only [flagsOver, h]

/-- The report stored and its gap, row by row (R12 to R15). -/
theorem Entry.reported_report (k : Kind) (q : Nibble) (content : ReportContent) (e : Entry) :
    match e.report with
    | none =>
      (e.reported k q content).report = some { sequence := q, content := content, stale := false } ∧
        (e.reported k q content).sequenceGaps = e.sequenceGaps
    | some p =>
      (e.reported k q content).report = some { sequence := q, content := content, stale := false } ∧
        (e.reported k q content).sequenceGaps =
          if leavesGap k q content p then saturate8 e.sequenceGaps else e.sequenceGaps := by
  cases h : e.report <;> simp [Entry.reported, h]

/-- What an accepted CHANGE or REFRESH hands the evaluator, from a state alike (R17, R18, R132 to R135). -/
theorem report_evaluates {s v t : State} {c : StationConfig} {n : Station} (zoneOf : Fin 4 → Option Zone)
    (gs : List (Fin 4)) (hs : StartsAlike s v)
    (ht : EndsAlike ((v.tableChanged.departuresSeen (signalsOf false zoneOf gs)).countAccepted n) t)
    (hengine : s.engineRuns = true) (hc : s.loader.config = some c) :
    let evaluated := flagsOver c s t
    t.terms.heldOwn = s.terms.heldOwn ∧ t.terms.rel = s.terms.rel ∧
      if s.ctrl.phase = .running then
        (∀ i : Fin 16, t.terms.flags[i] = signalledFlags c false zoneOf gs evaluated i) ∧
          t.terms.heldPeer = s.terms.heldPeer ∧
          drivesTaken (runningDrives c (Vector.ofFn evaluated) :: signalDrives c false zoneOf gs evaluated) s t ∧
          t.notices = signalNotices c false zoneOf gs evaluated s
            (changeNotices s (fun i => s.terms.flags[i]) evaluated v.notices)
      else
        t.terms.flags = s.terms.flags ∧ drivesTaken [] s t ∧ t.notices = v.notices ∧
          ∀ z : Zone, inZones t.terms.heldPeer z = (inZones s.terms.heldPeer z || zoneNamed zoneOf gs z) := by
  intro evaluated
  obtain ⟨hown, hpeer, hrel⟩ := State.tableChanged_held v
  rw [hs.terms] at hown hpeer hrel
  by_cases hrun : s.ctrl.phase = .running
  · rw [if_pos hrun]
    have hrun' : v.tableChanged.ctrl.phase = .running := by simp [hs.ctrl, hrun]
    have hc' : v.tableChanged.loader.config = some c := by simp [hs.loader, hc]
    obtain ⟨hflags, hdrives, hnotices⟩ := tableChanged_evaluates hs (EndsAlike.refl _) hrun hc
    have hevaluated : flagsOver c s v.tableChanged = evaluated := by
      refine (flagsOver_of_live (fun x => ?_)).symm
      rw [ht.table, termLive_countAccepted, (State.departuresSeen_frame _ _).2.2.2.2.2.2.1]
    rw [hevaluated] at hflags
    have hvector := flags_eq_ofFn hflags
    obtain ⟨hterms, hdrives', hnotices'⟩ := State.departuresSeen_running false zoneOf gs hrun' hc'
    simp only [hflags] at hterms hdrives' hnotices' hnotices
    rw [hvector] at hdrives
    refine ⟨?_, ?_, fun i => ?_, ?_, ?_, ?_⟩
    · rw [ht.terms, State.countAccepted_terms, hterms, hown]
    · rw [ht.terms, State.countAccepted_terms, hterms, hrel]
    · rw [ht.terms, State.countAccepted_terms, hterms]
      simp
    · rw [ht.terms, State.countAccepted_terms, hterms, hpeer]
    · rw [drivesTaken, ht.outputs, ht.trace]
      exact drivesTaken_trans hdrives hdrives'
    · rw [ht.notices, State.countAccepted_notices, hnotices', hnotices, signalNotices_congr (s := s) (by simp [hs.ctrl])]
  · rw [if_neg hrun]
    rw [State.tableChanged_of_not_running v (by rw [hs.ctrl]; exact hrun)] at ht
    have hphase : v.ctrl.phase = .listening ∨ v.ctrl.phase = .joining := by
      rw [hs.ctrl]
      rw [State.engineRuns] at hengine
      cases hp : s.ctrl.phase <;> simp_all [Phase.engineRuns]
    obtain ⟨hterms, houtputs, htrace, hnotices, hzones⟩ := State.departuresSeen_held zoneOf gs hphase
    refine ⟨?_, ?_, ?_, ?_, ?_, fun z => ?_⟩
    · rw [ht.terms, State.countAccepted_terms, hterms, hs.terms]
    · rw [ht.terms, State.countAccepted_terms, hterms, hs.terms]
    · rw [ht.terms, State.countAccepted_terms, hterms, hs.terms]
    · rw [drivesTaken, ht.outputs, ht.trace, ← hs.outputs, ← hs.trace]
      exact ⟨by simpa using htrace, houtputs⟩
    · rw [ht.notices, State.countAccepted_notices, hnotices]
    · rw [ht.terms, State.countAccepted_terms, hzones, hs.terms]

/-- Settles O31: entry, notices and signals in the order of `State.acceptState_eq`. -/
theorem acceptedStateFrameUpdatesSender : Obligations.AcceptedStateFrameUpdatesSender := by
  unfold Obligations.AcceptedStateFrameUpdatesSender
  intro bits s r k hr hgood hn hk hkind hpeer
  obtain ⟨f, x, hexec⟩ := exec_accepts hr hgood hn
  obtain ⟨hconf, hcount⟩ := State.accept_confirming f bits x r s
  have hentries := State.accept_updates f bits x r s
  have hzero := ReceivedFrame.number_ne_zero hgood
  have hentry : ((s.followed f bits .q4 x).accept r).entry r.number =
      ((s.entry r.number).reported k r.sequence (reportOfBits r.payload)).counted := by
    rw [hentries.same hzero, Entry.accepting]
    rcases hkind with rfl | rfl <;> rw [hk]
  have hpresented : (s.entry r.number).presented = { s.entry r.number with presence := .present, age := 0 } :=
    if_neg hpeer
  have htakes : (s.followed f bits .q4 x).tableAccepts r =
      (s.followed f bits .q4 x).acceptState k r.number r.sequence (reportOfBits r.payload) := by
    rcases hkind with rfl | rfl <;> simp only [State.tableAccepts, hk]
  have hstarts : StartsAlike s ((s.followed f bits .q4 x).reportTaken k r.number r.sequence (reportOfBits r.payload)) :=
    ⟨by simp, by simp, by simp, by simp, by simp⟩
  have hends := State.accept_ends r (s.followed f bits .q4 x)
  rw [htakes, State.acceptState_eq hkind] at hends
  refine ⟨_, hexec, ?_, hentries.kept, hconf, hcount, ?_, ?_, ?_, ?_, ?_, ?_⟩
  · intro b hb
    have hslate : ((s.followed f bits .q4 x).accept r).slate = s.slate := by
      rw [State.accept_slate, htakes]; simp
    cases b <;> simp_all [sameBlock]
  · rw [hentry, Entry.counted, Entry.reported, hpresented]
    exact ⟨rfl, rfl, rfl, rfl, rfl⟩
  · rw [hentry, Entry.counted, Entry.reported, hpresented]
  · rw [hentry, Entry.counted, Entry.reported, hpresented]
  · rw [hentry, Entry.counted, Entry.reported, hpresented]
  · rw [hentry]
    exact Entry.reported_report k r.sequence (reportOfBits r.payload) (s.entry r.number)
  · intro c hc
    obtain ⟨_, _, hf, _⟩ := State.receivedFrame_spec hr
    have hnotices := State.reportTaken_notices hkind r.number r.sequence (reportOfBits r.payload)
      (s.followed f bits .q4 x)
    have hsignals : (talliesChanged (s.entry r.number) (reportOfBits r.payload)).map (groupSignal (s.entry r.number)) =
        signalsOf false (fun g => (s.entry r.number).zoneMap.map (fun z => z[g]))
          (talliesChanged (s.entry r.number) (reportOfBits r.payload)) :=
      List.map_congr_left (fun g _ => groupSignal_eq _ g)
    rw [State.entry_followed, hsignals] at hends
    have hev := report_evaluates _ _ hstarts hends (State.engineRuns_of_frameIn hf).1 hc
    rw [hnotices] at hev
    exact hev

end Sys2Proof.Machine
end

