-- ==== Sys2Proof/Proofs/PeerTable13_KeyWon.lean ====
section
/-! Read-back bit by bit, and the key won (R25, R56, R57, R78, R79, R104). -/

namespace Sys2Proof.Machine

/-! ### Read-back (R104) -/

/-- A bit period reads back the bit driven in it (R104). -/
def readsBit (sender : Bool) (b : Bool) (p : BitPeriod) : Prop :=
  p.lead = true ∧ p.value = b ∧ (sender = true → p.trail = false)

@[simp] theorem readsBack_nil (sender : Bool) (bits : List Bool) : readsBack sender bits [] := by
  simp [readsBack]

@[simp] theorem not_readsBack_nil_cons (sender : Bool) (p : BitPeriod) (ps : List BitPeriod) :
    ¬ readsBack sender [] (p :: ps) := fun h => by simpa using h.1

theorem readsBack_cons (sender : Bool) (b : Bool) (bs : List Bool) (p : BitPeriod) (ps : List BitPeriod) :
    readsBack sender (b :: bs) (p :: ps) ↔ readsBit sender b p ∧ readsBack sender bs ps := by
  constructor
  · rintro ⟨hlen, hall⟩
    exact ⟨hall 0 b p rfl rfl, by simpa using hlen, fun j b' p' hb hp => hall (j + 1) b' p' hb hp⟩
  · rintro ⟨hbit, hlen, hall⟩
    refine ⟨by simpa using hlen, fun j b' p' hb hp => ?_⟩
    cases j with
    | zero => cases hb; cases hp; exact hbit
    | succ j => exact hall j b' p' hb hp

theorem not_readsBackUntil_nil (sender : Bool) (bits : List Bool) (b : Bool) (p : BitPeriod) :
    ¬ readsBackUntil sender bits [] b p := by
  rintro ⟨before, h, _⟩
  exact absurd h (by simp)

theorem not_readsBackUntil_of_nil (sender : Bool) (ps : List BitPeriod) (b : Bool) (p : BitPeriod) :
    ¬ readsBackUntil sender [] ps b p := by
  rintro ⟨before, _, _, h⟩
  simp at h

theorem readsBackUntil_cons (sender : Bool) (b : Bool) (bs : List Bool) (p : BitPeriod) (ps : List BitPeriod) (b' : Bool)
    (p' : BitPeriod) :
    readsBackUntil sender (b :: bs) (p :: ps) b' p' ↔
      (ps = [] ∧ b = b' ∧ p = p') ∨ (readsBit sender b p ∧ readsBackUntil sender bs ps b' p') := by
  constructor
  · rintro ⟨before, hps, hback, hb⟩
    cases before with
    | nil =>
      simp only [List.nil_append, List.cons.injEq] at hps
      exact .inl ⟨hps.2, by simpa using hb, hps.1⟩
    | cons x before =>
      simp only [List.cons_append, List.cons.injEq] at hps
      obtain ⟨rfl, hps⟩ := hps
      obtain ⟨hbit, hback⟩ := (readsBack_cons ..).mp hback
      exact .inr ⟨hbit, before, hps, hback, by simpa using hb⟩
  · rintro (⟨rfl, rfl, rfl⟩ | ⟨hbit, before, rfl, hback, hb⟩)
    · exact ⟨[], rfl, readsBack_nil _ _, rfl⟩
    · exact ⟨p :: before, rfl, (readsBack_cons ..).mpr ⟨hbit, hback⟩, by simpa using hb⟩

/-- A contender's bit read back wrong ends its run: at the lead, or at the value (R56, R104). -/
theorem contend_cons (b : Bool) (bs : List Bool) (p : BitPeriod) (ps : List BitPeriod) :
    (readsBit false b p ∧ contend (b :: bs) (p :: ps) = contend bs ps) ∨
      (p.lead = false ∧ contend (b :: bs) (p :: ps) = endsWith (.aborted .q1) ps) ∨
      (p.lead = true ∧ b = true ∧ p.value = false ∧ contend (b :: bs) (p :: ps) = endsWith (.aborted .q2) ps) ∨
      (p.lead = true ∧ b = false ∧ p.value = true ∧ contend (b :: bs) (p :: ps) = endsWith .lost ps) := by
  rw [contend]
  cases hl : p.lead <;> cases hv : p.value <;> cases b <;> simp [readsBit, hl, hv]

theorem endsWith_ne {e e' : ReadBack} {rest : List BitPeriod} (h : endsWith e rest = e') (hover : e' ≠ .overrun) :
    rest = [] ∧ e = e' := by
  rw [endsWith] at h
  split at h
  · next hr => exact ⟨List.isEmpty_iff.mp hr, h⟩
  · exact absurd h.symm hover

/-- A contender's run is sent when each of its bits is read back (R57). -/
theorem contend_sent_iff (sent : List Bool) (bits : List BitPeriod) :
    contend sent bits = .sent ↔ bits.length = sent.length ∧ readsBack false sent bits := by
  induction sent generalizing bits with
  | nil => cases bits <;> simp [contend]
  | cons b bs ih =>
    cases bits with
    | nil => simp [contend]
    | cons p ps =>
      rw [readsBack_cons]
      rcases contend_cons b bs p ps with ⟨hbit, hc⟩ | ⟨hl, hc⟩ | ⟨hl, hb, hv, hc⟩ | ⟨hl, hb, hv, hc⟩ <;> rw [hc]
      · rw [ih]
        simp [hbit]
      · refine ⟨fun h => (by cases (endsWith_ne h (fun h => by cases h)).2), fun h => ?_⟩
        exact absurd h.2.1.1 (by simp [hl])
      · refine ⟨fun h => (by cases (endsWith_ne h (fun h => by cases h)).2), fun h => ?_⟩
        exact absurd h.2.1.2.1 (by simp [hb, hv])
      · refine ⟨fun h => (by cases (endsWith_ne h (fun h => by cases h)).2), fun h => ?_⟩
        exact absurd h.2.1.2.1 (by simp [hb, hv])

/-! ### The driver through a row of bits (R96, R98) -/

theorem drivenQuarters_last {bits : List Bool} (h : bits ≠ []) :
    (drivenQuarters bits).getLastD QuarterDrive.off = { len := true, ltx := false } := by
  obtain ⟨init, b, rfl⟩ := List.eq_nil_or_concat bits |>.resolve_left h
  rw [List.concat_eq_append, drivenQuarters, List.flatMap_append]
  simp [quartersOf, driveLevel]

/-! ### A series opened (R78, R79) -/

theorem State.openChange_opens {u : State} {x : Series} (h : u.slate.change = some x) (hx : x.sequence = none) :
    u.openChange = (u.setSlate { u.slate with
      reportSequence := u.slate.reportSequence + 1
      change := some (x.opened (u.slate.reportSequence + 1) (currentTargets u.table)) }).setSelfSequence
        (u.slate.reportSequence + 1) := by
  simp only [State.openChange, h, hx]

theorem State.openChange_open {u : State} {x : Series} {p : Nibble} (h : u.slate.change = some x)
    (hx : x.sequence = some p) : u.openChange = u := by
  simp only [State.openChange, h, hx]

theorem State.openRelease_opens {u : State} {r : ReleaseSlot} (h : u.slate.release = some r)
    (hr : r.series.sequence = none) :
    u.openRelease = (u.setSlate { u.slate with
      releaseSequence := u.slate.releaseSequence + 1
      release := some { r with
        series := r.series.opened (u.slate.releaseSequence + 1) (currentTargets u.table) } }).setSelfRelease
        (u.slate.releaseSequence + 1) := by
  simp only [State.openRelease, h, hr]

theorem State.openRelease_open {u : State} {r : ReleaseSlot} {p : Nibble} (h : u.slate.release = some r)
    (hr : r.series.sequence = some p) : u.openRelease = u := by
  simp only [State.openRelease, h, hr]

/-- Opening a series changes no peer's entry (R25, R78). -/
theorem State.openSeries_entries (k : Kind) (u : State) : entriesKept u.ctrl.ownNumber u (u.openSeries k) := by
  intro n hn
  cases k with
  | change =>
    rw [State.openSeries, State.openChange]
    split
    · split
      · rfl
      · exact State.entry_updateEntry_ne (u.setSlate _) hn _
    · rfl
  | release =>
    rw [State.openSeries, State.openRelease]
    split
    · split
      · rfl
      · exact State.entry_updateEntry_ne (u.setSlate _) hn _
    · rfl
  | refresh => rfl
  | join => rfl
  | resync => rfl

/-- What KEY_WON gives the slate and the table, by the slot the frame serves (R78, R79): `KeyWonTakesSequence`. -/
def sequenceTaken (k : Kind) (q : Nibble) (s t : State) : Prop :=
  match k with
  | .change =>
    (∀ x, s.slate.change = some x → x.sequence = none →
      q = s.slate.reportSequence + 1 ∧
        t.slate = { s.slate with
          reportSequence := q
          change := some { x with sequence := some q, targets := some (currentTargets s.table) } } ∧
        (s.ctrl.ownNumber ≠ 0 → t.entry s.ctrl.ownNumber =
          { s.entry s.ctrl.ownNumber with
            report := (s.entry s.ctrl.ownNumber).report.map (fun r => { r with sequence := q }) })) ∧
    (∀ x p, s.slate.change = some x → x.sequence = some p → q = p ∧ t.slate = s.slate ∧ t.table = s.table)
  | .release =>
    (∀ r, s.slate.release = some r → r.series.sequence = none →
      q = s.slate.releaseSequence + 1 ∧
        t.slate = { s.slate with
          releaseSequence := q
          release := some { r with
            series := { r.series with sequence := some q, targets := some (currentTargets s.table) } } } ∧
        (s.ctrl.ownNumber ≠ 0 → t.entry s.ctrl.ownNumber =
          { s.entry s.ctrl.ownNumber with lastRelease := some q })) ∧
    (∀ r p, s.slate.release = some r → r.series.sequence = some p →
      q = p ∧ t.slate = s.slate ∧ t.table = s.table)
  | .refresh => q = s.slate.reportSequence ∧ t.slate = s.slate ∧ t.table = s.table
  | .join => q = 0 ∧ t.slate = s.slate ∧ t.table = s.table
  | .resync => q = 0 ∧ t.slate = s.slate ∧ t.table = s.table

theorem State.openSeries_taken (k : Kind) (u : State) :
    sequenceTaken k ((u.openSeries k).slate.sequenceFor k) u (u.openSeries k) := by
  cases k with
  | change =>
    refine ⟨fun x hx hq => ?_, fun x p hx hp => ?_⟩
    · rw [State.openSeries, State.openChange_opens hx hq]
      have hslate : ∀ w : State, (w.setSelfSequence (u.slate.reportSequence + 1)).slate = w.slate := fun w => by simp
      simp only [hslate, State.setSlate_slate, Slate.sequenceFor, Option.bind_some, Series.opened, Option.getD_some, true_and]
      intro hn
      rw [State.setSelfSequence, State.updateSelfReport, State.setSlate_ctrl, State.entry_updateEntry_same _ hn]
      rfl
    · rw [State.openSeries, State.openChange_open hx hp]
      simp [Slate.sequenceFor, hx, hp]
  | release =>
    refine ⟨fun r hr hq => ?_, fun r p hr hp => ?_⟩
    · rw [State.openSeries, State.openRelease_opens hr hq]
      have hslate : ∀ w : State, (w.setSelfRelease (u.slate.releaseSequence + 1)).slate = w.slate := fun w => by simp
      simp only [hslate, State.setSlate_slate, Slate.sequenceFor, Option.bind_some, Series.opened, Option.getD_some, true_and]
      intro hn
      rw [State.setSelfRelease, State.setSlate_ctrl, State.entry_updateEntry_same _ hn]
      rfl
    · rw [State.openSeries, State.openRelease_open hr hp]
      simp [Slate.sequenceFor, hr, hp]
  | refresh => exact ⟨rfl, rfl, rfl⟩
  | join => exact ⟨rfl, rfl, rfl⟩
  | resync => exact ⟨rfl, rfl, rfl⟩

/-- The same from states that agree in slate, table and own number. -/
theorem sequenceTaken_congr {k : Kind} {q : Nibble} {s u w t : State} (hslate : u.slate = s.slate)
    (htable : u.table = s.table) (hown : u.ctrl.ownNumber = s.ctrl.ownNumber) (hslate' : t.slate = w.slate)
    (htable' : t.table = w.table) (h : sequenceTaken k q u w) : sequenceTaken k q s t := by
  have hentry : ∀ n, u.entry n = s.entry n := State.entry_of_table htable
  have hentry' : ∀ n, t.entry n = w.entry n := State.entry_of_table htable'
  cases k <;> simpa only [sequenceTaken, hslate, htable, hown, hslate', htable', hentry, hentry'] using h

/-- The station as the key's bit periods leave it, its last bit driven (log 38). -/
def State.keyPassed (f : Frame) (v : Served) (bits : List BitPeriod) (s : State) : State :=
  ((s.drive (drivenQuarters (s.contenderBits v))).passBits false (laterPeriods f bits) .q4).setTrails (countTrails 0 bits)

theorem exec_keyWon {bits : List BitPeriod} {s : State} {f : Frame} {v : Served}
    (hf : s.ownFrameIn .contending = some (f, v)) (hsent : contend (s.contenderBits v) bits = .sent) :
    exec (.keyWon bits) s = .next (((s.keyPassed f v bits).openSeries v.slot).setFrame .sending
      { f with
        position := bits.length
        bits := keyBits v.urgency s.ctrl.ownNumber
        served := some { v with
          sequence := some (((s.keyPassed f v bits).openSeries v.slot).slate.sequenceFor v.slot) } }) := by
  simp only [exec, execKeyWon, hf, if_pos hsent]
  rfl

/-- Settles O24: the read-back by induction, the slate and the self entry by the series opened. -/
theorem keyWonTakesSequence : Obligations.KeyWonTakesSequence := by
  unfold Obligations.KeyWonTakesSequence
  refine ⟨contend_sent_iff, fun bits s f v hf hsent _ => ?_⟩
  have htaken := State.openSeries_taken v.slot (s.keyPassed f v bits)
  refine ⟨_, ((s.keyPassed f v bits).openSeries v.slot).slate.sequenceFor v.slot, exec_keyWon hf hsent, ?_, ?_, ?_, ?_, ?_, ?_, ?_, ?_⟩
  · intro b hb
    cases b <;> simp_all [sameBlock, State.keyPassed]
  · simp [State.setFrame, State.keyPassed]
  · simp only [State.setFrame_frame, State.openSeries_frame]
    exact congrArg QuarterDrive.len (drivenQuarters_last (List.cons_ne_nil _ _))
  · simp only [State.setFrame_frame, State.openSeries_frame]
    exact congrArg QuarterDrive.ltx (drivenQuarters_last (List.cons_ne_nil _ _))
  · simp only [State.setFrame_frame, State.openSeries_frame]
    rfl
  · exact fun n hn => State.openSeries_entries v.slot (s.keyPassed f v bits) n hn
  · intro n
    rw [inMap_currentTargets]
    simp [isTarget, State.entry]
  · exact sequenceTaken_congr rfl rfl rfl rfl rfl htaken

end Sys2Proof.Machine
end

