-- ==== Sys2Proof/Proofs/PeerTable14_Attempts.lean ====
section
/-! What the slate does with an attempt, completed with a heard map or aborted, and a JOIN concluded (R81 to R85, R90, R92,
R136, R178). -/

namespace Sys2Proof.Machine

/-! ### The fate of a series (R81 to R83, R90) -/

/-- A series with one attempt more and the heard map merged (R81). -/
def Series.attempted (heard : Option StationMap) (x : Series) : Series :=
  { x with attempts := x.attempts + 1, heard := x.heard ||| heard.getD 0 }

/-- What becomes of a series, in the words of the statements. -/
theorem Series.afterAttempt_eq (limit : Nat) (heard : Option StationMap) (x : Series) :
    x.afterAttempt limit heard =
      if x.superseded then .goesOn freshSeries
      else if deliveredBy heard x then .delivered
      else if endsShort limit heard x then .short (x.attempted heard)
      else .goesOn (x.attempted heard) := by
  have hdef : x.afterAttempt limit heard =
      if x.superseded then .goesOn Series.fresh
      else if heard.isSome && (x.attempted heard).delivered then .delivered
      else if x.attempts + 1 < limit then .goesOn (x.attempted heard)
      else .short (x.attempted heard) := rfl
  rw [hdef]
  cases hs : x.superseded
  · have hdelivered : deliveredBy heard x = (heard.isSome && (x.attempted heard).delivered) := by
      rw [deliveredBy, hs]
      cases heard <;> rfl
    rw [endsShort, hs, ← hdelivered]
    cases deliveredBy heard x
    · by_cases hl : x.attempts + 1 < limit
      · simp [hl, Nat.not_le.mpr hl]
      · simp [hl, Nat.not_lt.mp hl]
    · rfl
  · rfl

/-- Its slot and what it misses (R82, R83). -/
theorem Series.afterAttempt_fate (limit : Nat) (heard : Option StationMap) (x : Series) :
    match x.afterAttempt limit heard with
    | .goesOn y => slotAfter limit heard x = some y ∧ endsShort limit heard x = false
    | .delivered => slotAfter limit heard x = none ∧ endsShort limit heard x = false
    | .short y => slotAfter limit heard x = none ∧ endsShort limit heard x = true ∧
        ∀ t, missingMap t y = unreached (x.targets.getD (currentTargets t)) heard x := by
  have hslot : slotAfter limit heard x =
      if x.superseded then some freshSeries
      else if deliveredBy heard x || endsShort limit heard x then none
      else some (x.attempted heard) := rfl
  rw [Series.afterAttempt_eq, hslot]
  cases hs : x.superseded
  · cases hd : deliveredBy heard x
    · cases he : endsShort limit heard x
      · exact ⟨rfl, rfl⟩
      · exact ⟨rfl, rfl, fun _ => rfl⟩
    · exact ⟨rfl, by simp [endsShort, hd]⟩
  · exact ⟨rfl, by simp [endsShort, hs]⟩

/-- What an attempt leaves in the table and the queue: the misses of the map, and their notice (R83). -/
structure MissesTaken (missed : StationMap) (s u : State) : Prop where
  entries : ∀ n, n ≠ 0 → u.entry n =
    { s.entry n with
      deliveriesMissed :=
        if inMap missed n then saturate8 (s.entry n).deliveriesMissed else (s.entry n).deliveriesMissed }
  notices : u.notices = shortNotices missed s s.notices

theorem MissesTaken.none {s u : State} (htable : u.table = s.table) (hnotices : u.notices = s.notices) :
    MissesTaken 0 s u := by
  refine ⟨fun n _ => ?_, by simp [shortNotices, hnotices]⟩
  have hmap : inMap 0 n = false := by simp [inMap]
  rw [State.entry_of_table htable n, hmap]
  simp

theorem MissesTaken.of_blocks {missed : StationMap} {s u t : State} (h : MissesTaken missed s u)
    (htable : t.table = u.table) (hnotices : t.notices = u.notices) : MissesTaken missed s t :=
  ⟨fun n hn => by rw [State.entry_of_table htable n]; exact h.entries n hn, hnotices.trans h.notices⟩

/-- The end of a series that ends short (R83). -/
theorem State.reportShort_taken (x : Series) (s : State) : MissesTaken (missingMap s.table x) s (s.reportShort x) := by
  refine ⟨fun n hn => ?_, ?_⟩
  · have hentry : (s.reportShort x).entry n = PeerTable.entry (countMisses (missingMap s.table x) s.table) n := by
      simp only [State.reportShort]; split <;> rfl
    rw [hentry, entry_countMisses _ _ _ hn]
    split <;> rfl
  · simp only [State.reportShort, shortNotices]
    split
    · rfl
    · rfl

theorem MissesTaken.counted {missed : StationMap} {s u : State} (h : MissesTaken missed s u) : missesCounted missed s u :=
  fun n hn => by rw [h.entries n hn]; rfl

/-! ### One slot after an attempt -/

/-- The missing map of an attempt at a series, as `missedBy` has it (R83). -/
def seriesMissed (heard : Option StationMap) (s : State) (x : Series) : StationMap :=
  if endsShort s.attemptLimit heard x then unreached (x.targets.getD (currentTargets s.table)) heard x else 0

theorem State.changeAttempt_taken (heard : Option StationMap) (s : State) :
    MissesTaken ((s.slate.change.map (seriesMissed heard s)).getD 0) s (s.changeAttempt heard) ∧
      (s.changeAttempt heard).slate =
        { s.slate with
          change := s.slate.change.bind (slotAfter s.attemptLimit heard)
          departureOwed := s.slate.departureOwed &&
            s.slate.change.all (fun x => (slotAfter s.attemptLimit heard x).isSome) } := by
  rw [State.changeAttempt]
  split
  · next hx =>
    rw [hx]
    refine ⟨.none rfl rfl, ?_⟩
    simp only [Option.bind_none, Option.all_none, Bool.and_true]
    rw [← hx]
  · next x hx =>
    have hfate := Series.afterAttempt_fate s.attemptLimit heard x
    rw [hx]
    simp only [Option.map_some, Option.getD_some, Option.bind_some, Option.all_some, seriesMissed]
    cases hy : x.afterAttempt s.attemptLimit heard with
    | goesOn y =>
      rw [hy] at hfate
      obtain ⟨hslot, hshort⟩ := hfate
      rw [hslot, hshort]
      exact ⟨.none rfl rfl, by simp⟩
    | delivered =>
      rw [hy] at hfate
      obtain ⟨hslot, hshort⟩ := hfate
      rw [hslot, hshort]
      exact ⟨.none rfl rfl, by simp⟩
    | short y =>
      rw [hy] at hfate
      obtain ⟨hslot, hshort, hmissing⟩ := hfate
      rw [hslot, hshort, if_pos rfl, ← hmissing]
      exact ⟨(State.reportShort_taken y s).of_blocks rfl rfl, by simp⟩

theorem State.releaseAttempt_taken (heard : Option StationMap) (s : State) :
    MissesTaken ((s.slate.release.map (fun r => seriesMissed heard s r.series)).getD 0) s (s.releaseAttempt heard) ∧
      (s.releaseAttempt heard).slate =
        { s.slate with
          release := s.slate.release.bind (fun r =>
            (slotAfter s.attemptLimit heard r.series).map (fun y => { r with series := y })) } := by
  rw [State.releaseAttempt]
  split
  · next hx =>
    rw [hx]
    refine ⟨.none rfl rfl, ?_⟩
    simp only [Option.bind_none]
    rw [← hx]
  · next r hr =>
    have hfate := Series.afterAttempt_fate s.attemptLimit heard r.series
    rw [hr]
    simp only [Option.map_some, Option.getD_some, Option.bind_some, seriesMissed]
    cases hy : r.series.afterAttempt s.attemptLimit heard with
    | goesOn y =>
      rw [hy] at hfate
      obtain ⟨hslot, hshort⟩ := hfate
      rw [hslot, hshort]
      exact ⟨.none rfl rfl, by simp⟩
    | delivered =>
      rw [hy] at hfate
      obtain ⟨hslot, hshort⟩ := hfate
      rw [hslot, hshort]
      exact ⟨.none rfl rfl, by simp⟩
    | short y =>
      rw [hy] at hfate
      obtain ⟨hslot, hshort, hmissing⟩ := hfate
      rw [hslot, hshort, if_pos rfl, ← hmissing]
      exact ⟨(State.reportShort_taken y s).of_blocks rfl rfl, by simp⟩

/-! ### An attempt of any kind -/

/-- The slate takes an outcome of the station's own frame: COMPLETED with a heard map, or ABORTED. -/
def State.slateTakes (heard : Option StationMap) (k : Kind) (s : State) : State :=
  match heard with
  | some m => s.slateCompleted k m
  | none => s.slateAborted k

@[simp] theorem State.slateTakes_frame (heard : Option StationMap) (k : Kind) (s : State) :
    (s.slateTakes heard k).pins = s.pins ∧ (s.slateTakes heard k).loader = s.loader ∧
      (s.slateTakes heard k).watch = s.watch ∧ (s.slateTakes heard k).line = s.line ∧
      (s.slateTakes heard k).engine = s.engine ∧ (s.slateTakes heard k).health = s.health ∧
      (s.slateTakes heard k).tap = s.tap ∧ (s.slateTakes heard k).pending = s.pending := by
  cases heard <;> simp [State.slateTakes]

/-- A kind whose outcome does not lead into RUNNING reaches slate, table and queue alone. -/
structure AttemptTaken (heard : Option StationMap) (k : Kind) (s u : State) : Prop where
  ctrl : u.ctrl = s.ctrl
  terms : u.terms = s.terms
  outputs : u.outputs = s.outputs
  trace : u.outputTrace = s.outputTrace
  slate : u.slate = slateAfter heard k s
  misses : MissesTaken (missedBy heard k s) s u

theorem State.slateTakes_attempt (heard : Option StationMap) {k : Kind} {s : State} (h : s.entersRunning k = false) :
    AttemptTaken heard k s (s.slateTakes heard k) := by
  have hchange := State.changeAttempt_taken heard s
  have hrelease := State.releaseAttempt_taken heard s
  cases k with
  | change =>
    obtain ⟨hmissed, hslate⟩ := hchange
    cases heard with
    | none =>
      refine ⟨by simp [State.slateTakes, State.slateAborted], by simp [State.slateTakes, State.slateAborted],
        by simp [State.slateTakes, State.slateAborted], by simp [State.slateTakes, State.slateAborted], ?_, hmissed⟩
      simp [State.slateTakes, State.slateAborted, hslate, slateAfter]
    | some m =>
      refine ⟨by simp [State.slateTakes, State.slateCompleted], by simp [State.slateTakes, State.slateCompleted],
        by simp [State.slateTakes, State.slateCompleted], by simp [State.slateTakes, State.slateCompleted], ?_,
        hmissed.of_blocks (by simp [State.slateTakes, State.slateCompleted])
          (by simp [State.slateTakes, State.slateCompleted])⟩
      simp [State.slateTakes, State.slateCompleted, State.stateFrameCompleted, hslate, slateAfter]
  | release =>
    obtain ⟨hmissed, hslate⟩ := hrelease
    have hop : s.slateTakes heard .release = s.releaseAttempt heard := by cases heard <;> rfl
    rw [hop]
    exact ⟨by simp, by simp, by simp, by simp, hslate, hmissed⟩
  | refresh =>
    cases heard <;> exact ⟨rfl, rfl, rfl, rfl, by simp [State.slateTakes, State.slateCompleted, State.slateAborted,
      State.stateFrameCompleted, slateAfter], .none rfl rfl⟩
  | join =>
    have hphase : s.ctrl.phase ≠ .joining := by simpa [State.entersRunning] using h
    have hop : s.slateTakes heard .join = s.setSlate { s.slate with join := false } := by
      cases heard <;> simp [State.slateTakes, State.slateCompleted, State.slateAborted, State.joinConcluded, hphase]
    rw [hop]
    exact ⟨rfl, rfl, rfl, rfl, by simp [slateAfter, hphase], .none rfl rfl⟩
  | resync =>
    cases heard <;> exact ⟨rfl, rfl, rfl, rfl, rfl, .none rfl rfl⟩

/-! ### Entry into RUNNING (R136, R153, R178) -/

theorem enteredFlags_eq (c : StationConfig) (s t : State) (i : Fin 16) :
    TermFlags.entering c.terms[i] t.table s.terms.heldOwn s.terms.heldPeer = enteredFlags c s t i := by
  simp only [TermFlags.entering, enteredFlags, signalLatches, zonesMeet]
  cases c.terms[i].scope <;> cases c.terms[i].latch <;> cases c.terms[i].departed <;>
    simp [scopeCovers, Bool.or_assoc]

/-- The station as it enters RUNNING, before the terms are evaluated. -/
def State.runningEntered (s : State) : State :=
  (((s.setSlate { s.slate with join := false }).setCtrl { s.ctrl with phase := .running }).setSelfPhase
    .running).raiseValue .phaseChanged (.phase .running)

theorem State.slateTakes_enters (heard : Option StationMap) {k : Kind} {s : State} (h : s.entersRunning k = true) :
    k = .join ∧ s.ctrl.phase = .joining ∧ s.slateTakes heard k = s.runningEntered.enterTerms.requestRefresh := by
  obtain ⟨rfl, hphase⟩ : k = .join ∧ s.ctrl.phase = .joining := by simpa [State.entersRunning] using h
  refine ⟨rfl, hphase, ?_⟩
  have hop : s.slateTakes heard .join = (s.setSlate { s.slate with join := false }).joinConcluded := by
    cases heard <;> rfl
  have hphase' : (s.setSlate { s.slate with join := false }).ctrl.phase = .joining := hphase
  rw [hop, State.joinConcluded, if_pos hphase']
  rfl

/-- The notices of the terms at entry into RUNNING (R136). -/
theorem State.enterTerms_notices (s : State) (c : StationConfig) (hc : s.loader.config = some c) :
    s.enterTerms.notices =
      changeNotices s (fun _ => { live := false, latched := false }) (fun i => s.enterTerms.terms.flags[i]) s.notices := by
  simp only [State.enterTerms, hc, State.raiseChanges_notices, State.raiseChanges_terms, State.moveOutputs_frame,
    State.setTerms_notices, State.setTerms_terms]
  rw [changeNotices_congr (s := s) (by simp)]
  simp

@[simp] theorem State.runningEntered_frame (s : State) :
    s.runningEntered.ctrl = { s.ctrl with phase := .running } ∧ s.runningEntered.loader = s.loader ∧
      s.runningEntered.slate = { s.slate with join := false } ∧ s.runningEntered.health = s.health ∧
      s.runningEntered.terms = s.terms ∧ s.runningEntered.outputs = s.outputs ∧
      s.runningEntered.outputTrace = s.outputTrace := by simp [State.runningEntered]

/-- The slate at entry into RUNNING (R178). -/
theorem State.enters_slate (heard : Option StationMap) {s : State} (hphase : s.ctrl.phase = .joining) :
    s.runningEntered.enterTerms.requestRefresh.slate = slateAfter heard .join s := by
  have htakes : s.runningEntered.enterTerms.takes .refresh = decide (s.health.state ≠ .withdrawn) := by
    simp [State.takes, takesKind]
  rw [State.requestRefresh_slate, htakes, slateAfter]
  simp [hphase]

/-- The self entry's phase code at entry into RUNNING (R26). -/
theorem State.enters_entry (s : State) (n : Station) :
    s.runningEntered.enterTerms.requestRefresh.entry n =
      if n = s.ctrl.ownNumber ∧ s.ctrl.ownNumber ≠ 0 then
        { s.entry n with
          report := (s.entry n).report.map (fun r => { r with content := { r.content with phase := .running } }) }
      else s.entry n := by
  have hentry : s.runningEntered.enterTerms.requestRefresh.entry n =
      (((s.setSlate { s.slate with join := false }).setCtrl { s.ctrl with phase := .running }).setSelfPhase
        .running).entry n := by
    rw [State.entry_requestRefresh, State.entry_enterTerms, State.runningEntered, State.entry_raiseValue]
  rw [hentry, State.entry_setSelfPhase]
  rfl

/-- The evaluator and the queue at entry into RUNNING (R136, R153, R178). -/
structure RunningEntered (c : StationConfig) (s u : State) : Prop where
  terms : enteredTerms c s u
  notices : u.notices = enteredNotices s (fun i => u.terms.flags[i]) s.notices

theorem State.enters_evaluates {c : StationConfig} {s : State} (hc : s.loader.config = some c) :
    RunningEntered c s s.runningEntered.enterTerms.requestRefresh := by
  have hconfig : s.runningEntered.loader.config = some c := by simp [hc]
  obtain ⟨hterms, hdrives⟩ := State.enterTerms_spec s.runningEntered c hconfig
  obtain ⟨hrtable, hrterms, hrout, hrtrace, hrnot⟩ := State.requestRefresh_ends s.runningEntered.enterTerms
  have hstart : s.runningEntered.terms = s.terms := by simp
  refine ⟨⟨fun i => ?_, ?_, ?_, ?_, ?_⟩, ?_⟩
  · have htable : s.runningEntered.enterTerms.requestRefresh.table = s.runningEntered.table := by rw [hrtable]; simp
    rw [hrterms, hterms, ← enteredFlags_eq, htable, hstart]
    simp
  · rw [hrterms, hterms]
  · rw [hrterms, hterms]
  · rw [hrterms, hterms, hstart]
  · rw [drivesTaken, hrout, hrtrace, hrterms, hdrives.1, hdrives.2]
    simp
  · rw [hrnot, hrterms, State.enterTerms_notices _ c hconfig, enteredNotices, changeNotices_congr (s := s) (by simp)]
    simp [State.runningEntered, State.raiseValue, State.raise, plainNotice]

/-! ### Every kind at once -/

/-- What an outcome of the station's own frame leaves, in every case. -/
structure OutcomeTaken (heard : Option StationMap) (k : Kind) (s u : State) : Prop where
  ctrl : u.ctrl = { s.ctrl with phase := s.phaseAfter k }
  slate : u.slate = slateAfter heard k s
  entries : ∀ n, n ≠ 0 → u.entry n =
    { s.entry n with
      deliveriesMissed :=
        if inMap (missedBy heard k s) n then saturate8 (s.entry n).deliveriesMissed
        else (s.entry n).deliveriesMissed
      report := if n = s.ctrl.ownNumber then s.selfReportAfter k else (s.entry n).report }
  stands : s.entersRunning k = false → u.terms = s.terms ∧ u.outputs = s.outputs ∧ u.outputTrace = s.outputTrace ∧
    u.notices = shortNotices (missedBy heard k s) s s.notices
  enters : s.entersRunning k = true → ∀ c, s.loader.config = some c → RunningEntered c s u

theorem State.slateTakes_taken (heard : Option StationMap) (k : Kind) (s : State) :
    OutcomeTaken heard k s (s.slateTakes heard k) := by
  cases he : s.entersRunning k
  · have h := State.slateTakes_attempt heard he
    have hreport : s.selfReportAfter k = (s.entry s.ctrl.ownNumber).report := by
      simp [State.selfReportAfter, he]
    refine ⟨by rw [h.ctrl, State.phaseAfter, he]; rfl, h.slate, fun n hn => ?_,
      fun _ => ⟨h.terms, h.outputs, h.trace, h.misses.notices⟩, fun h => Bool.noConfusion (he.symm.trans h)⟩
    rw [h.misses.entries n hn, hreport]
    by_cases hown : n = s.ctrl.ownNumber
    · rw [if_pos hown, ← hown]
    · rw [if_neg hown]
  · obtain ⟨rfl, hphase, hop⟩ := State.slateTakes_enters heard he
    rw [hop]
    refine ⟨by rw [State.phaseAfter, he]; simp, State.enters_slate heard hphase, fun n hn => ?_,
      fun h => Bool.noConfusion (he.symm.trans h), fun _ c hc => State.enters_evaluates hc⟩
    have hmap : inMap (missedBy heard .join s) n = false := by simp [missedBy, inMap]
    rw [State.enters_entry, hmap]
    by_cases hown : n = s.ctrl.ownNumber
    · have hzero : s.ctrl.ownNumber ≠ 0 := hown ▸ hn
      rw [if_pos ⟨hown, hzero⟩, if_pos hown, State.selfReportAfter, he, hown]
      rfl
    · rw [if_neg (fun h => hown h.1), if_neg hown]
      rfl

theorem OutcomeTaken.self_report {heard : Option StationMap} {k : Kind} {s u : State} (h : OutcomeTaken heard k s u) :
    (u.entry s.ctrl.ownNumber).report = s.selfReportAfter k := by
  by_cases hown : s.ctrl.ownNumber = 0
  · rw [State.selfReportAfter, hown, State.entry_zero, State.entry_zero]
    rfl
  · rw [h.entries _ hown, if_pos rfl]

/-- A change of health is nothing to a term (R128 to R131). -/
theorem Weighed.live {o : FrameOutcome} {u t : State} (h : Weighed o u t) (x : TermConfig) :
    termLive x t.table = termLive x u.table := by
  rw [h.table]
  refine termLive_of_entries x (fun n _ => ?_)
  rw [State.entry_weighOutcome]
  split
  · refine ⟨rfl, rfl, rfl, rfl, ?_⟩
    rw [selfReportAfterHealth_eq, Option.map_map]
    congr 1
    funext r
    simp only [Function.comp, StoredReport.afterHealth]
    split <;> rfl
  · exact ⟨rfl, rfl, rfl, rfl, rfl⟩

/-- The entries after the outcome and its weight (R26, R83). -/
theorem OutcomeTaken.weighed_entry {heard : Option StationMap} {k : Kind} {o : FrameOutcome} {s u t : State}
    (h : OutcomeTaken heard k s u) (hw : Weighed o u t) {n : Station} (hn : n ≠ 0) :
    t.entry n = { s.entry n with
      deliveriesMissed := (t.entry n).deliveriesMissed
      report := if n = s.ctrl.ownNumber then (t.entry n).report else (s.entry n).report } := by
  have hown : u.ctrl.ownNumber = s.ctrl.ownNumber := by rw [h.ctrl]
  rw [hw.entry_report n, hown, h.entries n hn]
  by_cases hself : n = s.ctrl.ownNumber <;> simp [hself]

theorem OutcomeTaken.weighed_misses {heard : Option StationMap} {k : Kind} {o : FrameOutcome} {s u t : State}
    (h : OutcomeTaken heard k s u) (hw : Weighed o u t) : missesCounted (missedBy heard k s) s t := by
  intro n hn
  rw [hw.entry_report n, h.entries n hn]
  rfl

end Sys2Proof.Machine
end

