-- ==== Sys2Proof/Proofs/PeerTable15_Abort.lean ====
section
/-! A bit of the own frame read back wrong (R26, R48, R56, R62, R69, R82 to R84, R104, R105, R111 to R115, R178). -/

namespace Sys2Proof.Machine

/-! ### Where an abort falls (R56, R62, R104) -/

/-- In which quarter a bit period is found wrong, b driven in it and p read (R104). -/
def abortsAt (sender : Bool) (b : Bool) (p : BitPeriod) (q : Quarter) : Prop :=
  (q = .q1 ∧ p.lead = false) ∨
    (q = .q2 ∧ p.lead = true ∧ p.value ≠ b ∧ (sender = false → b = true)) ∨
    (sender = true ∧ q = .q4 ∧ p.lead = true ∧ p.value = b ∧ p.trail = true)

/-- A bit period that reads back as driven is not found wrong. -/
theorem not_abortsAt_of_readsBit {sender b : Bool} {p : BitPeriod} {q : Quarter} (h : readsBit sender b p) :
    ¬ abortsAt sender b p q := by
  obtain ⟨hl, hv, ht⟩ := h
  rintro (⟨_, hl'⟩ | ⟨_, _, hv', _⟩ | ⟨hs, _, _, _, ht'⟩)
  · simp [hl] at hl'
  · exact hv' hv
  · simp [ht hs] at ht'

theorem abortsAt_contender (b : Bool) (p : BitPeriod) (q : Quarter) :
    abortsAt false b p q ↔
      (q = .q1 ∧ p.lead = false) ∨ (q = .q2 ∧ p.lead = true ∧ b = true ∧ p.value = false) := by
  cases b <;> simp [abortsAt]

theorem abortsAt_sender (b : Bool) (p : BitPeriod) (q : Quarter) :
    abortsAt true b p q ↔
      (q = .q1 ∧ p.lead = false) ∨ (q = .q2 ∧ p.lead = true ∧ p.value ≠ b) ∨
        (q = .q4 ∧ p.lead = true ∧ p.value = b ∧ p.trail = true) := by
  simp [abortsAt]

/-- The end of a run in its first bit period: an event e in the quarters q of `at_`. -/
theorem endsWith_aborted_iff {at_ q : Quarter} {ps : List BitPeriod} :
    endsWith (.aborted at_) ps = .aborted q ↔ ps = [] ∧ q = at_ := by
  constructor
  · intro h
    obtain ⟨hnil, he⟩ := endsWith_ne h (fun h => by cases h)
    cases he
    exact ⟨hnil, rfl⟩
  · rintro ⟨rfl, rfl⟩; rfl

theorem endsWith_lost_ne {q : Quarter} {ps : List BitPeriod} : endsWith .lost ps ≠ .aborted q := by
  intro h
  obtain ⟨_, he⟩ := endsWith_ne h (fun h => by cases h)
  cases he

/-- An abort in a run that does not read back its first bit falls in that bit period. -/
theorem aborts_first_iff {sender b : Bool} {bs : List Bool} {p : BitPeriod} {ps : List BitPeriod} {q : Quarter}
    (hbit : ¬ readsBit sender b p) :
    (∃ b' p', readsBackUntil sender (b :: bs) (p :: ps) b' p' ∧ abortsAt sender b' p' q) ↔
      ps = [] ∧ abortsAt sender b p q := by
  constructor
  · rintro ⟨b', p', hback, hat⟩
    rcases (readsBackUntil_cons ..).mp hback with ⟨hnil, rfl, rfl⟩ | ⟨h, _⟩
    · exact ⟨hnil, hat⟩
    · exact absurd h hbit
  · rintro ⟨hnil, hat⟩
    exact ⟨b, p, (readsBackUntil_cons ..).mpr (.inl ⟨hnil, rfl, rfl⟩), hat⟩

/-- An abort in a run that reads back its first bit falls later. -/
theorem aborts_later_iff {sender b : Bool} {bs : List Bool} {p : BitPeriod} {ps : List BitPeriod} {q : Quarter}
    (hbit : readsBit sender b p) :
    (∃ b' p', readsBackUntil sender (b :: bs) (p :: ps) b' p' ∧ abortsAt sender b' p' q) ↔
      ∃ b' p', readsBackUntil sender bs ps b' p' ∧ abortsAt sender b' p' q := by
  constructor
  · rintro ⟨b', p', hback, hat⟩
    rcases (readsBackUntil_cons ..).mp hback with ⟨_, rfl, rfl⟩ | ⟨_, h⟩
    · exact absurd hat (not_abortsAt_of_readsBit hbit)
    · exact ⟨b', p', h, hat⟩
  · rintro ⟨b', p', hback, hat⟩
    exact ⟨b', p', (readsBackUntil_cons ..).mpr (.inr ⟨hbit, hback⟩), hat⟩

theorem contend_aborted_iff (sent : List Bool) (bits : List BitPeriod) (q : Quarter) :
    contend sent bits = .aborted q ↔ ∃ b p, readsBackUntil false sent bits b p ∧ abortsAt false b p q := by
  induction sent generalizing bits with
  | nil =>
    cases bits <;> simp [contend, not_readsBackUntil_of_nil]
  | cons b bs ih =>
    cases bits with
    | nil => simp [contend, not_readsBackUntil_nil]
    | cons p ps =>
      rcases contend_cons b bs p ps with ⟨hbit, hc⟩ | ⟨hl, hc⟩ | ⟨hl, hb, hv, hc⟩ | ⟨hl, hb, hv, hc⟩ <;> rw [hc]
      · rw [ih, aborts_later_iff hbit]
      · rw [endsWith_aborted_iff, aborts_first_iff (fun h => by simp [h.1] at hl)]
        simp [abortsAt, hl]
      · rw [endsWith_aborted_iff, aborts_first_iff (fun h => by simp [h.2.1, hb] at hv)]
        simp [abortsAt, hl, hb, hv]
      · rw [aborts_first_iff (fun h => by simp [h.2.1, hb] at hv)]
        simp [abortsAt, hl, hb, hv, endsWith_lost_ne]

/-- A sender's bit read back wrong ends its run: at the lead, the value or the trail (R62, R104). -/
theorem sendBody_cons (b : Bool) (bs : List Bool) (p : BitPeriod) (ps : List BitPeriod) :
    (readsBit true b p ∧ sendBody (b :: bs) (p :: ps) = sendBody bs ps) ∨
      (p.lead = false ∧ sendBody (b :: bs) (p :: ps) = endsWith (.aborted .q1) ps) ∨
      (p.lead = true ∧ p.value ≠ b ∧ sendBody (b :: bs) (p :: ps) = endsWith (.aborted .q2) ps) ∨
      (p.lead = true ∧ p.value = b ∧ p.trail = true ∧ sendBody (b :: bs) (p :: ps) = endsWith (.aborted .q4) ps) := by
  rw [sendBody]
  cases hl : p.lead <;> by_cases hv : p.value = b <;> cases ht : p.trail <;> simp [readsBit, hl, hv, ht]

theorem sendBody_aborted_iff (sent : List Bool) (bits : List BitPeriod) (q : Quarter) :
    sendBody sent bits = .aborted q ↔ ∃ b p, readsBackUntil true sent bits b p ∧ abortsAt true b p q := by
  induction sent generalizing bits with
  | nil =>
    cases bits <;> simp [sendBody, not_readsBackUntil_of_nil]
  | cons b bs ih =>
    cases bits with
    | nil => simp [sendBody, not_readsBackUntil_nil]
    | cons p ps =>
      rcases sendBody_cons b bs p ps with ⟨hbit, hc⟩ | ⟨hl, hc⟩ | ⟨hl, hv, hc⟩ | ⟨hl, hv, ht, hc⟩ <;> rw [hc]
      · rw [ih, aborts_later_iff hbit]
      · rw [endsWith_aborted_iff, aborts_first_iff (fun h => by simp [h.1] at hl)]
        simp [abortsAt, hl]
      · rw [endsWith_aborted_iff, aborts_first_iff (fun h => hv h.2.1)]
        simp [abortsAt, hl, hv]
      · rw [endsWith_aborted_iff, aborts_first_iff (fun h => by simp [h.2.2 rfl] at ht)]
        simp [abortsAt, hl, hv, ht]

/-! ### The abort (R69, R105) -/

/-- The line as the bit periods leave it, and the record brought up to them: what an abort starts from. -/
def State.upTo (l : LineInterface) (x : EngineState) (g : Frame) (s : State) : State := (s.setLine l).setFrame x g

/-- What an abort does, in order (R69). -/
theorem State.abort_eq (k : Kind) (p : State) :
    p.abort k = (((p.stopDriving.countOutcome .aborted).slateTakes none k).weighOutcome .aborted).enterDiscarding := rfl

theorem State.abort_weighed (k : Kind) (p : State) :
    Weighed .aborted ((p.stopDriving.countOutcome .aborted).slateTakes none k) (p.abort k) := ⟨rfl, rfl, rfl, rfl⟩

/-- Line and engine are nothing to the slate. -/
theorem State.upTo_taken (k : Kind) (l : LineInterface) (x : EngineState) (g : Frame) (s : State) :
    OutcomeTaken none k s (((s.upTo l x g).stopDriving.countOutcome .aborted).slateTakes none k) := by
  have h := State.slateTakes_taken none k ((s.upTo l x g).stopDriving.countOutcome .aborted)
  exact ⟨h.ctrl, h.slate, h.entries, h.stands, fun he c hc => ⟨(h.enters he c hc).terms, (h.enters he c hc).notices⟩⟩

/-- The own frame in progress tells the engine's state. -/
theorem State.ownFrameIn_state {x : EngineState} {f : Frame} {v : Served} {s : State}
    (h : s.ownFrameIn x = some (f, v)) : s.engine.state = x ∧ s.engine.frame = some f := by
  simp only [State.ownFrameIn, Option.bind_eq_some_iff, Option.map_eq_some_iff] at h
  obtain ⟨g, hg, w, _, hw⟩ := h
  cases hw
  exact (State.engineRuns_of_frameIn hg).2

theorem State.ownFrameIn_other {x y : EngineState} {f : Frame} {v : Served} {s : State}
    (h : s.ownFrameIn x = some (f, v)) (hne : y ≠ x) : s.ownFrameIn y = none := by
  have hstate := (State.ownFrameIn_state h).1
  rw [State.ownFrameIn, State.frameIn, if_neg (fun hy => hne (hy.2.symm.trans hstate))]
  rfl

/-- The two ways to SEND_ABORTED, and the bits of the frame driven in each (R48, R56, R62). -/
def abortsDriving (bits : List BitPeriod) (f : Frame) (v : Served) (q : Quarter) (driven : List Bool) (s : State) : Prop :=
  (s.ownFrameIn .contending = some (f, v) ∧ contend (s.contenderBits v) bits = .aborted q ∧
      driven = ((s.contenderBits v).take (if q = .q1 then bits.length - 1 else bits.length)).drop 1) ∨
    (s.ownFrameIn .sending = some (f, v) ∧ sendBody (s.senderBits v) bits = .aborted q ∧
      driven = f.bits ++ (s.senderBits v).take (if q = .q1 then bits.length - 1 else bits.length))

theorem exec_aborts {bits : List BitPeriod} {f : Frame} {v : Served} {q : Quarter} {driven : List Bool} {s : State}
    (h : abortsDriving bits f v q driven s) :
    ∃ l x, exec (.sendAborted bits) s = .next ((s.upTo l x (f.abortedAt bits.length driven)).abort v.slot) := by
  rcases h with ⟨hf, hq, rfl⟩ | ⟨hf, hq, rfl⟩
  · refine ⟨(((s.drive (quartersUntil q ((s.contenderBits v).take bits.length))).passBits false (laterPeriods f bits)
      q).setTrails (countTrails 0 (trailsBefore q bits))).line, .contending, ?_⟩
    simp only [exec, execSendAborted, hf, hq]
    rfl
  · have hother := State.ownFrameIn_other hf (y := .contending) (by decide)
    refine ⟨(((s.drive (quartersUntil q ((s.senderBits v).take bits.length))).passBits false bits q).setTrails
      (countTrails s.line.trailCount (trailsBefore q bits))).line, .sending, ?_⟩
    simp only [exec, execSendAborted, hf, hother, hq]
    rfl

/-- The engine after an abort (R48, R52, R71). -/
theorem State.abort_engine (k : Kind) (l : LineInterface) (x : EngineState) (g : Frame) (s : State) :
    ((s.upTo l x g).abort k).engine = { s.engine with
      state := .discarding, gapCount := 0
      counters := { s.engine.counters with aborted := s.engine.counters.aborted + 1 }
      frame := some g } := by
  simp [State.abort_eq, State.enterDiscarding, State.countOutcome, StationCounters.count, State.upTo, State.setFrame,
    State.stopDriving]

theorem State.abort_line (k : Kind) (p : State) : (p.abort k).line = p.line.releasedDriver := by
  simp [State.abort_eq, State.stopDriving]

/-- The evaluator, the outputs and the controller stand as the slate's part left them. -/
theorem State.abort_stands (k : Kind) (p : State) :
    (p.abort k).ctrl = ((p.stopDriving.countOutcome .aborted).slateTakes none k).ctrl ∧
      (p.abort k).terms = ((p.stopDriving.countOutcome .aborted).slateTakes none k).terms ∧
      (p.abort k).outputs = ((p.stopDriving.countOutcome .aborted).slateTakes none k).outputs ∧
      (p.abort k).outputTrace = ((p.stopDriving.countOutcome .aborted).slateTakes none k).outputTrace := by
  simp [State.abort_eq]

theorem enteredFlags_of_live {c : StationConfig} {s t t' : State}
    (h : ∀ x : TermConfig, termLive x t'.table = termLive x t.table) : enteredFlags c s t' = enteredFlags c s t := by
  funext i; simp only [enteredFlags, h]

/-- Settles O25: the read-back by induction; then the slate's part by `OutcomeTaken`, the monitor's by `Weighed`. -/
theorem abortCountsAttemptAndDiscards : Obligations.AbortCountsAttemptAndDiscards := by
  unfold Obligations.AbortCountsAttemptAndDiscards
  refine ⟨fun sent bits q => ⟨?_, ?_⟩, fun bits s f v q driven h => ?_⟩
  · simp only [contend_aborted_iff, abortsAt_contender]
  · simp only [sendBody_aborted_iff, abortsAt_sender]
  · obtain ⟨l, x, hexec⟩ := exec_aborts h
    have htaken := State.upTo_taken v.slot l x (f.abortedAt bits.length driven) s
    have hw := State.abort_weighed v.slot (s.upTo l x (f.abortedAt bits.length driven))
    have hfollows := hw.follows (s := s) (by simp; rfl) (by rw [htaken.ctrl]) (by rw [htaken.ctrl])
    rw [htaken.ctrl, htaken.slate, htaken.self_report] at hfollows
    obtain ⟨hctrl, hterms, hout, htrace⟩ := State.abort_stands v.slot (s.upTo l x (f.abortedAt bits.length driven))
    refine ⟨_, hexec, ?_, State.abort_engine _ _ _ _ _, by rw [State.abort_line]; rfl, by rw [State.abort_line]; rfl,
      hw.after (by simp; rfl), ?_, htaken.weighed_misses hw, fun n hn => htaken.weighed_entry hw hn, ?_⟩
    · intro b hb
      cases b <;> simp_all [sameBlock, State.upTo]
    · rw [hctrl, htaken.ctrl]
    · cases he : s.entersRunning v.slot
      · obtain ⟨hterms', hout', htrace', hnotices⟩ := htaken.stands he
        rw [hnotices] at hfollows
        exact ⟨hterms.trans hterms', ⟨by rw [htrace, htrace']; simp, hout.trans hout'⟩, hfollows⟩
      · intro c hc
        obtain ⟨⟨hflags, hown, hpeer, hrel, hdrives⟩, hnotices⟩ := htaken.enters he c hc
        rw [hnotices, ← hterms] at hfollows
        rw [← hterms] at hflags hown hpeer hrel hdrives
        refine ⟨⟨fun i => ?_, hown, hpeer, hrel, ?_⟩, hfollows⟩
        · rw [enteredFlags_of_live hw.live, hflags]
        · rw [drivesTaken, hout, htrace]
          exact hdrives

end Sys2Proof.Machine
end

