-- ==== Sys2Proof/Proofs/PeerTable16_ReceiverWindow.lean ====
section
/-! A confirm map as evidence, and the end of a receiver's window (R26, R51, R66 to R70, R96, R108, R111 to R117, R132,
R137). -/

namespace Sys2Proof.Machine

/-! ### The slots read confirmed (R67) -/

theorem getLsbD_confirmMapFrom (k : Nat) (ps : List BitPeriod) (i : Nat) (hi : i < 32) :
    (confirmMapFrom k ps).getLsbD i = (decide (k ≤ i) && (ps[i - k]?).any slotConfirmed) := by
  induction ps generalizing k with
  | nil => simp [confirmMapFrom]
  | cons p ps ih =>
    rw [confirmMapFrom, BitVec.getLsbD_or, ih]
    have hbit : (if slotConfirmed p = true then 1#32 <<< k else 0).getLsbD i = (decide (k = i) && slotConfirmed p) := by
      cases slotConfirmed p
      · simp
      · rw [if_pos rfl, ← BitVec.twoPow_eq, BitVec.getLsbD_twoPow]
        by_cases h : k = i
        · subst h; simp [hi]
        · simp [h]
    rw [hbit]
    rcases Nat.lt_trichotomy k i with h | h | h
    · have hsucc : i - k = (i - (k + 1)) + 1 := by omega
      simp [hsucc, h.ne, h.le, Nat.succ_le_of_lt h]
    · subst h; simp
    · simp [h.ne', Nat.not_le.mpr h, show ¬ k + 1 ≤ i by omega]

/-- A station is in the map when its slot reads confirmed (R67). -/
theorem inMap_confirmMapOf (slots : List BitPeriod) (n : Station) (hn : n ≠ 0) :
    inMap (confirmMapOf slots) n = true ↔
      ∃ p, slots[n.toNat - 1]? = some p ∧ p.value = true ∧ p.trail = false := by
  have hpos : 1 ≤ n.toNat := by
    rw [Nat.one_le_iff_ne_zero]
    exact fun h => hn (BitVec.eq_of_toNat_eq h)
  have hlt : n.toNat < 32 := n.isLt
  rw [inMap, confirmMapOf, getLsbD_confirmMapFrom 1 slots _ hlt, decide_eq_true hpos, Bool.true_and, Option.any_eq_true]
  simp [slotConfirmed]

/-! ### The map as evidence (R5, R68, R132) -/

/-- The evidence of a map, before the evaluator hears of it. -/
def State.mapHeard (m : StationMap) (s : State) : State :=
  stations.foldl (fun s n => if inMap m n then s.evidence n else s) s

theorem State.mapHeard_starts (m : StationMap) (s : State) : StartsAlike s (s.mapHeard m) := by
  refine ⟨foldl_keeps State.ctrl _ ?_ _ _, foldl_keeps State.loader _ ?_ _ _, foldl_keeps State.terms _ ?_ _ _,
    foldl_keeps State.outputs _ ?_ _ _, foldl_keeps State.outputTrace _ ?_ _ _⟩
  all_goals (intro s n; split <;> simp)

/-- The notices of a row of evidence, each station's entry as it was before the row (R6, R8, R68). -/
theorem foldl_evidence_notices (m : StationMap) {s : State} (l : List Station) (hl : l.Nodup) (u : State)
    (htick : u.ctrl.tick = s.ctrl.tick) (hentry : ∀ n ∈ l, u.entry n = s.entry n) :
    (l.foldl (fun s n => if inMap m n then s.evidence n else s) u).notices =
      l.foldl (fun q n => if inMap m n then heardNotices s n q else q) u.notices := by
  induction l generalizing u with
  | nil => rfl
  | cons n l ih =>
    obtain ⟨hn, hl⟩ := List.nodup_cons.mp hl
    rw [List.foldl_cons, List.foldl_cons]
    cases hm : inMap m n
    · exact ih hl u htick (fun k hk => hentry k (List.mem_cons_of_mem _ hk))
    · rw [if_pos rfl, if_pos rfl, ih hl (u.evidence n) (by simp [htick]) (fun k hk => ?_), State.evidence_notices,
        heardNotices_congr htick (hentry n (List.mem_cons_self ..))]
      have hkn : k ≠ n := fun h => hn (h ▸ hk)
      rw [State.entry_evidence, if_neg (fun h => hkn h.1)]
      exact hentry k (List.mem_cons_of_mem _ hk)

theorem State.mapHeard_notices (m : StationMap) (s : State) : (s.mapHeard m).notices = mapNotices s m s.notices :=
  foldl_evidence_notices m stations stations_nodup s rfl (fun _ _ => rfl)

/-- The notices of a change of the table, in every phase (R137). -/
theorem State.tableChanged_notices (v : State) :
    v.tableChanged.notices =
      changeNotices v (fun i => v.terms.flags[i]) (fun i => v.tableChanged.terms.flags[i]) v.notices := by
  have hsame : ∀ f : Fin 16 → TermFlags, changeNotices v f f v.notices = v.notices := by
    intro f
    simp [changeNotices]
  rw [State.tableChanged]
  split
  · rw [State.settleTerms_notices, State.settleTerms_terms]
  · exact (hsame _).symm

/-- What a confirm map's evidence leaves, whatever the phase. -/
structure MapHeard (m : StationMap) (s w : State) : Prop where
  ctrl : w.ctrl = s.ctrl
  loader : w.loader = s.loader
  slate : w.slate = s.slate
  health : w.health = s.health
  entries : ∀ n, n ≠ 0 → w.entry n = if inMap m n then (s.entry n).evidenced else s.entry n
  held : w.terms.heldOwn = s.terms.heldOwn ∧ w.terms.heldPeer = s.terms.heldPeer ∧ w.terms.rel = s.terms.rel
  notices : w.notices =
    changeNotices s (fun i => s.terms.flags[i]) (fun i => w.terms.flags[i]) (mapNotices s m s.notices)
  evaluates : s.ctrl.phase = .running → ∀ c, s.loader.config = some c →
    (∀ i : Fin 16, w.terms.flags[i] = flagsOver c s w i) ∧ drivesTaken [runningDrives c w.terms.flags] s w
  stands : s.ctrl.phase ≠ .running → w.terms = s.terms ∧ w.outputs = s.outputs ∧ w.outputTrace = s.outputTrace ∧
    w.notices = mapNotices s m s.notices

theorem State.mapEvidence_heard (m : StationMap) (s : State) : MapHeard m s (s.mapEvidence m) := by
  have hs := State.mapHeard_starts m s
  have hop : s.mapEvidence m = (s.mapHeard m).tableChanged := rfl
  obtain ⟨hown, hpeer, hrel⟩ := State.tableChanged_held (s.mapHeard m)
  refine ⟨by simp, by simp, by simp, by simp, fun n hn => State.entry_mapEvidence m s n hn, ?_, ?_, fun hrun c hc => ?_,
    fun hrun => ?_⟩
  · rw [hop, hown, hpeer, hrel, hs.terms]
    exact ⟨rfl, rfl, rfl⟩
  · rw [hop, State.tableChanged_notices, changeNotices_congr (s := s) (by rw [hs.ctrl]), hs.terms, State.mapHeard_notices]
  · obtain ⟨hflags, hdrives, _⟩ := tableChanged_evaluates hs (EndsAlike.refl _) hrun hc
    exact ⟨hflags, hdrives⟩
  · rw [hop, State.tableChanged_of_not_running _ (by rw [hs.ctrl]; exact hrun)]
    exact ⟨hs.terms, hs.outputs, hs.trace, State.mapHeard_notices m s⟩

/-- Evidence leaves every report. -/
theorem MapHeard.report {m : StationMap} {s w : State} (h : MapHeard m s w) (n : Station) :
    (w.entry n).report = (s.entry n).report := by
  by_cases hn : n = 0
  · rw [hn, State.entry_zero, State.entry_zero]
  · rw [h.entries n hn]
    split
    · rw [Entry.evidenced]; split <;> rfl
    · rfl

/-- A station heard in a map, in the words of the statements (R6 to R8). -/
theorem MapHeard.entry_eq {m : StationMap} {s w : State} (h : MapHeard m s w) {n : Station} (hn : n ≠ 0) :
    w.entry n =
      if inMap m n = true ∧ (s.entry n).presence ≠ .self then
        { s.entry n with presence := evidencePresence (s.entry n).presence, age := 0 }
      else s.entry n := by
  rw [h.entries n hn]
  cases inMap m n
  · rw [if_neg Bool.false_ne_true, if_neg (fun h => Bool.false_ne_true h.1)]
  · by_cases hself : (s.entry n).presence = .self
    · rw [if_pos rfl, if_neg (fun h => h.2 hself), Entry.evidenced, if_pos hself]
    · rw [if_pos rfl, if_pos ⟨rfl, hself⟩, Entry.evidenced_of_peer hself]

/-- The entries after the evidence and an outcome's weight (R6 to R8, R26). -/
theorem MapHeard.weighed_entry {m : StationMap} {o : FrameOutcome} {s w t : State} (h : MapHeard m s w)
    (hw : Weighed o w t) {n : Station} (hn : n ≠ 0) :
    t.entry n =
      if inMap m n = true ∧ (s.entry n).presence ≠ .self then
        { s.entry n with
          presence := evidencePresence (s.entry n).presence, age := 0
          report := if n = s.ctrl.ownNumber then (t.entry s.ctrl.ownNumber).report else (s.entry n).report }
      else
        { s.entry n with
          report := if n = s.ctrl.ownNumber then (t.entry s.ctrl.ownNumber).report else (s.entry n).report } := by
  rw [hw.entry_report n, h.ctrl, h.entry_eq hn]
  by_cases hown : n = s.ctrl.ownNumber
  · subst hown
    split <;> simp
  · split <;> simp

/-! ### The slots pass (R66, R96, R108) -/

/-- The station after the 31 slots, before the frame is closed (log 10). -/
def State.slotsPassed (f : Frame) (slots : List BitPeriod) (s : State) : State :=
  ((s.drive (windowQuarters (f.ownSlot s.ctrl.ownNumber))).passBits false slots .q4).stopDriving

theorem exec_windowEnd {slots : List BitPeriod} {f : Frame} {s : State} (hf : s.frameIn .confirming = some f)
    (hlen : slots.length = 31) :
    exec (.windowEnd slots) s = .next ((s.slotsPassed f slots).closeFrame f (confirmMapOf slots)).afterWindow := by
  simp only [exec, execWindowEnd, hf]
  rw [if_pos (show slots.length = windowSlots from hlen)]
  rfl

/-- The own slot driven in the window, in the words of the statements. -/
theorem slotsDriven_of_line {f : Frame} {slots : List BitPeriod} {s t : State}
    (h : t.line.drove = (s.slotsPassed f slots).line.drove) : slotsDriven f s t := by
  have hdrove : t.line.drove = windowQuarters (f.ownSlot s.ctrl.ownNumber) := h
  rw [slotsDriven, hdrove]
  refine ⟨windowQuarters_length _, fun k hk => ?_⟩
  rw [windowQuarters_slot _ k hk, Frame.ownSlot]
  cases f.confirms
  · simp
    rfl
  · simp only [if_true, Option.some.injEq, true_and]
    by_cases hown : k = s.ctrl.ownNumber
    · rw [if_pos hown.symm, if_pos hown]; rfl
    · rw [if_neg (fun h => hown h.symm), if_neg hown]; rfl

/-- The gap requirement after a frame of another station (R51). -/
theorem gapRequirementFor_other (h : Health) : gapRequirementFor h false = if h = .restrained then 35 else 11 := by
  cases h <;> rfl

theorem gapRequirementFor_own (h : Health) : gapRequirementFor h true = if h = .restrained then 35 else 16 := by
  cases h <;> rfl

/-! ### A receiver's window (R68, R70) -/

/-- The engine after a window while it runs (R50, R51). -/
theorem State.afterWindow_running {u : State} (h : u.engineRuns = true) : u.afterWindow = u.enterIdle 0 := if_pos h

/-- The map of a window, less the own number. -/
def State.windowHeard (slots : List BitPeriod) (s : State) : StationMap :=
  confirmMapOf slots &&& ~~~stationBit s.ctrl.ownNumber

theorem exec_receiverWindow {slots : List BitPeriod} {f : Frame} {s : State} (hf : s.frameIn .confirming = some f)
    (hlen : slots.length = 31) (hserved : f.served = none) (hverdict : f.verdict = some .accepted) :
    exec (.windowEnd slots) s =
      .next (((((s.slotsPassed f slots).mapEvidence (s.windowHeard slots)).countOutcome .accepted).weighOutcome
        .accepted).enterIdle 0) := by
  rw [exec_windowEnd hf hlen, State.closeFrame, hserved, hverdict]
  have hruns := (State.engineRuns_of_frameIn hf).1
  rw [State.afterWindow_running]
  · rfl
  · rw [State.engineRuns] at hruns ⊢
    simpa [State.receiverClosed, State.slotsPassed] using hruns

/-- Line and engine are nothing to the evidence of a map. -/
theorem State.slotsPassed_heard (m : StationMap) (f : Frame) (slots : List BitPeriod) (o : FrameOutcome) (s : State) :
    MapHeard m s (((s.slotsPassed f slots).mapEvidence m).countOutcome o) := by
  have h := State.mapEvidence_heard m (s.slotsPassed f slots)
  exact ⟨h.ctrl, h.loader, h.slate, h.health, h.entries, h.held, h.notices, h.evaluates, h.stands⟩

theorem State.enterIdle_weighed {o : FrameOutcome} (w : State) : Weighed o w ((w.weighOutcome o).enterIdle 0) :=
  ⟨rfl, rfl, rfl, rfl⟩

/-- The evaluator and the line stand as the evidence left them, and the engine's record is closed. -/
theorem State.receiverClosed_stands (w : State) :
    ((w.weighOutcome .accepted).enterIdle 0).terms = w.terms ∧
      ((w.weighOutcome .accepted).enterIdle 0).outputs = w.outputs ∧
      ((w.weighOutcome .accepted).enterIdle 0).outputTrace = w.outputTrace ∧
      ((w.weighOutcome .accepted).enterIdle 0).line = w.line ∧
      ((w.weighOutcome .accepted).enterIdle 0).engine.gapRequirement =
        gapRequirementFor (w.weighOutcome .accepted).health.state
          (w.engine.frame.any (fun f => decide (f.role = .sender))) := by
  simp [State.enterIdle]

/-- Settles O35: the map bit by bit; the evidence by `MapHeard`, the monitor's part by `Weighed`. -/
theorem receiverWindowCloses : Obligations.ReceiverWindowCloses := by
  unfold Obligations.ReceiverWindowCloses
  refine ⟨fun slots n _ hn => inMap_confirmMapOf slots n hn, fun slots s f hf hserved hrole hlen => ⟨fun hverdict => ?_,
    fun hverdict => ?_⟩⟩
  · intro own heard
    obtain ⟨hruns, hstate, hframe⟩ := State.engineRuns_of_frameIn hf
    have hheard := State.slotsPassed_heard heard f slots .accepted s
    have hw := State.enterIdle_weighed (o := .accepted)
      (((s.slotsPassed f slots).mapEvidence heard).countOutcome .accepted)
    have hfollows := hw.follows (s := s) hheard.health (by rw [hheard.ctrl]) (by rw [hheard.ctrl])
    rw [hheard.ctrl, hheard.slate, hheard.report, hheard.notices] at hfollows
    obtain ⟨hterms, hout, htrace, hline, hengine⟩ := State.receiverClosed_stands
      (((s.slotsPassed f slots).mapEvidence heard).countOutcome .accepted)
    have hpassed : (((s.slotsPassed f slots).mapEvidence heard).countOutcome .accepted).line =
        (s.slotsPassed f slots).line := by simp
    have hexec : exec (.windowEnd slots) s =
        .next (((((s.slotsPassed f slots).mapEvidence heard).countOutcome .accepted).weighOutcome .accepted).enterIdle 0) :=
      exec_receiverWindow hf hlen hserved hverdict
    refine ⟨_, hexec, ?_, ?_, fun n hn => ?_, hw.after hheard.health, rfl, rfl, rfl,
      ?_, ?_, ?_, ?_, ?_, ?_⟩
    · intro b hb
      cases b <;> simp_all [sameBlock, State.slotsPassed]
    · simp [State.enterIdle, State.countOutcome, StationCounters.count, State.slotsPassed]
    · exact hheard.weighed_entry hw hn
    · have hrecord : (((s.slotsPassed f slots).mapEvidence heard).countOutcome .accepted).engine.frame = some f := by
        simp [State.countOutcome, State.slotsPassed, hframe]
      rw [hengine, hw.health, hrecord, Option.any_some, hrole]
      exact gapRequirementFor_other _
    · rw [hline, hpassed]; rfl
    · rw [hline, hpassed]; rfl
    · exact slotsDriven_of_line (by rw [hline, hpassed])
    · split
      · next hrun =>
        intro c hc
        obtain ⟨hflags, hdrives⟩ := hheard.evaluates hrun c hc
        rw [hterms]
        refine ⟨fun i => ?_, hheard.held.1, hheard.held.2.1, hheard.held.2.2, ?_⟩
        · rw [hflags, flagsOver_of_live hw.live]
        · rw [drivesTaken, hout, htrace]; exact hdrives
      · next hrun =>
        obtain ⟨hterms', hout', htrace', _⟩ := hheard.stands hrun
        exact ⟨hterms.trans hterms', ⟨by rw [htrace, htrace']; simp, hout.trans hout'⟩⟩
    · rw [hterms]; exact hfollows
  · have hruns := (State.engineRuns_of_frameIn hf).1
    have hclosed : (s.slotsPassed f slots).closeFrame f (confirmMapOf slots) = s.slotsPassed f slots := by
      rw [State.closeFrame, hserved, hverdict]
    have hexec := exec_windowEnd hf hlen
    rw [hclosed, State.afterWindow_running (u := s.slotsPassed f slots) hruns] at hexec
    refine ⟨_, hexec, ?_, slotsDriven_of_line rfl, ?_⟩
    · intro b hb
      cases b <;> simp_all [sameBlock, State.slotsPassed]
    · have hrequirement : ((s.slotsPassed f slots).enterIdle 0).engine.gapRequirement =
          gapRequirementFor s.health.state (s.engine.frame.any (fun g => decide (g.role = .sender))) := rfl
      rw [(State.engineRuns_of_frameIn hf).2.2, Option.any_some, hrole, decide_eq_false (by decide),
        gapRequirementFor_other] at hrequirement
      rw [← hrequirement]
      rfl

end Sys2Proof.Machine
end

