-- ==== Sys2Proof/Proofs/PeerTable17_SenderWindow.lean ====
section
/-! The end of a sender's window (R26, R51, R68, R81 to R85, R90, R92, R94, R111 to R122, R132, R136, R140, R154, R178,
R180). -/

namespace Sys2Proof.Machine

/-! ### The window's part for the slate, seen from before the evidence -/

/-- A completed series that ends short had opened: without targets a completion delivers it (R81, R83). -/
theorem endsShort_opened {limit : Nat} {m : StationMap} {x : Series} (h : endsShort limit (some m) x = true) :
    ∃ targets, x.targets = some targets := by
  cases ht : x.targets with
  | some targets => exact ⟨targets, rfl⟩
  | none =>
    have hreached : unreached ((none : Option StationMap).getD 0) (some m) x = 0 := by simp [unreached]
    have hdelivered : x.superseded = false → deliveredBy (some m) x = true := by
      intro hs
      rw [deliveredBy, ht, decide_eq_true hreached, hs]
      rfl
    cases hs : x.superseded <;> simp [endsShort, hs, hdelivered] at h

/-- The missing map of a completion does not ask the table (R83). -/
theorem missedBy_of_completed {m : StationMap} {k : Kind} {s w : State} (hslate : w.slate = s.slate)
    (hloader : w.loader = s.loader) : missedBy (some m) k w = missedBy (some m) k s := by
  have hlimit : w.attemptLimit = s.attemptLimit := by rw [State.attemptLimit, State.attemptLimit, hloader]
  have hseries : ∀ x : Series,
      (if endsShort s.attemptLimit (some m) x then
        unreached (x.targets.getD (currentTargets w.table)) (some m) x else 0) =
      if endsShort s.attemptLimit (some m) x then
        unreached (x.targets.getD (currentTargets s.table)) (some m) x else 0 := by
    intro x
    split
    · next h =>
      obtain ⟨targets, ht⟩ := endsShort_opened h
      rw [ht]; rfl
    · rfl
  cases k <;> simp only [missedBy, hslate, hlimit, hseries]

theorem slateAfter_congr {heard : Option StationMap} {k : Kind} {s w : State} (hslate : w.slate = s.slate)
    (hloader : w.loader = s.loader) (hctrl : w.ctrl = s.ctrl) (hhealth : w.health = s.health) :
    slateAfter heard k w = slateAfter heard k s := by
  have hlimit : w.attemptLimit = s.attemptLimit := by rw [State.attemptLimit, State.attemptLimit, hloader]
  cases k <;> simp only [slateAfter, hslate, hlimit, hctrl, hhealth]

theorem State.entersRunning_congr {k : Kind} {s w : State} (hctrl : w.ctrl = s.ctrl) :
    w.entersRunning k = s.entersRunning k := by rw [State.entersRunning, State.entersRunning, hctrl]

theorem State.phaseAfter_congr {k : Kind} {s w : State} (hctrl : w.ctrl = s.ctrl) :
    w.phaseAfter k = s.phaseAfter k := by
  rw [State.phaseAfter, State.phaseAfter, State.entersRunning_congr hctrl, hctrl]

theorem MapHeard.selfReportAfter {m : StationMap} {s w : State} (h : MapHeard m s w) (k : Kind) :
    w.selfReportAfter k = s.selfReportAfter k := by
  rw [State.selfReportAfter, State.selfReportAfter, h.ctrl, h.report, State.entersRunning_congr h.ctrl]

/-! ### Terms, drives and notices of the window (R132, R136, R137, R178) -/

/-- The terms as the window leaves them, short of a conflict: entered, re-evaluated or as they stood (R132, R136). -/
def settledFlags (c : StationConfig) (k : Kind) (s t : State) : Fin 16 → TermFlags :=
  if s.entersRunning k then enteredFlags c s t
  else if decide (s.ctrl.phase = .running) then flagsOver c s t else fun i => s.terms.flags[i]

/-- The drives taken with them (R153, R155). -/
def settledRows (c : StationConfig) (k : Kind) (s t : State) : List (Vector Drive 8) :=
  if s.entersRunning k || decide (s.ctrl.phase = .running) then
    [runningDrives c (Vector.ofFn (settledFlags c k s t))]
  else []

/-- The notices up to a change of health (R6, R83, R137, R178). -/
def settledNotices (c : StationConfig) (k : Kind) (m : StationMap) (s t : State) : List Notice :=
  if s.entersRunning k then enteredNotices s (settledFlags c k s t) (mapNotices s m s.notices)
  else
    shortNotices (missedBy (some m) k s) s
      (changeNotices s (fun i => s.terms.flags[i]) (settledFlags c k s t) (mapNotices s m s.notices))

theorem settledFlags_of_live {c : StationConfig} {k : Kind} {s t t' : State}
    (h : ∀ x : TermConfig, termLive x t'.table = termLive x t.table) :
    settledFlags c k s t' = settledFlags c k s t := by
  rw [settledFlags, settledFlags, enteredFlags_of_live h, flagsOver_of_live h]

/-- No value changes, no notice. -/
theorem changeNotices_same (s : State) (f : Fin 16 → TermFlags) (q : List Notice) : changeNotices s f f q = q := by
  simp [changeNotices]

/-- What the slate's part of the window leaves in the evaluator and the queue. -/
structure Settled (c : StationConfig) (k : Kind) (m : StationMap) (s x : State) : Prop where
  flags : ∀ i : Fin 16, x.terms.flags[i] = settledFlags c k s x i
  held : if s.entersRunning k then x.terms.heldOwn = 0 ∧ x.terms.heldPeer = 0
    else x.terms.heldOwn = s.terms.heldOwn ∧ x.terms.heldPeer = s.terms.heldPeer
  rel : x.terms.rel = s.terms.rel
  drives : drivesTaken (settledRows c k s x) s x
  notices : x.notices = settledNotices c k m s x

/-- A state with flags given one by one. -/
theorem State.flags_eq {x : State} {f : Fin 16 → TermFlags} (h : ∀ i : Fin 16, x.terms.flags[i] = f i) :
    (fun i : Fin 16 => x.terms.flags[i]) = f := funext h

theorem OutcomeTaken.settled_entering {c : StationConfig} {k : Kind} {m : StationMap} {s w x : State}
    (hw : MapHeard m s w) (hx : OutcomeTaken (some m) k w x) (hc : s.loader.config = some c)
    (he : s.entersRunning k = true) : Settled c k m s x := by
  have hphase : s.ctrl.phase ≠ .running := by
    have : k = .join ∧ s.ctrl.phase = .joining := by simpa [State.entersRunning] using he
    rw [this.2]; decide
  obtain ⟨hterms, hout, htrace, hnotices⟩ := hw.stands hphase
  obtain ⟨⟨hflags, hown, hpeer, hrel, hdrives⟩, hnotices'⟩ :=
    hx.enters (by rw [State.entersRunning_congr hw.ctrl]; exact he) c (by rw [hw.loader]; exact hc)
  have hsettled : settledFlags c k s x = enteredFlags c s x := by rw [settledFlags, he, if_pos rfl]
  have hentered : enteredFlags c w x = enteredFlags c s x := by
    funext i; simp only [enteredFlags, hterms]
  rw [hentered] at hflags
  refine ⟨fun i => by rw [hsettled, hflags], by rw [he]; exact ⟨hown, hpeer⟩, by rw [hrel, hterms], ?_, ?_⟩
  · rw [settledRows, he, Bool.true_or, if_pos rfl, hsettled, ← flags_eq_ofFn hflags, drivesTaken, ← hout, ← htrace]
    exact hdrives
  · rw [hnotices', State.flags_eq hflags, settledNotices, he, if_pos rfl, hsettled, hnotices, enteredNotices,
      changeNotices_congr (s := s) (by rw [hw.ctrl]), plainNotice_congr (s := s) (by rw [hw.ctrl]), enteredNotices]

/-- The misses counted are nothing to a term (R128 to R131). -/
theorem OutcomeTaken.live {heard : Option StationMap} {k : Kind} {s u : State} (h : OutcomeTaken heard k s u)
    (he : s.entersRunning k = false) (x : TermConfig) : termLive x u.table = termLive x s.table := by
  refine termLive_of_entries x (fun n hn => ?_)
  have hreport : (u.entry n).report = (s.entry n).report := by
    rw [h.entries n hn]
    by_cases hown : n = s.ctrl.ownNumber
    · simp [hown, State.selfReportAfter, he]
    · simp [hown]
  refine ⟨?_, ?_, ?_, ?_, by rw [hreport]⟩ <;> rw [h.entries n hn]

theorem OutcomeTaken.settled_standing {c : StationConfig} {k : Kind} {m : StationMap} {s w x : State}
    (hw : MapHeard m s w) (hx : OutcomeTaken (some m) k w x) (hc : s.loader.config = some c)
    (he : s.entersRunning k = false) : Settled c k m s x := by
  have he' : w.entersRunning k = false := by rw [State.entersRunning_congr hw.ctrl]; exact he
  obtain ⟨hterms, hout, htrace, hnotices⟩ := hx.stands he'
  rw [missedBy_of_completed hw.slate hw.loader, shortNotices, plainNotice_congr (s := s) (by rw [hw.ctrl])] at hnotices
  by_cases hrun : s.ctrl.phase = .running
  · obtain ⟨hflags, hdrives⟩ := hw.evaluates hrun c hc
    have hsettled : settledFlags c k s x = flagsOver c s w := by
      rw [settledFlags, he, decide_eq_true hrun, if_neg Bool.false_ne_true, if_pos rfl, flagsOver_of_live (hx.live he')]
    refine ⟨fun i => by rw [hterms, hsettled, hflags], ?_, by rw [hterms, hw.held.2.2], ?_, ?_⟩
    · rw [he, hterms]
      exact ⟨hw.held.1, hw.held.2.1⟩
    · rw [settledRows, he, decide_eq_true hrun, Bool.false_or, if_pos rfl, hsettled, ← flags_eq_ofFn hflags, drivesTaken,
        hout, htrace]
      exact hdrives
    · rw [hnotices, settledNotices, he, if_neg Bool.false_ne_true, hsettled, hw.notices, State.flags_eq hflags]
      rfl
  · obtain ⟨hterms', hout', htrace', hnotices'⟩ := hw.stands hrun
    have hsettled : settledFlags c k s x = fun i => s.terms.flags[i] := by
      rw [settledFlags, he, decide_eq_false hrun, if_neg Bool.false_ne_true, if_neg Bool.false_ne_true]
    refine ⟨fun i => by rw [hterms, hterms', hsettled], ?_, by rw [hterms, hterms'], ?_, ?_⟩
    · rw [he, hterms, hterms']
      exact ⟨rfl, rfl⟩
    · rw [settledRows, he, decide_eq_false hrun, Bool.false_or, if_neg Bool.false_ne_true, drivesTaken, hout, htrace,
        hout', htrace']
      simp
    · rw [hnotices, settledNotices, he, if_neg Bool.false_ne_true, hsettled, hnotices', changeNotices_same]
      rfl

/-- Evaluator and queue after the slate's part, in every case. -/
theorem OutcomeTaken.settled {c : StationConfig} {k : Kind} {m : StationMap} {s w x : State}
    (hw : MapHeard m s w) (hx : OutcomeTaken (some m) k w x) (hc : s.loader.config = some c) : Settled c k m s x := by
  cases he : s.entersRunning k
  · exact hx.settled_standing hw hc he
  · exact hx.settled_entering hw hc he

/-! ### The monitor's part (R111 to R117, R120) -/

/-- Evidence counts no miss. -/
theorem MapHeard.missed {m : StationMap} {s w : State} (h : MapHeard m s w) (n : Station) :
    (w.entry n).deliveriesMissed = (s.entry n).deliveriesMissed := by
  by_cases hn : n = 0
  · rw [hn, State.entry_zero, State.entry_zero]
  · rw [h.entry_eq hn]; split <;> rfl

/-- What the window leaves, the frame's outcome weighed and no sighting taken yet. -/
structure WindowWeighed (c : StationConfig) (k : Kind) (m : StationMap) (s y : State) : Prop where
  ctrl : y.ctrl = { s.ctrl with phase := s.phaseAfter k }
  moved : ∀ n : Station, n ≠ 0 →
    if inMap m n = true ∧ (s.entry n).presence ≠ .self then
      (y.entry n).presence = evidencePresence (s.entry n).presence ∧ (y.entry n).age = 0
    else (y.entry n).presence = (s.entry n).presence ∧ (y.entry n).age = (s.entry n).age
  misses : missesCounted (missedBy (some m) k s) s y
  entries : ∀ n : Station, n ≠ 0 →
    y.entry n = { s.entry n with
      presence := (y.entry n).presence, age := (y.entry n).age, deliveriesMissed := (y.entry n).deliveriesMissed
      report := if n = s.ctrl.ownNumber then (y.entry n).report else (s.entry n).report }
  health : healthAfter (s.health.garble - 1) s y
  flags : ∀ i : Fin 16, y.terms.flags[i] = settledFlags c k s y i
  held : if s.entersRunning k then y.terms.heldOwn = 0 ∧ y.terms.heldPeer = 0
    else y.terms.heldOwn = s.terms.heldOwn ∧ y.terms.heldPeer = s.terms.heldPeer
  rel : y.terms.rel = s.terms.rel
  drives : drivesTaken (settledRows c k s y) s y
  follows : healthFollows (s.phaseAfter k) (slateAfter (some m) k s) (settledNotices c k m s y) (s.selfReportAfter k) s y

theorem OutcomeTaken.window_weighed {c : StationConfig} {k : Kind} {m : StationMap} {s w x : State}
    (hw : MapHeard m s w) (hx : OutcomeTaken (some m) k w x) (hhealth : x.health = w.health)
    (hc : s.loader.config = some c) : WindowWeighed c k m s (x.weighOutcome .completed) := by
  obtain ⟨hflags, hheld, hrel, hdrives, hnotices⟩ := hx.settled hw hc
  have hy : Weighed .completed x (x.weighOutcome .completed) := ⟨rfl, rfl, rfl, rfl⟩
  have hctrl : x.ctrl = { s.ctrl with phase := s.phaseAfter k } := by
    rw [hx.ctrl, hw.ctrl, State.phaseAfter_congr hw.ctrl]
  have hhealth' : x.health = s.health := hhealth.trans hw.health
  have hself : (x.entry s.ctrl.ownNumber).report = s.selfReportAfter k := by
    rw [← hw.ctrl, hx.self_report, hw.selfReportAfter]
  have hsame : settledFlags c k s (x.weighOutcome .completed) = settledFlags c k s x := settledFlags_of_live hy.live
  have hrows : settledRows c k s (x.weighOutcome .completed) = settledRows c k s x := by
    rw [settledRows, settledRows, hsame]
  have htold : settledNotices c k m s (x.weighOutcome .completed) = settledNotices c k m s x := by
    rw [settledNotices, settledNotices, hsame]
  have hfollows := hy.follows hhealth' (by rw [hctrl]) (by rw [hctrl])
  rw [hctrl, hx.slate, hnotices, hself, slateAfter_congr hw.slate hw.loader hw.ctrl hw.health, ← htold] at hfollows
  have hmisses := hx.weighed_misses hy
  rw [missedBy_of_completed hw.slate hw.loader] at hmisses
  refine ⟨by simp [hctrl], fun n hn => ?_, fun n hn => ?_, fun n hn => ?_, hy.after hhealth', fun i => ?_, ?_, ?_, ?_,
    hfollows⟩
  · rw [hx.weighed_entry hy hn, hw.entry_eq hn]
    by_cases h : inMap m n = true ∧ (s.entry n).presence ≠ .self
    · simp only [if_pos h, and_self]
    · simp only [if_neg h, and_self]
  · rw [hmisses n hn, hw.missed]
  · have hentry := hx.weighed_entry hy hn
    rw [hw.ctrl] at hentry
    rw [hentry, hw.entry_eq hn]
    by_cases h : inMap m n = true ∧ (s.entry n).presence ≠ .self
    · simp only [if_pos h]; split <;> rfl
    · simp only [if_neg h]; split <;> rfl
  · rw [hsame, ← hflags]; simp
  · simpa using hheld
  · simpa using hrel
  · rw [hrows, drivesTaken]
    simp only [State.weighOutcome_frame]
    exact hdrives

/-- The notices of the terms cleared (R140). -/
theorem State.clearTerms_notices {c : StationConfig} {e : State} (hc : e.loader.config = some c) :
    e.clearTerms.notices =
      changeNotices e (fun i => e.terms.flags[i]) (fun _ => { live := false, latched := false }) e.notices := by
  simp only [State.clearTerms, hc, State.raiseChanges_notices]
  rw [changeNotices_congr (s := e) (by simp)]
  simp

/-- The station in CONFLICT before its terms are cleared (R122, R180). -/
def State.conflictEntered (y : State) : State :=
  (((((y.raiseStation .duplicateNumber y.ctrl.ownNumber).setCtrl { y.ctrl with phase := .conflict }).raiseValue
    .phaseChanged (.phase .conflict)).setEngine y.engine.stopped).setLine y.line.releasedDriver).setSlate y.slate.emptied

theorem State.declareConflict_eq {y : State} (hruns : y.engineRuns = true) :
    y.declareConflict = y.conflictEntered.clearTerms := if_pos hruns

/-- A number conflict declared while the engine runs (R122, R140, R154, R180). -/
structure ConflictDeclared (c : StationConfig) (y t : State) : Prop where
  ctrl : t.ctrl = { y.ctrl with phase := .conflict }
  engine : t.engine = { y.engine with state := .idle, frame := none }
  line : t.line = y.line.releasedDriver
  slate : t.slate = emptySlate y.slate
  terms : t.terms = { y.terms with flags := quietTerms, heldOwn := 0, heldPeer := 0 }
  drives : drivesTaken [restDrives c] y t
  notices : t.notices = conflictNotices y (fun i => y.terms.flags[i]) y.notices

theorem State.declareConflict_declared {c : StationConfig} {y : State} (hruns : y.engineRuns = true)
    (hc : y.loader.config = some c) : ConflictDeclared c y y.declareConflict := by
  rw [State.declareConflict_eq hruns]
  have hconfig : y.conflictEntered.loader.config = some c := by simp [State.conflictEntered, hc]
  obtain ⟨hterms, hdrives⟩ := State.clearTerms_spec y.conflictEntered c hconfig
  have hkept : y.conflictEntered.terms = y.terms ∧ y.conflictEntered.outputs = y.outputs ∧
      y.conflictEntered.outputTrace = y.outputTrace := by simp [State.conflictEntered]
  refine ⟨by simp [State.conflictEntered], by simp [State.conflictEntered, Engine.stopped],
    by simp [State.conflictEntered], ?_, by rw [hterms, hkept.1], ?_, ?_⟩
  · rw [(State.clearTerms_frame _).2.2.2.2.2.2.2.1]
    rfl
  · rw [drivesTaken, ← hkept.2.1, ← hkept.2.2]
    exact hdrives
  · rw [State.clearTerms_notices hconfig, conflictNotices, hkept.1, changeNotices_congr (s := y) (by simp [State.conflictEntered])]
    simp [State.conflictEntered, State.raiseStation, State.raiseValue, State.raise, plainNotice]

/-- COMPLETED, then the sighting: a conflict at the second, else a count (R120). -/
theorem State.completedWeighed_conflict {x : State} (h : x.health.sightings = 1) :
    x.completedWeighed true =
      ((x.weighOutcome .completed).setHealth { (x.weighOutcome .completed).health with sightings := 2 }).declareConflict := by
  have hs : (x.weighOutcome .completed).health.sightings = 1 := by rw [State.weighOutcome_health]; exact h
  simp only [State.completedWeighed, if_true, State.sighting, hs]

theorem State.completedWeighed_counted {sighted : Bool} {x : State} (h : ¬ (sighted = true ∧ x.health.sightings = 1)) :
    x.completedWeighed sighted =
      (x.weighOutcome .completed).setHealth { (x.weighOutcome .completed).health with
        sightings :=
          if sighted = true ∧ x.health.sightings < 2 then x.health.sightings + 1 else x.health.sightings } := by
  have hs : (x.weighOutcome .completed).health.sightings = x.health.sightings := by rw [State.weighOutcome_health]
  have hkept : (x.weighOutcome .completed).setHealth { (x.weighOutcome .completed).health with
      sightings := x.health.sightings } = x.weighOutcome .completed := by rw [← hs]; rfl
  cases sighted with
  | false => rw [if_neg (fun h => Bool.false_ne_true h.1), hkept]; rfl
  | true =>
    have hone : x.health.sightings ≠ 1 := fun h1 => h ⟨rfl, h1⟩
    simp only [State.completedWeighed, if_true, State.sighting, hs]
    split
    · next h0 => rw [if_pos ⟨trivial, by omega⟩, h0]
    · next h1 => exact absurd h1 hone
    · next h0 h1 =>
      have h0 : x.health.sightings ≠ 0 := h0
      rw [if_neg (by omega), hkept]

/-! ### The command (R68) -/

theorem exec_senderWindow {slots : List BitPeriod} {f : Frame} {v : Served} {s : State}
    (hf : s.frameIn .confirming = some f) (hlen : slots.length = 31) (hv : f.served = some v) :
    exec (.windowEnd slots) s =
      .next (((((s.slotsPassed f slots).mapEvidence (s.windowHeard slots)).countOutcome .completed).slateTakes
        (some (s.windowHeard slots)) v.slot).completedWeighed
        (inMap (confirmMapOf slots) s.ctrl.ownNumber)).afterWindow := by
  rw [exec_windowEnd hf hlen, State.closeFrame, hv]
  rfl

theorem State.phaseAfter_runs {k : Kind} {s : State} (h : s.engineRuns = true) : (s.phaseAfter k).engineRuns = true := by
  rw [State.phaseAfter]
  split
  · rfl
  · exact h

/-- What the window leaves in entries and monitor, in a state that shows them. -/
theorem WindowWeighed.shown {c : StationConfig} {k : Kind} {m : StationMap} {s y t : State} (h : WindowWeighed c k m s y)
    (hentry : ∀ n, t.entry n = y.entry n) (hgarble : t.health.garble = y.health.garble)
    (hstate : t.health.state = y.health.state) :
    (∀ n : Station, n ≠ 0 →
      if inMap m n = true ∧ (s.entry n).presence ≠ .self then
        (t.entry n).presence = evidencePresence (s.entry n).presence ∧ (t.entry n).age = 0
      else (t.entry n).presence = (s.entry n).presence ∧ (t.entry n).age = (s.entry n).age) ∧
      missesCounted (missedBy (some m) k s) s t ∧
      (∀ n : Station, n ≠ 0 →
        t.entry n = { s.entry n with
          presence := (t.entry n).presence, age := (t.entry n).age, deliveriesMissed := (t.entry n).deliveriesMissed
          report := if n = s.ctrl.ownNumber then (t.entry n).report else (s.entry n).report }) ∧
      t.health.garble = s.health.garble - 1 ∧ t.health.state = nextHealth (s.health.garble - 1) s.health.state := by
  refine ⟨fun n hn => by rw [hentry]; exact h.moved n hn, fun n hn => by rw [hentry]; exact h.misses n hn,
    fun n hn => by rw [hentry]; exact h.entries n hn, by rw [hgarble, h.health.1], by rw [hstate, h.health.2.1]⟩

/-- The engine's counters and the line, as the window leaves them for every ending of it (R71, R108). -/
theorem windowOutcome_blocks (f : Frame) (slots : List BitPeriod) (k : Kind) (m : StationMap) (s : State) :
    let x := (((s.slotsPassed f slots).mapEvidence m).countOutcome .completed).slateTakes (some m) k
    x.engine = { s.engine with
      counters := { s.engine.counters with completed := s.engine.counters.completed + 1 } } ∧
      x.line = (s.slotsPassed f slots).line ∧ x.loader = s.loader ∧ x.health = s.health ∧ x.pins = s.pins ∧
      x.watch = s.watch ∧ x.tap = s.tap ∧ x.pending = s.pending := by
  simp [State.countOutcome, StationCounters.count, State.slotsPassed]

/-- The second sighting ends the window in CONFLICT (R47, R120). -/
theorem State.windowConflict {c : StationConfig} {x : State} (hruns : x.engineRuns = true) (hc : x.loader.config = some c)
    (hs : x.health.sightings = 1) :
    let y := x.weighOutcome .completed
    let t := (x.completedWeighed true).afterWindow
    ConflictDeclared c y t ∧ t.table = y.table ∧ t.health = { y.health with sightings := 2 } := by
  intro y t
  obtain ⟨y', hy'⟩ : ∃ y', y' = y.setHealth { y.health with sightings := 2 } := ⟨_, rfl⟩
  have hdeclared : ConflictDeclared c y' y'.declareConflict :=
    State.declareConflict_declared (by rw [State.engineRuns] at hruns ⊢; simpa [hy', y] using hruns) (by rw [hy']; simpa [y] using hc)
  have ht : t = y'.declareConflict := by
    have hstopped : y'.declareConflict.engineRuns = false := by rw [State.engineRuns, hdeclared.ctrl]; rfl
    simp only [t, State.completedWeighed_conflict hs]
    rw [State.afterWindow, ← hy', if_neg (by rw [hstopped]; decide)]
  rw [ht]
  refine ⟨⟨?_, ?_, ?_, ?_, ?_, ?_, ?_⟩, by simp [hy'], by simp [hy']⟩
  · rw [hdeclared.ctrl, hy']; rfl
  · rw [hdeclared.engine, hy']; rfl
  · rw [hdeclared.line, hy']; rfl
  · rw [hdeclared.slate, hy']; rfl
  · rw [hdeclared.terms, hy']; rfl
  · have hdrives := hdeclared.drives
    rw [hy'] at hdrives ⊢
    exact hdrives
  · rw [hdeclared.notices, hy']; rfl

theorem settledFlags_of_table {c : StationConfig} {k : Kind} {s t t' : State} (h : t'.table = t.table) :
    settledFlags c k s t' = settledFlags c k s t := settledFlags_of_live (fun x => by rw [h])

/-- The end of the window in CONFLICT, seen from before it (R94, R122, R140, R154). -/
theorem WindowWeighed.conflict {c : StationConfig} {k : Kind} {m : StationMap} {s y t : State}
    (h : WindowWeighed c k m s y) (hd : ConflictDeclared c y t) (htable : t.table = y.table)
    (hstate : t.health.state = y.health.state) :
    t.ctrl = { s.ctrl with phase := .conflict } ∧
      t.slate = emptySlate (slateAfterHealth (s.phaseAfter k) s t (slateAfter (some m) k s)) ∧
      t.terms.flags = quietTerms ∧ t.terms.heldOwn = 0 ∧ t.terms.heldPeer = 0 ∧
      drivesTaken (settledRows c k s t ++ [restDrives c]) s t ∧
      t.notices = conflictNotices s (settledFlags c k s t) (healthNotices s t (settledNotices c k m s t)) ∧
      (t.entry s.ctrl.ownNumber).report = selfReportAfterHealth s t (s.selfReportAfter k) := by
  obtain ⟨hslate, hnotices, hreport⟩ := h.follows
  have hsame : settledFlags c k s t = settledFlags c k s y := settledFlags_of_table htable
  refine ⟨by rw [hd.ctrl, h.ctrl], ?_, by rw [hd.terms], by rw [hd.terms], by rw [hd.terms], ?_, ?_, ?_⟩
  · rw [hd.slate, hslate]
    simp only [slateAfterHealth, hstate]
  · have hrows : settledRows c k s t = settledRows c k s y := by rw [settledRows, settledRows, hsame]
    rw [hrows]
    exact drivesTaken_trans h.drives hd.drives
  · have htick : y.ctrl.tick = s.ctrl.tick := by rw [h.ctrl]
    have hown : y.ctrl.ownNumber = s.ctrl.ownNumber := by rw [h.ctrl]
    have htold : settledNotices c k m s t = settledNotices c k m s y := by rw [settledNotices, settledNotices, hsame]
    rw [hd.notices, hnotices, State.flags_eq h.flags, hsame, htold, conflictNotices, conflictNotices,
      changeNotices_congr htick, plainNotice_congr htick, plainNotice_congr htick, hown]
    simp only [healthNotices, hstate]
  · rw [State.entry_of_table htable, hreport]
    simp only [selfReportAfterHealth, hstate]

/-- A state that shows what the weighed window left, but for the monitor's sightings and the engine. -/
structure ShowsWindow (y t : State) : Prop where
  ctrl : t.ctrl = y.ctrl
  state : t.health.state = y.health.state
  slate : t.slate = y.slate
  ends : EndsAlike y t

/-- A window that ends in IDLE (R50, R51, R120). -/
structure EndsIdle (sighted : Bool) (x y t : State) : Prop where
  shows : ShowsWindow y t
  health : t.health = { y.health with
    sightings := if sighted = true ∧ x.health.sightings < 2 then x.health.sightings + 1 else x.health.sightings }
  line : t.line = y.line
  engine : t.engine = { y.engine with
    state := .idle, gapCount := 0, frame := none, ableAtIdle := t.engine.ableAtIdle
    gapRequirement := gapRequirementFor y.health.state (y.engine.frame.any (fun f => decide (f.role = .sender))) }

/-- Every window but that of the second sighting does. -/
theorem State.windowIdle {sighted : Bool} {x : State} (hruns : x.engineRuns = true)
    (hs : ¬ (sighted = true ∧ x.health.sightings = 1)) :
    EndsIdle sighted x (x.weighOutcome .completed) (x.completedWeighed sighted).afterWindow := by
  rw [State.completedWeighed_counted hs, State.afterWindow_running (by rw [State.engineRuns] at hruns ⊢; simpa using hruns)]
  exact ⟨⟨rfl, rfl, rfl, ⟨rfl, rfl, rfl, rfl, rfl⟩⟩, rfl, rfl, rfl⟩

theorem WindowWeighed.idle {c : StationConfig} {k : Kind} {m : StationMap} {s y t : State}
    (h : WindowWeighed c k m s y) (ht : ShowsWindow y t) :
    t.ctrl = { s.ctrl with phase := s.phaseAfter k } ∧
      (∀ i : Fin 16, t.terms.flags[i] = settledFlags c k s t i) ∧
      (if s.entersRunning k then t.terms.heldOwn = 0 ∧ t.terms.heldPeer = 0
      else t.terms.heldOwn = s.terms.heldOwn ∧ t.terms.heldPeer = s.terms.heldPeer) ∧
      drivesTaken (settledRows c k s t) s t ∧
      healthFollows (s.phaseAfter k) (slateAfter (some m) k s) (settledNotices c k m s t) (s.selfReportAfter k) s t := by
  have hsame : settledFlags c k s t = settledFlags c k s y := settledFlags_of_table ht.ends.table
  have hrows : settledRows c k s t = settledRows c k s y := by rw [settledRows, settledRows, hsame]
  have htold : settledNotices c k m s t = settledNotices c k m s y := by rw [settledNotices, settledNotices, hsame]
  refine ⟨by rw [ht.ctrl, h.ctrl], fun i => by rw [ht.ends.terms, hsame, h.flags], ?_, ?_, ?_⟩
  · rw [ht.ends.terms]; exact h.held
  · rw [hrows]; exact drivesTaken_alike (StartsAlike.refl s) ht.ends h.drives
  · rw [htold]
    exact healthFollows_congr rfl rfl rfl ht.state ht.slate ht.ends.notices (State.entry_of_table ht.ends.table) h.follows

/-- Settles O34: evidence, slate and monitor one after another, then the conflict or the return to IDLE. -/
theorem senderWindowCloses : Obligations.SenderWindowCloses := by
  unfold Obligations.SenderWindowCloses
  intro slots s f v c hf hv hrole hlen hc own map heard missed
  obtain ⟨hruns, _, hframe⟩ := State.engineRuns_of_frameIn hf
  have hexec := exec_senderWindow hf hlen hv
  have hheard := State.slotsPassed_heard heard f slots .completed s
  have htaken := State.slateTakes_taken (some heard) v.slot
    (((s.slotsPassed f slots).mapEvidence heard).countOutcome .completed)
  obtain ⟨hengine, hline, hloader, hhealth, hpins, hwatch, htap, hpending⟩ :=
    windowOutcome_blocks f slots v.slot heard s
  have hweighed := htaken.window_weighed (c := c) hheard (by simp) hc
  rw [show s.windowHeard slots = heard from rfl] at hexec
  obtain ⟨x, hx⟩ : ∃ x, x = (((s.slotsPassed f slots).mapEvidence heard).countOutcome .completed).slateTakes
    (some heard) v.slot := ⟨_, rfl⟩
  rw [← hx] at hexec hengine hline hloader hhealth hpins hwatch htap hpending hweighed
  have hxruns : x.engineRuns = true := by
    have hctrl := hweighed.ctrl
    rw [(State.weighOutcome_frame _ _).2.1] at hctrl
    rw [State.engineRuns, hctrl]
    exact State.phaseAfter_runs hruns
  have hxconfig : x.loader.config = some c := by rw [hloader, hc]
  have hyengine : (x.weighOutcome .completed).engine = x.engine := by simp
  have hyline : (x.weighOutcome .completed).line = (s.slotsPassed f slots).line := by rw [← hline]; simp
  have hframes : changesOnly [.ctrl, .engine, .line, .table, .slate, .health, .terms, .outputs, .notices] s
      (x.completedWeighed (inMap map own)).afterWindow := by
    intro b hb
    cases b <;> simp_all [sameBlock]
  clear htaken hheard hx
  refine ⟨_, hexec, hframes, ?_⟩
  by_cases hsight : inMap map own = true ∧ s.health.sightings = 1
  · rw [if_pos hsight]
    obtain ⟨hin, hone⟩ := hsight
    have hin' : inMap (confirmMapOf slots) s.ctrl.ownNumber = true := hin
    rw [hin', hone]
    obtain ⟨hdeclared, htable, hmonitor⟩ := State.windowConflict hxruns hxconfig (by rw [hhealth]; exact hone)
    have hstate : ((x.completedWeighed true).afterWindow).health.state = (x.weighOutcome .completed).health.state := by
      rw [hmonitor]
    obtain ⟨hmoved, hmisses, hentries, hgarble, hnext⟩ :=
      hweighed.shown (State.entry_of_table htable) (by rw [hmonitor]) hstate
    have hlast : ((x.completedWeighed true).afterWindow).line.drove = (s.slotsPassed f slots).line.drove := by
      rw [hdeclared.line, hyline]; rfl
    refine ⟨?_, ?_, ?_, ?_, ?_, slotsDriven_of_line hlast, hmoved, hmisses, hentries, hgarble, hnext, ?_, ?_,
      hweighed.conflict hdeclared htable hstate⟩
    · rw [hdeclared.engine, hyengine, hengine]
    · rw [hdeclared.engine]
    · rw [hdeclared.engine]
    · rw [hdeclared.line]; rfl
    · rw [hdeclared.line]; rfl
    · rw [hmonitor]; rfl
    · rw [hdeclared.terms, hweighed.rel]
  · rw [if_neg hsight]
    obtain ⟨hshows, hmonitor, hlast, hrecord⟩ :=
      State.windowIdle (sighted := inMap map own) hxruns (by rw [hhealth]; exact hsight)
    obtain ⟨hmoved, hmisses, hentries, hgarble, hnext⟩ :=
      hweighed.shown (State.entry_of_table hshows.ends.table) (by rw [hmonitor]) hshows.state
    have hrequirement : gapRequirementFor (x.weighOutcome .completed).health.state
        ((x.weighOutcome .completed).engine.frame.any (fun f => decide (f.role = .sender))) =
        if (x.weighOutcome .completed).health.state = .restrained then 35 else 16 := by
      rw [hyengine, hengine, hframe, Option.any_some, hrole]
      exact gapRequirementFor_own _
    refine ⟨?_, ?_, ?_, ?_, ?_, slotsDriven_of_line (slots := slots) ?_, hmoved, hmisses, hentries, hgarble, hnext, ?_, ?_,
      ?_, ?_, hweighed.idle hshows⟩
    · rw [hrecord, hyengine, hengine]
    · rw [hrecord]
    · rw [hrecord]
    · rw [hlast, hyline]; rfl
    · rw [hlast, hyline]; rfl
    · rw [hlast, hyline]
    · rw [hmonitor, hhealth]
      split <;> rfl
    · rw [hshows.ends.terms, hweighed.rel]
    · rw [hrecord]
    · rw [hrecord, hrequirement, hshows.state]

end Sys2Proof.Machine
end

