-- ==== Sys2Proof/Proofs/PeerTable18_Ticks.lean ====
section
/-! The refresh tick: aging, the slate's judgement and the listen count, in any order (R3, R10, R86, R132, R137, R173 to
R175, R181). -/

namespace Sys2Proof.Machine

/-! ### The parts of a tick -/

/-- The controller after the listen count took a tick (R174, R175). -/
theorem State.listenTick_ctrl (a : State) :
    a.listenTick.ctrl = { a.ctrl with
      phase := if a.joinsAtTick then .joining else a.ctrl.phase
      listenCount :=
        if a.joinsAtTick then 3
        else if a.ctrl.phase = .listening then a.ctrl.listenCount + 1 else a.ctrl.listenCount } := by
  rw [State.listenTick, State.joinsAtTick]
  by_cases hl : a.ctrl.phase = .listening
  · by_cases hc : a.ctrl.listenCount + 1 < 3
    · rw [if_pos hl, if_pos (show a.ctrl.listenCount + 1 < listenTicks from hc)]
      simp [hl, show ¬ 3 ≤ a.ctrl.listenCount + 1 by omega]
    · rw [if_pos hl, if_neg (show ¬ a.ctrl.listenCount + 1 < listenTicks from hc)]
      simp [State.listenExpired, hl, show 3 ≤ a.ctrl.listenCount + 1 by omega, listenTicks]
  · simp [hl]

/-- The slate after it: the JOIN request at the expiry (R75, R175). -/
theorem State.listenTick_slate (a : State) :
    a.listenTick.slate = { a.slate with
      join := a.slate.join || (a.joinsAtTick && decide (a.health.state ≠ .withdrawn)) } := by
  rw [State.listenTick, State.joinsAtTick]
  by_cases hl : a.ctrl.phase = .listening
  · by_cases hc : a.ctrl.listenCount + 1 < 3
    · rw [if_pos hl, if_pos (show a.ctrl.listenCount + 1 < listenTicks from hc)]
      simp [show ¬ 3 ≤ a.ctrl.listenCount + 1 by omega]
    · rw [if_pos hl, if_neg (show ¬ a.ctrl.listenCount + 1 < listenTicks from hc)]
      simp [State.listenExpired, State.requestJoin_slate, State.takes, takesKind, hl,
        show 3 ≤ a.ctrl.listenCount + 1 by omega]
  · simp [hl]

/-- The notice of the expiry (R175). -/
theorem State.listenTick_notices (a : State) :
    a.listenTick.notices =
      if a.joinsAtTick then pushNotice a.notices { plainNotice .phaseChanged a with value := some (.phase .joining) }
      else a.notices := by
  rw [State.listenTick, State.joinsAtTick]
  by_cases hl : a.ctrl.phase = .listening
  · by_cases hc : a.ctrl.listenCount + 1 < 3
    · rw [if_pos hl, if_pos (show a.ctrl.listenCount + 1 < listenTicks from hc)]
      simp [show ¬ 3 ≤ a.ctrl.listenCount + 1 by omega]
    · rw [if_pos hl, if_neg (show ¬ a.ctrl.listenCount + 1 < listenTicks from hc)]
      simp [State.listenExpired, State.raiseValue, State.raise, plainNotice, hl,
        show 3 ≤ a.ctrl.listenCount + 1 by omega]
  · simp [hl]

/-- The slate's judgement (R86). -/
theorem State.judgeRefresh_slate (a : State) :
    a.judgeRefresh.slate = { a.slate with
      stateSent := false
      refresh := a.slate.refresh || (decide (a.slate.stateSent = false ∧ a.slate.change = none) && a.takes .refresh) } := by
  simp only [State.judgeRefresh]
  by_cases h : a.slate.stateSent = false ∧ a.slate.change = none
  · simp [h, State.requestRefresh_slate]
  · simp [h]

/-! ### Controller and slate (R86, R173 to R175) -/

theorem State.joinsAtTick_congr {a b : State} (hphase : b.ctrl.phase = a.ctrl.phase)
    (hcount : b.ctrl.listenCount = a.ctrl.listenCount) : b.joinsAtTick = a.joinsAtTick := by
  rw [State.joinsAtTick, State.joinsAtTick, hphase, hcount]

@[simp] theorem State.countTick_ctrl (s : State) : s.countTick.ctrl = { s.ctrl with tick := s.ctrl.tick + 1 } := rfl

@[simp] theorem State.joinsAtTick_countTick (s : State) : s.countTick.joinsAtTick = s.joinsAtTick := rfl

@[simp] theorem State.joinsAtTick_ageTable (s : State) : s.ageTable.joinsAtTick = s.joinsAtTick :=
  State.joinsAtTick_congr (by simp) (by simp)

@[simp] theorem State.joinsAtTick_judgeRefresh (s : State) : s.judgeRefresh.joinsAtTick = s.joinsAtTick :=
  State.joinsAtTick_congr (by simp) (by simp)

/-- The phases in which the slate's judgement asks for a REFRESH (R75, R86). -/
theorem takes_refresh_eq (a : State) :
    a.takes .refresh =
      (decide (a.health.state ≠ .withdrawn) && (decide (a.ctrl.phase = .joining) || decide (a.ctrl.phase = .running))) := rfl

theorem State.listenTick_ctrl_congr {a b : State} (h : b.ctrl = a.ctrl) : b.listenTick.ctrl = a.listenTick.ctrl := by
  rw [State.listenTick_ctrl, State.listenTick_ctrl, State.joinsAtTick_congr (congrArg _ h) (congrArg _ h), h]

/-- The controller counts alike in every order (R173 to R175). -/
theorem State.refreshTicked_ctrl (order : TickOrder) (s : State) :
    (s.refreshTicked order).ctrl = s.countTick.listenTick.ctrl := by
  have haged := State.ageTable_frame
  have hjudged := State.judgeRefresh_frame
  rcases order with ⟨_ | _, _ | _⟩
  · exact State.listenTick_ctrl_congr ((hjudged _).2.1.trans (haged _).2.1)
  · exact (hjudged _).2.1.trans (State.listenTick_ctrl_congr (haged _).2.1)
  · exact (haged _).2.1.trans (State.listenTick_ctrl_congr (hjudged _).2.1)
  · exact (hjudged _).2.1.trans (haged _).2.1

/-- The slate's judgement asks for a REFRESH in the phase it is taken in (R75, R86). -/
theorem State.refreshTicked_slate (order : TickOrder) (s : State) :
    (s.refreshTicked order).slate = { s.slate with
      stateSent := false
      refresh := s.slate.refresh ||
        (decide (s.slate.stateSent = false ∧ s.slate.change = none ∧ s.health.state ≠ .withdrawn) &&
          (decide (s.ctrl.phase = .joining) || decide (s.ctrl.phase = .running) ||
            (s.joinsAtTick && order.expiryBeforeJudgement)))
      join := s.slate.join || (s.joinsAtTick && decide (s.health.state ≠ .withdrawn)) } := by
  have hlisten : s.joinsAtTick = true → s.ctrl.phase = .listening := fun h => (of_decide_eq_true h).1
  cases hj : s.joinsAtTick
  · rcases order with ⟨_ | _, _ | _⟩ <;>
      simp [State.refreshTicked, State.listenTick_slate, State.judgeRefresh_slate, takes_refresh_eq,
        State.listenTick_ctrl, hj, Bool.and_assoc]
    rfl
  · have hphase := hlisten hj
    rcases order with ⟨_ | _, _ | _⟩ <;>
      simp [State.refreshTicked, State.listenTick_slate, State.judgeRefresh_slate, takes_refresh_eq,
        State.listenTick_ctrl, hj, hphase, Bool.and_assoc]

/-- Controller and slate after the tick, in every order (R173 to R175). -/
theorem State.refreshTicked_counts (order : TickOrder) (s : State) : tickCounts order s (s.refreshTicked order) := by
  refine ⟨fun b hb => ?_, ?_, State.refreshTicked_slate order s⟩
  · cases b <;> simp_all [sameBlock]
  · rw [State.refreshTicked_ctrl, State.listenTick_ctrl]
    rfl

/-! ### The aging of the table (R3, R10, R132, R137) -/

/-- The PEER_SILENT notices of a tick at which the table ages, in ascending station number (R10, R173). -/
def silentNotices (threshold : Nat) (s t : State) (q : List Notice) : List Notice :=
  stations.foldl (fun q n =>
    if s.engineRuns = true ∧ ((s.entry n).presence = .heard ∨ (s.entry n).presence = .present) ∧
        (s.entry n).age + 1 = threshold then
      pushNotice q { plainNotice .peerSilent t with station := some n }
    else q) q

theorem Entry.fallsSilent_iff (threshold : Nat) (e : Entry) :
    e.fallsSilent threshold = true ↔ (e.presence = .heard ∨ e.presence = .present) ∧ e.age + 1 = threshold := by
  simp [Entry.fallsSilent, Entry.ages]

theorem State.ageEntry_notices (threshold : Nat) (s : State) (n : Station) :
    (s.ageEntry threshold n).notices =
      if (s.entry n).fallsSilent threshold = true then
        pushNotice s.notices { plainNotice .peerSilent s with station := some n }
      else s.notices := by
  simp only [State.ageEntry]
  split <;> simp [State.raiseStation, State.raise, plainNotice]

/-- The notices of a row of agings, each station's entry as it was before the row (R10). -/
theorem foldl_ageEntry_notices (threshold : Nat) {s t : State} (hruns : s.engineRuns = true) (l : List Station)
    (hl : l.Nodup) (u : State) (htick : u.ctrl.tick = t.ctrl.tick) (hentry : ∀ n ∈ l, u.entry n = s.entry n) :
    (l.foldl (State.ageEntry threshold) u).notices =
      l.foldl (fun q n =>
        if s.engineRuns = true ∧ ((s.entry n).presence = .heard ∨ (s.entry n).presence = .present) ∧
            (s.entry n).age + 1 = threshold then
          pushNotice q { plainNotice .peerSilent t with station := some n }
        else q) u.notices := by
  induction l generalizing u with
  | nil => rfl
  | cons n l ih =>
    obtain ⟨hn, hl⟩ := List.nodup_cons.mp hl
    have hstep : (u.ageEntry threshold n).notices =
        if s.engineRuns = true ∧ ((s.entry n).presence = .heard ∨ (s.entry n).presence = .present) ∧
            (s.entry n).age + 1 = threshold then
          pushNotice u.notices { plainNotice .peerSilent t with station := some n }
        else u.notices := by
      simp only [State.ageEntry_notices, Entry.fallsSilent_iff, hentry n (List.mem_cons_self ..), hruns, true_and,
        plainNotice_congr htick]
    rw [List.foldl_cons, List.foldl_cons, ← hstep]
    refine ih hl (u.ageEntry threshold n) (by simp [htick]) (fun k hk => ?_)
    have hkn : k ≠ n := fun h => hn (h ▸ hk)
    rw [State.entry_ageEntry, if_neg (fun h => hkn h.1)]
    exact hentry k (List.mem_cons_of_mem _ hk)

/-- The table with its ticks, before the evaluator hears of it. -/
def State.aged (s : State) : State := stations.foldl (State.ageEntry s.silenceThreshold) s

theorem State.aged_starts (s : State) : StartsAlike s s.aged := by
  refine ⟨foldl_keeps State.ctrl _ ?_ _ _, foldl_keeps State.loader _ ?_ _ _, foldl_keeps State.terms _ ?_ _ _,
    foldl_keeps State.outputs _ ?_ _ _, foldl_keeps State.outputTrace _ ?_ _ _⟩
  all_goals (intro s n; simp)

theorem State.ageTable_runs {s : State} (h : s.engineRuns = true) : s.ageTable = s.aged.tableChanged := by
  rw [State.ageTable, if_pos h]
  rfl

theorem State.ageTable_stops {s : State} (h : ¬ s.engineRuns = true) : s.ageTable = s := by rw [State.ageTable, if_neg h]

theorem State.ageTable_held (a : State) :
    a.ageTable.terms.heldOwn = a.terms.heldOwn ∧ a.ageTable.terms.heldPeer = a.terms.heldPeer ∧
      a.ageTable.terms.rel = a.terms.rel := by
  by_cases h : a.engineRuns = true
  · rw [State.ageTable_runs h, ← a.aged_starts.terms]
    exact State.tableChanged_held _
  · rw [State.ageTable_stops h]
    exact ⟨rfl, rfl, rfl⟩

/-- The notices of the aging: the silences, then the terms (R10, R137). -/
theorem State.ageTable_notices {a : State} {c : StationConfig} (hc : a.loader.config = some c) :
    a.ageTable.notices =
      changeNotices a (fun i => a.terms.flags[i]) (fun i => a.ageTable.terms.flags[i])
        (silentNotices c.silence.toNat a a a.notices) := by
  by_cases h : a.engineRuns = true
  · have hthreshold : a.silenceThreshold = c.silence.toNat := by simp [State.silenceThreshold, hc]
    have haged : a.aged.notices = silentNotices c.silence.toNat a a a.notices := by
      rw [State.aged, hthreshold]
      exact foldl_ageEntry_notices _ h stations stations_nodup a rfl (fun _ _ => rfl)
    rw [State.ageTable_runs h, State.tableChanged_notices, changeNotices_congr (s := a) (by rw [a.aged_starts.ctrl]),
      a.aged_starts.terms, haged]
  · have hsilent : silentNotices c.silence.toNat a a a.notices = a.notices := by simp [silentNotices, h]
    rw [State.ageTable_stops h, changeNotices_same, hsilent]

/-! ### The tick in every order (R132, R137, R173, R175) -/

/-- The notice of the expiry, where the tick brings it (R175). -/
def joinNotices (s t : State) (q : List Notice) : List Notice :=
  if s.joinsAtTick then pushNotice q { plainNotice .phaseChanged t with value := some (.phase .joining) } else q

theorem State.listenTick_notices_eq {s a : State} (hphase : a.ctrl.phase = s.ctrl.phase)
    (hcount : a.ctrl.listenCount = s.ctrl.listenCount) : a.listenTick.notices = joinNotices s a a.notices := by
  rw [State.listenTick_notices, joinNotices, State.joinsAtTick_congr hphase hcount]

theorem silentNotices_congr {s a t b : State} (hruns : a.engineRuns = s.engineRuns) (htable : a.table = s.table)
    (htick : b.ctrl.tick = t.ctrl.tick) (threshold : Nat) (q : List Notice) :
    silentNotices threshold a b q = silentNotices threshold s t q := by
  simp only [silentNotices, hruns, State.entry_of_table htable, plainNotice_congr htick]

theorem joinNotices_congr {s a b : State} (htick : b.ctrl.tick = a.ctrl.tick) (q : List Notice) :
    joinNotices s b q = joinNotices s a q := by rw [joinNotices, joinNotices, plainNotice_congr htick]

/-- What the aging of a tick begins with: the state before the tick, in its phase or in the phase the tick entered. -/
structure AgesFrom (s a : State) : Prop where
  runs : a.engineRuns = s.engineRuns
  running : a.ctrl.phase = .running ↔ s.ctrl.phase = .running
  loader : a.loader = s.loader
  table : a.table = s.table
  terms : a.terms = s.terms
  outputs : a.outputs = s.outputs
  trace : a.outputTrace = s.outputTrace

/-- What a tick leaves of the aging: everything but notices. -/
structure AgesTo (a t : State) : Prop where
  table : t.table = a.ageTable.table
  terms : t.terms = a.ageTable.terms
  outputs : t.outputs = a.ageTable.outputs
  trace : t.outputTrace = a.ageTable.outputTrace

theorem State.joinsAtTick_iff (s : State) :
    s.joinsAtTick = true ↔ s.ctrl.phase = .listening ∧ 3 ≤ s.ctrl.listenCount + 1 := decide_eq_true_iff

theorem State.countTick_agesFrom (s : State) : AgesFrom s s.countTick :=
  ⟨rfl, Iff.rfl, rfl, rfl, rfl, rfl, rfl⟩

/-- The expiry leads from a phase in which the table ages to another (R10, R175). -/
theorem AgesFrom.listenTick {s a : State} (h : AgesFrom s a) : AgesFrom s a.listenTick := by
  have hphase : a.listenTick.ctrl.phase = if a.joinsAtTick then .joining else a.ctrl.phase := by
    rw [State.listenTick_ctrl]
  refine ⟨?_, ?_, by simp [h.loader], by simp [h.table], by simp [h.terms], by simp [h.outputs], by simp [h.trace]⟩
  · rw [← h.runs, State.engineRuns, State.engineRuns, hphase]
    split
    · next hj => rw [((State.joinsAtTick_iff a).mp hj).1]; rfl
    · rfl
  · rw [← h.running, hphase]
    split
    · next hj => simp [((State.joinsAtTick_iff a).mp hj).1]
    · rfl

theorem AgesFrom.judgeRefresh {s a : State} (h : AgesFrom s a) : AgesFrom s a.judgeRefresh := by
  have hctrl : a.judgeRefresh.ctrl = a.ctrl := by simp
  refine ⟨?_, by rw [hctrl, h.running], by simp [h.loader], by simp [h.table], by simp [h.terms], by simp [h.outputs],
    by simp [h.trace]⟩
  rw [← h.runs, State.engineRuns, State.engineRuns, hctrl]

theorem AgesTo.refl (a : State) : AgesTo a a.ageTable := ⟨rfl, rfl, rfl, rfl⟩

theorem AgesTo.listenTick {a t : State} (h : AgesTo a t) : AgesTo a t.listenTick :=
  ⟨by simp [h.table], by simp [h.terms], by simp [h.outputs], by simp [h.trace]⟩

theorem AgesTo.judgeRefresh {a t : State} (h : AgesTo a t) : AgesTo a t.judgeRefresh :=
  ⟨by simp [h.table], by simp [h.terms], by simp [h.outputs], by simp [h.trace]⟩

/-- The entries after the tick (R10). -/
theorem AgesTo.entry {s a t : State} {c : StationConfig} (ht : AgesTo a t) (ha : AgesFrom s a)
    (hc : s.loader.config = some c) {n : Station} (hn : n ≠ 0) :
    t.entry n = if s.engineRuns then agedEntry c.silence.toNat (s.entry n) else s.entry n := by
  have hthreshold : a.silenceThreshold = c.silence.toNat := by simp [State.silenceThreshold, ha.loader, hc]
  rw [State.entry_of_table ht.table, State.entry_ageTable a n hn, ha.runs, hthreshold, Entry.aged_eq,
    State.entry_of_table ha.table]

/-- The terms and the outputs after the tick (R132, R155). -/
theorem AgesTo.evaluates {s a t : State} {c : StationConfig} (ht : AgesTo a t) (ha : AgesFrom s a)
    (hc : s.loader.config = some c) :
    if s.ctrl.phase = .running then
      (∀ i : Fin 16, t.terms.flags[i] = flagsOver c s t i) ∧ drivesTaken [runningDrives c t.terms.flags] s t
    else t.terms.flags = s.terms.flags ∧ drivesTaken [] s t := by
  have hdrives : ∀ rows, drivesTaken rows a a.ageTable → drivesTaken rows s t := by
    intro rows h
    rw [drivesTaken, ht.trace, ht.outputs, ← ha.trace, ← ha.outputs]
    exact h
  split
  · next hrun =>
    have hruns : a.engineRuns = true := by rw [ha.runs, State.engineRuns, hrun]; rfl
    have hrow := State.ageTable_runs hruns
    obtain ⟨hflags, hout, _⟩ := tableChanged_evaluates a.aged_starts (EndsAlike.refl _) (ha.running.mpr hrun)
      (by rw [ha.loader, hc] : a.loader.config = some c)
    rw [← hrow] at hflags hout
    refine ⟨fun i => ?_, by rw [ht.terms]; exact hdrives _ hout⟩
    rw [ht.terms, hflags i]
    simp only [flagsOver, ha.terms, ht.table]
  · next hrun =>
    have hstands : a.ageTable.terms = a.terms ∧ a.ageTable.outputs = a.outputs ∧
        a.ageTable.outputTrace = a.outputTrace := by
      by_cases hruns : a.engineRuns = true
      · rw [State.ageTable_runs hruns, State.tableChanged_of_not_running _
          (by rw [a.aged_starts.ctrl]; exact fun h => hrun (ha.running.mp h))]
        exact ⟨a.aged_starts.terms, a.aged_starts.outputs, a.aged_starts.trace⟩
      · rw [State.ageTable_stops hruns]
        exact ⟨rfl, rfl, rfl⟩
    obtain ⟨hterms, hout, htrace⟩ := hstands
    exact ⟨by rw [ht.terms, hterms, ha.terms], hdrives [] ⟨by simp [htrace], hout⟩⟩

/-- The notices of the aging, seen from the state before the tick (R137, R173). -/
theorem AgesFrom.notices {s a t : State} {c : StationConfig} (ha : AgesFrom s a) (hc : s.loader.config = some c)
    (htick : a.ctrl.tick = t.ctrl.tick) (hterms : t.terms = a.ageTable.terms) :
    a.ageTable.notices =
      changeNotices t (fun i => s.terms.flags[i]) (fun i => t.terms.flags[i])
        (silentNotices c.silence.toNat s t a.notices) := by
  rw [State.ageTable_notices (by rw [ha.loader, hc]), changeNotices_congr htick, ha.terms, hterms,
    silentNotices_congr ha.runs ha.table htick]

/-- At the expiry no value changes: the terms are evaluated in RUNNING alone (R132, R175). -/
theorem AgesTo.flags_of_joins {s a t : State} {c : StationConfig} (ht : AgesTo a t) (ha : AgesFrom s a)
    (hc : s.loader.config = some c) (hj : s.joinsAtTick = true) : t.terms.flags = s.terms.flags := by
  have hlisten := ((State.joinsAtTick_iff s).mp hj).1
  have h := ht.evaluates ha hc
  rw [if_neg (by rw [hlisten]; exact Phase.noConfusion)] at h
  exact h.1

theorem State.refreshTicked_tick (order : TickOrder) (s : State) :
    (s.refreshTicked order).ctrl.tick = s.countTick.ctrl.tick := by
  rw [State.refreshTicked_ctrl, State.listenTick_ctrl]

/-- Where the aging stands in a tick, in every order. -/
theorem State.refreshTicked_ages (order : TickOrder) (s : State) :
    ∃ a, AgesFrom s a ∧ AgesTo a (s.refreshTicked order) ∧ a.ctrl.tick = s.countTick.ctrl.tick ∧
      (order.expiryBeforeAging = true → a.notices = joinNotices s s.countTick s.notices ∧
        (s.refreshTicked order).notices = a.ageTable.notices) ∧
      (order.expiryBeforeAging = false → a.notices = s.notices ∧
        (s.refreshTicked order).notices = joinNotices s s.countTick a.ageTable.notices) := by
  have hcount := s.countTick_agesFrom
  have hlisten : s.countTick.listenTick.ctrl.tick = s.countTick.ctrl.tick := by rw [State.listenTick_ctrl]
  have hjoin : ∀ u : State, u.ctrl = s.countTick.ctrl → u.listenTick.notices = joinNotices s s.countTick u.notices :=
    fun u hu => by
      rw [State.listenTick_notices_eq (s := s) (by rw [hu]; rfl) (by rw [hu]; rfl),
        joinNotices_congr (congrArg Controller.tick hu)]
  rcases order with ⟨_ | _, _ | _⟩
  · refine ⟨s.countTick, hcount, (AgesTo.refl _).judgeRefresh.listenTick, rfl, Bool.noConfusion, fun _ => ⟨rfl, ?_⟩⟩
    exact (hjoin s.countTick.ageTable.judgeRefresh (by simp)).trans (by simp)
  · refine ⟨s.countTick, hcount, (AgesTo.refl _).listenTick.judgeRefresh, rfl, Bool.noConfusion, fun _ => ⟨rfl, ?_⟩⟩
    have hjudged : (s.refreshTicked ⟨false, true⟩).notices = s.countTick.ageTable.listenTick.notices :=
      (State.judgeRefresh_frame _).2.2.2.2.2.2.2.2.2.2.2.1
    exact hjudged.trans (hjoin s.countTick.ageTable (by simp))
  · refine ⟨s.countTick.judgeRefresh.listenTick, hcount.judgeRefresh.listenTick, AgesTo.refl _, ?_, fun _ => ⟨?_, rfl⟩,
      Bool.noConfusion⟩
    · rw [State.listenTick_ctrl_congr (a := s.countTick) (by simp), hlisten]
    · exact (hjoin s.countTick.judgeRefresh (by simp)).trans (by simp)
  · refine ⟨s.countTick.listenTick, hcount.listenTick, (AgesTo.refl _).judgeRefresh, hlisten, fun _ => ⟨?_, ?_⟩,
      Bool.noConfusion⟩
    · exact hjoin s.countTick rfl
    · exact (State.judgeRefresh_frame _).2.2.2.2.2.2.2.2.2.2.2.1

/-- Table, terms and notices after the tick, in every order: where the expiry follows the aging, no term has changed. -/
theorem State.refreshTicked_tickAges (order : TickOrder) (s : State) (c : StationConfig)
    (hc : s.loader.config = some c) : tickAges order c s (s.refreshTicked order) := by
  obtain ⟨a, ha, ht, htick, hbefore, hafter⟩ := s.refreshTicked_ages order
  have htick' := s.refreshTicked_tick order
  obtain ⟨hown, hpeer, hrel⟩ := a.ageTable_held
  have haging := ha.notices hc (htick.trans htick'.symm) ht.terms
  refine ⟨fun n hn => ht.entry ha hc hn, ht.evaluates ha hc, by rw [ht.terms, hown, ha.terms],
    by rw [ht.terms, hpeer, ha.terms], by rw [ht.terms, hrel, ha.terms], ?_⟩
  cases hfirst : order.expiryBeforeAging
  · obtain ⟨hstart, hend⟩ := hafter hfirst
    rw [hend, haging, hstart, joinNotices_congr htick'.symm, joinNotices]
    by_cases hj : s.joinsAtTick = true
    · rw [ht.flags_of_joins ha hc hj, changeNotices_same, changeNotices_same]
      rfl
    · rw [if_neg hj]
      simp only [hj, if_false, Bool.false_eq_true]
      rfl
  · obtain ⟨hstart, hend⟩ := hbefore hfirst
    rw [hend, haging, hstart, joinNotices_congr htick'.symm]
    rfl

/-! ### The rows of the tick -/

theorem exec_refreshTick {order : TickOrder} {s : State} (h : s.ctrl.ticking = true) :
    exec (.refreshTick order) s = .next (s.refreshTicked order) := if_pos h

/-- The row of an entry that falls silent is the whole tick (R10, R173; log 6). -/
theorem exec_peerSilent {n : Station} {order : TickOrder} {s : State} (hticking : s.ctrl.ticking = true)
    (hsilent : s.silentAtNextTick n = true) : exec (.peerSilent n order) s = .next (s.refreshTicked order) :=
  if_pos (by rw [hticking, hsilent]; rfl)

/-- Settles O18: the tick in its four orders by `State.refreshTicked_ages`, each one aging of the table. -/
theorem refreshTickAgesPeers : Obligations.RefreshTickAgesPeers := by
  unfold Obligations.RefreshTickAgesPeers
  intro order s c hticking hc
  exact ⟨_, exec_refreshTick hticking, State.refreshTicked_tickAges order s c hc⟩

/-- Settles O19: the guard of the row holds, so the row is the tick; entry n is the aged entry at the threshold. -/
theorem peerFallsSilentAtThreshold : Obligations.PeerFallsSilentAtThreshold := by
  unfold Obligations.PeerFallsSilentAtThreshold
  intro n order s c hn hticking hruns hc hpresence hage
  have hthreshold : s.silenceThreshold = c.silence.toNat := by simp [State.silenceThreshold, hc]
  have hfalls : (s.entry n).fallsSilent s.silenceThreshold = true :=
    (Entry.fallsSilent_iff _ _).mpr ⟨hpresence, by rw [hthreshold, hage]⟩
  have hsilent : s.silentAtNextTick n = true := by
    rw [State.silentAtNextTick, hruns, decide_eq_true hn, hfalls]
    rfl
  obtain ⟨hentries, _⟩ := State.refreshTicked_tickAges order s c hc
  refine ⟨_, exec_peerSilent hticking hsilent, State.refreshTicked_counts order s,
    State.refreshTicked_tickAges order s c hc, ?_⟩
  rw [hentries n hn, hruns, if_pos rfl, agedEntry, if_pos hpresence, if_pos hage]

end Sys2Proof.Machine
end

