-- ==== Sys2Proof/Proofs/PeerTable19_ValidLoad.lean ====
section
/-! The end of a valid load: the image's fields, the watch unit's first sample, and what the station then holds (R2, R25,
R31, R33, R35, R141, R142, R166 to R172, R201, R202). -/

namespace Sys2Proof.Machine

/-! ### The bytes taken (R202) -/

/-- Every byte but the last is acknowledged. -/
theorem takenToEnd_eq_mapIdx (bs : List Byte) :
    takenToEnd bs = bs.mapIdx (fun j b => BusOp.take b (decide (j + 1 ≠ bs.length))) := by
  induction bs with
  | nil => rfl
  | cons b bs ih =>
    cases bs with
    | nil => rfl
    | cons c bs =>
      rw [takenToEnd, ih, List.mapIdx_cons]
      simp [eq_comm (a := 0)]

/-! ### The fields of the image (R170, R201, R202) -/

theorem lowBits_eq_setWidth (n : Nat) (b : Byte) : lowBits n b = b.setWidth n := BitVec.ofNat_toNat n b

theorem parseImage_group (img : List Byte) (g : Fin 4) :
    (parseImage img).groups[g] =
      { selected := (imageByte img (14 + 4 * g.val)).setWidth 4, expected := (imageByte img (15 + 4 * g.val)).setWidth 4
        zone := (imageByte img (16 + 4 * g.val)).setWidth 3, depth := (imageByte img (17 + 4 * g.val)).setWidth 3 } := by
  simp [parseImage, parseGroup, lowBits_eq_setWidth]

theorem parseImage_term (img : List Byte) (i : Fin 16) : (parseImage img).terms[i] = parseTerm img i := by
  simp [parseImage]

theorem parseImage_output (img : List Byte) (d : Fin 8) : (parseImage img).outputs[d] = parseOutput img d := by
  simp [parseImage]

/-- A byte within a field's width survives the field. -/
theorem setWidth_lowBits {n : Nat} {b : Byte} (h : b.toNat < 2 ^ n) : (lowBits n b).setWidth 8 = b := by
  apply BitVec.eq_of_toNat_eq
  have hb : b.toNat < 2 ^ 8 := b.isLt
  rw [BitVec.toNat_setWidth, lowBits, BitVec.toNat_ofNat, Nat.mod_eq_of_lt h, Nat.mod_eq_of_lt hb]

/-- The bits of four bytes written one after another. -/
theorem getLsbD_append_four (a b c d : Byte) (i : Nat) :
    (a ++ b ++ c ++ d).getLsbD i =
      if i < 8 then d.getLsbD i else if i < 16 then c.getLsbD (i - 8)
      else if i < 24 then b.getLsbD (i - 16) else a.getLsbD (i - 24) := by
  rw [BitVec.getLsbD_append, BitVec.getLsbD_append, BitVec.getLsbD_append]
  grind

/-- The roster mask's bytes are the image's. -/
theorem mapBytes_imageRoster (img : List Byte) :
    mapBytes (imageRoster img) = [imageByte img 10, imageByte img 11, imageByte img 12, imageByte img 13] := by
  have hbit : ∀ i, (imageRoster img).getLsbD i = _ := getLsbD_append_four _ _ _ _
  simp only [mapBytes, List.cons.injEq, and_true]
  refine ⟨?_, ?_, ?_, ?_⟩
  all_goals
    ext i hi
    rw [BitVec.getElem_extractLsb', hbit, ← BitVec.getLsbD_eq_getElem]
    grind

/-- The plan fingerprint of a valid image covers its own bytes (R171). -/
theorem planFingerprint_parseImage {img : List Byte} (hrate : fieldOk img 4 = true) (htick : fieldOk img 5 = true)
    (hsilence : fieldOk img 7 = true) :
    planFingerprint (parseImage img) = crc (bytesBits
      [imageByte img 3, imageByte img 5, imageByte img 6, imageByte img 8, imageByte img 10, imageByte img 11,
        imageByte img 12, imageByte img 13]) := by
  have h5 : (imageByte img 5).toNat ≤ 3 := by simpa [fieldOk] using hrate
  have h6 : (imageByte img 6).toNat ≤ 3 := by simpa [fieldOk] using htick
  have h8 : 2 ≤ (imageByte img 8).toNat ∧ (imageByte img 8).toNat ≤ 15 := by simpa [fieldOk] using hsilence
  have hbytes : fingerprintBytes (parseImage img) = [imageByte img 3, (lowBits 2 (imageByte img 5)).setWidth 8,
      (lowBits 2 (imageByte img 6)).setWidth 8, (lowBits 4 (imageByte img 8)).setWidth 8] ++
        mapBytes (imageRoster img) := rfl
  rw [planFingerprint, hbytes, mapBytes_imageRoster, setWidth_lowBits (by omega), setWidth_lowBits (by omega),
    setWidth_lowBits (by omega)]
  rfl

/-! ### The watch unit's start (R31, R33, R35, R36) -/

theorem groupIndices_all (p : Fin 4 → Bool) : groupIndices.all p = true ↔ ∀ k, p k = true := by
  rw [List.all_eq_true]
  exact ⟨fun h k => h k (by revert k; decide), fun h k _ => h k⟩

theorem groupSettled_iff (c : GroupConfig) (lines : Vector Filter 16) (g : Fin 4) :
    groupSettled c lines g = true ↔
      ∀ k : Fin 4, c.selected.getLsbD k.val = true → lines[lineIndex g k].filtered ≠ none := by
  rw [groupSettled, groupIndices_all]
  refine forall_congr' (fun k => ?_)
  cases c.selected.getLsbD k.val <;> simp [Filter.settled, Option.isSome_iff_ne_none]

theorem groupConforms_iff (c : GroupConfig) (lines : Vector Filter 16) (g : Fin 4) :
    groupConforms c lines g = true ↔
      ∀ k : Fin 4, c.selected.getLsbD k.val = true →
        lines[lineIndex g k].filtered = some (c.expected.getLsbD k.val) := by
  rw [groupConforms, groupIndices_all]
  refine forall_congr' (fun k => ?_)
  cases c.selected.getLsbD k.val <;> simp

/-- A line after its first sample (R31, R33). -/
theorem WatchUnit.started_line (groups : Vector GroupConfig 4) (x : SenseSample) (k : Fin 16) :
    (WatchUnit.started groups x).lines[k] =
      { last := some (x.lines.getLsbD k.val), count := 1
        filtered :=
          if (groups[(⟨k.val / 4, by omega⟩ : Fin 4)]).depth.toNat = 0 then some (x.lines.getLsbD k.val) else none } := by
  simp [WatchUnit.started, WatchUnit.sampled, sampleLines, WatchUnit.afterReset, Filter.sample, Filter.fresh, eq_comm]

/-- The first classification: a group with no selected line conforms from the start, and no departure is counted (R31,
R35, R40). -/
theorem WatchGroup.classify_start (c : GroupConfig) (lines : Vector Filter 16) (g : Fin 4) :
    WatchGroup.classify c lines g { state := if c.selected = 0 then .conforming else .settling, tally := 0 } =
      { state :=
          if groupSettled c lines g = true then (if groupConforms c lines g = true then .conforming else .departed)
          else .settling
        tally := 0 } := by
  by_cases hnone : c.selected = 0
  · have hsettled := (groupSettled_iff c lines g).mpr (fun k hk => by simp [hnone] at hk)
    have hconforms := (groupConforms_iff c lines g).mpr (fun k hk => by simp [hnone] at hk)
    simp only [WatchGroup.classify, if_pos hnone, hsettled, hconforms, nextGroupState, if_true]
    rfl
  · simp only [WatchGroup.classify, if_neg hnone, nextGroupState]
    rfl

/-- A group after the first sample (R31, R35). -/
theorem WatchUnit.started_group (groups : Vector GroupConfig 4) (x : SenseSample) (g : Fin 4) :
    (WatchUnit.started groups x).groups[g] =
      { state :=
          if groupSettled groups[g] (WatchUnit.started groups x).lines g = true then
            (if groupConforms groups[g] (WatchUnit.started groups x).lines g = true then .conforming else .departed)
          else .settling
        tally := 0 } := by
  rw [← WatchGroup.classify_start]
  simp [WatchUnit.started, WatchUnit.sampled]

/-- The group states of the first sample, in the words of the statements (R31, R35, R36). -/
theorem WatchUnit.started_group_state (groups : Vector GroupConfig 4) (x : SenseSample) (g : Fin 4)
    [Decidable (∀ k : Fin 4, groups[g].selected.getLsbD k.val = true →
      (WatchUnit.started groups x).lines[lineIndex g k].filtered ≠ none)]
    [Decidable (∀ k : Fin 4, groups[g].selected.getLsbD k.val = true →
      (WatchUnit.started groups x).lines[lineIndex g k].filtered = some (groups[g].expected.getLsbD k.val))] :
    (WatchUnit.started groups x).groups[g].state =
        (if ¬ (∀ k : Fin 4, groups[g].selected.getLsbD k.val = true →
            (WatchUnit.started groups x).lines[lineIndex g k].filtered ≠ none) then .settling
        else if ∀ k : Fin 4, groups[g].selected.getLsbD k.val = true →
            (WatchUnit.started groups x).lines[lineIndex g k].filtered = some (groups[g].expected.getLsbD k.val) then
          .conforming
        else .departed) := by
  rw [WatchUnit.started_group]
  simp only [groupSettled_iff, groupConforms_iff, ite_not]

/-! ### The station after a valid load (R142, R170 to R172) -/

/-- A sample of REL, at its depth and its active level (R141). -/
theorem Filter.sample_rel (f : Filter) (x : SenseSample) :
    f.sample relDepth (relActive x) =
      { last := some (!x.rel), count := if f.last = some (!x.rel) then min (f.count + 1) 4 else 1
        filtered :=
          if (if f.last = some (!x.rel) then min (f.count + 1) 4 else 1) = 4 then some (!x.rel) else f.filtered } := rfl

/-- The blocks of `State.validLoad_blocks` aside: evaluator, outputs, line, engine and queue (R142, R155, R172). -/
theorem State.validLoad_parts (c : StationConfig) (port : List BusOp) (x : SenseSample) (s : State) :
    (s.validLoad c port x).terms = { s.terms with rel := s.terms.rel.sample relDepth (relActive x) } ∧
      (s.validLoad c port x).outputs = restDrives c ∧
      (s.validLoad c port x).outputTrace = s.outputTrace ++ [restDrives c] ∧
      (s.validLoad c port x).line =
        { s.line with running := true, grid := some { period := 0, quarter := .q1, start := 0 } } ∧
      (s.validLoad c port x).engine = { s.engine with state := .discarding, gapCount := 0 } ∧
      (s.validLoad c port x).notices =
        pushNotice s.notices
          { plainNotice .phaseChanged (s.validLoad c port x) with value := some (.phase .listening) } := by
  simp [State.validLoad, State.raiseValue, State.raise, plainNotice]

theorem State.validLoad_changes (c : StationConfig) (port : List BusOp) (x : SenseSample) (l : Loader) (s : State) :
    changesOnly [.ctrl, .loader, .watch, .line, .engine, .table, .terms, .outputs, .notices] s
      ((s.setLoader l).validLoad c port x) := by
  intro b hb
  cases b <;> simp_all [sameBlock, State.validLoad]

/-- What the command does with an image that passes every check (R166, R172). -/
theorem exec_validImage {rest : List Byte} {x : SenseSample} {s : State} (hreading : s.reading = true)
    (hheader : s.loader.image.length = 4) (hlength : rest.length = 126)
    (hvalid : imageFault (s.loader.image ++ rest) = none) :
    ∃ l, l.config = s.loader.config ∧ exec (.imageComplete rest x) s =
      .next ((s.setLoader l).validLoad (parseImage (s.loader.image ++ rest))
        (s.loader.port ++ takenToEnd rest ++ [.stop]) x) := by
  have hexec : exec (.imageComplete rest x) s = execImageComplete rest x s := rfl
  refine ⟨{ s.loader with
    progress := .checking, image := s.loader.image ++ rest, port := s.loader.port ++ takenToEnd rest ++ [.stop] }, rfl, ?_⟩
  rw [hexec, execImageComplete, hreading, hheader, hlength]
  simp [hvalid, imageLength]

/-- Settles O12: the configuration by the fields' lemmas, the watch unit by `WatchUnit.started`, the entries by
`State.entry_validLoad`, the rest by the blocks of `State.validLoad`. -/
theorem validLoadEntersListening : Obligations.ValidLoadEntersListening := by
  unfold Obligations.ValidLoadEntersListening
  intro rest x s hreading hheader hlength hcheck hfields hroster
  obtain ⟨l, _, hexec⟩ := exec_validImage (x := x) hreading hheader hlength
    ((imageFault_none_iff _).mpr ⟨hcheck, hfields, hroster⟩)
  have hnumber := number_ne_zero_of_fields (hfields 3 (by omega) (by omega))
  generalize s.loader.image ++ rest = img at *
  have hport : s.loader.port ++ takenToEnd rest ++ [.stop] =
      s.loader.port ++ rest.mapIdx (fun j b => BusOp.take b (decide (j ≠ 125))) ++ [.stop] := by
    rw [takenToEnd_eq_mapIdx, hlength]
    simp
  generalize s.loader.port ++ takenToEnd rest ++ [.stop] = port at *
  obtain ⟨hctrl, hloader, hwatch, _⟩ := State.validLoad_blocks (parseImage img) port x (s.setLoader l)
  obtain ⟨hterms, hout, htrace, hline, hengine, hnotices⟩ := State.validLoad_parts (parseImage img) port x (s.setLoader l)
  have hentry := State.entry_validLoad (parseImage img) port x (s.setLoader l)
  have hchanges := State.validLoad_changes (parseImage img) port x l s
  generalize (s.setLoader l).validLoad (parseImage img) port x = t at *
  refine ⟨t, parseImage img, hexec, rfl, hchanges, by rw [hloader], by rw [hloader], hctrl, by rw [hloader, ← hport],
    ?fields, by rw [hwatch]; rfl, fun k => ?line, fun g => ?group, fun n hn hne => ?other, ?self, ⟨htrace, hout⟩,
    by rw [hline], by rw [hline]; rfl, by rw [hline]; rfl, by rw [hline]; rfl, by rw [hengine],
    by rw [hengine]; rfl, by rw [hengine]; rfl, hterms, hnotices⟩
  case fields =>
    exact ⟨rfl, lowBits_eq_setWidth 5 _, lowBits_eq_setWidth 2 _, lowBits_eq_setWidth 2 _, lowBits_eq_setWidth 2 _,
      lowBits_eq_setWidth 4 _, lowBits_eq_setWidth 3 _, rfl, parseImage_group img, parseImage_term img,
      parseImage_output img, rfl, rfl,
      planFingerprint_parseImage (hfields 4 (by omega) (by omega)) (hfields 5 (by omega) (by omega))
        (hfields 7 (by omega) (by omega))⟩
  case line =>
    rw [hwatch]
    exact WatchUnit.started_line _ _ _
  case group =>
    rw [hwatch]
    exact ⟨WatchUnit.started_group_state _ _ _, by rw [WatchUnit.started_group]⟩
  case other =>
    rw [hentry n hn, if_neg hne, State.entry_setLoader]
  case self =>
    rw [hentry _ hnumber, if_pos rfl, State.entry_setLoader, hwatch]
    rfl

end Sys2Proof.Machine
end

section
/-! The watch unit: lines, groups, tallies and records after a sample, and what every command does to the watch unit
(R31 to R46). -/

namespace Sys2Proof.Machine

/-! ### The lines and groups after a sample (R33, R35 to R40) -/

/-- The next state of a group, whatever its state (R35, R37, R38). -/
theorem nextGroupState_eq (c : GroupConfig) (lines : Vector Filter 16) (g : Fin 4) (old : GroupState) :
    nextGroupState c lines g old =
      if old = .settling ∧ groupSettled c lines g = false then .settling
      else if groupConforms c lines g = true then .conforming else .departed := by
  cases old with
  | settling =>
    simp only [nextGroupState, true_and]
    cases groupSettled c lines g <;> rfl
  | conforming => simp [nextGroupState]
  | departed => simp [nextGroupState]

theorem isDeparture_iff (old new : GroupState) :
    isDeparture old new = true ↔ old = .conforming ∧ new = .departed := decide_eq_true_iff

theorem isRestore_iff (old new : GroupState) :
    isRestore old new = true ↔ old = .departed ∧ new = .conforming := decide_eq_true_iff

/-- Every line takes its level at the depth of its group (R33). -/
theorem WatchUnit.sampled_line (groups : Vector GroupConfig 4) (x : SenseSample) (w : WatchUnit) (k : Fin 16) :
    (w.sampled groups x).lines[k] =
      (w.lines[k]).sample (groups[(⟨k.val / 4, by omega⟩ : Fin 4)]).depth.toNat (x.lines.getLsbD k.val) := by
  simp [WatchUnit.sampled, sampleLines]

/-- A group after a sample: classified over the lines as the sample leaves them (R32). -/
theorem WatchUnit.sampled_group (groups : Vector GroupConfig 4) (x : SenseSample) (w : WatchUnit) (g : Fin 4) :
    (w.sampled groups x).groups[g] = (w.groups[g]).classify groups[g] (w.sampled groups x).lines g := by
  simp [WatchUnit.sampled]

theorem WatchUnit.sampled_group_state (groups : Vector GroupConfig 4) (x : SenseSample) (w : WatchUnit) (g : Fin 4) :
    (w.sampled groups x).groups[g].state =
      nextGroupState groups[g] (w.sampled groups x).lines g w.groups[g].state := by
  rw [WatchUnit.sampled_group]; rfl

/-- The group states after a sample, in the words of the statements (R35 to R38). -/
theorem WatchUnit.sampled_group_state_eq (groups : Vector GroupConfig 4) (x : SenseSample) (w : WatchUnit) (g : Fin 4)
    [Decidable (∀ k : Fin 4, groups[g].selected.getLsbD k.val = true →
      (w.sampled groups x).lines[lineIndex g k].filtered ≠ none)]
    [Decidable (∀ k : Fin 4, groups[g].selected.getLsbD k.val = true →
      (w.sampled groups x).lines[lineIndex g k].filtered = some (groups[g].expected.getLsbD k.val))] :
    (w.sampled groups x).groups[g].state =
      (if w.groups[g].state = .settling ∧ ¬ (∀ k : Fin 4, groups[g].selected.getLsbD k.val = true →
          (w.sampled groups x).lines[lineIndex g k].filtered ≠ none) then .settling
      else if ∀ k : Fin 4, groups[g].selected.getLsbD k.val = true →
          (w.sampled groups x).lines[lineIndex g k].filtered = some (groups[g].expected.getLsbD k.val) then .conforming
      else .departed) := by
  rw [WatchUnit.sampled_group_state, nextGroupState_eq]
  simp only [← Bool.not_eq_true, groupSettled_iff, groupConforms_iff]

/-- The tally goes up by one at a departure and at nothing else (R40). -/
theorem WatchUnit.sampled_group_tally (groups : Vector GroupConfig 4) (x : SenseSample) (w : WatchUnit) (g : Fin 4) :
    (w.sampled groups x).groups[g].tally =
      if w.groups[g].state = .conforming ∧ (w.sampled groups x).groups[g].state = .departed then w.groups[g].tally + 1
      else w.groups[g].tally := by
  rw [WatchUnit.sampled_group_state, WatchUnit.sampled_group]
  simp only [WatchGroup.classify, isDeparture_iff]

/-! ### The records (R34, R41) -/

/-- The published value of a line: filtered, else its last sample (R34). -/
theorem Filter.published_eq (f : Filter) : f.published = f.filtered.getD (f.last.getD false) := by
  rw [Filter.published]
  cases f.filtered <;> rfl

/-- Bit k of four bits laid out with the highest first. -/
theorem getLsbD_fourBits (p : Fin 4 → Bool) (k : Fin 4) :
    (BitVec.ofNat 4 (bitsToNat [p 3, p 2, p 1, p 0])).getLsbD k.val = p k := by
  revert p k
  decide

theorem WatchUnit.record_line (w : WatchUnit) (g k : Fin 4) :
    w.records[g].lines.getLsbD k.val = (w.lines[lineIndex g k]).published := by
  simp only [WatchUnit.records, Fin.getElem_fin, Vector.getElem_ofFn]
  exact getLsbD_fourBits (fun j => (w.lines[lineIndex g j]).published) k

theorem WatchUnit.record_state (w : WatchUnit) (g : Fin 4) :
    w.records[g].conforming = decide (w.groups[g].state = .conforming) ∧ w.records[g].tally = w.groups[g].tally := by
  simp [WatchUnit.records, WatchUnit.record]

theorem departedAt_iff (w w' : WatchUnit) (g : Fin 4) :
    departedAt w w' g = true ↔ w.groups[g].state = .conforming ∧ w'.groups[g].state = .departed := isDeparture_iff _ _

theorem restoredAt_iff (w w' : WatchUnit) (g : Fin 4) :
    restoredAt w w' g = true ↔ w.groups[g].state = .departed ∧ w'.groups[g].state = .conforming := isRestore_iff _ _

/-! ### What a command does to the watch unit (R31, R32, R46) -/

/-- A command leaves the watch unit, resets it, starts it with a load, or samples. -/
inductive WatchMoved (c : Instr) (s t : State) : Prop
  | kept (watch : t.watch = s.watch)
  | reset (command : resets c s) (watch : t.watch = WatchUnit.afterReset)
  | loaded (rest : List Byte) (x : SenseSample) (groups : Vector GroupConfig 4) (command : c = .imageComplete rest x)
      (watch : t.watch = WatchUnit.started groups x)
  | sampled (x : SenseSample) (groups : Vector GroupConfig 4) (command : c = .sampleEvent x)
      (watch : t.watch = s.watch.sampled groups x)

/-- A sample event leaves the watch unit sampled: what follows its publication does not reach it (R32). -/
theorem State.sampleTaken_watch (c : StationConfig) (x : SenseSample) (s : State) :
    (s.sampleTaken c x).watch = s.watch.sampled c.groups x :=
  (s.sampleTaken_quiet c x).watch.trans (s.published_frame _).2.2.2.2

/-- A command that answers a state with the watch unit as it was, or changes nothing where its event cannot happen. -/
theorem WatchMoved.of_guarded {c : Instr} {p : Prop} [Decidable p] {s t u : State} (hu : u.watch = s.watch)
    (h : (if p then .next u else .next s : Result) = .next t) : WatchMoved c s t := by
  split at h
  · cases h; exact .kept hu
  · cases h; exact .kept rfl

theorem State.halt_watch (f : FaultCode) (port : List BusOp) (s : State) : (s.halt f port).watch = s.watch := by
  simp [State.halt]

theorem headerRead_watch {n : Nat} {a b l r : Byte} {s t : State} (h : exec (.headerRead n a b l r) s = .next t) :
    t.watch = s.watch := by
  simp only [exec, execHeaderRead] at h
  split at h
  · split at h
    · cases h; exact State.halt_watch _ _ s
    · cases h; rfl
  · cases h; rfl

theorem transportFailure_watch {n : Nat} {f : BusFault} {read : List Byte} {s t : State}
    (h : exec (.transportFailure n f read) s = .next t) : t.watch = s.watch := by
  simp only [exec, execTransportFailure] at h
  split at h
  · split at h
    · cases h; rfl
    · cases h; exact State.halt_watch _ _ s
  · cases h; rfl

theorem imageComplete_watch {rest : List Byte} {x : SenseSample} {s t : State}
    (h : exec (.imageComplete rest x) s = .next t) :
    t.watch = s.watch ∨ ∃ groups, t.watch = WatchUnit.started groups x := by
  simp only [exec, execImageComplete] at h
  split at h
  · split at h
    · cases h; exact .inl (State.halt_watch _ _ _)
    · cases h; exact .inr ⟨_, (State.validLoad_blocks _ _ _ _).2.2.1⟩
  · cases h; exact .inl rfl

theorem resetEnd_watch {x : HeldSource} {s t : State} (h : exec (.resetEnd x) s = .next t) : t.watch = s.watch := by
  simp only [exec, execResetEnd] at h
  split at h
  · split at h <;> cases h <;> rfl
  · cases h; rfl

/-- The release of TSEL: a restart resets, else the watch unit stays (R189, R198). -/
theorem tselRelease_watchMoved {tsdi : List Bool} {s t : State} (h : exec (.tselRelease tsdi) s = .next t) :
    WatchMoved (.tselRelease tsdi) s t := by
  simp only [exec, execTselRelease] at h
  split at h
  · next hsel =>
    cases h
    simp only [State.endTransaction]
    split
    · next harmed => exact .reset (.inr (.inr ⟨tsdi, rfl, hsel, harmed⟩)) rfl
    · exact .kept (by simp)
  · cases h; exact .kept rfl

theorem sampleEvent_watchMoved {x : SenseSample} {s t : State} (h : exec (.sampleEvent x) s = .next t) :
    WatchMoved (.sampleEvent x) s t := by
  simp only [exec, execSampleEvent] at h
  split at h
  · next c _ _ =>
    cases h
    exact .sampled x c.groups rfl (s.sampleTaken_watch c x)
  · cases h; exact .kept rfl

/-- What each command does to the watch unit. -/
theorem exec_watchMoved {c : Instr} {s t : State} (h : exec c s = .next t) : WatchMoved c s t := by
  cases c with
  | powerOnReset => cases h; exact .reset (.inl rfl) rfl
  | resetPin => cases h; exact .reset (.inr (.inl rfl)) rfl
  | resetEnd x => exact .kept (resetEnd_watch h)
  | headerRead n a b l r => exact .kept (headerRead_watch h)
  | transportFailure n f read => exact .kept (transportFailure_watch h)
  | imageComplete rest x =>
    rcases imageComplete_watch h with hkept | ⟨groups, hstarted⟩
    · exact .kept hkept
    · exact .loaded rest x groups rfl hstarted
  | sampleEvent x => exact sampleEvent_watchMoved h
  | tselRelease tsdi => exact tselRelease_watchMoved h
  | tselAssert =>
    simp only [exec, execTselAssert] at h
    split at h
    · cases h; exact .kept rfl
    · split at h
      · cases h; exact .kept rfl
      · cases h; exact .kept rfl
  | pauseEnd => exact .of_guarded (by rfl) h
  | refreshTick order | peerSilent n order | listenExpiry order => exact .of_guarded (by simp) h
  | discardEnd gap | frameStart gap edge able => exact .of_guarded (by simp) h
  | contentionStart gap edge able =>
    simp only [exec, execContentionStart] at h
    split at h
    · cases h; exact .kept (by simp)
    · cases h; exact .kept rfl
  | keyLost bits | keyWon bits | lastCheckBitSent bits | invalidKind bits | framingFault bits | stuckDominant bits
  | frameReceived bits | windowEnd bits =>
    simp only [exec, execKeyLost, execKeyWon, execLastCheckBitSent, execInvalidKind, execFramingFault,
      execStuckDominant, execFrameReceived, execWindowEnd] at h
    split at h
    · split at h
      · cases h; exact .kept (by simp)
      · cases h; exact .kept rfl
    · cases h; exact .kept rfl
  | sendAborted bits =>
    rcases execSendAborted_cases h with rfl | ⟨u, k, hu, _, rfl⟩
    · exact .kept rfl
    · exact .kept (by simp [hu.watch])
  | status | entry n | terms | counters | peek | take | release mask | resync | restart =>
    cases h; exact .kept (by simp)
  | unknownRequest b => exact .of_guarded (by simp) h

/-- Settles O14: of the four ways a command moves the watch unit, a sample changes a tally by `sampled_group_tally`. -/
theorem tallyCountsDeparturesAlone : Obligations.TallyCountsDeparturesAlone := by
  unfold Obligations.TallyCountsDeparturesAlone
  intro c s t g h
  cases exec_watchMoved h with
  | kept hwatch => exact .inl (by rw [hwatch])
  | reset command hwatch =>
    refine .inr (.inr ⟨?_, .inl command⟩)
    rw [hwatch]
    simp [WatchUnit.afterReset]
  | loaded rest x groups command hwatch =>
    refine .inr (.inr ⟨?_, .inr ⟨rest, x, command⟩⟩)
    rw [hwatch, WatchUnit.started_group]
  | sampled x groups command hwatch =>
    have htally := WatchUnit.sampled_group_tally groups x s.watch g
    rw [← hwatch] at htally
    split at htally
    · next hmoved => exact .inr (.inl ⟨⟨x, command⟩, hmoved.1, hmoved.2, htally⟩)
    · exact .inl htally

end Sys2Proof.Machine
end

section
/-! The operations of a sample event, one by one: CHANGE request, REL, signals, publication (R41 to R43, R89 to R92,
R132 to R144). -/

namespace Sys2Proof.Machine

/-! ### The CHANGE request (R43, R75, R89, R92) -/

/-- The engine alone says which slot is on the line. -/
theorem State.onLine_congr {s u : State} (h : u.engine = s.engine) (k : Kind) : u.onLine k = s.onLine k := by
  rw [State.onLine, State.onLine, h]

/-- The slate after the announcement of a sample event (R43, R89, R92). -/
theorem State.announce_slate (old new : WatchUnit) (u : State) :
    (u.announce old new).slate =
      if (groupIndices.any (departedAt old new) || groupIndices.any (restoredAt old new)) && u.takes .change then
        { u.slate with
          change := some (changeMerged (u.onLine .change) u.slate.change)
          departureOwed := u.slate.departureOwed || groupIndices.any (departedAt old new) }
      else u.slate := by
  simp only [State.announce]
  cases htakes : u.takes .change with
  | false => simp [State.requestChange_not_taken _ u htakes]
  | true =>
    rw [Bool.and_true]
    split
    · exact State.requestChange_merged _ u htakes
    · rfl

/-- The announcement reaches the slate alone. -/
theorem State.announce_ends (old new : WatchUnit) (u : State) : EndsAlike u (u.announce old new) :=
  ⟨by simp, by simp, by simp, by simp, by simp⟩

/-! ### REL (R91, R141, R142, R144) -/

/-- A REL sample presses in RUNNING with zones to release (R142). -/
def State.relReleases (z : ZoneMask) (active : Bool) (u : State) : Bool :=
  decide (u.terms.rel.filtered = some false ∧ (u.terms.rel.sample relDepth active).filtered = some true ∧
    u.ctrl.phase = .running ∧ z ≠ 0)

/-- REL's filter after a sample, before a press acts. -/
def State.relFiltered (active : Bool) (u : State) : State :=
  u.setTerms { u.terms with rel := u.terms.rel.sample relDepth active }

theorem State.relSampled_eq (z : ZoneMask) (active : Bool) (u : State) :
    u.relSampled z active =
      if u.relReleases z active then (u.relFiltered active).localRelease z else u.relFiltered active := by
  simp only [State.relSampled, State.relReleases, isPress, decide_eq_true_eq, and_assoc]
  rfl

/-- A local release is the own terms' release; what the slate is asked reaches no other block (R144). -/
theorem State.localRelease_ends (m : ZoneMask) (u : State) : EndsAlike (u.applyRelease m none) (u.localRelease m) := by
  simp only [State.localRelease]
  split
  · exact ⟨by simp, by simp, by simp, by simp, by simp⟩
  · exact EndsAlike.refl _

/-- The RELEASE slot after a local release (R75, R91, R144). -/
theorem State.localRelease_slate (m : ZoneMask) {u : State} {c : StationConfig} (hc : u.loader.config = some c) :
    (u.localRelease m).slate =
      if c.networkRelease && u.takes .release then
        { u.slate with release := some (releaseMerged (u.onLine .release) m u.slate.release) }
      else u.slate := by
  have htakes : (u.applyRelease m none).takes .release = u.takes .release :=
    State.takes_congr (by simp) (by simp) .release
  have honLine : (u.applyRelease m none).onLine .release = u.onLine .release :=
    State.onLine_congr (by simp) .release
  simp only [State.localRelease, hc, Option.any_some]
  cases c.networkRelease with
  | false => simp
  | true =>
    rw [if_pos rfl, Bool.true_and]
    split
    · next htaken => rw [State.requestRelease_slate m _ (htakes.trans htaken), honLine]; simp
    · next hrefused =>
      rw [State.requestRelease_not_taken m _ (by rw [htakes]; simpa using hrefused)]
      simp

/-- Whether a RELEASE request is taken in RUNNING goes by the health (R75). -/
theorem takes_release_running {u : State} (h : u.ctrl.phase = .running) :
    u.takes .release = decide (u.health.state ≠ .withdrawn) := by simp [State.takes, takesKind, h]

/-- The slate after a REL sample (R91, R144). -/
theorem State.relSampled_slate (z : ZoneMask) (active : Bool) {u : State} {c : StationConfig}
    (hc : u.loader.config = some c) :
    (u.relSampled z active).slate =
      { u.slate with
        release :=
          if u.relReleases z active && c.networkRelease && decide (u.health.state ≠ .withdrawn) then
            some (releaseMerged (u.onLine .release) z u.slate.release)
          else u.slate.release } := by
  rw [State.relSampled_eq]
  cases hr : u.relReleases z active with
  | false => rfl
  | true =>
    obtain ⟨_, _, hrun, _⟩ := of_decide_eq_true hr
    have htakes : (u.relFiltered active).takes .release = decide (u.health.state ≠ .withdrawn) :=
      takes_release_running hrun
    rw [if_pos rfl, State.localRelease_slate z (u := u.relFiltered active) hc, htakes, Bool.true_and]
    split <;> rfl

/-- A release in RUNNING leaves the evaluator's other parts (R138, R144). -/
theorem State.localRelease_terms (m : ZoneMask) {u : State} {c : StationConfig} (hrun : u.ctrl.phase = .running)
    (hc : u.loader.config = some c) :
    (u.localRelease m).terms =
      { u.terms with flags := Vector.ofFn (releasedFlags c m (fun i : Fin 16 => u.terms.flags[i])) } := by
  have hflags : (fun i : Fin 16 => (u.terms.flags[i]).released c.terms[i] m) =
      releasedFlags c m (fun i : Fin 16 => u.terms.flags[i]) :=
    funext fun i => released_eq c m (fun i : Fin 16 => u.terms.flags[i]) i
  rw [(u.localRelease_ends m).terms, (State.applyRelease_running m none u c hrun hc).1, hflags]

/-- REL's filter is sampled, and no zone is held or let go (R141). -/
theorem State.relSampled_rel (z : ZoneMask) (active : Bool) {u : State} {c : StationConfig}
    (hc : u.loader.config = some c) :
    (u.relSampled z active).terms.rel = u.terms.rel.sample relDepth active ∧
      (u.relSampled z active).terms.heldOwn = u.terms.heldOwn ∧
      (u.relSampled z active).terms.heldPeer = u.terms.heldPeer := by
  rw [State.relSampled_eq]
  split
  · next hr =>
    obtain ⟨_, _, hrun, _⟩ := of_decide_eq_true hr
    rw [State.localRelease_terms z (u := u.relFiltered active) hrun hc]
    exact ⟨rfl, rfl, rfl⟩
  · exact ⟨rfl, rfl, rfl⟩

/-- The evaluator after a REL sample in RUNNING (R138, R142, R144). -/
theorem State.relSampled_running (z : ZoneMask) (active : Bool) {u : State} {c : StationConfig}
    (hrun : u.ctrl.phase = .running) (hc : u.loader.config = some c) :
    let f := fun i : Fin 16 => u.terms.flags[i]
    let t := u.relSampled z active
    (∀ i : Fin 16, t.terms.flags[i] = if u.relReleases z active then releasedFlags c z f i else f i) ∧
      drivesTaken (if u.relReleases z active then [runningDrives c t.terms.flags] else []) u t ∧
      t.notices = if u.relReleases z active then releaseNotices c z none f u u.notices else u.notices := by
  intro f t
  have ht : t = _ := State.relSampled_eq z active u
  cases hr : u.relReleases z active with
  | false =>
    rw [hr, if_neg Bool.false_ne_true] at ht
    rw [ht]
    exact ⟨fun _ => rfl, ⟨by simp [State.relFiltered], rfl⟩, rfl⟩
  | true =>
    rw [hr, if_pos rfl] at ht
    have hends := ht ▸ (u.relFiltered active).localRelease_ends z
    have hrun' : (u.relFiltered active).ctrl.phase = .running := hrun
    have hc' : (u.relFiltered active).loader.config = some c := hc
    refine ⟨fun i => ?_, ?_, ?_⟩
    · rw [ht, State.localRelease_terms z hrun' hc', Fin.getElem_fin, Vector.getElem_ofFn]
      rfl
    · rw [if_pos rfl, hends.terms]
      exact drivesTaken_alike (StartsAlike.refl u) hends (State.applyRelease_running z none _ c hrun' hc').2
    · rw [if_pos rfl, hends.notices, State.applyRelease_notices z none _ c hrun' hc',
        releaseNotices_congr (s := u) (by rfl)]
      rfl

/-- Outside RUNNING a REL sample is the filter's alone (R142). -/
theorem State.relSampled_outside (z : ZoneMask) (active : Bool) {u : State} (h : u.ctrl.phase ≠ .running) :
    u.relSampled z active = u.relFiltered active := by
  rw [State.relSampled_eq, if_neg (fun hr => h (of_decide_eq_true hr).2.2.1)]

/-! ### The signals (R42, R134, R135) -/

/-- In LISTENING and JOINING the own signals are held (R135). -/
theorem State.departuresSeen_heldOwn (zoneOf : Fin 4 → Option Zone) (gs : List (Fin 4)) (v : State)
    (hphase : v.ctrl.phase = .listening ∨ v.ctrl.phase = .joining) :
    ∃ m, v.departuresSeen (signalsOf true zoneOf gs) = v.setTerms { v.terms with heldOwn := m } ∧
      ∀ z, inZones m z = (inZones v.terms.heldOwn z || zoneNamed zoneOf gs z) := by
  induction gs generalizing v with
  | nil => exact ⟨v.terms.heldOwn, rfl, fun z => by simp [zoneNamed]⟩
  | cons g gs ih =>
    have hheld : v.departureSeen (signalOf true (zoneOf g)) =
        v.setTerms { v.terms with heldOwn := v.terms.heldOwn ||| (signalOf true (zoneOf g)).zones } := by
      rcases hphase with h | h <;> simp only [State.departureSeen, h] <;> rfl
    obtain ⟨m, hm, hzones⟩ := ih (v.departureSeen (signalOf true (zoneOf g))) (by simpa using hphase)
    rw [hheld] at hm hzones
    refine ⟨m, ?_, fun z => ?_⟩
    · rw [State.departuresSeen, signalsOf, List.map_cons, List.foldl_cons, hheld]
      exact hm
    · rw [hzones, State.setTerms_terms, inZones_or_signalOf, Bool.or_assoc, zoneNamed, zoneNamed, List.any_cons]

/-- In the other phases but RUNNING a signal is lost (R135). -/
theorem State.departuresSeen_lost (gs : List DepartureSignal) (v : State) (hrun : v.ctrl.phase ≠ .running)
    (hphase : ¬ (v.ctrl.phase = .listening ∨ v.ctrl.phase = .joining)) : v.departuresSeen gs = v := by
  induction gs with
  | nil => rfl
  | cons g gs ih =>
    have hlost : v.departureSeen g = v := by
      cases hp : v.ctrl.phase <;> simp_all [State.departureSeen]
    rw [State.departuresSeen, List.foldl_cons, hlost]
    exact ih

/-! ### The publication (R41, R132) -/

@[simp] theorem State.published_engine (w : WatchUnit) (s : State) : (s.published w).engine = s.engine := by
  rw [State.published]; split <;> simp

/-- Where the records are the same the publication sets the watch unit alone, else it is one change of the table (R41). -/
theorem State.published_cases (w : WatchUnit) (s : State) :
    (w.records = s.watch.records ∧ s.published w = s.setWatch w) ∨
      (w.records ≠ s.watch.records ∧
        ∃ v, StartsAlike s v ∧ v.notices = s.notices ∧ s.published w = v.tableChanged) := by
  rw [State.published]
  split
  · next h => exact .inl ⟨h, rfl⟩
  · next h =>
    refine .inr ⟨h,
      (s.setWatch w).updateSelfReport (fun r => { r with content := { r.content with groups := w.records } }),
      ⟨?_, ?_, ?_, ?_, ?_⟩, ?_, rfl⟩
    all_goals simp

/-- The flags after the publication: re-evaluated where the records changed (R41, R132). -/
def publishedFlags (c : StationConfig) (w : WatchUnit) (s t : State) : Fin 16 → TermFlags := fun i =>
  if w.records = s.watch.records then s.terms.flags[i] else flagsOver c s t i

theorem publishedFlags_same {c : StationConfig} {w : WatchUnit} {s : State} (t : State)
    (h : w.records = s.watch.records) : publishedFlags c w s t = fun i : Fin 16 => s.terms.flags[i] :=
  funext fun _ => if_pos h

theorem publishedFlags_changed {c : StationConfig} {w : WatchUnit} {s : State} (t : State)
    (h : w.records ≠ s.watch.records) : publishedFlags c w s t = flagsOver c s t := funext fun _ => if_neg h

theorem publishedFlags_congr {c : StationConfig} {w : WatchUnit} {s t t' : State} (h : t'.table = t.table) :
    publishedFlags c w s t' = publishedFlags c w s t := by
  funext i; rw [publishedFlags, publishedFlags, flagsOver_congr h]

/-- The row of drives that a publication sets, where it re-evaluates (R155). -/
def publishedRows (c : StationConfig) (w : WatchUnit) (s t : State) : List (Vector Drive 8) :=
  if w.records = s.watch.records then [] else [runningDrives c (Vector.ofFn (publishedFlags c w s t))]

theorem publishedRows_congr {c : StationConfig} {w : WatchUnit} {s t t' : State} (h : t'.table = t.table) :
    publishedRows c w s t' = publishedRows c w s t := by
  rw [publishedRows, publishedRows, publishedFlags_congr h]

/-- The evaluator after the publication in RUNNING (R41, R132, R137). -/
theorem State.published_running (w : WatchUnit) {s : State} {c : StationConfig} (hrun : s.ctrl.phase = .running)
    (hc : s.loader.config = some c) :
    (fun i : Fin 16 => (s.published w).terms.flags[i]) = publishedFlags c w s (s.published w) ∧
      drivesTaken (publishedRows c w s (s.published w)) s (s.published w) ∧
      (s.published w).notices =
        changeNotices s (fun i => s.terms.flags[i]) (publishedFlags c w s (s.published w)) s.notices := by
  rcases s.published_cases w with ⟨hsame, hu⟩ | ⟨hchanged, v, hstarts, hnotices, hu⟩
  · rw [publishedRows, if_pos hsame, publishedFlags_same _ hsame, changeNotices_same, hu]
    exact ⟨rfl, ⟨by simp, rfl⟩, rfl⟩
  · obtain ⟨hflags, hdrives, hchanges⟩ := tableChanged_evaluates hstarts (EndsAlike.refl _) hrun hc
    rw [← hu] at hflags hdrives hchanges
    rw [flags_eq_ofFn hflags] at hdrives
    rw [State.flags_eq hflags, hnotices] at hchanges
    rw [publishedRows, if_neg hchanged, publishedFlags_changed _ hchanged]
    exact ⟨State.flags_eq hflags, hdrives, hchanges⟩

/-- The held zones and REL's filter are no part of the publication (R132). -/
theorem State.published_held (w : WatchUnit) (s : State) :
    (s.published w).terms.heldOwn = s.terms.heldOwn ∧ (s.published w).terms.heldPeer = s.terms.heldPeer ∧
      (s.published w).terms.rel = s.terms.rel := by
  rcases s.published_cases w with ⟨_, hu⟩ | ⟨_, v, hstarts, _, hu⟩
  · rw [hu]; exact ⟨rfl, rfl, rfl⟩
  · rw [hu, ← hstarts.terms]; exact v.tableChanged_held

/-- Outside RUNNING the publication leaves the evaluator, the drives and the queue (R132). -/
theorem State.published_outside (w : WatchUnit) {s : State} (h : s.ctrl.phase ≠ .running) :
    (s.published w).terms = s.terms ∧ drivesTaken [] s (s.published w) ∧ (s.published w).notices = s.notices := by
  rcases s.published_cases w with ⟨_, hu⟩ | ⟨_, v, hstarts, hnotices, hu⟩
  · rw [hu]; exact ⟨rfl, ⟨by simp, rfl⟩, rfl⟩
  · rw [hu, State.tableChanged_of_not_running v (by rw [hstarts.ctrl]; exact h)]
    exact ⟨hstarts.terms, ⟨by simp [hstarts.trace], hstarts.outputs⟩, hnotices⟩

end Sys2Proof.Machine
end

section
/-! The whole sample event, in the order of R32, and its statements. -/

namespace Sys2Proof.Machine

/-! ### Up to the announcement (R32) -/

/-- The zone of each group, as its signal names it (R42). -/
def groupZones (c : StationConfig) : Fin 4 → Option Zone := fun g => some c.groups[g].zone

/-- The groups that departed at a sample event (R37). -/
def departedGroups (old new : WatchUnit) : List (Fin 4) := groupIndices.filter (departedAt old new)

/-- A sample event up to its announcement, with the watch unit's next state (R32). -/
def State.announced (c : StationConfig) (w : WatchUnit) (s : State) : State :=
  ((s.published w).departuresSeen (signalsOf true (groupZones c) (departedGroups s.watch w))).announce s.watch w

/-- REL's sample comes last (R32). -/
theorem State.sampleTaken_eq (c : StationConfig) (x : SenseSample) (s : State) :
    s.sampleTaken c x =
      (s.announced c (s.watch.sampled c.groups x)).relSampled c.releaseZones (relActive x) := rfl

theorem State.announced_frame (c : StationConfig) (w : WatchUnit) (s : State) :
    (s.announced c w).ctrl = s.ctrl ∧ (s.announced c w).loader = s.loader ∧ (s.announced c w).health = s.health ∧
      (s.announced c w).table = (s.published w).table ∧ (s.announced c w).watch = w ∧
      (s.announced c w).engine = s.engine := by
  simp [State.announced]

/-- The evaluator up to the announcement in RUNNING: the publication, then the signals (R41, R134, R137, R155). -/
theorem State.announced_running (w : WatchUnit) {s : State} {c : StationConfig} (hrun : s.ctrl.phase = .running)
    (hc : s.loader.config = some c) :
    let u := s.announced c w
    let evaluated := publishedFlags c w s u
    u.terms =
        { s.terms with
          flags := Vector.ofFn (signalledFlags c true (groupZones c) (departedGroups s.watch w) evaluated) } ∧
      drivesTaken
        (publishedRows c w s u ++ signalDrives c true (groupZones c) (departedGroups s.watch w) evaluated) s u ∧
      u.notices = signalNotices c true (groupZones c) (departedGroups s.watch w) evaluated s
        (changeNotices s (fun i => s.terms.flags[i]) evaluated s.notices) := by
  intro u evaluated
  have hframe := s.published_frame w
  have htable : u.table = (s.published w).table := (s.announced_frame c w).2.2.2.1
  have hends : EndsAlike _ u := State.announce_ends s.watch w _
  have hevaluated : evaluated = publishedFlags c w s (s.published w) := publishedFlags_congr htable
  obtain ⟨hflags, hdrives, hnotices⟩ := State.published_running w hrun hc
  obtain ⟨hown, hpeer, hrel⟩ := s.published_held w
  obtain ⟨hterms, hdrives', hnotices'⟩ := State.departuresSeen_running true (groupZones c) (departedGroups s.watch w)
    (v := s.published w) (by rw [hframe.1, hrun]) (by rw [hframe.2.1, hc])
  rw [hflags, ← hevaluated] at hterms hdrives' hnotices'
  refine ⟨?_, ?_, ?_⟩
  · rw [hends.terms, hterms]
    simp only [hown, hpeer, hrel]
  · rw [publishedRows_congr htable]
    exact drivesTaken_alike (StartsAlike.refl s) hends (drivesTaken_trans hdrives hdrives')
  · rw [hends.notices, hnotices', hnotices, ← hevaluated, signalNotices_congr (s := s) (by rw [hframe.1])]

/-- The evaluator up to the announcement outside RUNNING: own signals are held in LISTENING and JOINING, and nothing
else is done (R132, R135). -/
theorem State.announced_outside (c : StationConfig) (w : WatchUnit) {s : State} (hrun : s.ctrl.phase ≠ .running) :
    ∃ m, (s.announced c w).terms = { s.terms with heldOwn := m } ∧
      (if s.ctrl.phase = .listening ∨ s.ctrl.phase = .joining then
        ∀ z, inZones m z = (inZones s.terms.heldOwn z || zoneNamed (groupZones c) (departedGroups s.watch w) z)
      else m = s.terms.heldOwn) ∧
      drivesTaken [] s (s.announced c w) ∧ (s.announced c w).notices = s.notices := by
  have hctrl := (s.published_frame w).1
  have hends : EndsAlike _ (s.announced c w) := State.announce_ends s.watch w _
  obtain ⟨hterms, hdrives, hnotices⟩ := State.published_outside w hrun
  split
  · next hphase =>
    obtain ⟨m, hheld, hzones⟩ := State.departuresSeen_heldOwn (groupZones c) (departedGroups s.watch w)
      (s.published w) (by rw [hctrl]; exact hphase)
    rw [hheld] at hends
    rw [hterms] at hzones hends
    exact ⟨m, hends.terms, hzones, drivesTaken_alike (StartsAlike.refl s) hends hdrives, hends.notices.trans hnotices⟩
  · next hphase =>
    rw [State.departuresSeen_lost _ (s.published w) (by rw [hctrl]; exact hrun) (by rw [hctrl]; exact hphase)] at hends
    exact ⟨s.terms.heldOwn, hends.terms.trans hterms, rfl, drivesTaken_alike (StartsAlike.refl s) hends hdrives,
      hends.notices.trans hnotices⟩

/-- The slate up to the announcement (R43, R75, R89, R92). -/
theorem State.announced_slate (c : StationConfig) (w : WatchUnit) (s : State) :
    (s.announced c w).slate =
      if (groupIndices.any (departedAt s.watch w) || groupIndices.any (restoredAt s.watch w)) && s.takes .change then
        { s.slate with
          change := some (changeMerged (s.onLine .change) s.slate.change)
          departureOwed := s.slate.departureOwed || groupIndices.any (departedAt s.watch w) }
      else s.slate := by
  obtain ⟨v, hv⟩ : ∃ v, v = (s.published w).departuresSeen (signalsOf true (groupZones c) (departedGroups s.watch w)) :=
    ⟨_, rfl⟩
  have hannounced : s.announced c w = v.announce s.watch w := by rw [hv]; rfl
  have hslate : v.slate = s.slate := by simp [hv]
  have htakes : v.takes .change = s.takes .change := State.takes_congr (by simp [hv]) (by simp [hv]) .change
  have honLine : v.onLine .change = s.onLine .change := State.onLine_congr (by simp [hv]) .change
  rw [hannounced, State.announce_slate, htakes, honLine, hslate]

/-! ### The whole event -/

theorem exec_sampleEvent {x : SenseSample} {s : State} {c : StationConfig} (hs : s.watch.sampling = true)
    (hc : s.loader.config = some c) : exec (.sampleEvent x) s = .next (s.sampleTaken c x) := by
  simp only [exec, execSampleEvent, hs, hc]

/-- While the watch unit's timer is stopped there is no sample event (R46). -/
theorem exec_sampleEvent_stopped {x : SenseSample} {s : State} (hs : s.watch.sampling = false) :
    exec (.sampleEvent x) s = .next s := by
  simp only [exec, execSampleEvent, hs]

/-- Only the self entry is published (R41). -/
theorem State.sampleTaken_updates (c : StationConfig) (x : SenseSample) (s : State) :
    updatesEntry s.ctrl.ownNumber
      (fun e => { e with report := e.report.map (StoredReport.published s.watch (s.watch.sampled c.groups x)) }) s
      (s.sampleTaken c x) :=
  (s.published_selfUpdated _).entries.of_entries (fun _ => rfl) (fun m => State.entry_of_table (by
    rw [State.sampleTaken_eq, (State.relSampled_frame _ _ _).2.2.2.2.2.2.1, (s.announced_frame c _).2.2.2.1]) m)

/-- The CHANGE slot and the departure-owed flag after a sample event: REL's sample does not reach them (R43, R89,
R92). -/
theorem State.sampleTaken_change (x : SenseSample) {s : State} {c : StationConfig} (hc : s.loader.config = some c) :
    let w := s.watch.sampled c.groups x
    let departed := groupIndices.any (departedAt s.watch w)
    let restored := groupIndices.any (restoredAt s.watch w)
    let t := s.sampleTaken c x
    if (departed || restored) && s.takes .change then
      t.slate.change = some (changeMerged (s.onLine .change) s.slate.change) ∧
        t.slate.departureOwed = (s.slate.departureOwed || departed)
    else t.slate.change = s.slate.change ∧ t.slate.departureOwed = s.slate.departureOwed := by
  intro w departed restored t
  have hslate : t.slate = { (s.announced c w).slate with release := t.slate.release } := by
    have hloader := (s.announced_frame c w).2.1
    rw [show t.slate = _ from State.relSampled_slate c.releaseZones (relActive x) (u := s.announced c w)
      (by rw [hloader, hc])]
  rw [hslate, State.announced_slate]
  split
  · exact ⟨rfl, rfl⟩
  · exact ⟨rfl, rfl⟩

/-- A report that showed the watch unit's records shows the new ones after the publication (R41). -/
theorem StoredReport.published_eq {old new : WatchUnit} {r : StoredReport} (h : r.content.groups = old.records) :
    r.published old new = { r with content := { r.content with groups := new.records } } := by
  rw [StoredReport.published]
  split
  · next hsame => rw [hsame, ← h]
  · rfl

/-- Settles O15: the records line by line, the self entry by its publication, the slate by the announcement. -/
theorem sampleEventPublishesAndAnnounces : Obligations.SampleEventPublishesAndAnnounces := by
  unfold Obligations.SampleEventPublishesAndAnnounces
  refine ⟨fun w w' g => ⟨fun k => ?_, ?_, ?_, departedAt_iff w w' g, restoredAt_iff w w' g⟩, ?_⟩
  · rw [WatchUnit.record_line, Filter.published_eq]
  · exact (w.record_state g).1
  · exact (w.record_state g).2
  · intro x s c r hs hc hown hr hgroups
    refine ⟨_, exec_sampleEvent hs hc, ?_, ?_⟩
    · rw [(s.sampleTaken_updates c x).same hown, hr, s.sampleTaken_watch, Option.map_some,
        StoredReport.published_eq hgroups]
    · rw [s.sampleTaken_watch]
      exact State.sampleTaken_change x hc

/-! ### The evaluator after the whole event (R41, R132 to R144) -/

/-- Up to its announcement an event leaves REL's filter and the zones held from peers, in every phase (R135, R141). -/
theorem State.announced_kept (w : WatchUnit) {s : State} {c : StationConfig} (hc : s.loader.config = some c) :
    (s.announced c w).terms.rel = s.terms.rel ∧ (s.announced c w).terms.heldPeer = s.terms.heldPeer := by
  by_cases hrun : s.ctrl.phase = .running
  · rw [(State.announced_running w hrun hc).1]; exact ⟨rfl, rfl⟩
  · obtain ⟨m, hterms, _⟩ := State.announced_outside c w hrun
    rw [hterms]; exact ⟨rfl, rfl⟩

/-- The zones held from the own signals (R135, R136). -/
theorem State.announced_heldOwn (w : WatchUnit) {s : State} {c : StationConfig} (hc : s.loader.config = some c) :
    if s.ctrl.phase = .listening ∨ s.ctrl.phase = .joining then
      ∀ z, inZones (s.announced c w).terms.heldOwn z =
        (inZones s.terms.heldOwn z || zoneNamed (groupZones c) (departedGroups s.watch w) z)
    else (s.announced c w).terms.heldOwn = s.terms.heldOwn := by
  by_cases hrun : s.ctrl.phase = .running
  · rw [if_neg (by simp [hrun]), (State.announced_running w hrun hc).1]
  · obtain ⟨m, hterms, hheld, _⟩ := State.announced_outside c w hrun
    rw [hterms]; exact hheld

/-- REL's filter and the held zones after a sample event (R135, R141). -/
theorem State.sampleTaken_held (x : SenseSample) {s : State} {c : StationConfig} (hc : s.loader.config = some c) :
    (s.sampleTaken c x).terms.rel = s.terms.rel.sample relDepth (relActive x) ∧
      (s.sampleTaken c x).terms.heldPeer = s.terms.heldPeer ∧
      (s.sampleTaken c x).terms.heldOwn = (s.announced c (s.watch.sampled c.groups x)).terms.heldOwn := by
  have hc' : (s.announced c (s.watch.sampled c.groups x)).loader.config = some c := by
    rw [(s.announced_frame c _).2.1, hc]
  obtain ⟨hrel, hown, hpeer⟩ := State.relSampled_rel c.releaseZones (relActive x) hc'
  obtain ⟨hrel', hpeer'⟩ := State.announced_kept (s.watch.sampled c.groups x) hc
  rw [hrel'] at hrel
  exact ⟨hrel, hpeer.trans hpeer', hown⟩

/-- REL is pressed at the sample event from s to t, in RUNNING with zones to release (R142, R144). -/
def pressReleases (c : StationConfig) (s t : State) : Bool :=
  decide (s.terms.rel.filtered = some false ∧ t.terms.rel.filtered = some true ∧ s.ctrl.phase = .running ∧
    c.releaseZones ≠ 0)

theorem State.announced_releases (x : SenseSample) {s : State} {c : StationConfig} (hc : s.loader.config = some c) :
    (s.announced c (s.watch.sampled c.groups x)).relReleases c.releaseZones (relActive x) =
      pressReleases c s (s.sampleTaken c x) := by
  rw [State.relReleases, pressReleases, (State.sampleTaken_held x hc).1, (State.announced_kept _ hc).1,
    (s.announced_frame c _).1]

/-- What a sample event leaves in the evaluator, the drives and the queue in RUNNING, in the order of R32. -/
theorem State.sampleTaken_running (x : SenseSample) {s : State} {c : StationConfig} (hrun : s.ctrl.phase = .running)
    (hc : s.loader.config = some c) :
    let w := s.watch.sampled c.groups x
    let t := s.sampleTaken c x
    let departed := departedGroups s.watch w
    let evaluated := publishedFlags c w s t
    let signalled := signalledFlags c true (groupZones c) departed evaluated
    let releases := pressReleases c s t
    let notices := signalNotices c true (groupZones c) departed evaluated s
      (changeNotices s (fun i => s.terms.flags[i]) evaluated s.notices)
    (∀ i : Fin 16, t.terms.flags[i] = if releases then releasedFlags c c.releaseZones signalled i else signalled i) ∧
      drivesTaken
        (publishedRows c w s t ++ signalDrives c true (groupZones c) departed evaluated ++
          (if releases then [runningDrives c t.terms.flags] else [])) s t ∧
      t.notices = if releases then releaseNotices c c.releaseZones none signalled s notices else notices := by
  intro w t departed evaluated signalled releases notices
  obtain ⟨u, hu⟩ : ∃ u, u = s.announced c w := ⟨_, rfl⟩
  obtain ⟨hctrl, hloader, _⟩ := s.announced_frame c w
  obtain ⟨hterms, hdrives, hnotices⟩ := State.announced_running w hrun hc
  have ht : t = u.relSampled c.releaseZones (relActive x) := by rw [hu]; rfl
  rw [← hu] at hctrl hloader hterms hdrives hnotices
  have htable : t.table = u.table := by rw [ht, (State.relSampled_frame _ _ _).2.2.2.2.2.2.1]
  have hevaluated : publishedFlags c w s u = evaluated := (publishedFlags_congr htable).symm
  have hflags : (fun i : Fin 16 => u.terms.flags[i]) = signalled := by
    funext i
    rw [hterms, hevaluated]
    simp [signalled, departed]
  obtain ⟨hflags', hdrives', hnotices'⟩ := State.relSampled_running c.releaseZones (relActive x) (u := u)
    (by rw [hctrl, hrun]) (by rw [hloader, hc])
  have hreleases : u.relReleases c.releaseZones (relActive x) = releases := by
    rw [hu]; exact State.announced_releases x hc
  rw [hflags, ← ht, hreleases] at hflags' hnotices'
  rw [← ht, hreleases] at hdrives'
  rw [hevaluated] at hdrives hnotices
  refine ⟨fun i => ?_, ?_, ?_⟩
  · rw [hflags' i]
  · rw [publishedRows_congr htable]
    exact drivesTaken_trans hdrives hdrives'
  · rw [hnotices', hnotices, releaseNotices_congr (s := s) (by rw [hctrl])]

/-- Outside RUNNING a sample event leaves terms, drives and queue (R132, R134, R142). -/
theorem State.sampleTaken_outside (c : StationConfig) (x : SenseSample) {s : State} (hrun : s.ctrl.phase ≠ .running) :
    (s.sampleTaken c x).terms.flags = s.terms.flags ∧ drivesTaken [] s (s.sampleTaken c x) ∧
      (s.sampleTaken c x).notices = s.notices := by
  obtain ⟨m, hterms, _, hdrives, hnotices⟩ := State.announced_outside c (s.watch.sampled c.groups x) hrun
  have hctrl := (s.announced_frame c (s.watch.sampled c.groups x)).1
  rw [State.sampleTaken_eq, State.relSampled_outside _ _ (by rw [hctrl]; exact hrun)]
  exact ⟨congrArg (fun e => e.flags) hterms, hdrives, hnotices⟩

/-- The slate after a sample event, but for the CHANGE request (R75, R91, R144). -/
theorem State.sampleTaken_slate (x : SenseSample) {s : State} {c : StationConfig} (hc : s.loader.config = some c) :
    let t := s.sampleTaken c x
    let releases := pressReleases c s t
    t.slate = { s.slate with
      change := t.slate.change, departureOwed := t.slate.departureOwed
      release :=
        if releases && c.networkRelease && decide (s.health.state ≠ .withdrawn) then
          some (releaseMerged (s.onLine .release) c.releaseZones s.slate.release)
        else s.slate.release } := by
  intro t releases
  obtain ⟨u, hu⟩ : ∃ u, u = s.announced c (s.watch.sampled c.groups x) := ⟨_, rfl⟩
  obtain ⟨_, hloader, hhealth, _, _, hengine⟩ := s.announced_frame c (s.watch.sampled c.groups x)
  rw [← hu] at hloader hhealth hengine
  have hkept : u.slate = { s.slate with change := u.slate.change, departureOwed := u.slate.departureOwed } := by
    rw [hu, State.announced_slate]
    split <;> rfl
  have hslate : (u.relSampled c.releaseZones (relActive x)).slate = _ :=
    State.relSampled_slate _ _ (c := c) (by rw [hloader, hc])
  have ht : t = u.relSampled c.releaseZones (relActive x) := by rw [hu]; rfl
  have hreleases : u.relReleases c.releaseZones (relActive x) = releases := by
    rw [hu]; exact State.announced_releases x hc
  rw [← ht, hreleases, hhealth, State.onLine_congr hengine] at hslate
  rw [hslate, hkept]

/-- Settles O13: the filters and the groups by the watch unit's laws, evaluator and queue by the order of R32, the slate
by what the announcement and the release leave. -/
theorem sampleEventFiltersEveryLine : Obligations.SampleEventFiltersEveryLine := by
  unfold Obligations.SampleEventFiltersEveryLine
  refine ⟨fun x s c hs hc => ⟨_, exec_sampleEvent hs hc, ?lines, ?rel, ?groups, ?sampling, ?blocks, ?entries, ?terms⟩,
    fun x s hs => exec_sampleEvent_stopped hs⟩
  case lines =>
    intro k
    rw [s.sampleTaken_watch]
    exact WatchUnit.sampled_line c.groups x s.watch k
  case rel =>
    rw [(State.sampleTaken_held x hc).1]
    exact Filter.sample_rel s.terms.rel x
  case groups =>
    intro g
    rw [s.sampleTaken_watch]
    exact ⟨WatchUnit.sampled_group_state_eq c.groups x s.watch g, WatchUnit.sampled_group_tally c.groups x s.watch g⟩
  case sampling =>
    rw [s.sampleTaken_watch]
    exact hs
  case blocks =>
    intro b hb
    cases b <;> simp_all [sameBlock]
  case entries => exact (s.sampleTaken_updates c x).kept
  case terms =>
    obtain ⟨_, hpeer, hown⟩ := State.sampleTaken_held x hc
    have hheld := State.announced_heldOwn (s.watch.sampled c.groups x) hc
    rw [← hown] at hheld
    rw [s.sampleTaken_watch]
    refine ⟨?_, hpeer, hheld, State.sampleTaken_slate x hc⟩
    split
    · next hrun => exact State.sampleTaken_running x hrun hc
    · next hrun => exact State.sampleTaken_outside c x hrun

end Sys2Proof.Machine
end

section
/-! SUPPORT. The line and the engine after each operation of the frame engine, and the bit grid through a run of bit
periods (R48, R96, R100, R101). -/

namespace Sys2Proof.Machine

/-! ### The line -/

@[simp] theorem State.passBits_line (free : Bool) (ps : List BitPeriod) (q : Quarter) (s : State) :
    (s.passBits free ps q).line = { s.line with grid := s.line.grid.map (Grid.after free ps q) } := rfl

@[simp] theorem State.beginPeriod_line (gap : List BitPeriod) (edge : Option Int) (s : State) :
    (s.beginPeriod gap edge).line =
      { s.line with grid := s.line.grid.map (fun g => (Grid.after true gap .q4 g).next true edge) } := rfl

@[simp] theorem State.setTrails_line (n : Nat) (s : State) : (s.setTrails n).line = { s.line with trailCount := n } := rfl

@[simp] theorem State.stopDriving_line (s : State) : s.stopDriving.line = { s.line with len := false, ltx := false } := rfl

theorem LineInterface.drive_eq (qs : List QuarterDrive) (l : LineInterface) :
    l.drive qs =
      { l with drove := qs, len := (qs.getLastD QuarterDrive.off).len, ltx := (qs.getLastD QuarterDrive.off).ltx } := rfl

@[simp] theorem State.followed_line (f : Frame) (ps : List BitPeriod) (q : Quarter) (r : Reception) (s : State) :
    (s.followed f ps q r).line =
      { s.line with
        grid := s.line.grid.map (Grid.after false (laterPeriods f ps) q), trailCount := r.trails, drove := [] } := rfl

/-! ### The engine -/

@[simp] theorem State.setFrame_engine (x : EngineState) (f : Frame) (s : State) :
    (s.setFrame x f).engine = { s.engine with state := x, frame := some f } := rfl

@[simp] theorem State.enterIdle_engine (n : Nat) (s : State) :
    (s.enterIdle n).engine = { s.engine with
      state := .idle, gapCount := n, ableAtIdle := s.mayContend, frame := none
      gapRequirement :=
        gapRequirementFor s.health.state (s.engine.frame.any (fun f => decide (f.role = .sender))) } := rfl

@[simp] theorem State.countOutcome_engine (o : FrameOutcome) (s : State) :
    (s.countOutcome o).engine = { s.engine with counters := s.engine.counters.count o } := rfl

/-! ### The bit grid (R100, R101) -/

/-- How far a bit period's start lies from the one before it: in a gap every edge restarts the grid, within a frame
those in the resynchronisation window. -/
def periodUnits (free : Bool) (edge : Option Int) : Int :=
  64 + (if free then edge else edge.filter (fun d => decide (-8 ≤ d ∧ d ≤ 8))).getD 0

theorem Grid.next_eq (free : Bool) (edge : Option Int) (g : Grid) :
    g.next free edge = { period := g.period + 1, quarter := .q1, start := g.start + periodUnits free edge } := by
  have hunits : bitUnits = 64 := rfl
  simp only [Grid.next, periodUnits]
  cases edge with
  | none => simp [hunits]
  | some d =>
    have hwindow : inResyncWindow d = decide (-8 ≤ d ∧ d ≤ 8) := rfl
    cases free
    · by_cases hd : -8 ≤ d ∧ d ≤ 8
      · simp only [hwindow, hunits, Option.filter, hd, decide_true, Bool.false_eq_true, false_or, if_true, if_false,
          Option.getD_some, and_self, Int.add_assoc]
      · simp only [hwindow, hunits, Option.filter, decide_eq_false hd, Bool.false_eq_true, or_self, if_false,
          Option.getD_none, Int.add_zero]
    · simp [hunits, Int.add_assoc]

/-- The grid after a run of bit periods, each taking its own length. -/
theorem Grid.after_eq (free : Bool) (ps : List BitPeriod) (q : Quarter) (g : Grid) :
    g.after free ps q =
      { period := g.period + ps.length, quarter := q
        start := g.start + (ps.map (fun p => periodUnits free p.edge)).sum } := by
  rw [Grid.after]
  induction ps generalizing g with
  | nil => simp
  | cons p ps ih =>
    rw [List.foldl_cons, ih, Grid.next_eq]
    simp only [List.length_cons, List.map_cons, List.sum_cons, Grid.mk.injEq, true_and]
    exact ⟨by omega, by omega⟩

/-- In a gap, in the words of the statements (R101, R103). -/
theorem Grid.after_gap (ps : List BitPeriod) (q : Quarter) (g : Grid) :
    g.after true ps q = { period := g.period + ps.length, quarter := q, start := startAfterGap g.start ps } :=
  Grid.after_eq true ps q g

/-- Within a frame, in the words of the statements (R100). -/
theorem Grid.after_bits (ps : List BitPeriod) (q : Quarter) (g : Grid) :
    g.after false ps q = { period := g.period + ps.length, quarter := q, start := startAfterBits g.start ps } :=
  Grid.after_eq false ps q g

/-- The grid in the bit period that begins after a gap (R100 to R102). -/
theorem Grid.next_after_gap (gap : List BitPeriod) (edge : Option Int) (q : Quarter) (g : Grid) :
    (g.after true gap q).next true edge =
      { period := g.period + gap.length + 1, quarter := .q1
        start := startAfterGap g.start gap + 64 + edge.getD 0 } := by
  rw [Grid.after_gap, Grid.next_eq, periodUnits, if_pos rfl, Int.add_assoc]

end Sys2Proof.Machine
end

section
/-! What each command does to the driver and the engine's state: it leaves both, releases or leaves a silent driver, starts
a frame of the station's own, or goes on with its body (R47, R53, R96, R109). -/

namespace Sys2Proof.Machine

/-! ### The condition on the driver -/

/-- The station sends its start bit, key, body or check: then, and only then, its driver is on between two commands (R47,
R96). -/
def State.sends (s : State) : Bool := decide (s.engine.state = .contending) || decide (s.engine.state = .sending)

theorem State.sends_iff (s : State) :
    s.sends = true ↔ s.engine.state = .contending ∨ s.engine.state = .sending := by
  rw [State.sends, Bool.or_eq_true, decide_eq_true_iff, decide_eq_true_iff]

/-- While the engine is in a state that drives nothing the station sends nothing. -/
theorem State.sends_of_state {s : State} {x : EngineState} (h : s.engine.state = x)
    (hx : x ≠ .contending ∧ x ≠ .sending) : s.sends = false := by
  rw [State.sends, h, decide_eq_false hx.1, decide_eq_false hx.2]; rfl

/-- No quarter of a row drives LTX with LEN off (R96). -/
def quartersRight (qs : List QuarterDrive) : Prop := ∀ q ∈ qs, q.ltx = true → q.len = true

/-- The condition of `driverOk`, part by part. -/
structure State.DriverRight (s : State) : Prop where
  stopped : s.engineRuns = false → s.engine.state = .idle ∧ s.engine.frame = none
  len : s.line.len = s.sends
  ltx : s.line.ltx = true → s.line.len = true
  drove : quartersRight s.line.drove
  withdrawn : s.health.state = .withdrawn → s.sends = false ∧ s.drivenSlot = none

theorem State.driverOk_iff (s : State) : s.driverOk = true ↔ s.DriverRight := by
  have hor : ∀ a b : Bool, (a || b) = true ↔ (a = false → b = true) := by decide
  have hquarters : (s.line.drove.all fun q => !q.ltx || q.len) = true ↔ quartersRight s.line.drove := by
    simp only [List.all_eq_true, quartersRight, hor, Bool.not_eq_false']
  have hparts : s.driverOk = ((s.engineRuns || (decide (s.engine.state = .idle) && s.engine.frame.isNone)) &&
      decide (s.line.len = s.sends) && (!s.line.ltx || s.line.len) && (s.line.drove.all fun q => !q.ltx || q.len) &&
      (decide (s.health.state ≠ .withdrawn) || (!s.sends && s.drivenSlot.isNone))) := rfl
  rw [hparts]
  simp only [Bool.and_eq_true, hquarters, hor, decide_eq_true_iff, decide_eq_false_iff_not, ne_eq, not_not,
    Bool.not_eq_true', Bool.not_eq_false', Option.isNone_iff_eq_none]
  constructor
  · rintro ⟨⟨⟨⟨h1, h2⟩, h3⟩, h4⟩, h5⟩; exact ⟨h1, h2, h3, h4, h5⟩
  · rintro ⟨h1, h2, h3, h4, h5⟩; exact ⟨⟨⟨⟨h1, h2⟩, h3⟩, h4⟩, h5⟩

/-- A station that sends nothing meets the rest of the condition. -/
structure State.Silent (s : State) : Prop where
  sends : s.sends = false
  stopped : s.engineRuns = false → s.engine.state = .idle ∧ s.engine.frame = none
  drove : quartersRight s.line.drove
  confirm : s.health.state = .withdrawn → s.drivenSlot = none

theorem State.drivenSlot_none {s : State} (h : s.engine.state ≠ .confirming) : s.drivenSlot = none := by
  rw [State.drivenSlot, State.frameIn, if_neg (fun hc => h hc.2)]
  rfl

/-- An engine that runs and neither sends nor waits for a window is silent. -/
theorem State.Silent.of_state {s : State} {x : EngineState} (hruns : s.engineRuns = true) (hstate : s.engine.state = x)
    (hx : x = .idle ∨ x = .receiving ∨ x = .discarding) (hdrove : quartersRight s.line.drove) : s.Silent := by
  refine ⟨?_, fun h => by simp [h] at hruns, hdrove, fun _ => State.drivenSlot_none ?_⟩
  · rw [State.sends, hstate]; rcases hx with rfl | rfl | rfl <;> rfl
  · rw [hstate]; rcases hx with rfl | rfl | rfl <;> decide

/-- So is a stopped engine, IDLE with no frame (log 9). -/
theorem State.Silent.of_stopped {s : State} (hidle : s.engine.state = .idle) (hframe : s.engine.frame = none)
    (hdrove : quartersRight s.line.drove) : s.Silent :=
  ⟨by rw [State.sends, hidle]; rfl, fun _ => ⟨hidle, hframe⟩, hdrove,
    fun _ => State.drivenSlot_none (by rw [hidle]; decide)⟩

/-- What the condition looks at is the same in two states. -/
structure State.DriverKept (s t : State) : Prop where
  engine : t.engine = s.engine
  line : t.line = s.line
  health : t.health = s.health
  runs : t.engineRuns = s.engineRuns
  own : t.ctrl.ownNumber = s.ctrl.ownNumber

theorem State.DriverKept.refl (s : State) : s.DriverKept s := ⟨rfl, rfl, rfl, rfl, rfl⟩

/-- An operation that leaves controller, engine, line and health keeps it. -/
theorem State.DriverKept.of_blocks {s t : State} (hctrl : t.ctrl = s.ctrl) (hengine : t.engine = s.engine)
    (hline : t.line = s.line) (hhealth : t.health = s.health) : s.DriverKept t :=
  ⟨hengine, hline, hhealth, by rw [State.engineRuns, hctrl]; rfl, by rw [hctrl]⟩

theorem State.DriverKept.sends {s t : State} (h : s.DriverKept t) : t.sends = s.sends := by
  rw [State.sends, h.engine]; rfl

theorem State.DriverKept.right {s t : State} (h : s.DriverKept t) (hs : s.DriverRight) : t.DriverRight := by
  have hslot : t.drivenSlot = s.drivenSlot := by
    simp only [State.drivenSlot, State.frameIn, h.engine, h.runs, h.own]
  refine ⟨?_, ?_, ?_, ?_, ?_⟩
  · rw [h.runs, h.engine]; exact hs.stopped
  · rw [h.line, h.sends]; exact hs.len
  · rw [h.line]; exact hs.ltx
  · rw [h.line]; exact hs.drove
  · rw [h.health, h.sends, hslot]; exact hs.withdrawn

/-! ### What a command does -/

/-- What a command does to the driver and the engine's state. -/
inductive DriverMoved (c : Instr) (s t : State) : Prop
  /-- it leaves both -/
  | kept (same : s.DriverKept t)
  /-- a driver that was off stays off -/
  | left (off : s.sends = false) (len : t.line.len = s.line.len) (ltx : t.line.ltx = s.line.ltx) (silent : t.Silent)
  /-- a stopped engine starts in DISCARDING -/
  | listens (stopped : s.engineRuns = false) (state : t.engine.state = .discarding) (runs : t.engineRuns = true)
      (len : t.line.len = s.line.len) (ltx : t.line.ltx = s.line.ltx) (drove : t.line.drove = s.line.drove)
  /-- the driver is released -/
  | released (len : t.line.len = false) (ltx : t.line.ltx = false) (silent : t.Silent)
  /-- a start bit is driven -/
  | started (gap : List BitPeriod) (edge : Option Int) (able : Nat) (command : c = .contentionStart gap edge able)
      (starts : s.startsAt gap able edge = true) (state : t.engine.state = .contending) (runs : t.engineRuns = true)
      (len : t.line.len = true) (drove : quartersRight t.line.drove) (health : t.health.state ≠ .withdrawn)
  /-- the key is won, and the body goes on from it -/
  | won (contends : s.engine.state = .contending) (state : t.engine.state = .sending) (runs : t.engineRuns = true)
      (len : t.line.len = true) (drove : quartersRight t.line.drove) (health : t.health = s.health)
  /-- the last check bit is sent, and the driver is released there (log 10) -/
  | checked (sends : s.engine.state = .sending) (state : t.engine.state = .confirming) (runs : t.engineRuns = true)
      (len : t.line.len = false) (ltx : t.line.ltx = false) (drove : quartersRight t.line.drove)
      (health : t.health = s.health)

/-- An engine that contends or sends, and may, with its driver on, meets the condition. -/
theorem State.DriverRight.of_sends {t : State} (hruns : t.engineRuns = true) (hsends : t.sends = true)
    (hlen : t.line.len = true) (hdrove : quartersRight t.line.drove) (hable : t.health.state ≠ .withdrawn) :
    t.DriverRight :=
  ⟨fun h => by simp [h] at hruns, by rw [hlen, hsends], fun _ => hlen, hdrove, fun h => absurd h hable⟩

/-- An engine that sends nothing, with its driver off, meets the condition. -/
theorem State.DriverRight.of_silent {t : State} (h : t.Silent) (hlen : t.line.len = false) (hltx : t.line.ltx = false) :
    t.DriverRight :=
  ⟨h.stopped, by rw [hlen, h.sends], fun hl => by simp [hltx] at hl, h.drove, fun hw => ⟨h.sends, h.confirm hw⟩⟩

/-- A station that sends nothing has its driver off (R96). -/
theorem State.DriverRight.off {s : State} (hs : s.DriverRight) (h : s.sends = false) :
    s.line.len = false ∧ s.line.ltx = false := by
  have hlen : s.line.len = false := by rw [hs.len, h]
  refine ⟨hlen, ?_⟩
  by_contra hltx
  exact absurd (hs.ltx (by simpa using hltx)) (by simp [hlen])

/-- Every way in which a command moves the driver keeps the condition (R47, R96, R109). -/
theorem DriverMoved.right {c : Instr} {s t : State} (h : DriverMoved c s t) (hs : s.DriverRight) : t.DriverRight := by
  cases h with
  | kept same => exact same.right hs
  | left off len ltx silent =>
    obtain ⟨hlen, hltx⟩ := hs.off off
    exact .of_silent silent (len.trans hlen) (ltx.trans hltx)
  | listens stopped state runs len ltx drove =>
    obtain ⟨hlen, hltx⟩ := hs.off (State.sends_of_state (hs.stopped stopped).1 (by decide))
    exact .of_silent (.of_state runs state (.inr (.inr rfl)) (drove ▸ hs.drove)) (len.trans hlen) (ltx.trans hltx)
  | released len ltx silent => exact .of_silent silent len ltx
  | started gap edge able _ _ state runs len drove hable =>
    exact .of_sends runs ((State.sends_iff t).mpr (.inl state)) len drove hable
  | won contends state runs len drove health =>
    refine .of_sends runs ((State.sends_iff t).mpr (.inr state)) len drove (fun hw => ?_)
    rw [health] at hw
    exact absurd ((State.sends_iff s).mpr (.inl contends)) (by simp [(hs.withdrawn hw).1])
  | checked sends state runs len ltx drove health =>
    refine .of_silent ⟨State.sends_of_state state (by decide), fun h => by simp [h] at runs, drove, fun hw => ?_⟩ len ltx
    rw [health] at hw
    exact absurd ((State.sends_iff s).mpr (.inr sends)) (by simp [(hs.withdrawn hw).1])

/-! ### The quarters driven (R96, R98) -/

theorem quartersRight_nil : quartersRight [] := fun _ h => absurd h List.not_mem_nil

theorem quartersRight_of_len {qs : List QuarterDrive} (h : ∀ q ∈ qs, q.len = true) : quartersRight qs :=
  fun q hq _ => h q hq

theorem quartersRight_off (n : Nat) : quartersRight (List.replicate n QuarterDrive.off) := by
  intro q hq hl
  rw [List.eq_of_mem_replicate hq] at hl
  cases hl

theorem quartersRight_append {qs rs : List QuarterDrive} (hq : quartersRight qs) (hr : quartersRight rs) :
    quartersRight (qs ++ rs) := fun q h => (List.mem_append.mp h).elim (hq q) (hr q)

theorem drivenQuarters_right (bits : List Bool) : quartersRight (drivenQuarters bits) :=
  quartersRight_of_len (drivenQuarters_len bits)

theorem quartersUntil_right (q : Quarter) (bits : List Bool) : quartersRight (quartersUntil q bits) :=
  quartersRight_append (drivenQuarters_right _)
    (quartersRight_of_len (fun _ h => quartersOf_len _ _ (List.mem_of_mem_take h)))

theorem lostQuarters_right (bits : List Bool) : quartersRight (lostQuarters bits) :=
  quartersRight_append (quartersUntil_right _ _) (quartersRight_off 2)

theorem windowQuarters_right (own : Option Station) : quartersRight (windowQuarters own) := by
  intro q hq
  obtain ⟨k, _, hk⟩ := List.mem_flatMap.mp hq
  split at hk
  · exact fun _ => quartersOf_len true q hk
  · exact quartersRight_off 4 q hk

/-! ### The operations that end a frame -/

/-- A declared conflict stops the engine and releases the driver (R47, R109, R122; log 9). -/
theorem State.declareConflict_stops {y : State} (h : y.engineRuns = true) :
    y.declareConflict.ctrl.phase = .conflict ∧ y.declareConflict.engine = y.engine.stopped ∧
      y.declareConflict.line = y.line.releasedDriver := by
  rw [State.declareConflict_eq h]
  simp [State.conflictEntered]

theorem State.engineRuns_congr {s t : State} (h : t.ctrl = s.ctrl) : t.engineRuns = s.engineRuns := by
  rw [State.engineRuns, h]; rfl

/-- An outcome of the own frame stops no engine (R178). -/
theorem State.slateTakes_runs (heard : Option StationMap) (k : Kind) {s : State} (h : s.engineRuns = true) :
    (s.slateTakes heard k).engineRuns = true := by
  rw [State.engineRuns, (State.slateTakes_taken heard k s).ctrl]
  exact State.phaseAfter_runs h

theorem State.abort_runs (k : Kind) {p : State} (h : p.engineRuns = true) : (p.abort k).engineRuns = true := by
  rw [State.engineRuns, (State.abort_stands k p).1]
  exact State.slateTakes_runs none k (s := p.stopDriving.countOutcome .aborted) h

/-- Before a window's frame is closed nothing has stopped the engine but a conflict (R47, R120). -/
inductive ClosesFrame (u t : State) : Prop
  | runs (runs : t.engineRuns = true) (line : t.line = u.line)
  | stops (phase : t.ctrl.phase = .conflict) (idle : t.engine.state = .idle) (frame : t.engine.frame = none)
      (line : t.line = u.line.releasedDriver)

/-- COMPLETED at the monitor (R111, R120). -/
theorem State.completedWeighed_closes (sighted : Bool) {u : State} (h : u.engineRuns = true) :
    ClosesFrame u (u.completedWeighed sighted) := by
  by_cases hs : sighted = true ∧ u.health.sightings = 1
  · obtain ⟨rfl, hone⟩ := hs
    rw [State.completedWeighed_conflict hone]
    obtain ⟨hphase, hengine, hline⟩ := State.declareConflict_stops
      (y := (u.weighOutcome .completed).setHealth { (u.weighOutcome .completed).health with sightings := 2 })
      ((State.engineRuns_congr (by simp)).trans h)
    exact .stops hphase (by rw [hengine]; rfl) (by rw [hengine]; rfl) (by rw [hline]; simp)
  · rw [State.completedWeighed_counted hs]
    exact .runs ((State.engineRuns_congr (by simp)).trans h) (by simp)

theorem State.closeFrame_closes (f : Frame) (m : StationMap) {u : State} (h : u.engineRuns = true) :
    ClosesFrame u (u.closeFrame f m) := by
  rw [State.closeFrame]
  split
  · next v _ =>
    have htaken : (((u.mapEvidence (lessOwn u.ctrl.ownNumber m)).countOutcome .completed).slateTakes
        (some (lessOwn u.ctrl.ownNumber m)) v.slot).engineRuns = true :=
      State.slateTakes_runs _ _ ((State.engineRuns_congr (by simp)).trans h)
    have hline : (((u.mapEvidence (lessOwn u.ctrl.ownNumber m)).countOutcome .completed).slateTakes
        (some (lessOwn u.ctrl.ownNumber m)) v.slot).line = u.line := by simp
    cases State.completedWeighed_closes (inMap m u.ctrl.ownNumber) htaken with
    | runs hruns hl => exact .runs hruns (hl.trans hline)
    | stops hphase hidle hframe hl => exact .stops hphase hidle hframe (hl.trans (by rw [hline]))
  · exact .runs ((State.engineRuns_congr (by simp)).trans h) (by simp)
  · exact .runs h rfl
  · exact .runs h rfl

/-- After the hand-overs of a window the engine is IDLE with no frame, running or not (R47, R50). -/
theorem ClosesFrame.silent {u t : State} (h : ClosesFrame u t) (hlen : u.line.len = false) (hltx : u.line.ltx = false)
    (hdrove : quartersRight u.line.drove) :
    t.afterWindow.line.len = false ∧ t.afterWindow.line.ltx = false ∧ t.afterWindow.Silent := by
  cases h with
  | runs hruns hline =>
    rw [State.afterWindow_running hruns]
    refine ⟨hline ▸ hlen, hline ▸ hltx, .of_state hruns rfl (.inl rfl) ?_⟩
    exact hline ▸ hdrove
  | stops hphase hidle hframe hline =>
    have hstopped : ¬ t.engineRuns = true := by rw [State.engineRuns, hphase]; decide
    rw [State.afterWindow, if_neg hstopped]
    exact ⟨by rw [hline]; rfl, by rw [hline]; rfl, .of_stopped hidle hframe (by rw [hline]; exact hdrove)⟩

/-- A station that does not confirm has no slot to drive (R66). -/
theorem State.confirming_drivenSlot {v : Verdict} {u : State} : (u.confirming v false).drivenSlot = none := by
  rw [State.drivenSlot, Option.bind_eq_none_iff]
  intro f hf
  have hframe := (State.engineRuns_of_frameIn hf).2.2
  simp only [State.confirming, State.setEngine_engine, Option.map_eq_some_iff] at hframe
  obtain ⟨g, _, rfl⟩ := hframe
  rfl

/-- The end of a check enters the window silently: a WITHDRAWN station confirms nothing (R66, R109). -/
theorem State.confirming_silent {v : Verdict} {confirms : Bool} {u : State} (hruns : u.engineRuns = true)
    (hdrove : quartersRight u.line.drove) (hable : u.health.state = .withdrawn → confirms = false) :
    (u.confirming v confirms).Silent := by
  have hstill : (u.confirming v confirms).engineRuns = true := hruns
  refine ⟨rfl, fun h => by simp [h] at hstill, hdrove, fun hw => ?_⟩
  rw [hable hw]
  exact State.confirming_drivenSlot

theorem State.judged_silent {r : ReceivedFrame} {u : State} (hruns : u.engineRuns = true)
    (hdrove : quartersRight u.line.drove) :
    ((u.judged r).Silent ∧ (u.judged r).line = u.line) ∨
      ((u.judged r).Silent ∧ (u.judged r).line = u.line.releasedDriver) := by
  rw [State.judged]
  split
  · refine .inl ⟨State.confirming_silent ((State.engineRuns_congr (by simp)).trans hruns) ?_ (fun _ => rfl), by simp⟩
    simpa using hdrove
  · obtain ⟨hphase, hengine, hline⟩ := State.declareConflict_stops hruns
    refine .inr ⟨.of_stopped (by rw [hengine]; rfl) (by rw [hengine]; rfl) (by rw [hline]; exact hdrove), hline⟩
  · refine .inl ⟨State.confirming_silent ((State.engineRuns_congr (by simp)).trans hruns) ?_ ?_, by simp⟩
    · simpa using hdrove
    · simp

end Sys2Proof.Machine
end

section
/-! Every command's effect on the driver and the engine's state, and what follows: the driver stays off wherever the
station may not drive, and only a contention start comes to contend (R47, R53, R96, R109). -/

namespace Sys2Proof.Machine

/-! ### The commands of the line -/

/-- The engine runs while a frame of the station's own is in progress (R47). -/
theorem State.engineRuns_of_ownFrameIn {s : State} {x : EngineState} {f : Frame} {v : Served}
    (h : s.ownFrameIn x = some (f, v)) : s.engineRuns = true := by
  simp only [State.ownFrameIn, Option.bind_eq_some_iff] at h
  obtain ⟨g, hg, _⟩ := h
  exact (State.engineRuns_of_frameIn hg).1

theorem discardEnd_driver {gap : List BitPeriod} {s t : State} (h : exec (.discardEnd gap) s = .next t) :
    DriverMoved (.discardEnd gap) s t := by
  simp only [exec, execDiscardEnd] at h
  split at h
  · next hc =>
    obtain ⟨hruns, hstate, _⟩ := hc
    cases h
    exact .left (State.sends_of_state hstate (by decide)) rfl rfl
      (.of_state hruns rfl (.inl rfl) quartersRight_nil)
  · cases h; exact .kept (.refl _)

theorem frameStart_driver {gap : List BitPeriod} {edge : Int} {able : Nat} {s t : State}
    (h : exec (.frameStart gap edge able) s = .next t) : DriverMoved (.frameStart gap edge able) s t := by
  simp only [exec, execFrameStart] at h
  split at h
  · next hc =>
    obtain ⟨hruns, hstate, _⟩ := hc
    cases h
    exact .left (State.sends_of_state hstate (by decide)) rfl rfl
      (.of_state hruns rfl (.inr (.inl rfl)) quartersRight_nil)
  · cases h; exact .kept (.refl _)

theorem contentionStart_driver {gap : List BitPeriod} {edge : Option Int} {able : Nat} {s t : State}
    (h : exec (.contentionStart gap edge able) s = .next t) : DriverMoved (.contentionStart gap edge able) s t := by
  simp only [exec, execContentionStart] at h
  split at h
  · next k hstarts _ =>
    obtain ⟨_, _, ⟨⟨hphase, hhealth, _⟩, _⟩, _⟩ := (State.startsAt_iff gap able edge s).mp hstarts
    cases h
    refine .started gap edge able rfl hstarts rfl ?_ rfl ?_ hhealth
    · show s.ctrl.phase.engineRuns = true
      rcases hphase with hp | hp <;> rw [hp] <;> rfl
    · exact quartersRight_of_len (fun q hq => quartersOf_len true q (List.mem_of_mem_take hq))
  · cases h; exact .kept (.refl _)

theorem keyLost_driver {bits : List BitPeriod} {s t : State} (h : exec (.keyLost bits) s = .next t) :
    DriverMoved (.keyLost bits) s t := by
  simp only [exec, execKeyLost] at h
  split at h
  · next f v hf =>
    have hruns := State.engineRuns_of_ownFrameIn hf
    split at h
    · cases h
      refine .released (by simp) (by simp) (.of_state ((State.engineRuns_congr (by simp)).trans hruns) rfl (.inr (.inl rfl)) ?_)
      simpa using lostQuarters_right _
    · cases h; exact .kept (.refl _)
  · cases h; exact .kept (.refl _)

theorem keyWon_driver {bits : List BitPeriod} {s t : State} (h : exec (.keyWon bits) s = .next t) :
    DriverMoved (.keyWon bits) s t := by
  simp only [exec, execKeyWon] at h
  split at h
  · next f v hf =>
    have hruns := State.engineRuns_of_ownFrameIn hf
    split at h
    · cases h
      refine .won (State.ownFrameIn_state hf).1 rfl ((State.engineRuns_congr (by simp)).trans hruns) ?_ ?_ (by simp)
      · simp only [State.setFrame_frame, State.openSeries_frame]
        exact congrArg QuarterDrive.len (drivenQuarters_last (List.cons_ne_nil _ _))
      · simpa using drivenQuarters_right _
    · cases h; exact .kept (.refl _)
  · cases h; exact .kept (.refl _)

theorem lastCheckBitSent_driver {bits : List BitPeriod} {s t : State} (h : exec (.lastCheckBitSent bits) s = .next t) :
    DriverMoved (.lastCheckBitSent bits) s t := by
  simp only [exec, execLastCheckBitSent] at h
  split at h
  · next f v hf =>
    split at h
    · cases h
      refine .checked (State.ownFrameIn_state hf).1 rfl
        ((State.engineRuns_congr (by simp)).trans (State.engineRuns_of_ownFrameIn hf)) (by simp) (by simp) ?_ (by simp)
      simpa using drivenQuarters_right _
    · cases h; exact .kept (.refl _)
  · cases h; exact .kept (.refl _)

/-- An abort releases the driver and goes to DISCARDING (R62, R105). -/
theorem abort_driver {c : Instr} (k : Kind) {s p : State} (hruns : p.engineRuns = true)
    (hdrove : quartersRight p.line.drove) : DriverMoved c s (p.abort k) := by
  have hline := State.abort_line k p
  exact .released (by rw [hline]; rfl) (by rw [hline]; rfl)
    (.of_state (State.abort_runs k hruns) rfl (.inr (.inr rfl)) (by rw [hline]; exact hdrove))

theorem sendAborted_driver {bits : List BitPeriod} {s t : State} (h : exec (.sendAborted bits) s = .next t) :
    DriverMoved (.sendAborted bits) s t := by
  simp only [exec, execSendAborted] at h
  split at h
  · next hf =>
    split at h
    · cases h
      refine abort_driver _ ((State.engineRuns_congr (by simp)).trans (State.engineRuns_of_ownFrameIn hf)) ?_
      simpa using quartersUntil_right _ _
    · cases h; exact .kept (.refl _)
  · next hf =>
    split at h
    · cases h
      refine abort_driver _ ((State.engineRuns_congr (by simp)).trans (State.engineRuns_of_ownFrameIn hf)) ?_
      simpa using quartersUntil_right _ _
    · cases h; exact .kept (.refl _)
  · cases h; exact .kept (.refl _)

/-- A frame abandoned: the driver of a receiver stays off (R63, R96). -/
theorem abandon_driver {c : Instr} {s : State} {f : Frame} (hf : s.frameIn .receiving = some f) (bits : List BitPeriod)
    (q : Quarter) (r : Reception) : DriverMoved c s (s.followed f bits q r).abandon := by
  obtain ⟨hruns, hstate, _⟩ := State.engineRuns_of_frameIn hf
  refine .left (State.sends_of_state hstate (by decide)) (by simp) (by simp)
    (.of_state ((State.engineRuns_congr (by simp)).trans hruns) (by rw [State.abandon_engine]) (.inr (.inr rfl)) ?_)
  simpa using quartersRight_nil

theorem abandoning_driver {c : Instr} {bits : List BitPeriod} {s t : State}
    (hc : c = .invalidKind bits ∨ c = .framingFault bits ∨ c = .stuckDominant bits) (h : exec c s = .next t) :
    DriverMoved c s t := by
  rcases hc with rfl | rfl | rfl
  all_goals
    simp only [exec, execInvalidKind, execFramingFault, execStuckDominant] at h
    split at h
    · next f hf =>
      split at h
      · cases h; exact abandon_driver hf bits _ _
      · cases h; exact .kept (.refl _)
    · cases h; exact .kept (.refl _)

theorem frameReceived_driver {bits : List BitPeriod} {s t : State} (h : exec (.frameReceived bits) s = .next t) :
    DriverMoved (.frameReceived bits) s t := by
  rcases execFrameReceived_cases h with rfl | ⟨r, f, x, _, hf, rfl⟩
  · exact .kept (.refl _)
  · obtain ⟨hruns, hstate, _⟩ := State.engineRuns_of_frameIn hf
    rcases State.judged_silent (r := r) (u := s.followed f bits .q4 x) hruns quartersRight_nil with
      ⟨hsilent, hline⟩ | ⟨hsilent, hline⟩
    · exact .left (State.sends_of_state hstate (by decide)) (by rw [hline]; rfl) (by rw [hline]; rfl) hsilent
    · exact .released (by rw [hline]; rfl) (by rw [hline]; rfl) hsilent

theorem windowEnd_driver {slots : List BitPeriod} {s t : State} (h : exec (.windowEnd slots) s = .next t) :
    DriverMoved (.windowEnd slots) s t := by
  simp only [exec, execWindowEnd] at h
  split at h
  · next f hf =>
    split at h
    · cases h
      obtain ⟨hlen, hltx, hsilent⟩ := (State.closeFrame_closes f (confirmMapOf slots) (u := s.slotsPassed f slots)
        (State.engineRuns_of_frameIn hf).1).silent rfl rfl (windowQuarters_right _)
      exact .released hlen hltx hsilent
    · cases h; exact .kept (.refl _)
  · cases h; exact .kept (.refl _)

/-! ### Resets and loads -/

theorem resetBy_driver {c : Instr} (cause : ResetCause) (pins : Pins) (s u : State) :
    DriverMoved c s (u.resetBy cause pins) :=
  .released rfl rfl (.of_stopped rfl rfl quartersRight_nil)

theorem resetEnd_driver {x : HeldSource} {s t : State} (h : exec (.resetEnd x) s = .next t) :
    DriverMoved (.resetEnd x) s t := by
  simp only [exec, execResetEnd] at h
  split at h
  · split at h
    · cases h; exact .kept ⟨rfl, rfl, rfl, rfl, rfl⟩
    · cases h; exact .kept ⟨rfl, rfl, rfl, rfl, rfl⟩
  · cases h; exact .kept (.refl _)

/-- The engine is stopped while the loader reads (R47, R164). -/
theorem State.stopped_of_reading {s : State} (h : s.reading = true) : s.engineRuns = false := by
  rw [State.engineRuns, State.loading_of_reading h]; rfl

/-- A load that ends in a fault leaves the engine stopped (R47, R169). -/
theorem halt_driver {c : Instr} (f : FaultCode) (port : List BusOp) (l : Loader) {s : State} (h : s.reading = true) :
    DriverMoved c s ((s.setLoader l).halt f port) := by
  refine .kept ⟨?_, ?_, ?_, ?_, ?_⟩
  case refine_4 =>
    rw [State.stopped_of_reading h]
    simp [State.halt, State.engineRuns, Phase.engineRuns]
  all_goals simp [State.halt]

/-- A valid load starts the engine in DISCARDING (R52, R172). -/
theorem validLoad_driver {c : Instr} (g : StationConfig) (port : List BusOp) (x : SenseSample) (l : Loader) {s : State}
    (h : s.reading = true) : DriverMoved c s ((s.setLoader l).validLoad g port x) := by
  obtain ⟨hctrl, _⟩ := State.validLoad_blocks g port x (s.setLoader l)
  obtain ⟨_, _, _, hline, hengine, _⟩ := State.validLoad_parts g port x (s.setLoader l)
  refine .listens (State.stopped_of_reading h) (by rw [hengine]) ?_ (by rw [hline]; rfl) (by rw [hline]; rfl)
    (by rw [hline]; rfl)
  rw [State.engineRuns, hctrl]
  rfl

theorem headerRead_driver {n : Nat} {a b l r : Byte} {s t : State} (h : exec (.headerRead n a b l r) s = .next t) :
    DriverMoved (.headerRead n a b l r) s t := by
  simp only [exec, execHeaderRead] at h
  split at h
  · next hc =>
    simp only [Bool.and_eq_true] at hc
    obtain ⟨⟨hreading, _⟩, _⟩ := hc
    split at h
    · cases h; exact halt_driver _ _ s.loader hreading
    · cases h; exact .kept ⟨rfl, rfl, rfl, rfl, rfl⟩
  · cases h; exact .kept (.refl _)

theorem transportFailure_driver {n : Nat} {f : BusFault} {read : List Byte} {s t : State}
    (h : exec (.transportFailure n f read) s = .next t) : DriverMoved (.transportFailure n f read) s t := by
  simp only [exec, execTransportFailure] at h
  split at h
  · next hc =>
    simp only [Bool.and_eq_true] at hc
    obtain ⟨⟨hreading, _⟩, _⟩ := hc
    split at h
    · cases h; exact .kept ⟨rfl, rfl, rfl, rfl, rfl⟩
    · cases h; exact halt_driver _ _ s.loader hreading
  · cases h; exact .kept (.refl _)

theorem pauseEnd_driver {s t : State} (h : exec .pauseEnd s = .next t) : DriverMoved .pauseEnd s t := by
  simp only [exec, execPauseEnd] at h
  split at h
  · cases h; exact .kept ⟨rfl, rfl, rfl, rfl, rfl⟩
  · cases h; exact .kept (.refl _)

theorem imageComplete_driver {rest : List Byte} {x : SenseSample} {s t : State}
    (h : exec (.imageComplete rest x) s = .next t) : DriverMoved (.imageComplete rest x) s t := by
  simp only [exec, execImageComplete] at h
  split at h
  · next hc =>
    simp only [Bool.and_eq_true] at hc
    obtain ⟨⟨hreading, _⟩, _⟩ := hc
    split at h
    · cases h; exact halt_driver _ _ _ hreading
    · cases h; exact validLoad_driver _ _ x _ hreading
  · cases h; exact .kept (.refl _)

/-! ### Samples, ticks and the tap port -/

theorem sampleEvent_driver {x : SenseSample} {s t : State} (h : exec (.sampleEvent x) s = .next t) :
    DriverMoved (.sampleEvent x) s t := by
  simp only [exec, execSampleEvent] at h
  split at h
  · cases h; exact .kept (.of_blocks (by simp) (by simp) (by simp) (by simp))
  · cases h; exact .kept (.refl _)

/-- A tick moves the phase from LISTENING to JOINING at most, and the engine runs in both (R47, R175). -/
theorem refreshTicked_driver {c : Instr} (order : TickOrder) (s : State) : DriverMoved c s (s.refreshTicked order) := by
  have hctrl := State.refreshTicked_ctrl order s
  rw [State.listenTick_ctrl] at hctrl
  refine .kept ⟨by simp, by simp, by simp, ?_, by rw [hctrl]; rfl⟩
  rw [State.engineRuns, hctrl, State.engineRuns]
  split
  · next hj =>
    have hlistening : s.ctrl.phase = .listening := (of_decide_eq_true hj).1
    rw [hlistening]
    rfl
  · rfl

theorem tick_driver {c : Instr} {s t : State} (hc : t = s ∨ ∃ order, t = s.refreshTicked order) : DriverMoved c s t := by
  rcases hc with rfl | ⟨order, rfl⟩
  · exact .kept (.refl _)
  · exact refreshTicked_driver order s

theorem tapBytes_driver {c : Instr} (bytes : List Byte) (s : State) : DriverMoved c s (s.tapBytes bytes) :=
  .kept (.of_blocks (by simp) (by simp) (by simp) (by simp))

theorem unknownRequest_driver {b : Byte} {s t : State} (h : exec (.unknownRequest b) s = .next t) :
    DriverMoved (.unknownRequest b) s t := by
  simp only [exec, execUnknownRequest] at h
  split at h
  · cases h; exact tapBytes_driver [b] s
  · cases h; exact .kept (.refl _)

theorem tselAssert_driver {s t : State} (h : exec .tselAssert s = .next t) : DriverMoved .tselAssert s t := by
  simp only [exec, execTselAssert] at h
  split at h
  · cases h; exact .kept (.refl _)
  · split at h
    · cases h; exact .kept ⟨rfl, rfl, rfl, rfl, rfl⟩
    · cases h; exact .kept ⟨rfl, rfl, rfl, rfl, rfl⟩

theorem tselRelease_driver {tsdi : List Bool} {s t : State} (h : exec (.tselRelease tsdi) s = .next t) :
    DriverMoved (.tselRelease tsdi) s t := by
  simp only [exec, execTselRelease] at h
  split at h
  · cases h
    rw [State.endTransaction]
    split
    · exact resetBy_driver _ _ s _
    · exact .kept (.of_blocks (by simp) (by simp) (by simp) (by simp))
  · cases h; exact .kept (.refl _)

/-! ### Every command -/

/-- What each command does to the driver and the engine's state. -/
theorem exec_driverMoved {c : Instr} {s t : State} (h : exec c s = .next t) : DriverMoved c s t := by
  cases c with
  | powerOnReset => cases h; exact resetBy_driver _ _ s s
  | resetPin => cases h; exact resetBy_driver _ _ s s
  | resetEnd x => exact resetEnd_driver h
  | headerRead n a b l r => exact headerRead_driver h
  | transportFailure n f read => exact transportFailure_driver h
  | pauseEnd => exact pauseEnd_driver h
  | imageComplete rest x => exact imageComplete_driver h
  | sampleEvent x => exact sampleEvent_driver h
  | refreshTick order | peerSilent n order | listenExpiry order => exact tick_driver (tick_answer rfl h)
  | discardEnd gap => exact discardEnd_driver h
  | contentionStart gap edge able => exact contentionStart_driver h
  | keyLost bits => exact keyLost_driver h
  | keyWon bits => exact keyWon_driver h
  | sendAborted bits => exact sendAborted_driver h
  | invalidKind bits => exact abandoning_driver (.inl rfl) h
  | framingFault bits => exact abandoning_driver (.inr (.inl rfl)) h
  | stuckDominant bits => exact abandoning_driver (.inr (.inr rfl)) h
  | frameReceived bits => exact frameReceived_driver h
  | windowEnd slots => exact windowEnd_driver h
  | tselAssert => exact tselAssert_driver h
  | tselRelease tsdi => exact tselRelease_driver h
  | status | entry n | terms | counters | peek | take | release mask | resync | restart =>
    cases h; exact tapBytes_driver _ s
  | unknownRequest b => exact unknownRequest_driver h
  | frameStart gap edge able => exact frameStart_driver h
  | lastCheckBitSent bits => exact lastCheckBitSent_driver h

/-- Settles O54: every command moves the driver in one of seven ways, each of which keeps the condition. -/
theorem stepKeepsDriverOff : Obligations.StepKeepsDriverOff := by
  unfold Obligations.StepKeepsDriverOff
  intro s t hs hstep
  rw [State.driverOk_iff] at hs ⊢
  cases hpending : s.pending with
  | nil =>
    rw [step, hpending] at hstep
    cases hstep
    exact hs
  | cons c rest =>
    rw [step, hpending] at hstep
    have hqueue : s.DriverKept (s.setPending rest) := .of_blocks rfl rfl rfl rfl
    exact (exec_driverMoved hstep).right (hqueue.right hs)

/-- Settles O22: of the ways a command moves the driver only `started` comes to contend, and `startsAt_iff` gives its
conditions. -/
theorem contentionOnlyWhenAllowed : Obligations.ContentionOnlyWhenAllowed := by
  unfold Obligations.ContentionOnlyWhenAllowed
  intro c s t h hcontends hbefore
  have hsends : t.sends = true := (State.sends_iff t).mpr (.inl hcontends)
  cases exec_driverMoved h with
  | kept same => exact absurd (same.engine ▸ hcontends) hbefore
  | left _ _ _ silent => exact absurd hsends (by simp [silent.sends])
  | released _ _ silent => exact absurd hsends (by simp [silent.sends])
  | listens _ state => rw [state] at hcontends; cases hcontends
  | won _ state => rw [state] at hcontends; cases hcontends
  | checked _ state => rw [state] at hcontends; cases hcontends
  | started gap edge able command starts =>
    obtain ⟨hidle, hlead, hfirst, _⟩ := (State.startsAt_iff gap able edge s).mp starts
    exact ⟨hidle, gap, able, edge, command, hlead, hfirst⟩

end Sys2Proof.Machine
end

section
/-! The station's own frames on the line: the contention start, the key lost, the last check bit sent (R53 to R56, R62, R76,
R77, R80, R96, R98, R100, R102, R104, R105). -/

namespace Sys2Proof.Machine

/-! ### The contention start (R53, R55, R76, R77) -/

/-- The station as it drives a start bit for the slot of kind k (R53, R55, R102). -/
def State.startBitDriven (gap : List BitPeriod) (edge : Option Int) (k : Kind) (s : State) : State :=
  (((s.beginPeriod gap edge).setTrails 0).drive ((quartersOf true).take Quarter.q1.begun)).setEngine { s.engine with
    state := .contending
    gapCount := releasedAfter s.engine.gapCount gap
    frame := some (Frame.begun .sender (some (s.serve k))) }

/-- Where a station may start, the most urgent pending slot is served (R53, R76). -/
theorem exec_contentionStart {gap : List BitPeriod} {edge : Option Int} {able : Nat} {s : State}
    (h : s.startsAt gap able edge = true) :
    ∃ k, s.slate.mostUrgent = some k ∧
      exec (.contentionStart gap edge able) s = .next (s.startBitDriven gap edge k) := by
  obtain ⟨_, _, ⟨⟨_, _, hpending, _⟩, _⟩, _⟩ := (State.startsAt_iff gap able edge s).mp h
  obtain ⟨k, hk⟩ : ∃ k, s.slate.mostUrgent = some k := by
    rw [← Option.isSome_iff_exists, Slate.mostUrgent_isSome, Slate.nonEmpty_iff]
    exact hpending
  refine ⟨k, hk, ?_⟩
  simp only [exec, execContentionStart, h, hk]
  rfl

/-- What is captured for a slot, in the words of the statements (R55, R77). -/
theorem State.serve_content (k : Kind) (s : State) :
    match k with
    | .change => (s.serve k).urgency = (if s.slate.departureOwed then 7 else 5) ∧
      ∀ r, (s.entry s.ctrl.ownNumber).report = some r → (s.serve k).payload = r.content.bits
    | .release => (s.serve k).urgency = 4 ∧
      ∀ r, s.slate.release = some r → (s.serve k).payload = releasePayload r.zones
    | .join => (s.serve k).urgency = 3 ∧ ∀ c w, s.loader.config = some c → s.ctrl.fingerprint = some w →
      (s.serve k).payload = joinPayload w (Vector.ofFn (fun g : Fin 4 => c.groups[g].zone))
    | .resync => (s.serve k).urgency = 2 ∧ (s.serve k).payload = []
    | .refresh => (s.serve k).urgency = 1 ∧
      ∀ r, (s.entry s.ctrl.ownNumber).report = some r → (s.serve k).payload = r.content.bits := by
  cases k with
  | change => exact ⟨rfl, fun r hr => by simp [State.serve, State.capture, State.capture.stateBits, hr]⟩
  | release => exact ⟨rfl, fun r hr => by simp [State.serve, State.capture, hr]⟩
  | join => exact ⟨rfl, fun c w hc hw => by simp [State.serve, State.capture, hc, hw]⟩
  | resync => exact ⟨rfl, rfl⟩
  | refresh => exact ⟨rfl, fun r hr => by simp [State.serve, State.capture, State.capture.stateBits, hr]⟩

/-- Settles O21: the boundary by `startsAt_iff`, the slot by `mostUrgent_max`, the content by `serve_content`, the grid by
`next_after_gap`. -/
theorem contentionStartServesMostUrgentSlot : Obligations.ContentionStartServesMostUrgentSlot := by
  unfold Obligations.ContentionStartServesMostUrgentSlot
  intro gap able edge s hidle hlead hfirst hedge
  obtain ⟨k, hk, hexec⟩ := exec_contentionStart ((State.startsAt_iff gap able edge s).mpr ⟨hidle, hlead, hfirst, hedge⟩)
  refine ⟨_, Frame.begun .sender (some (s.serve k)), s.serve k, hexec, ?frame, rfl, rfl, rfl, rfl, rfl, rfl, rfl, rfl,
    Slate.mostUrgent_pending hk, fun j hj => Slate.mostUrgent_max _ hk hj, rfl, ?content, rfl, rfl, rfl, rfl, ?grid⟩
  case frame =>
    intro b hb
    cases b <;> simp_all [sameBlock, State.startBitDriven]
  case content =>
    have hcontent := s.serve_content k
    cases k <;> exact hcontent
  case grid =>
    simp only [State.startBitDriven, State.setEngine_line, State.drive_line, LineInterface.drive_eq, State.setTrails_line,
      State.beginPeriod_line, Option.map_map, Function.comp_def, Grid.next_after_gap]

/-! ### The key lost (R56, R80, R105) -/

theorem endsWith_lost_iff {ps : List BitPeriod} : endsWith .lost ps = .lost ↔ ps = [] := by
  cases ps <;> simp [endsWith]

theorem endsWith_aborted_ne_lost {q : Quarter} {ps : List BitPeriod} : endsWith (.aborted q) ps ≠ .lost := fun h =>
  ReadBack.noConfusion (endsWith_ne h (fun h => by cases h)).2

/-- A contender's key is lost at a bit sent 0 and read 1, every bit before it read back as sent (R56). -/
theorem contend_lost_iff (sent : List Bool) (bits : List BitPeriod) :
    contend sent bits = .lost ↔ ∃ p, readsBackUntil false sent bits false p ∧ p.lead = true ∧ p.value = true := by
  induction sent generalizing bits with
  | nil => cases bits <;> simp [contend, not_readsBackUntil_of_nil]
  | cons b bs ih =>
    cases bits with
    | nil => simp [contend, not_readsBackUntil_nil]
    | cons p ps =>
      simp only [readsBackUntil_cons]
      rcases contend_cons b bs p ps with ⟨hbit, hc⟩ | ⟨hl, hc⟩ | ⟨hl, hb, hv, hc⟩ | ⟨hl, hb, hv, hc⟩ <;> rw [hc]
      · rw [ih]
        constructor
        · rintro ⟨p', hback, hread⟩
          exact ⟨p', .inr ⟨hbit, hback⟩, hread⟩
        · rintro ⟨p', ⟨_, rfl, rfl⟩ | ⟨_, hback⟩, hread⟩
          · exact absurd (hbit.2.1.symm.trans hread.2) (by decide)
          · exact ⟨p', hback, hread⟩
      · simp [endsWith_aborted_ne_lost, readsBit, hl]
      · simp [endsWith_aborted_ne_lost, readsBit, hl, hv, hb]
      · simp [endsWith_lost_iff, readsBit, hl, hv, hb]

/-- The slot after LOST, in the words of the statements (R80, R90). -/
theorem State.slateLost_slate (k : Kind) (s : State) :
    (s.slateLost k).slate =
      match k with
      | .change => { s.slate with change := s.slate.change.map seriesAfterLost }
      | .release => { s.slate with
          release := s.slate.release.map (fun r => { r with series := seriesAfterLost r.series }) }
      | .refresh => s.slate
      | .join => s.slate
      | .resync => s.slate := by
  have hseries : Series.afterLost = seriesAfterLost := funext Series.afterLost_eq
  cases k <;> simp [State.slateLost, hseries]

theorem State.slateLost_congr {s u : State} (h : u.slate = s.slate) (k : Kind) :
    (u.slateLost k).slate = (s.slateLost k).slate := by
  rw [State.slateLost_slate, State.slateLost_slate, h]

/-- The line as a key lost leaves it: the driver off (R105). -/
def State.keyGone (f : Frame) (v : Served) (bits : List BitPeriod) (s : State) : State :=
  (((s.drive (lostQuarters ((s.contenderBits v).take bits.length))).passBits false (laterPeriods f bits) .q3).setTrails
    (countTrails 0 bits)).stopDriving

theorem exec_keyLost {bits : List BitPeriod} {s : State} {f : Frame} {v : Served}
    (hf : s.ownFrameIn .contending = some (f, v)) (hlost : contend (s.contenderBits v) bits = .lost) :
    exec (.keyLost bits) s = .next (((s.keyGone f v bits).lostTaken v.slot).setFrame .receiving
      { f with role := .receiver, position := bits.length, bits := readValues bits, served := none }) := by
  simp only [exec, execKeyLost, hf, if_pos hlost]
  rfl

/-- Settles O23: the read-back by induction; LOST reaches the counters and the slot alone. -/
theorem keyLostBecomesReceiver : Obligations.KeyLostBecomesReceiver := by
  unfold Obligations.KeyLostBecomesReceiver
  refine ⟨contend_lost_iff, fun bits s f v hf hlost => ⟨_, exec_keyLost hf hlost, ?frame, ?engine, ?len, ?ltx, ?slate⟩⟩
  case frame =>
    intro b hb
    cases b <;> simp_all [sameBlock, State.keyGone]
  case engine => simp [State.lostTaken, State.keyGone, StationCounters.count, readValues]
  case len => simp [State.keyGone]
  case ltx => simp [State.keyGone]
  case slate =>
    simp only [State.setFrame_frame, State.lostTaken]
    rw [State.slateLost_congr (s := s) (by simp [State.keyGone])]
    exact State.slateLost_slate v.slot s

/-! ### The last check bit (R62, R104) -/

/-- A sender's run is sent when each of its bits is read back, its trail released (R62). -/
theorem sendBody_sent_iff (sent : List Bool) (bits : List BitPeriod) :
    sendBody sent bits = .sent ↔ bits.length = sent.length ∧ readsBack true sent bits := by
  induction sent generalizing bits with
  | nil => cases bits <;> simp [sendBody]
  | cons b bs ih =>
    cases bits with
    | nil => simp [sendBody]
    | cons p ps =>
      have hended : ∀ q, endsWith (.aborted q) ps ≠ .sent := fun q h =>
        ReadBack.noConfusion (endsWith_ne h (fun h => by cases h)).2
      rw [readsBack_cons]
      rcases sendBody_cons b bs p ps with ⟨hbit, hc⟩ | ⟨hl, hc⟩ | ⟨hl, hv, hc⟩ | ⟨hl, hv, ht, hc⟩ <;> rw [hc]
      · rw [ih]; simp [hbit]
      · simp [hended, readsBit, hl]
      · simp [hended, readsBit, hv]
      · simp [hended, readsBit, ht]

/-- LEN and LTX through a row of driven bit periods, spelled out (R96, R98). -/
theorem drivenQuarters_eq (bits : List Bool) :
    drivenQuarters bits = bits.flatMap (fun b =>
      [{ len := true, ltx := true }, { len := true, ltx := b }, { len := true, ltx := b },
        { len := true, ltx := false }]) := rfl

/-- The station as the body's bit periods leave it, the driver released (log 10). -/
def State.bodyPassed (v : Served) (bits : List BitPeriod) (s : State) : State :=
  (((s.drive (drivenQuarters (s.senderBits v))).passBits false bits .q4).setTrails
    (countTrails s.line.trailCount bits)).stopDriving

theorem exec_lastCheckBitSent {bits : List BitPeriod} {s : State} {f : Frame} {v : Served}
    (hf : s.ownFrameIn .sending = some (f, v)) (hsent : sendBody (s.senderBits v) bits = .sent) :
    exec (.lastCheckBitSent bits) s = .next ((s.bodyPassed v bits).setFrame .confirming
      { f with
        position := f.position + bits.length, bits := f.bits ++ s.senderBits v, confirmMap := some 0 }) := by
  simp only [exec, execLastCheckBitSent, hf, if_pos hsent]
  rfl

/-- Settles O26: the read-back by induction, the grid by `after_bits`. -/
theorem lastCheckBitEntersWindow : Obligations.LastCheckBitEntersWindow := by
  unfold Obligations.LastCheckBitEntersWindow
  refine ⟨sendBody_sent_iff, fun bits s f v hf hsent =>
    ⟨_, exec_lastCheckBitSent hf hsent, ?frame, ?engine, ?len, ?ltx, ?drove, ?grid⟩⟩
  case frame =>
    intro b hb
    cases b <;> simp_all [sameBlock, State.bodyPassed]
  case engine => simp [State.bodyPassed]
  case len => simp [State.bodyPassed]
  case ltx => simp [State.bodyPassed]
  case drove =>
    simp only [State.bodyPassed, State.setFrame_frame, State.stopDriving_line, State.setTrails_line, State.passBits_line,
      State.drive_line, LineInterface.drive_drove, drivenQuarters_eq]
  case grid => simp [State.bodyPassed, LineInterface.drive_eq, Function.comp_def, Grid.after_bits]

end Sys2Proof.Machine
end

section
/-! A lead in IDLE, the run that ends DISCARDING, and a good frame with the own number (R50 to R53, R64, R94, R97, R100 to
R103, R121, R122, R140, R154, R180). -/

namespace Sys2Proof.Machine

/-! ### A lead in IDLE (R50, R53, R101, R102) -/

/-- Where the station itself starts no later than an edge, in the words of the statements (R53, R102; log 32). -/
theorem State.startsNoLater_iff {gap : List BitPeriod} {able : Nat} {edge : Int} {s : State}
    (hidle : s.engine.state = .idle) (hlead : gap.any isLead = false) :
    s.startsNoLater gap able edge = true ↔
      (∃ j, j < gap.length ∧ s.mayStartAfter gap able j) ∨ (s.mayStartAfter gap able gap.length ∧ -8 < edge) := by
  have hedge : (∀ d, (if 0 < edge then none else some edge) = some d → -8 < d ∧ d ≤ 0) ↔ -8 < edge := by
    by_cases hpos : 0 < edge
    · simp only [if_pos hpos]
      exact ⟨fun _ => by omega, fun _ d hd => by cases hd⟩
    · simp only [if_neg hpos, Option.some.injEq, forall_eq']
      exact ⟨fun h => h.1, fun h => ⟨h, by omega⟩⟩
  rw [State.startsNoLater, Bool.or_eq_true, State.startedBefore_iff, State.startsAt_iff, hedge, State.firstStartAt]
  constructor
  · rintro (h | ⟨_, _, ⟨h, _⟩, hd⟩)
    · exact .inl h
    · exact .inr ⟨h, hd⟩
  · rintro (h | ⟨h, hd⟩)
    · exact .inl h
    · by_cases hbefore : ∃ j, j < gap.length ∧ s.mayStartAfter gap able j
      · exact .inl hbefore
      · exact .inr ⟨hidle, hlead, ⟨h, fun j hj hm => hbefore ⟨j, hj, hm⟩⟩, hd⟩

/-- The station as the start bit of another's frame finds it (R50, R101). -/
def State.startBitSeen (gap : List BitPeriod) (edge : Int) (s : State) : State :=
  (((s.beginPeriod gap (some edge)).setTrails 0).droveNothing).setEngine { s.engine with
    state := .receiving
    gapCount := releasedAfter s.engine.gapCount gap
    frame := some (Frame.begun .receiver none) }

theorem exec_frameStart {gap : List BitPeriod} {edge : Int} {able : Nat} {s : State} (hruns : s.engineRuns = true)
    (hidle : s.engine.state = .idle) (hlead : gap.any isLead = false) (h : ¬ s.startsNoLater gap able edge = true) :
    exec (.frameStart gap edge able) s = .next (s.startBitSeen gap edge) :=
  if_pos ⟨hruns, hidle, hlead, by simpa using h⟩

/-- Where the station itself starts no later, FRAME_START brings nothing (log 3). -/
theorem exec_frameStart_starts {gap : List BitPeriod} {edge : Int} {able : Nat} {s : State}
    (h : s.startsNoLater gap able edge = true) : exec (.frameStart gap edge able) s = .next s :=
  if_neg (fun ⟨_, _, _, hlater⟩ => Bool.noConfusion (h.symm.trans hlater))

/-- Settles O27: whether the station starts no later by `startsNoLater_iff`, the grid by `next_after_gap`. -/
theorem leadInIdleStartsReception : Obligations.LeadInIdleStartsReception := by
  unfold Obligations.LeadInIdleStartsReception
  intro gap able edge s hruns hidle hlead
  refine ⟨fun ⟨hbefore, hlast⟩ => ?_, fun h =>
    exec_frameStart_starts ((State.startsNoLater_iff hidle hlead).mpr h)⟩
  have hother : ¬ s.startsNoLater gap able edge = true := by
    rw [State.startsNoLater_iff hidle hlead]
    rintro (⟨j, hj, hm⟩ | ⟨hm, hd⟩)
    · exact hbefore j hj hm
    · have := hlast hm; omega
  refine ⟨_, Frame.begun .receiver none, exec_frameStart hruns hidle hlead hother, ?_, rfl, rfl, rfl, rfl, rfl, rfl, rfl, rfl, rfl, rfl,
    rfl, ?_⟩
  · intro b hb
    cases b <;> simp_all [sameBlock, State.startBitSeen]
  · simp [State.startBitSeen, Function.comp_def, Grid.next_after_gap]

/-! ### The end of DISCARDING (R51, R52, R103) -/

theorem releasedAfter_snoc (n : Nat) (ps : List BitPeriod) (p : BitPeriod) :
    releasedAfter n (ps ++ [p]) =
      if p.lead = true ∨ p.value = true ∨ p.trail = true then 0 else releasedAfter n ps + 1 := by
  rw [releasedAfter, List.foldl_append, List.foldl_cons, List.foldl_nil, releasedRun]
  simp only [seenDominant, Bool.or_eq_true, or_assoc]
  rfl

/-- The run reaches its length at the last bit period and not before (R52). -/
theorem reachesAtEnd_iff (length n : Nat) (gap : List BitPeriod) :
    reachesAtEnd length n gap = true ↔
      gap ≠ [] ∧ length ≤ releasedAfter n gap ∧
        ∀ j, 0 < j → j < gap.length → releasedAfter n (gap.take j) < length := by
  induction gap generalizing n with
  | nil => simp [reachesAtEnd]
  | cons p ps ih =>
    rw [reachesAtEnd]
    by_cases hreached : length ≤ releasedRun n p
    · rw [if_pos hreached, List.isEmpty_iff]
      constructor
      · rintro rfl
        exact ⟨List.cons_ne_nil _ _, hreached, fun j h0 h1 => absurd h1 (by simp; omega)⟩
      · rintro ⟨_, _, hbefore⟩
        by_contra hmore
        have hone := hbefore 1 (by omega) (by simpa using List.length_pos_iff.mpr hmore)
        exact absurd hreached (by simpa using hone)
    · rw [if_neg hreached, ih]
      constructor
      · rintro ⟨hmore, hlast, hbefore⟩
        refine ⟨List.cons_ne_nil _ _, hlast, fun j h0 hj => ?_⟩
        match j with
        | 1 => simpa using hreached
        | j + 2 => exact hbefore (j + 1) (by omega) (Nat.lt_of_succ_lt_succ hj)
      · rintro ⟨_, hlast, hbefore⟩
        refine ⟨?_, hlast, fun j h0 hj => hbefore (j + 1) (by omega) (by simpa using hj)⟩
        rintro rfl
        exact hreached hlast

theorem exec_discardEnd {gap : List BitPeriod} {s : State} (hruns : s.engineRuns = true)
    (hstate : s.engine.state = .discarding) (hend : reachesAtEnd 35 s.engine.gapCount gap = true) :
    exec (.discardEnd gap) s =
      .next ((((s.passBits true (s.discardPeriods gap) .q4).setTrails 0).droveNothing).enterIdle 35) :=
  if_pos ⟨hruns, hstate, hend⟩

theorem gapRequirementFor_eq (h : Health) (own : Bool) :
    gapRequirementFor h own = if h = .restrained then 35 else if own then 16 else 11 := by
  cases own with
  | false => exact gapRequirementFor_other h
  | true => exact gapRequirementFor_own h

/-- Settles O36: the count by its recursion, the run by induction, the grid by `after_gap`. -/
theorem discardEndsAfterThirtyFive : Obligations.DiscardEndsAfterThirtyFive := by
  unfold Obligations.DiscardEndsAfterThirtyFive
  refine ⟨fun n ps p => ⟨rfl, releasedAfter_snoc n ps p⟩, fun n gap => reachesAtEnd_iff 35 n gap,
    fun gap s hruns hstate hend => ⟨_, exec_discardEnd hruns hstate hend, ?_, ?_, ?_, rfl, rfl, rfl⟩⟩
  · intro b hb
    cases b <;> simp_all [sameBlock]
  · simp only [State.enterIdle_engine, gapRequirementFor_eq]
    rfl
  · have hperiods : s.discardPeriods gap = if s.engine.frame = none then gap.drop 1 else gap := by
      simp only [State.discardPeriods, Option.isNone_iff_eq_none]
    simp [Function.comp_def, Grid.after_gap, hperiods]

/-! ### A good frame with the own number (R121, R122) -/

/-- The notices of a conflict, in the words of this statement: no term is asserted once all are cleared (R140). -/
theorem conflictNotices_eq (s : State) (flags : Fin 16 → TermFlags) (q : List Notice) :
    conflictNotices s flags q =
      termIndices.foldl (fun q i =>
          if (flags i).value = true then pushNotice q { plainNotice .termCleared s with term := some i } else q)
        (pushNotice (pushNotice q { plainNotice .duplicateNumber s with station := some s.ctrl.ownNumber })
          { plainNotice .phaseChanged s with value := some (.phase .conflict) }) := by
  rw [conflictNotices, changeNotices]
  congr 1
  funext q i
  have hquiet : ({ live := false, latched := false } : TermFlags).value = false := rfl
  rw [hquiet]
  cases (flags i).value <;> simp

/-- Settles O30: the judgement is `declareConflict`, from the state the bit periods leave. -/
theorem ownNumberReceivedEntersConflict : Obligations.OwnNumberReceivedEntersConflict := by
  unfold Obligations.OwnNumberReceivedEntersConflict
  intro bits s r c hr hwhole hown hc
  obtain ⟨f, x, hf, hexec⟩ := State.receivedFrame_spec hr
  rw [State.judged_conflict (s := s.followed f bits .q4 x) hwhole hown] at hexec
  have hdeclared := State.declareConflict_declared (y := s.followed f bits .q4 x) (State.engineRuns_of_frameIn hf).1 hc
  refine ⟨_, hexec, ?frame, hdeclared.ctrl, hdeclared.engine, by rw [hdeclared.line]; rfl, by rw [hdeclared.line]; rfl,
    hdeclared.slate, hdeclared.terms, hdeclared.drives, hdeclared.notices.trans (conflictNotices_eq _ _ _)⟩
  intro b hb
  cases b <;> simp_all [sameBlock]

end Sys2Proof.Machine
end

section
/-! Encodings: the payloads bit by bit, the check, and a frame driven and received whole (R57 to R62, R64, R200, R201). -/

namespace Sys2Proof.Machine

/-! ### Rows of bits -/

/-- The bits of a number one by one, most significant first. -/
theorem natBits_eq_map (n v : Nat) : natBits n v = (List.range n).map (fun j => v.testBit (n - 1 - j)) := by
  induction n with
  | zero => rfl
  | succ n ih =>
    rw [natBits, ih, List.range_succ_eq_map, List.map_cons, List.map_map]
    refine congrArg₂ List.cons rfl (List.map_congr_left fun j _ => ?_)
    exact congrArg v.testBit (by simp; omega)

/-- The bits of a bit vector one by one. -/
theorem natBits_toNat (n : Nat) (v : BitVec n) :
    natBits n v.toNat = (List.range n).map (fun j => v.getLsbD (n - 1 - j)) := natBits_eq_map n v.toNat

/-- The bit vector in a field that stands between two rows is read back (R200). -/
theorem fieldAt_natBits {n first : Nat} (v : BitVec n) (as cs : List Bool) (h : as.length = first) :
    BitVec.ofNat n (fieldAt (as ++ natBits n v.toNat ++ cs) first n) = v := by
  have hfield := fieldAt_middle as (natBits n v.toNat) cs
  rw [natBits_length, h] at hfield
  rw [hfield, ofNat_natBits]

/-- Row i of a run of rows of equal length. -/
theorem flatMap_row {α : Type} (f : α → List Bool) {n : Nat} (hf : ∀ a, (f a).length = n) (l : List α) (cs : List Bool)
    (i : Nat) (hi : i < l.length) : ((l.flatMap f ++ cs).drop (n * i)).take n = f l[i] := by
  induction l generalizing i with
  | nil => exact absurd hi (Nat.not_lt_zero i)
  | cons a l ih =>
    rw [List.flatMap_cons, List.append_assoc]
    cases i with
    | zero =>
      rw [Nat.mul_zero, List.drop_zero]
      exact List.take_left' (hf a)
    | succ i =>
      rw [Nat.mul_succ, Nat.add_comm, ← List.drop_drop, List.drop_left' (hf a)]
      exact ih i (Nat.lt_of_succ_lt_succ hi)

/-- The run of rows that a vector of four gives, group by group. -/
theorem toList_flatMap {α : Type} (v : Vector α 4) (f : α → List Bool) :
    v.toList.flatMap f = groupIndices.flatMap (fun g => f v[g]) := by
  have hlist : v.toList = groupIndices.map (fun g => v[g]) := by
    apply List.ext_getElem
    · simp [groupIndices]
    · intro i h1 h2
      have hi : i < 4 := by simpa using h1
      match i, hi with
      | 0, _ => rfl
      | 1, _ => rfl
      | 2, _ => rfl
      | 3, _ => rfl
  rw [hlist, List.flatMap_map]

theorem flatMap_length {α : Type} (f : α → List Bool) {n : Nat} (hf : ∀ a, (f a).length = n) (l : List α) :
    (l.flatMap f).length = n * l.length := by
  simp [List.length_flatMap, hf, Nat.mul_comm]

/-! ### STATE payloads (R59) -/

theorem GroupRecord.bits_length (x : GroupRecord) : x.bits.length = 9 := by simp [GroupRecord.bits]

theorem GroupRecord.bits_eq (x : GroupRecord) :
    x.bits = [x.lines.getLsbD 0, x.lines.getLsbD 1, x.lines.getLsbD 2, x.lines.getLsbD 3, x.conforming,
      x.tally.getLsbD 3, x.tally.getLsbD 2, x.tally.getLsbD 1, x.tally.getLsbD 0] := by
  rw [GroupRecord.bits, natBits_toNat]
  rfl

/-- A group record decodes from its nine bits. -/
theorem groupRecordOfBits_bits (x : GroupRecord) : groupRecordOfBits x.bits = x := by
  have hlines : (x.bits.take 4).reverse = natBits 4 x.lines.toNat := by
    rw [GroupRecord.bits_eq, natBits_toNat]
    rfl
  have htally : BitVec.ofNat 4 (fieldAt x.bits 5 4) = x.tally := by
    have hfield := fieldAt_natBits x.tally [x.lines.getLsbD 0, x.lines.getLsbD 1, x.lines.getLsbD 2, x.lines.getLsbD 3,
      x.conforming] [] rfl
    rwa [List.append_nil] at hfield
  rw [groupRecordOfBits, hlines, ofNat_natBits, htally]
  rfl

theorem ReportContent.bits_length (r : ReportContent) : r.bits.length = 38 := by
  simp [ReportContent.bits, flatMap_length _ GroupRecord.bits_length]

/-- A report content decodes from its payload (R59, R200). -/
theorem reportOfBits_bits (r : ReportContent) : reportOfBits r.bits = r := by
  have hgroup : ∀ g : Fin 4, groupRecordOfBits ((r.bits.drop (2 + 9 * g.val)).take 9) = r.groups[g] := by
    intro g
    have hrow := flatMap_row GroupRecord.bits GroupRecord.bits_length r.groups.toList [] g.val (by simp)
    rw [List.append_nil] at hrow
    rw [ReportContent.bits, ← List.drop_drop, List.drop_left' (by rfl), hrow, groupRecordOfBits_bits]
    rfl
  have hgroups : (Vector.ofFn fun g : Fin 4 => groupRecordOfBits ((r.bits.drop (2 + 9 * g.val)).take 9)) = r.groups := by
    simp only [hgroup]
    exact Vector.ofFn_getElem
  rw [reportOfBits, hgroups]
  rcases r with ⟨phase, health, groups⟩
  cases phase <;> cases health <;> rfl

theorem ReportContent.bits_eq (r : ReportContent) :
    r.bits = [decide (r.phase = .running), decide (r.health = .restrained)] ++
      groupIndices.flatMap (fun g => r.groups[g].bits) := by
  rw [ReportContent.bits, toList_flatMap]
  cases r.phase <;> cases r.health <;> rfl

/-! ### JOIN and RELEASE payloads (R60) -/

/-- Zone by zone, three bits each. -/
def zoneBits (zones : Vector Zone 4) : List Bool := zones.toList.flatMap (fun z => natBits 3 z.toNat)

theorem joinPayload_eq (w : Word16) (zones : Vector Zone 4) :
    joinPayload w zones = natBits 16 w.toNat ++ zoneBits zones ++ [false, true] := rfl

theorem zoneBits_length (zones : Vector Zone 4) : (zoneBits zones).length = 12 := by
  rw [zoneBits, flatMap_length (fun z : Zone => natBits 3 z.toNat) (fun z => natBits_length 3 z.toNat)]
  simp

theorem joinPayload_length (w : Word16) (zones : Vector Zone 4) : (joinPayload w zones).length = 30 := by
  simp [joinPayload_eq, zoneBits_length]

theorem joinFingerprint_payload (w : Word16) (zones : Vector Zone 4) : joinFingerprint (joinPayload w zones) = w := by
  have hfield := fieldAt_natBits w [] (zoneBits zones ++ [false, true]) rfl
  rwa [List.nil_append, ← List.append_assoc] at hfield

theorem joinZones_payload (w : Word16) (zones : Vector Zone 4) : joinZones (joinPayload w zones) = zones := by
  have hzone : ∀ g : Fin 4, BitVec.ofNat 3 (fieldAt (joinPayload w zones) (16 + 3 * g.val) 3) = zones[g] := by
    intro g
    have hrow := flatMap_row (fun z : Zone => natBits 3 z.toNat) (fun z => natBits_length 3 z.toNat) zones.toList
      [false, true] g.val (by simp)
    rw [fieldAt, joinPayload_eq, List.append_assoc, ← List.drop_drop, List.drop_left' (natBits_length _ _), zoneBits, hrow,
      ofNat_natBits]
    rfl
  rw [joinZones]
  simp only [hzone]
  exact Vector.ofFn_getElem

theorem joinRevision_payload (w : Word16) (zones : Vector Zone 4) : joinRevision (joinPayload w zones) = 1 := by
  rw [joinRevision, fieldAt, joinPayload_eq, List.drop_left' (by simp [zoneBits_length])]
  rfl

theorem zoneBits_eq (zones : Vector Zone 4) :
    zoneBits zones = groupIndices.flatMap (fun g => [zones[g].getLsbD 2, zones[g].getLsbD 1, zones[g].getLsbD 0]) := by
  rw [zoneBits, toList_flatMap]
  rfl

theorem releaseMaskOfBits_payload (m : ZoneMask) : releaseMaskOfBits (releasePayload m) = m := by
  have hfield := fieldAt_natBits m [] [] rfl
  rwa [List.nil_append, List.append_nil] at hfield

/-- Settles O48: each payload by the laws of its fields. -/
theorem payloadRoundTrips : Obligations.PayloadRoundTrips := by
  unfold Obligations.PayloadRoundTrips
  refine ⟨fun r => ⟨r.bits_length, reportOfBits_bits r, ?_⟩, fun w zones => ⟨joinPayload_length w zones,
    joinFingerprint_payload w zones, joinZones_payload w zones, joinRevision_payload w zones, ?_⟩, fun m =>
    ⟨natBits_length 8 _, releaseMaskOfBits_payload m, natBits_toNat 8 m⟩⟩
  · simp only [r.bits_eq, GroupRecord.bits_eq]
  · rw [joinPayload_eq, natBits_toNat, zoneBits_eq]

end Sys2Proof.Machine
end

section
/-! A frame driven by one station and received whole by another (R57 to R62, R64, R200, R201). -/

namespace Sys2Proof.Machine

/-! ### The check (R201) -/

theorem crc_nil : crc [] = 0xFFFF := rfl

theorem crc_snoc (bits : List Bool) (b : Bool) :
    crc (bits ++ [b]) =
      if (crc bits).getLsbD 15 = b then crc bits <<< 1 else (crc bits <<< 1) ^^^ 0b0001000000100001 := by
  have hstep : crc (bits ++ [b]) = crcStep (crc bits) b := by simp [crc, crcFrom_eq_foldl]
  rw [hstep, crcStep, BitVec.msb_eq_getLsbD_last]
  rfl

theorem bytesBits_eq (bytes : List Byte) :
    bytesBits bytes = bytes.flatMap (fun b =>
      [b.getLsbD 7, b.getLsbD 6, b.getLsbD 5, b.getLsbD 4, b.getLsbD 3, b.getLsbD 2, b.getLsbD 1, b.getLsbD 0]) := rfl

/-! ### The bits of a frame (R200) -/

/-- Key, kind, sequence and payload: the bits that the check covers (R61). -/
def coveredRow (urgency : BitVec 3) (number : Station) (k : Kind) (sequence : Nibble) (payload : List Bool) : List Bool :=
  keyBits urgency number ++ bodyBits k sequence payload

/-- A frame from its first key bit to its last check bit (R61, R62). -/
def frameRow (urgency : BitVec 3) (number : Station) (k : Kind) (sequence : Nibble) (payload : List Bool) : List Bool :=
  coveredRow urgency number k sequence payload ++ natBits 16 (crc (coveredRow urgency number k sequence payload)).toNat

section
variable (urgency : BitVec 3) (number : Station) (k : Kind) (sequence : Nibble) (payload : List Bool)

theorem keyBits_drivenBody :
    keyBits urgency number ++ drivenBody (keyBits urgency number) k sequence payload =
      frameRow urgency number k sequence payload := by
  rw [drivenBody, frameRow, coveredRow, List.append_assoc]

/-- The covered bits, position by position (R57 to R60). -/
theorem coveredRow_eq :
    coveredRow urgency number k sequence payload =
      [urgency.getLsbD 2, urgency.getLsbD 1, urgency.getLsbD 0, number.getLsbD 4, number.getLsbD 3,
        number.getLsbD 2, number.getLsbD 1, number.getLsbD 0] ++ natBits 3 k.code ++
      [sequence.getLsbD 3, sequence.getLsbD 2, sequence.getLsbD 1, sequence.getLsbD 0] ++ payload := by
  rw [coveredRow, keyBits, bodyBits, natBits_toNat, natBits_toNat, natBits_toNat]
  simp only [List.append_assoc]
  rfl

theorem coveredRow_length (h : payload.length = k.payloadBits) :
    (coveredRow urgency number k sequence payload).length = k.coveredBits := by
  simp [coveredRow, keyBits, bodyBits, Kind.coveredBits, headBits, h]
  omega

theorem frameRow_length (h : payload.length = k.payloadBits) :
    (frameRow urgency number k sequence payload).length = k.checkedBits := by
  rw [frameRow, List.length_append, coveredRow_length urgency number k sequence payload h, natBits_length, Kind.checkedBits]

/-- The parts of a frame as its fields stand (R200). -/
theorem frameRow_fields :
    frameRow urgency number k sequence payload =
      natBits 3 urgency.toNat ++ (natBits 5 number.toNat ++ (natBits 3 k.code ++ (natBits 4 sequence.toNat ++ (payload ++
        natBits 16 (crc (coveredRow urgency number k sequence payload)).toNat)))) := by
  simp only [frameRow, coveredRow, keyBits, bodyBits, List.append_assoc]

/-- The kind code of a kind names it (R58). -/
theorem kindOfCode_code : kindOfCode (bitsToNat (natBits 3 k.code)) = some k := by
  cases k <;> rfl

theorem fieldAt_frameRow_kind : kindOfCode (fieldAt (frameRow urgency number k sequence payload) 8 3) = some k := by
  have hfield := fieldAt_middle (natBits 3 urgency.toNat ++ natBits 5 number.toNat) (natBits 3 k.code)
    (natBits 4 sequence.toNat ++ (payload ++ natBits 16 (crc (coveredRow urgency number k sequence payload)).toNat))
  simp only [List.length_append, natBits_length] at hfield
  rw [frameRow_fields]
  simp only [List.append_assoc] at hfield
  rw [hfield, kindOfCode_code]

/-- A frame decodes to what it was made from, and its check passes (R64, R200, R201). -/
theorem decodeFrame_frameRow (h : payload.length = k.payloadBits) :
    decodeFrame k (frameRow urgency number k sequence payload) =
      { urgency := urgency, number := number, kind := k, sequence := sequence, payload := payload
        checkRead := crc (coveredRow urgency number k sequence payload)
        checkComputed := crc (coveredRow urgency number k sequence payload) } := by
  have hcovered := coveredRow_length urgency number k sequence payload h
  have hcheck := fieldAt_natBits (crc (coveredRow urgency number k sequence payload)) _ [] hcovered
  rw [List.append_nil] at hcheck
  have hpart : (frameRow urgency number k sequence payload).take k.coveredBits =
      coveredRow urgency number k sequence payload := List.take_left' hcovered
  rw [decodeFrame, hpart, show BitVec.ofNat 16 (fieldAt (frameRow urgency number k sequence payload) k.coveredBits 16) = _
    from hcheck, frameRow_fields]
  simp only [ReceivedFrame.mk.injEq, and_true, true_and]
  refine ⟨?_, ?_, ?_, ?_⟩
  · exact fieldAt_natBits urgency [] _ rfl
  · rw [← List.append_assoc]
    exact fieldAt_natBits number _ _ (natBits_length _ _)
  · rw [← List.append_assoc, ← List.append_assoc, ← List.append_assoc]
    exact fieldAt_natBits sequence _ _ (by simp)
  · rw [← List.append_assoc, ← List.append_assoc, ← List.append_assoc, List.drop_left' (by simp [headBits])]
    exact List.take_left' h

end

/-! ### Reception (R63, R106, R107) -/

/-- The kind is known from the eleventh bit on (R58). -/
theorem frameKind_of_prefix {row pre : List Bool} {k : Kind} (hkind : kindOfCode (fieldAt row 8 3) = some k)
    (hpre : pre <+: row) : frameKind pre = if 11 ≤ pre.length then some k else none := by
  obtain ⟨post, rfl⟩ := hpre
  rw [frameKind]
  split
  · next h =>
    have hfield : fieldAt (pre ++ post) 8 3 = fieldAt pre 8 3 := by
      rw [fieldAt, fieldAt, List.drop_append_of_le_length (by omega), List.take_append_of_le_length]
      rw [List.length_drop]
      omega
    rw [← hfield, hkind]
  · rfl

/-- After the trail of a frame driven by one station: more to come before its last bit, the end of the check there (R49). -/
theorem afterTrail_driven {row pre : List Bool} {k : Kind} (hkind : kindOfCode (fieldAt row 8 3) = some k)
    (hlength : row.length = k.checkedBits) (hpre : pre <+: row) :
    afterTrail { started := true, bits := pre, trails := 0 } =
      if pre = row then .checkEnd k { started := true, bits := row, trails := 0 }
      else .more { started := true, bits := pre, trails := 0 } := by
  have hlast : pre.length = k.checkedBits ↔ pre = row :=
    ⟨fun h => hpre.eq_of_length (h.trans hlength.symm), fun h => by rw [h, hlength]⟩
  have hlong : pre = row → 11 ≤ pre.length := by
    rintro rfl
    rw [hlength, Kind.checkedBits, Kind.coveredBits, headBits]
    omega
  have hfree : ¬ (0 : Nat) = stuckTrails := by decide
  simp only [afterTrail, frameKind_of_prefix hkind hpre, if_neg hfree]
  by_cases hrow : pre = row
  · simp only [if_pos (hlong hrow), if_pos hrow, if_pos (hlast.mpr hrow)]
    rw [hrow]
  · by_cases hknown : 11 ≤ pre.length
    · simp only [if_pos hknown, if_neg hrow, if_neg (fun h => hrow (hlast.mp h))]
    · simp only [if_neg hknown, if_neg hrow]

/-- A bit driven by one station alone, in a frame whose kind is valid, is passed (R99, R106, R107). -/
theorem receiveBit_driven {row pre : List Bool} {b : Bool} {k : Kind} (hkind : kindOfCode (fieldAt row 8 3) = some k)
    (hpre : pre ++ [b] <+: row) :
    receiveBit { started := true, bits := pre, trails := 0 } (drivenPeriod b) =
      afterTrail { started := true, bits := pre ++ [b], trails := 0 } := by
  have hvalid : ¬ ((pre ++ [b]).length = 11 ∧ frameKind (pre ++ [b]) = none) := by
    rintro ⟨hl, hn⟩
    rw [frameKind_of_prefix hkind hpre, if_pos (by omega)] at hn
    cases hn
  have hread : drivenPeriod b = { edge := some 0, lead := true, value := b, trail := false } := rfl
  rw [receiveBit, hread]
  simp only [Bool.true_eq_false, if_false, if_neg hvalid]
  rfl

/-- The rest of a frame driven by one station brings the end of its check (R49). -/
theorem receive_driven {row : List Bool} {k : Kind} (hkind : kindOfCode (fieldAt row 8 3) = some k)
    (hlength : row.length = k.checkedBits) (pre post : List Bool) (hrow : pre ++ post = row) (hpost : post ≠ []) :
    receive { started := true, bits := pre, trails := 0 } (post.map drivenPeriod) =
      .checkEnd k { started := true, bits := row, trails := 0 } := by
  induction post generalizing pre with
  | nil => exact absurd rfl hpost
  | cons b post ih =>
    have hnext : pre ++ [b] ++ post = row := by rw [← hrow]; simp
    have hpre : pre ++ [b] <+: row := ⟨post, hnext⟩
    rw [List.map_cons, receive, receiveBit_driven hkind hpre, afterTrail_driven hkind hlength hpre]
    by_cases hend : post = []
    · subst hend
      rw [List.append_nil] at hnext
      rw [if_pos hnext]
      rfl
    · rw [if_neg (fun h => hend (by simpa [h] using hnext))]
      exact ih (pre ++ [b]) hnext hend

/-- From the start bit on (R49, R101). -/
theorem receive_frame {row : List Bool} {k : Kind} (hkind : kindOfCode (fieldAt row 8 3) = some k)
    (hlength : row.length = k.checkedBits) :
    receive { started := false, bits := [], trails := 0 } ((true :: row).map drivenPeriod) =
      .checkEnd k { started := true, bits := row, trails := 0 } := by
  have hmore : row ≠ [] := by
    rintro rfl
    rw [List.length_nil, Kind.checkedBits] at hlength
    omega
  have hstart : receiveBit { started := false, bits := [], trails := 0 } (drivenPeriod true) =
      .more { started := true, bits := [], trails := 0 } := rfl
  rw [List.map_cons, receive, hstart]
  exact receive_driven hkind hlength [] row rfl hmore

/-- Settles O49: the check by its fold, the frame's bits by their fields, the reception by induction over the bits left,
the fields read back by `decodeFrame_frameRow`. -/
theorem frameDrivenIsReceivedWhole : Obligations.FrameDrivenIsReceivedWhole := by
  unfold Obligations.FrameDrivenIsReceivedWhole
  refine ⟨⟨crc_nil, crc_snoc⟩, bytesBits_eq, rfl, fun k urgency number sequence payload hpayload => ?_⟩
  intro key sent covered
  have hcovered : coveredRow urgency number k sequence payload = covered := by
    rw [coveredRow_eq]
    cases k <;> rfl
  have hsent : sent = true :: frameRow urgency number k sequence payload := by
    rw [← keyBits_drivenBody]
    rfl
  have hdecoded := decodeFrame_frameRow urgency number k sequence payload hpayload
  rw [hsent]
  refine ⟨?_, _, receive_frame (fieldAt_frameRow_kind urgency number k sequence payload)
    (frameRow_length urgency number k sequence payload hpayload), ?_, ?_, ?_, ?_, ?_, ?_⟩
  · rw [frameRow, hcovered, natBits_toNat]
    rfl
  all_goals rw [hdecoded]

end Sys2Proof.Machine
end

section
/-! The slate's condition, and the operations that reach the slate (R75, R80 to R94, R113 to R117, R122, R144, R178). -/

namespace Sys2Proof.Machine

/-! ### The condition on the slate -/

/-- What `slateOk` asks of a slate, at a station with this attempt limit, phase and health (R75, R82, R92 to R94). -/
structure Slate.Within (limit : Nat) (phase : Phase) (health : Health) (x : Slate) : Prop where
  pending : x.nonEmpty = true → takesKind phase health .refresh = true
  join : x.join = true → phase = .joining
  change : ∀ y, x.change = some y → y.attempts < limit
  release : ∀ r, x.release = some r → r.series.attempts < limit
  owed : x.departureOwed = true → x.change.isSome = true

/-- The condition of `slateOk`, part by part. -/
def State.SlateRight (s : State) : Prop := s.slate.Within s.attemptLimit s.ctrl.phase s.health.state

theorem State.slateOk_iff (s : State) : s.slateOk = true ↔ s.SlateRight := by
  have hor : ∀ a b : Bool, (!a || b) = true ↔ (a = true → b = true) := by decide
  simp only [State.slateOk, Bool.and_eq_true, hor, Option.all_eq_true, decide_eq_true_iff]
  constructor
  · rintro ⟨⟨⟨⟨hpending, hjoin⟩, hchange⟩, hrelease⟩, howed⟩; exact ⟨hpending, hjoin, hchange, hrelease, howed⟩
  · rintro ⟨hpending, hjoin, hchange, hrelease, howed⟩; exact ⟨⟨⟨⟨hpending, hjoin⟩, hchange⟩, hrelease⟩, howed⟩

/-- The condition looks at the slate, the phase, the health state and the retry limit alone. -/
theorem State.SlateRight.of_blocks {s t : State} (hs : s.SlateRight) (hslate : t.slate = s.slate)
    (hphase : t.ctrl.phase = s.ctrl.phase) (hloader : t.loader.config = s.loader.config)
    (hhealth : t.health.state = s.health.state) : t.SlateRight := by
  rw [State.SlateRight, State.attemptLimit, hslate, hphase, hloader, hhealth]
  exact hs

/-- An operation on the slate alone keeps the condition where the new slate meets it at the same station. -/
theorem State.SlateRight.of_within {s t : State} (hphase : t.ctrl.phase = s.ctrl.phase)
    (hloader : t.loader = s.loader) (hhealth : t.health = s.health)
    (h : t.slate.Within s.attemptLimit s.ctrl.phase s.health.state) : t.SlateRight := by
  rw [State.SlateRight, State.attemptLimit, hphase, hloader, hhealth]
  exact h

theorem State.attemptLimit_pos (s : State) : 0 < s.attemptLimit := by rw [State.attemptLimit]; omega

/-! ### Slates within limits -/

section
variable {limit : Nat} {phase : Phase} {health : Health} {x : Slate}

/-- An empty slate is within every limit (R93, R94). -/
theorem Slate.Within.of_empty (hpending : x.nonEmpty = false) (howed : x.departureOwed = false) :
    x.Within limit phase health := by
  simp only [Slate.nonEmpty, Bool.or_eq_false_iff, Option.isSome_eq_false_iff, Option.isNone_iff_eq_none] at hpending
  obtain ⟨⟨⟨⟨hchange, hrelease⟩, hrefresh⟩, hjoin⟩, hresync⟩ := hpending
  constructor <;> simp [Slate.nonEmpty, *]

/-- Where the station takes no request its slate is empty (R75). -/
theorem Slate.Within.empty (h : x.Within limit phase health) (hclosed : takesKind phase health .refresh = false) :
    x.nonEmpty = false ∧ x.departureOwed = false := by
  have hpending : x.nonEmpty = false := by
    by_contra hne
    exact absurd (h.pending (by simpa using hne)) (by simp [hclosed])
  refine ⟨hpending, ?_⟩
  by_contra howed
  have hchange := h.owed (by simpa using howed)
  simp [Slate.nonEmpty, hchange] at hpending

/-- The slots without a series, and the marks, change (R84 to R88). -/
theorem Slate.Within.flags {y : Slate} {phase' : Phase} {health' : Health} (h : x.Within limit phase health)
    (hchange : y.change = x.change) (hrelease : y.release = x.release) (howed : y.departureOwed = x.departureOwed)
    (hpending : y.nonEmpty = true → takesKind phase' health' .refresh = true)
    (hjoin : y.join = true → phase' = .joining) : y.Within limit phase' health' :=
  ⟨hpending, hjoin, hchange ▸ h.change, hrelease ▸ h.release, by rw [howed, hchange]; exact h.owed⟩

/-- The CHANGE slot changes, with the departure-owed flag (R89, R92). -/
theorem Slate.Within.withChange (h : x.Within limit phase health) {o : Option Series} {owed : Bool}
    (hattempts : ∀ y, o = some y → y.attempts < limit)
    (hpending : o.isSome = true → takesKind phase health .refresh = true) (howed : owed = true → o.isSome = true) :
    ({ x with change := o, departureOwed := owed } : Slate).Within limit phase health := by
  refine ⟨fun hy => ?_, h.join, hattempts, h.release, howed⟩
  cases ho : o.isSome with
  | true => exact hpending ho
  | false =>
    refine h.pending ?_
    simp only [Slate.nonEmpty, ho, Bool.false_or, Bool.or_eq_true] at hy ⊢
    tauto

/-- The RELEASE slot changes (R91). -/
theorem Slate.Within.withRelease (h : x.Within limit phase health) {o : Option ReleaseSlot}
    (hattempts : ∀ r, o = some r → r.series.attempts < limit)
    (hpending : o.isSome = true → takesKind phase health .refresh = true) :
    ({ x with release := o } : Slate).Within limit phase health := by
  refine ⟨fun hy => ?_, h.join, h.change, hattempts, h.owed⟩
  cases ho : o.isSome with
  | true => exact hpending ho
  | false =>
    refine h.pending ?_
    simp only [Slate.nonEmpty, ho, Bool.or_false, Bool.or_eq_true] at hy ⊢
    tauto

/-- A pending series is one that the station takes requests for (R75). -/
theorem Slate.Within.takes_of_change (h : x.Within limit phase health) {y : Series} (hy : x.change = some y) :
    takesKind phase health .refresh = true := h.pending (by simp [Slate.nonEmpty, hy])

theorem Slate.Within.takes_of_release (h : x.Within limit phase health) {r : ReleaseSlot} (hr : x.release = some r) :
    takesKind phase health .refresh = true := h.pending (by simp [Slate.nonEmpty, hr])

end

/-! ### Attempts of a series (R80 to R82, R89 to R91) -/

theorem changeMerged_attempts {limit : Nat} (hl : 0 < limit) (onLine : Bool) {o : Option Series}
    (h : ∀ y, o = some y → y.attempts < limit) : (changeMerged onLine o).attempts < limit := by
  cases o with
  | none => exact hl
  | some y =>
    have hy := h y rfl
    rw [changeMerged]
    split
    · exact hy
    · split
      · exact hy
      · exact hl

theorem releaseMerged_attempts {limit : Nat} (hl : 0 < limit) (onLine : Bool) (m : ZoneMask) {o : Option ReleaseSlot}
    (h : ∀ r, o = some r → r.series.attempts < limit) : (releaseMerged onLine m o).series.attempts < limit := by
  cases o with
  | none => exact hl
  | some r =>
    have hr := h r rfl
    rw [releaseMerged]
    split
    · exact hr
    · split
      · exact hr
      · split
        · exact hr
        · exact hl

theorem seriesAfterLost_attempts {limit : Nat} (hl : 0 < limit) {y : Series} (h : y.attempts < limit) :
    (seriesAfterLost y).attempts < limit := by
  rw [seriesAfterLost]
  split
  · exact h
  · split
    · exact h
    · exact hl

/-- A series that a slot holds after an attempt has attempts left (R82). -/
theorem slotAfter_attempts {limit : Nat} (hl : 0 < limit) {heard : Option StationMap} {x y : Series}
    (h : slotAfter limit heard x = some y) : y.attempts < limit := by
  rw [Series.afterAttempt_slot] at h
  cases hfate : x.afterAttempt limit heard with
  | goesOn z =>
    rw [hfate] at h
    cases h
    exact Series.afterAttempt_attempts hl hfate
  | delivered => rw [hfate] at h; cases h
  | short z => rw [hfate] at h; cases h

/-! ### Requests (R75, R86 to R92) -/

theorem State.SlateRight.requestRefresh {s : State} (hs : s.SlateRight) : s.requestRefresh.SlateRight := by
  refine .of_within (s := s) (by simp) (by simp) (by simp) ?_
  rw [State.requestRefresh_slate]
  refine hs.flags rfl rfl rfl (fun hp => ?_) hs.join
  cases ht : s.takes .refresh with
  | true => exact ht
  | false => exact hs.pending (by simpa [ht] using hp)

theorem State.SlateRight.requestResync {s : State} (hs : s.SlateRight) : s.requestResync.SlateRight := by
  refine .of_within (s := s) (by simp) (by simp) (by simp) ?_
  rw [State.requestResync_slate]
  refine hs.flags rfl rfl rfl (fun hp => ?_) hs.join
  cases ht : s.takes .resync with
  | true => exact ht
  | false => exact hs.pending (by simpa [ht] using hp)

/-- A departure or a restore announced at a sample event (R43). -/
theorem State.SlateRight.announce {s : State} (hs : s.SlateRight) (old new : WatchUnit) :
    (s.announce old new).SlateRight := by
  refine .of_within (s := s) (by simp) (by simp) (by simp) ?_
  rw [State.announce_slate]
  split
  · next h =>
    have htakes : s.takes .change = true := (Bool.and_eq_true _ _ ▸ h).2
    refine hs.withChange (fun y hy => ?_) (fun _ => htakes) (fun _ => rfl)
    cases hy
    exact changeMerged_attempts s.attemptLimit_pos _ hs.change
  · exact hs

theorem State.SlateRight.requestRelease {s : State} (hs : s.SlateRight) (m : ZoneMask) :
    (s.requestRelease m).SlateRight := by
  cases ht : s.takes .release with
  | false => rw [State.requestRelease_not_taken m s ht]; exact hs
  | true =>
    have hrefresh : takesKind s.ctrl.phase s.health.state .refresh = true := by
      simp only [State.takes, takesKind, Bool.and_eq_true, decide_eq_true_iff, Bool.or_eq_true] at ht ⊢
      exact ⟨ht.1, .inr ht.2⟩
    refine .of_within (s := s) (by simp) (by simp) (by simp) ?_
    rw [State.requestRelease_slate m s ht]
    refine hs.withRelease (fun r hr => ?_) (fun _ => hrefresh)
    cases hr
    exact releaseMerged_attempts s.attemptLimit_pos _ m hs.release

/-- A local release (R144). -/
theorem State.SlateRight.localRelease {s : State} (hs : s.SlateRight) (m : ZoneMask) : (s.localRelease m).SlateRight := by
  have happlied : (s.applyRelease m none).SlateRight := hs.of_blocks (by simp) (by simp) (by simp) (by simp)
  rw [State.localRelease]
  split
  · exact happlied.requestRelease m
  · exact happlied

/-! ### Outcomes of the own frame (R80 to R85, R90, R178) -/

theorem State.SlateRight.slateLost {s : State} (hs : s.SlateRight) (k : Kind) : (s.slateLost k).SlateRight := by
  refine .of_within (s := s) (by simp) (by simp) (by simp) ?_
  rw [State.slateLost_slate]
  cases k with
  | change =>
    refine hs.withChange (o := s.slate.change.map seriesAfterLost) (fun y hy => ?_) (fun hsome => ?_) (fun howed => ?_)
    · obtain ⟨z, hz, rfl⟩ := Option.map_eq_some_iff.mp hy
      exact seriesAfterLost_attempts s.attemptLimit_pos (hs.change z hz)
    · obtain ⟨z, hz⟩ := Option.isSome_iff_exists.mp (by simpa using hsome)
      exact hs.takes_of_change hz
    · simpa using hs.owed howed
  | release =>
    refine hs.withRelease (fun r hr => ?_) (fun hsome => ?_)
    · obtain ⟨z, hz, rfl⟩ := Option.map_eq_some_iff.mp hr
      exact seriesAfterLost_attempts s.attemptLimit_pos (hs.release z hz)
    · obtain ⟨z, hz⟩ := Option.isSome_iff_exists.mp (by simpa using hsome)
      exact hs.takes_of_release hz
  | refresh | join | resync => exact hs

/-- The slate after an attempt, at the phase the attempt leaves (R81, R82, R84, R85, R90, R178). -/
theorem State.SlateRight.slateAfter {s : State} (hs : s.SlateRight) (heard : Option StationMap) (k : Kind) :
    (slateAfter heard k s).Within s.attemptLimit (s.phaseAfter k) s.health.state := by
  cases k with
  | change =>
    have hslot := hs.withChange (o := s.slate.change.bind (slotAfter s.attemptLimit heard))
      (owed := s.slate.departureOwed && s.slate.change.all (fun x => (slotAfter s.attemptLimit heard x).isSome))
      (fun y hy => ?_) (fun hsome => ?_) (fun howed => ?_)
    · refine hslot.flags rfl rfl rfl (fun hp => hslot.pending ?_) hs.join
      simp only [Machine.slateAfter, Slate.nonEmpty, Bool.or_eq_true, Bool.and_eq_true] at hp ⊢
      tauto
    · obtain ⟨z, _, hz⟩ := Option.bind_eq_some_iff.mp hy
      exact slotAfter_attempts s.attemptLimit_pos hz
    · obtain ⟨y, hy⟩ := Option.isSome_iff_exists.mp hsome
      obtain ⟨z, hz, _⟩ := Option.bind_eq_some_iff.mp hy
      exact hs.takes_of_change hz
    · rw [Bool.and_eq_true] at howed
      obtain ⟨z, hz⟩ := Option.isSome_iff_exists.mp (hs.owed howed.1)
      rw [hz] at howed ⊢
      simpa using howed.2
  | release =>
    refine hs.withRelease (fun r hr => ?_) (fun hsome => ?_)
    · obtain ⟨z, _, hz⟩ := Option.bind_eq_some_iff.mp hr
      obtain ⟨y, hy, rfl⟩ := Option.map_eq_some_iff.mp hz
      exact slotAfter_attempts s.attemptLimit_pos hy
    · obtain ⟨r, hr⟩ := Option.isSome_iff_exists.mp hsome
      obtain ⟨z, hz, _⟩ := Option.bind_eq_some_iff.mp hr
      exact hs.takes_of_release hz
  | refresh =>
    refine hs.flags rfl rfl rfl (fun hp => hs.pending ?_) hs.join
    simp only [Machine.slateAfter, Slate.nonEmpty, Bool.or_eq_true] at hp ⊢
    tauto
  | resync =>
    refine hs.flags rfl rfl rfl (fun hp => hs.pending ?_) hs.join
    simp only [Machine.slateAfter, Slate.nonEmpty, Bool.or_eq_true] at hp ⊢
    tauto
  | join =>
    have hphase : takesKind s.ctrl.phase s.health.state .refresh = true →
        takesKind (s.phaseAfter .join) s.health.state .refresh = true := by
      simp only [State.phaseAfter, takesKind, Bool.and_eq_true]
      rintro ⟨hhealth, hsends⟩
      refine ⟨hhealth, ?_⟩
      split
      · rfl
      · exact hsends
    refine hs.flags rfl rfl rfl (fun hp => hphase ?_) (fun hj => Bool.noConfusion hj)
    by_cases hrequest : s.ctrl.phase = .joining ∧ s.health.state ≠ .withdrawn
    · simp [takesKind, hrequest]
    · refine hs.pending ?_
      simp only [Machine.slateAfter, hrequest, decide_false, Slate.nonEmpty, Bool.or_eq_true] at hp ⊢
      tauto

theorem State.SlateRight.slateTakes {s : State} (hs : s.SlateRight) (heard : Option StationMap) (k : Kind) :
    (s.slateTakes heard k).SlateRight := by
  have htaken := State.slateTakes_taken heard k s
  rw [State.SlateRight, State.attemptLimit, htaken.slate, htaken.ctrl]
  simpa [State.attemptLimit] using hs.slateAfter heard k

/-! ### The monitor, and a number conflict (R94, R113 to R117, R122) -/

/-- The slate after a change of health, within the limits of the new health (R113, R115, R117). -/
theorem State.SlateRight.weighOutcome {s : State} (hs : s.SlateRight) (o : FrameOutcome) :
    (s.weighOutcome o).SlateRight := by
  obtain ⟨hslate, _⟩ := State.weighOutcome_follows o s
  rw [State.SlateRight, State.attemptLimit, hslate]
  simp only [State.weighOutcome_frame]
  change (slateAfterHealth s.ctrl.phase s (s.weighOutcome o) s.slate).Within s.attemptLimit s.ctrl.phase _
  rw [slateAfterHealth]
  split
  · next hsame => rw [hsame]; exact hs
  · next hchanged =>
    split
    · exact .of_empty rfl rfl
    · next hold hnew =>
      refine hs.flags rfl rfl rfl (fun hp => ?_) (fun hj => ?_)
      all_goals
        have hempty := (hs.empty (by simp [takesKind, hold])).1
        simp only [Slate.nonEmpty, Bool.or_eq_false_iff] at hempty
        obtain ⟨⟨⟨⟨hchange, hrelease⟩, hrefresh⟩, hjoin⟩, hresync⟩ := hempty
      · simp only [Slate.nonEmpty, hchange, hrelease, hrefresh, hjoin, hresync, Bool.false_or, Bool.or_eq_true] at hp
        simp only [takesKind, hnew, Bool.and_eq_true, Bool.or_eq_true]
        exact ⟨rfl, by tauto⟩
      · simpa [hjoin] using hj
    · next hwithdrawn _ =>
      refine hs.flags rfl rfl rfl (fun hp => ?_) hs.join
      have htakes := hs.pending hp
      simp only [takesKind, Bool.and_eq_true, decide_eq_true_iff] at htakes ⊢
      exact ⟨hwithdrawn, htakes.2⟩

theorem State.SlateRight.declareConflict {s : State} (hs : s.SlateRight) : s.declareConflict.SlateRight := by
  rw [State.declareConflict]
  split
  · refine State.SlateRight.of_blocks (s := (State.setCtrl s { s.ctrl with phase := .conflict }).setSlate s.slate.emptied)
      (.of_empty rfl rfl) ?_ ?_ ?_ ?_ <;> simp
  · exact hs

theorem State.SlateRight.sighting {s : State} (hs : s.SlateRight) : s.sighting.SlateRight := by
  rw [State.sighting]
  split
  · exact hs.of_blocks rfl rfl rfl rfl
  · exact State.SlateRight.declareConflict (hs.of_blocks rfl rfl rfl rfl)
  · exact hs

end Sys2Proof.Machine
end

section
/-! Every command's effect on the slate's condition (R75, R82, R92 to R94). -/

namespace Sys2Proof.Machine

/-! ### Rows of operations -/

theorem State.SlateRight.openChange {s : State} (hs : s.SlateRight) : s.openChange.SlateRight := by
  rw [State.openChange]
  split
  · next x hx =>
    split
    · exact hs
    · refine .of_within (s := s) (by simp) (by simp) (by simp) ?_
      have hopened := hs.withChange (o := some (x.opened (s.slate.reportSequence + 1) (currentTargets s.table)))
        (owed := s.slate.departureOwed) (fun y hy => by cases hy; exact hs.change x hx) (fun _ => hs.takes_of_change hx)
        (fun _ => rfl)
      simp only [State.setSelfSequence_frame, State.setSlate_slate]
      exact hopened.flags rfl rfl rfl hopened.pending hopened.join
  · exact hs

theorem State.SlateRight.openRelease {s : State} (hs : s.SlateRight) : s.openRelease.SlateRight := by
  rw [State.openRelease]
  split
  · next r hr =>
    split
    · exact hs
    · refine .of_within (s := s) (by simp) (by simp) (by simp) ?_
      have hopened := hs.withRelease
        (o := some { r with series := r.series.opened (s.slate.releaseSequence + 1) (currentTargets s.table) })
        (fun y hy => by cases hy; exact hs.release r hr) (fun _ => hs.takes_of_release hr)
      simp only [State.setSelfRelease_frame, State.setSlate_slate]
      exact hopened.flags rfl rfl rfl hopened.pending hopened.join
  · exact hs

/-- A series opened keeps its attempts (R78). -/
theorem State.SlateRight.openSeries {s : State} (hs : s.SlateRight) (k : Kind) : (s.openSeries k).SlateRight := by
  cases k with
  | change => exact hs.openChange
  | release => exact hs.openRelease
  | refresh | join | resync => exact hs

theorem State.SlateRight.countOutcome {s : State} (hs : s.SlateRight) (o : FrameOutcome) :
    (s.countOutcome o).SlateRight := hs.of_blocks rfl rfl rfl rfl

theorem State.SlateRight.abort {s : State} (hs : s.SlateRight) (k : Kind) : (s.abort k).SlateRight := by
  have hcounted : (s.stopDriving.countOutcome .aborted).SlateRight := hs.of_blocks rfl rfl rfl rfl
  rw [State.abort_eq]
  exact ((hcounted.slateTakes none k).weighOutcome .aborted).of_blocks rfl rfl rfl rfl

theorem State.SlateRight.abandon {s : State} (hs : s.SlateRight) : s.abandon.SlateRight :=
  ((hs.countOutcome .abandoned).weighOutcome .abandoned).of_blocks rfl rfl rfl rfl

/-- An accepted frame reaches the slate with the REFRESH that a JOIN or a RESYNC asks for (R22, R65). -/
theorem State.SlateRight.tableAccepts {s : State} (hs : s.SlateRight) (r : ReceivedFrame) :
    (s.tableAccepts r).SlateRight := by
  rw [State.tableAccepts]
  cases r.kind with
  | change | refresh | release => exact hs.of_blocks (by simp) (by simp) (by simp) (by simp)
  | join =>
    rw [State.acceptJoin_eq]
    exact State.SlateRight.requestRefresh (hs.of_blocks (by simp) (by simp) (by simp) (by simp))
  | resync => exact State.SlateRight.requestRefresh (hs.of_blocks (by simp) (by simp) (by simp) (by simp))

/-- The end of a check (R64, R65, R121). -/
theorem State.SlateRight.judged {s : State} (hs : s.SlateRight) (r : ReceivedFrame) : (s.judged r).SlateRight := by
  rw [State.judged]
  split
  · exact ((hs.countOutcome .rejected).weighOutcome .rejected).of_blocks rfl rfl rfl rfl
  · exact hs.declareConflict
  · exact (hs.tableAccepts r).of_blocks rfl rfl rfl rfl

/-- The end of a window (R68, R120). -/
theorem State.SlateRight.closeFrame {s : State} (hs : s.SlateRight) (f : Frame) (m : StationMap) :
    (s.closeFrame f m).SlateRight := by
  have hheard : ∀ m, (s.mapEvidence m).SlateRight := fun m => hs.of_blocks (by simp) (by simp) (by simp) (by simp)
  rw [State.closeFrame]
  split
  · next v _ =>
    have hweighed := ((((hheard (lessOwn s.ctrl.ownNumber m)).countOutcome .completed).slateTakes
      (some (lessOwn s.ctrl.ownNumber m)) v.slot).weighOutcome .completed)
    simp only [State.senderClosed, State.completedWeighed]
    split
    · exact hweighed.sighting
    · exact hweighed
  · exact ((hheard _).countOutcome .accepted).weighOutcome .accepted
  · exact hs
  · exact hs

/-- The tick asks for a REFRESH and a JOIN in the phase that takes them (R75, R86, R175). -/
theorem State.SlateRight.refreshTicked {s : State} (hs : s.SlateRight) (order : TickOrder) :
    (s.refreshTicked order).SlateRight := by
  obtain ⟨_, hctrl, hslate⟩ := State.refreshTicked_counts order s
  rw [State.SlateRight, State.attemptLimit, hslate, hctrl]
  simp only [State.refreshTicked_frame]
  change Slate.Within s.attemptLimit _ _ _
  cases hj : s.joinsAtTick with
  | true =>
    have hlistening : s.ctrl.phase = .listening := (of_decide_eq_true hj).1
    have hempty := (hs.empty (by simp [takesKind, hlistening])).1
    simp only [Slate.nonEmpty, Bool.or_eq_false_iff] at hempty
    obtain ⟨⟨⟨⟨hchange, hrelease⟩, hrefresh⟩, hjoin⟩, hresync⟩ := hempty
    refine hs.flags rfl rfl rfl (fun hp => ?_) (fun _ => rfl)
    simp only [Slate.nonEmpty, hchange, hrelease, hrefresh, hjoin, hresync, Bool.false_or, Bool.or_eq_true,
      Bool.and_eq_true, decide_eq_true_iff] at hp
    have hable : s.health.state ≠ .withdrawn := by tauto
    simp [takesKind, hable]
  | false =>
    refine hs.flags rfl rfl rfl (fun hp => ?_) (fun h => hs.join (by simpa using h))
    cases hasked : decide (s.slate.stateSent = false ∧ s.slate.change = none ∧ s.health.state ≠ .withdrawn) &&
        (decide (s.ctrl.phase = .joining) || decide (s.ctrl.phase = .running)) with
    | true =>
      simp only [Bool.and_eq_true, decide_eq_true_iff] at hasked
      obtain ⟨⟨_, _, hable⟩, hsends⟩ := hasked
      simp [takesKind, hable, hsends]
    | false =>
      simp only [Bool.false_and, Bool.or_false, hasked] at hp
      exact hs.pending hp

/-- The slate at a sample event (R43, R92, R142, R144). -/
theorem State.SlateRight.sampleTaken {s : State} (hs : s.SlateRight) (c : StationConfig) (x : SenseSample) :
    (s.sampleTaken c x).SlateRight := by
  have hannounced : (s.announced c (s.watch.sampled c.groups x)).SlateRight := by
    refine State.SlateRight.announce ?_ _ _
    exact hs.of_blocks (by simp) (by simp) (by simp) (by simp)
  have hfiltered : ((s.announced c (s.watch.sampled c.groups x)).relFiltered (relActive x)).SlateRight :=
    hannounced.of_blocks rfl rfl rfl rfl
  rw [State.sampleTaken_eq, State.relSampled_eq]
  split
  · exact hfiltered.localRelease _
  · exact hfiltered

/-! ### The tap port (R196, R197) -/

theorem State.SlateRight.judgementPoint {s : State} (hs : s.SlateRight) (code : Byte) (args : List Byte) :
    (s.judgementPoint code args).SlateRight := by
  have heffect : ∀ r arg, (s.requestEffect r arg).SlateRight := by
    intro r arg
    cases r with
    | release => exact hs.localRelease arg
    | resync => exact hs.requestResync
    | status | entry | terms | counters | peek | take | restart | unknown => exact hs
  simp only [State.judgementPoint]
  split
  · exact (heffect _ _).of_blocks rfl rfl rfl rfl
  · exact hs.of_blocks rfl rfl rfl rfl

theorem State.SlateRight.tapByte {s : State} (hs : s.SlateRight) (b : Byte) : (s.tapByte b).SlateRight := by
  rw [State.tapByte]
  split
  · split
    · exact hs.of_blocks rfl rfl rfl rfl
    · exact hs.judgementPoint _ _
  · exact hs.judgementPoint _ _
  all_goals exact hs

theorem State.SlateRight.tapBit {s : State} (hs : s.SlateRight) (b : Bool) : (s.tapBit b).SlateRight := by
  have hcollect : (s.tapCollect b).SlateRight := by
    simp only [State.tapCollect]
    split
    · exact hs.tapByte _
    · exact hs.of_blocks rfl rfl rfl rfl
  rw [State.tapBit]
  split
  · exact hcollect
  · exact hcollect
  · exact hs.of_blocks rfl rfl rfl rfl
  all_goals exact hs

theorem State.SlateRight.tapBits {s : State} (hs : s.SlateRight) (bits : List Bool) : (s.tapBits bits).SlateRight :=
  foldl_keeps_condition State.SlateRight State.tapBit (fun _ b hs => hs.tapBit b) bits s hs

/-! ### Resets and loads -/

theorem State.slateRight_resetBy (cause : ResetCause) (pins : Pins) (s : State) : (s.resetBy cause pins).SlateRight :=
  .of_empty rfl rfl

/-- While the loader reads, the slate is empty, and stays so whatever the load ends in (R75, R164). -/
theorem State.SlateRight.of_reading {s t : State} (hs : s.SlateRight) (hreading : s.reading = true)
    (hslate : t.slate = s.slate) : t.SlateRight := by
  obtain ⟨hpending, howed⟩ := hs.empty (by simp [takesKind, State.loading_of_reading hreading])
  exact .of_empty (hslate ▸ hpending) (hslate ▸ howed)

theorem State.halt_slate (f : FaultCode) (port : List BusOp) (s : State) : (s.halt f port).slate = s.slate := by
  obtain ⟨_, _, _, hslate, _⟩ := s.halt_blocks f port
  exact hslate

theorem State.validLoad_slate (c : StationConfig) (port : List BusOp) (x : SenseSample) (s : State) :
    (s.validLoad c port x).slate = s.slate := by
  obtain ⟨_, _, _, hslate, _⟩ := s.validLoad_blocks c port x
  exact hslate

section
variable {s t : State} (hs : s.SlateRight)
include hs

theorem State.SlateRight.headerRead {n : Nat} {a b l r : Byte} (h : exec (.headerRead n a b l r) s = .next t) :
    t.SlateRight := by
  simp only [exec, execHeaderRead] at h
  split at h
  · next hc =>
    simp only [Bool.and_eq_true] at hc
    obtain ⟨⟨hreading, _⟩, _⟩ := hc
    split at h
    · cases h; exact hs.of_reading hreading (State.halt_slate _ _ s)
    · cases h; exact hs.of_blocks rfl rfl rfl rfl
  · cases h; exact hs

theorem State.SlateRight.transportFailure {n : Nat} {f : BusFault} {read : List Byte}
    (h : exec (.transportFailure n f read) s = .next t) : t.SlateRight := by
  simp only [exec, execTransportFailure] at h
  split at h
  · next hc =>
    simp only [Bool.and_eq_true] at hc
    obtain ⟨⟨hreading, _⟩, _⟩ := hc
    split at h
    · cases h; exact hs.of_blocks rfl rfl rfl rfl
    · cases h; exact hs.of_reading hreading (State.halt_slate _ _ s)
  · cases h; exact hs

theorem State.SlateRight.pauseEnd (h : exec .pauseEnd s = .next t) : t.SlateRight := by
  simp only [exec, execPauseEnd] at h
  split at h
  all_goals cases h; exact hs.of_blocks rfl rfl rfl rfl

theorem State.SlateRight.imageComplete {rest : List Byte} {x : SenseSample}
    (h : exec (.imageComplete rest x) s = .next t) : t.SlateRight := by
  simp only [exec, execImageComplete] at h
  split at h
  · next hc =>
    simp only [Bool.and_eq_true] at hc
    obtain ⟨⟨hreading, _⟩, _⟩ := hc
    split at h
    · cases h; exact hs.of_reading hreading (State.halt_slate _ _ _)
    · cases h; exact hs.of_reading hreading (State.validLoad_slate _ _ x _)
  · cases h; exact hs

theorem State.SlateRight.resetEnd {x : HeldSource} (h : exec (.resetEnd x) s = .next t) : t.SlateRight := by
  simp only [exec, execResetEnd] at h
  split at h
  · split at h
    all_goals cases h; exact hs.of_blocks rfl rfl rfl rfl
  · cases h; exact hs

/-! ### The commands of the line -/

theorem State.SlateRight.discardEnd {gap : List BitPeriod} (h : exec (.discardEnd gap) s = .next t) : t.SlateRight := by
  simp only [exec, execDiscardEnd] at h
  split at h
  all_goals cases h; exact hs.of_blocks rfl rfl rfl rfl

theorem State.SlateRight.contentionStart {gap : List BitPeriod} {edge : Option Int} {able : Nat}
    (h : exec (.contentionStart gap edge able) s = .next t) : t.SlateRight := by
  simp only [exec, execContentionStart] at h
  split at h
  all_goals cases h; exact hs.of_blocks rfl rfl rfl rfl

theorem State.SlateRight.frameStart {gap : List BitPeriod} {edge : Int} {able : Nat}
    (h : exec (.frameStart gap edge able) s = .next t) : t.SlateRight := by
  simp only [exec, execFrameStart] at h
  split at h
  all_goals cases h; exact hs.of_blocks rfl rfl rfl rfl

theorem State.SlateRight.keyLost {bits : List BitPeriod} (h : exec (.keyLost bits) s = .next t) : t.SlateRight := by
  simp only [exec, execKeyLost] at h
  split at h
  · next f v _ =>
    split at h
    · cases h
      have hgone : ((s.keyGone f v bits).countOutcome .lost).SlateRight := hs.of_blocks rfl rfl rfl rfl
      exact (hgone.slateLost v.slot).of_blocks rfl rfl rfl rfl
    · cases h; exact hs
  · cases h; exact hs

theorem State.SlateRight.keyWon {bits : List BitPeriod} (h : exec (.keyWon bits) s = .next t) : t.SlateRight := by
  simp only [exec, execKeyWon] at h
  split at h
  · next f v _ =>
    split at h
    · cases h
      have hpassed : (s.keyPassed f v bits).SlateRight := hs.of_blocks rfl rfl rfl rfl
      exact (hpassed.openSeries v.slot).of_blocks rfl rfl rfl rfl
    · cases h; exact hs
  · cases h; exact hs

theorem State.SlateRight.lastCheckBitSent {bits : List BitPeriod} (h : exec (.lastCheckBitSent bits) s = .next t) :
    t.SlateRight := by
  simp only [exec, execLastCheckBitSent] at h
  split at h
  · split at h
    · cases h; exact hs.of_blocks (by simp) (by simp) (by simp) (by simp)
    · cases h; exact hs
  · cases h; exact hs

theorem State.SlateRight.sendAborted {bits : List BitPeriod} (h : exec (.sendAborted bits) s = .next t) :
    t.SlateRight := by
  simp only [exec, execSendAborted] at h
  split at h
  · split at h
    · cases h
      refine State.SlateRight.abort ?_ _
      exact hs.of_blocks (by simp) (by simp) (by simp) (by simp)
    · cases h; exact hs
  · split at h
    · cases h
      refine State.SlateRight.abort ?_ _
      exact hs.of_blocks (by simp) (by simp) (by simp) (by simp)
    · cases h; exact hs
  · cases h; exact hs

/-- The three commands that abandon a frame (R58, R106, R107). -/
theorem State.SlateRight.abandoning {c : Instr} {bits : List BitPeriod}
    (hc : c = .invalidKind bits ∨ c = .framingFault bits ∨ c = .stuckDominant bits) (h : exec c s = .next t) :
    t.SlateRight := by
  rcases hc with rfl | rfl | rfl
  all_goals
    simp only [exec, execInvalidKind, execFramingFault, execStuckDominant] at h
    split at h
    · split at h
      · cases h
        refine State.SlateRight.abandon ?_
        exact hs.of_blocks rfl rfl rfl rfl
      · cases h; exact hs
    · cases h; exact hs

theorem State.SlateRight.frameReceived {bits : List BitPeriod} (h : exec (.frameReceived bits) s = .next t) :
    t.SlateRight := by
  rcases execFrameReceived_cases h with rfl | ⟨r, f, x, _, _, rfl⟩
  · exact hs
  · have hfollowed : (s.followed f bits .q4 x).SlateRight := hs.of_blocks rfl rfl rfl rfl
    exact hfollowed.judged r

theorem State.SlateRight.windowEnd {slots : List BitPeriod} (h : exec (.windowEnd slots) s = .next t) :
    t.SlateRight := by
  simp only [exec, execWindowEnd] at h
  split at h
  · next f _ =>
    split at h
    · cases h
      have hpassed : (s.slotsPassed f slots).SlateRight := hs.of_blocks rfl rfl rfl rfl
      refine (hpassed.closeFrame f (confirmMapOf slots)).of_blocks ?_ ?_ ?_ ?_ <;> simp [State.slotsPassed]
    · cases h; exact hs
  · cases h; exact hs

/-! ### Samples, ticks and the tap port's commands -/

theorem State.SlateRight.sampleEvent {x : SenseSample} (h : exec (.sampleEvent x) s = .next t) : t.SlateRight := by
  simp only [exec, execSampleEvent] at h
  split at h
  · cases h; exact hs.sampleTaken _ x
  · cases h; exact hs

theorem State.SlateRight.tick (h : t = s ∨ ∃ order, t = s.refreshTicked order) : t.SlateRight := by
  rcases h with rfl | ⟨order, rfl⟩
  · exact hs
  · exact hs.refreshTicked order

theorem State.SlateRight.unknownRequest {b : Byte} (h : exec (.unknownRequest b) s = .next t) : t.SlateRight := by
  simp only [exec, execUnknownRequest] at h
  split at h
  · cases h; exact hs.tapBits _
  · cases h; exact hs

theorem State.SlateRight.tselAssert (h : exec .tselAssert s = .next t) : t.SlateRight := by
  simp only [exec, execTselAssert] at h
  split at h
  · cases h; exact hs
  · split at h
    all_goals cases h; exact hs.of_blocks rfl rfl rfl rfl

theorem State.SlateRight.tselRelease {tsdi : List Bool} (h : exec (.tselRelease tsdi) s = .next t) : t.SlateRight := by
  simp only [exec, execTselRelease] at h
  split at h
  · cases h
    rw [State.endTransaction]
    split
    · exact State.slateRight_resetBy _ _ _
    · exact (hs.tapBits tsdi).of_blocks (by simp) (by simp) (by simp) (by simp)
  · cases h; exact hs

/-! ### Every command -/

theorem State.SlateRight.exec {c : Instr} (h : exec c s = .next t) : t.SlateRight := by
  cases c with
  | powerOnReset | resetPin => cases h; exact State.slateRight_resetBy _ _ s
  | resetEnd x => exact hs.resetEnd h
  | headerRead n a b l r => exact hs.headerRead h
  | transportFailure n f read => exact hs.transportFailure h
  | pauseEnd => exact hs.pauseEnd h
  | imageComplete rest x => exact hs.imageComplete h
  | sampleEvent x => exact hs.sampleEvent h
  | refreshTick order | peerSilent n order | listenExpiry order => exact hs.tick (tick_answer rfl h)
  | discardEnd gap => exact hs.discardEnd h
  | contentionStart gap edge able => exact hs.contentionStart h
  | keyLost bits => exact hs.keyLost h
  | keyWon bits => exact hs.keyWon h
  | sendAborted bits => exact hs.sendAborted h
  | invalidKind bits => exact hs.abandoning (.inl rfl) h
  | framingFault bits => exact hs.abandoning (.inr (.inl rfl)) h
  | stuckDominant bits => exact hs.abandoning (.inr (.inr rfl)) h
  | frameReceived bits => exact hs.frameReceived h
  | windowEnd slots => exact hs.windowEnd h
  | tselAssert => exact hs.tselAssert h
  | tselRelease tsdi => exact hs.tselRelease h
  | status | entry n | terms | counters | peek | take | release mask | resync | restart =>
    cases h; exact hs.tapBits _
  | unknownRequest b => exact hs.unknownRequest h
  | frameStart gap edge able => exact hs.frameStart h
  | lastCheckBitSent bits => exact hs.lastCheckBitSent h

end

/-- Settles O55: every operation on the slate keeps it within the limits of its station, so every command does. -/
theorem stepKeepsSlateWithinLimits : Obligations.StepKeepsSlateWithinLimits := by
  unfold Obligations.StepKeepsSlateWithinLimits
  intro s t hs hstep
  rw [State.slateOk_iff] at hs ⊢
  cases hpending : s.pending with
  | nil =>
    rw [step, hpending] at hstep
    cases hstep
    exact hs
  | cons c rest =>
    rw [step, hpending] at hstep
    have hqueue : (s.setPending rest).SlateRight := hs.of_blocks rfl rfl rfl rfl
    exact hqueue.exec hstep

end Sys2Proof.Machine
end

section
/-! The refresh tick and the listen interval's end, and the marks an attempt of the own frame leaves at the slate (R75, R84
to R86, R173 to R175, R178). -/

namespace Sys2Proof.Machine

/-! ### The tick and its rows (R86, R173 to R175) -/

theorem exec_refreshTick_stopped {order : TickOrder} {s : State} (h : s.ctrl.ticking = false) :
    exec (.refreshTick order) s = .next s := if_neg (by simp [h])

/-- Settles O17: the tick by `State.refreshTicked_counts`, and its guard. -/
theorem refreshTickCountsAndJudges : Obligations.RefreshTickCountsAndJudges := by
  unfold Obligations.RefreshTickCountsAndJudges
  exact ⟨fun order s h => ⟨_, exec_refreshTick h, State.refreshTicked_counts order s⟩,
    fun _ _ h => exec_refreshTick_stopped h⟩

/-- The row of the listen interval's end is the whole tick (R174, R175; log 5). -/
theorem exec_listenExpiry {order : TickOrder} {s : State} (hticking : s.ctrl.ticking = true)
    (hexpires : s.expiresAtNextTick = true) : exec (.listenExpiry order) s = .next (s.refreshTicked order) :=
  if_pos (by rw [hticking, hexpires]; rfl)

/-- Settles O20: the guard of the row holds, so the row is the tick, and the tick is one at which the station joins. -/
theorem listenExpiryEntersJoining : Obligations.ListenExpiryEntersJoining := by
  unfold Obligations.ListenExpiryEntersJoining
  intro order s c hticking hlistening hcount hc
  have hexpires : s.expiresAtNextTick = true := by simp [State.expiresAtNextTick, hlistening, hcount, listenTicks]
  have hjoins : s.joinsAtTick = true := (State.joinsAtTick_iff s).mpr ⟨hlistening, by rw [hcount]⟩
  obtain ⟨_, hctrl, hslate⟩ := State.refreshTicked_counts order s
  refine ⟨_, exec_listenExpiry hticking hexpires, State.refreshTicked_counts order s,
    State.refreshTicked_tickAges order s c hc, ?_, ?_⟩
  · rw [hctrl, if_pos hjoins, if_pos hjoins]
  · rw [hslate, hjoins]
    rfl

/-! ### The state-sent mark and the REFRESH slot (R84, R85, R178) -/

theorem State.slateCompleted_slate (k : Kind) (heard : StationMap) (s : State) :
    (s.slateCompleted k heard).slate = slateAfter (some heard) k s := (State.slateTakes_taken (some heard) k s).slate

theorem State.slateAborted_slate (k : Kind) (s : State) : (s.slateAborted k).slate = slateAfter none k s :=
  (State.slateTakes_taken none k s).slate

/-- Settles O42: mark and slot after each outcome, by the slate that an attempt leaves. -/
theorem completedChangeServesRefresh : Obligations.CompletedChangeServesRefresh := by
  unfold Obligations.CompletedChangeServesRefresh
  intro heard s
  simp only [State.slateCompleted_slate, State.slateAborted_slate]
  refine ⟨⟨?_, ?_⟩, ⟨?_, ?_⟩, fun k hk => ?_, fun hjoining => ?_⟩
  · simp [slateAfter]
  · simp [slateAfter]
  · simp [slateAfter]
  · simp [slateAfter]
  · rcases hk with rfl | rfl | rfl
    · exact ⟨rfl, fun _ => rfl⟩
    · refine ⟨rfl, fun hstays => ?_⟩
      have hphase : s.ctrl.phase ≠ .joining := fun h => hstays ⟨rfl, h⟩
      simp [slateAfter, hphase]
    · exact ⟨rfl, fun _ => rfl⟩
  · simp [slateAfter, hjoining]

end Sys2Proof.Machine
end

section
/-! ENTRY and RELEASE with their argument byte: the bytes on TSDI, the judgement, the ENTRY layout, and the local release
(R75, R91, R143, R144, R187, R190, R192, R196, R204). -/

namespace Sys2Proof.Machine

/-! ### The tap port and the other blocks -/

/-- A release reads nothing of the tap port. -/
theorem State.applyRelease_setTap (m : ZoneMask) (n : Option Station) (tap : Tap) (s : State) :
    (s.setTap tap).applyRelease m n = (s.applyRelease m n).setTap tap := by
  have hraised : ∀ (c : StationConfig) (old : Vector TermFlags 16) (u : State),
      (u.setTap tap).raiseReleased c m n old = (u.raiseReleased c m n old).setTap tap := by
    intro c old u
    refine List.foldl_hom (fun v : State => v.setTap tap) (fun v i => ?_)
    split
    · split <;> rfl
    · rfl
  have hmoved : ∀ (e : TermEvaluator) (d : Vector Drive 8),
      ((s.setTap tap).setTerms e).moveOutputs d = ((s.setTerms e).moveOutputs d).setTap tap := fun _ _ => rfl
  simp only [State.applyRelease, State.setTap_ctrl, State.setTap_loader, State.setTap_terms, hmoved, hraised]
  split <;> rfl

theorem State.requestRelease_setTap (m : ZoneMask) (tap : Tap) (s : State) :
    (s.setTap tap).requestRelease m = (s.requestRelease m).setTap tap := by
  have htakes : (s.setTap tap).takes .release = s.takes .release := rfl
  rw [State.requestRelease, State.requestRelease, htakes]
  split <;> rfl

theorem State.localRelease_setTap (m : ZoneMask) (tap : Tap) (s : State) :
    (s.setTap tap).localRelease m = (s.localRelease m).setTap tap := by
  simp only [State.localRelease, State.applyRelease_setTap, State.setTap_loader]
  split
  · exact State.requestRelease_setTap m tap _
  · rfl

theorem State.requestResync_setTap (tap : Tap) (s : State) :
    (s.setTap tap).requestResync = s.requestResync.setTap tap := by
  have htakes : (s.setTap tap).takes .resync = s.takes .resync := rfl
  rw [State.requestResync, State.requestResync, htakes]
  split <;> rfl

/-- The judgement point reads nothing of the transaction it ends: it sets the port anew (R188, R190). -/
theorem State.judgementPoint_setTap (code : Byte) (args : List Byte) (tap : Tap) (s : State) :
    (s.setTap tap).judgementPoint code args = s.judgementPoint code args := by
  have heffect : ∀ r arg, (s.setTap tap).requestEffect r arg = (s.requestEffect r arg).setTap tap := by
    intro r arg
    cases r with
    | release => exact State.localRelease_setTap arg tap s
    | resync => exact State.requestResync_setTap tap s
    | status | entry | terms | counters | peek | take | restart | unknown => rfl
  have hjudged : ∀ r arg, (s.setTap tap).judgeRequest r arg = s.judgeRequest r arg := fun _ _ => rfl
  have hresponse : ∀ r arg, (s.setTap tap).response r arg = s.response r arg := fun _ _ => rfl
  simp only [State.judgementPoint, heffect, hjudged, hresponse]
  split <;> rfl

/-! ### The bytes (R187) -/

/-- The request byte of a request that takes an argument: the port waits for it (R187). -/
theorem State.tapBytes_request {code : Byte} {s : State} (hstate : s.tap.state = .request) (hbits : s.tap.bitsIn = [])
    (hcode : (requestOfByte code).takesArgument = true) :
    s.tapBytes [code] = s.setTap { s.tap with state := .arguments, request := some code, args := [], bitsIn := [] } := by
  rw [tapBytes_one code s (.inl hstate) hbits, State.tapByte]
  simp only [State.setTap_tap, hstate, hcode, if_true]
  rfl

/-- Request byte and argument byte: the request is judged with its argument (R187, R190). -/
theorem State.tapBytes_argument {code : Byte} (arg : Byte) {s : State} (hstate : s.tap.state = .request)
    (hbits : s.tap.bitsIn = []) (hcode : (requestOfByte code).takesArgument = true) :
    s.tapBytes [code, arg] = s.judgementPoint code [arg] := by
  have hsplit : s.tapBytes [code, arg] = (s.tapBytes [code]).tapBytes [arg] := by
    simp [State.tapBytes, State.tapBits, bytesBits]
  rw [hsplit, State.tapBytes_request hstate hbits hcode, tapBytes_one arg _ (.inr rfl) rfl]
  exact (State.judgementPoint_setTap code [arg] _ _).trans (State.judgementPoint_setTap code [arg] _ s)

/-- An update of the tap port leaves every other block. -/
theorem changesOnly_setTap (tap : Tap) (s : State) : changesOnly [.tap] s (s.setTap tap) := by
  intro b hb
  cases b <;> simp_all [sameBlock]

/-! ### The judgement (R190) -/

theorem Phase.serves_eq (p : Phase) : p.serves = decide (¬ (p = .loading ∨ p = .halted)) := by cases p <;> rfl

/-- The status of ENTRY: its argument names a station, 1 to 31 (R190, R192). -/
theorem State.judgeRequest_entry (n : Byte) (s : State) :
    s.judgeRequest .entry n =
      if s.ctrl.phase = .loading ∨ s.ctrl.phase = .halted then .notReady
      else if n = 0 ∨ 31 < n.toNat then .badArgument
      else .ok := by
  have hzero : n = 0 ↔ n.toNat = 0 := BitVec.toNat_inj.symm
  have hnumber : (1 ≤ n.toNat ∧ n.toNat ≤ 31) ↔ ¬ (n = 0 ∨ 31 < n.toNat) := by
    rw [hzero]
    omega
  have hstatus : s.judgeRequest .entry n =
      if s.ctrl.phase.serves = false then .notReady
      else if 1 ≤ n.toNat ∧ n.toNat ≤ 31 then .ok else .badArgument := rfl
  rw [hstatus, Phase.serves_eq, if_congr hnumber rfl rfl, ite_not]
  simp only [decide_eq_false_iff_not, not_not]

/-- The status of RELEASE: OK in RUNNING with a mask alone (R190, R196). -/
theorem State.judgeRequest_release (m : Byte) (s : State) :
    s.judgeRequest .release m =
      if s.ctrl.phase = .loading ∨ s.ctrl.phase = .halted then .notReady
      else if m = 0 then .badArgument
      else if s.ctrl.phase ≠ .running then .notRunning
      else .ok := by
  by_cases hphase : s.ctrl.phase = .loading ∨ s.ctrl.phase = .halted
  · simp [State.judgeRequest, Phase.serves_eq, hphase]
  · simp [State.judgeRequest, Phase.serves_eq, hphase]

/-! ### The ENTRY layout (R192, R204) -/

theorem byteOfBits_packed (a b c d e f g h : Bool) :
    byteOfBits [a, b, c, d, e, f, g, h] = packed [a, b, c, d, e, f, g, h] := by
  revert a b c d e f g h; decide

theorem zonePair_eq (a b : Zone) : zonePair a b = (a.setWidth 8 <<< 4) ||| b.setWidth 8 := by
  revert a b; decide

theorem word16Bytes_eq (w : Word16) : word16Bytes w = highLow w := by
  rw [word16Bytes, highLow, BitVec.setWidth_ushiftRight_eq_extractLsb, BitVec.setWidth_eq_extractLsb' (by decide)]

theorem GroupRecord.bytes_eq (x : GroupRecord) :
    x.bytes = [x.lines.setWidth 8 ||| (if x.conforming then 0x10 else 0), x.tally.setWidth 8] := by
  have hfirst : ∀ (lines : BitVec 4) (conforming : Bool),
      byteOfBits ([false, false, false, conforming] ++ natBits 4 lines.toNat) =
        lines.setWidth 8 ||| (if conforming then 0x10 else 0) := by decide
  rw [GroupRecord.bytes, hfirst]

theorem boolByte_running (p : PhaseCode) : boolByte p.bit = if p = .running then 1 else 0 := by cases p <;> rfl

theorem boolByte_restrained (h : HealthCode) : boolByte h.bit = if h = .restrained then 1 else 0 := by cases h <;> rfl

/-- A row of four, as the group numbers index it. -/
theorem toList_groups {α : Type} (v : Vector α 4) : v.toList = groupIndices.map (fun g => v[g]) := by
  have hrow : v = Vector.ofFn (fun g : Fin 4 => v[g]) := by ext; simp
  rw [show v.toList = (Vector.ofFn (fun g : Fin 4 => v[g])).toList from congrArg _ hrow]
  rfl

/-- The record byte by byte, an absent field's bytes 0 (R192, R204). -/
theorem Entry.content_eq (n : Station) (e : Entry) : e.content n = entryLayout n e := by
  rw [Entry.content, entryLayout]
  refine congrArg₂ _ (congrArg₂ _ (congrArg₂ _ (congrArg₂ _ (congrArg₂ _ (congrArg₂ _ ?flags ?zones) ?plan) ?report)
    ?release) (word16Bytes_eq _)) rfl
  case flags => rw [Entry.flags, byteOfBits_packed]
  case zones =>
    cases e.zoneMap with
    | none => rfl
    | some z => simp only [zoneMapBytes, zonePair_eq]
  case plan =>
    cases e.plan with
    | none => rfl
    | some p => exact word16Bytes_eq p.fingerprint
  case report =>
    cases e.report with
    | none => rfl
    | some r =>
      simp only [reportBytes, boolByte_running, boolByte_restrained, toList_groups, List.flatMap_map, GroupRecord.bytes_eq]
  case release =>
    cases e.lastRelease with
    | none => rfl
    | some q => rfl

/-- ENTRY's content has the length of its layout, offsets 1 to 24 (R192). -/
theorem entryLayout_length (n : Station) (e : Entry) : (entryLayout n e).length = 24 := by
  have hzones : (zoneMapBytes e.zoneMap).length = 2 := by cases e.zoneMap <;> rfl
  have hreport : (reportBytes e.report).length = 11 := by
    cases e.report with
    | none => rfl
    | some r => simp [reportBytes, toList_groups, groupIndices, GroupRecord.bytes]
  simp [← Entry.content_eq, Entry.content, hzones, hreport, word16Bytes]

/-! ### The judgement point (R188, R190, R196) -/

/-- The port at the judgement point: the snapshot, nothing clocked, and armed by TAKE and RESTART alone (R188). -/
theorem State.judgementPoint_tap (code : Byte) (args : List Byte) (s : State) :
    (s.judgementPoint code args).tap =
      { state := .response, request := some code, args := args, bitsIn := [],
        response := some (s.response (requestOfByte code) (args.getLastD 0)), clocked := 0,
        takeArmed := decide (s.judgeRequest (requestOfByte code) (args.getLastD 0) = .ok) &&
          decide (requestOfByte code = .take)
        restartArmed := decide (s.judgeRequest (requestOfByte code) (args.getLastD 0) = .ok) &&
          decide (requestOfByte code = .restart) } := rfl

/-- A request other than TAKE and RESTART arms nothing (R195, R198). -/
theorem State.judgementPoint_unarmed {code : Byte} (args : List Byte) (s : State) (htake : requestOfByte code ≠ .take)
    (hrestart : requestOfByte code ≠ .restart) :
    (s.judgementPoint code args).tap.takeArmed = false ∧ (s.judgementPoint code args).tap.restartArmed = false := by
  rw [State.judgementPoint_tap, decide_eq_false htake, decide_eq_false hrestart]
  exact ⟨Bool.and_false _, Bool.and_false _⟩

/-- The blocks a judged request can reach (R188, R196, R197). -/
theorem State.judgementPoint_changes (code : Byte) (args : List Byte) (s : State) :
    changesOnly [.tap, .terms, .outputs, .notices, .slate] s (s.judgementPoint code args) := by
  intro b hb
  cases b <;> simp_all [sameBlock]

/-- ENTRY has no effect but its response (R192). -/
theorem State.judgementPoint_entry (n : Byte) (s : State) : changesOnly [.tap] s (s.judgementPoint 0x02 [n]) := by
  have heffect : ∀ r arg, r = .entry → s.requestEffect r arg = s := by rintro _ _ rfl; rfl
  simp only [State.judgementPoint, heffect _ _ (show requestOfByte 0x02 = .entry from rfl), ite_self]
  exact changesOnly_setTap _ s

/-- RELEASE refused has none, and answers its status alone (R188, R190). -/
theorem State.judgementPoint_release_refused {m : Byte} {status : TapStatus} {s : State}
    (h : s.judgeRequest .release m = status) (hstatus : status ≠ .ok) :
    changesOnly [.tap] s (s.judgementPoint 0x07 [m]) ∧
      (s.judgementPoint 0x07 [m]).tap.response = some [status.code] := by
  have hrefused : decide (s.judgeRequest (requestOfByte 0x07) ([m].getLastD 0) = .ok) = false :=
    decide_eq_false (fun hok => hstatus (h.symm.trans hok))
  constructor
  · simp only [State.judgementPoint, hrefused]
    exact changesOnly_setTap _ s
  · have hresponse : (s.judgementPoint 0x07 [m]).tap.response = some (s.response .release m) := rfl
    rw [hresponse, State.response, h, if_neg hstatus]

/-- RELEASE taken is a local release (R143, R196). -/
theorem State.judgementPoint_release_taken {m : Byte} {s : State} (h : s.judgeRequest .release m = .ok) :
    s.judgementPoint 0x07 [m] = (s.localRelease m).setTap (s.judgementPoint 0x07 [m]).tap := by
  have htaken : decide (s.judgeRequest (requestOfByte 0x07) ([m].getLastD 0) = .ok) = true := decide_eq_true h
  simp only [State.judgementPoint, htaken, if_true]
  rfl

/-- The slate after a local release in RUNNING, with or without network release (R75, R91, R144). -/
theorem State.localRelease_slate_running (m : ZoneMask) {s : State} (hrun : s.ctrl.phase = .running) :
    (s.localRelease m).slate =
      if s.loader.config.any (fun c => c.networkRelease) = true ∧ s.health.state ≠ .withdrawn then
        { s.slate with release := some (releaseMerged (s.onLine .release) m s.slate.release) }
      else s.slate := by
  cases hc : s.loader.config with
  | none => simp [State.localRelease, hc]
  | some c =>
    rw [State.localRelease_slate m hc, takes_release_running hrun]
    simp only [Option.any_some, Bool.and_eq_true, decide_eq_true_iff]

/-- The answer to ENTRY (R190, R192, R204). -/
theorem State.response_entry (n : Byte) (s : State) :
    s.response .entry n =
      if s.ctrl.phase = .loading ∨ s.ctrl.phase = .halted then [0x01]
      else if n = 0 ∨ 31 < n.toNat then [0x04]
      else 0x00 :: entryLayout (n.setWidth 5) (s.entry (n.setWidth 5)) := by
  rw [State.response, State.judgeRequest_entry]
  split
  · rfl
  · split
    · rfl
    · exact congrArg _ (Entry.content_eq _ _)

/-- What RELEASE with a mask in RUNNING does: the own terms' release, the request to the slate, and the answer OK (R143,
R144, R188, R196). -/
theorem State.judgementPoint_release_running {m : Byte} {s : State} (hmask : m ≠ 0) (hrun : s.ctrl.phase = .running) :
    let t := s.judgementPoint 0x07 [m]
    changesOnly [.tap, .terms, .outputs, .notices, .slate] s t ∧ t.tap.response = some [0x00] ∧
      t.terms = (s.applyRelease m none).terms ∧ t.outputs = (s.applyRelease m none).outputs ∧
      t.outputTrace = (s.applyRelease m none).outputTrace ∧ t.notices = (s.applyRelease m none).notices ∧
      t.slate =
        if s.loader.config.any (fun c => c.networkRelease) = true ∧ s.health.state ≠ .withdrawn then
          { s.slate with release := some (releaseMerged (s.onLine .release) m s.slate.release) }
        else s.slate := by
  intro t
  have hjudged : s.judgeRequest .release m = .ok := by
    rw [State.judgeRequest_release, if_neg (by simp [hrun]), if_neg hmask, if_neg (not_not.mpr hrun)]
  have hresponse : t.tap.response = some (s.response .release m) := rfl
  have htaken : t = (s.localRelease m).setTap t.tap := State.judgementPoint_release_taken hjudged
  have hends := State.localRelease_ends m s
  have hslate := State.localRelease_slate_running m hrun
  refine ⟨s.judgementPoint_changes 0x07 [m], by rw [hresponse, State.response, hjudged]; rfl, ?_⟩
  rw [htaken]
  exact ⟨hends.terms, hends.outputs, hends.trace, hends.notices, hslate⟩

/-! ### The commands -/

theorem exec_release_argument (m : Byte) {s : State} (hstate : s.tap.state = .request) (hbits : s.tap.bitsIn = []) :
    exec (.release (some m)) s = .next (s.judgementPoint 0x07 [m]) :=
  congrArg _ (State.tapBytes_argument m hstate hbits rfl)

theorem exec_entry_argument (n : Byte) {s : State} (hstate : s.tap.state = .request) (hbits : s.tap.bitsIn = []) :
    exec (.entry (some n)) s = .next (s.judgementPoint 0x02 [n]) :=
  congrArg _ (State.tapBytes_argument n hstate hbits rfl)

theorem exec_entry_request {s : State} (hstate : s.tap.state = .request) (hbits : s.tap.bitsIn = []) :
    exec (.entry none) s =
      .next (s.setTap { s.tap with state := .arguments, request := some 0x02, args := [], bitsIn := [] }) :=
  congrArg _ (State.tapBytes_request hstate hbits rfl)

theorem exec_release_request {s : State} (hstate : s.tap.state = .request) (hbits : s.tap.bitsIn = []) :
    exec (.release none) s =
      .next (s.setTap { s.tap with state := .arguments, request := some 0x07, args := [], bitsIn := [] }) :=
  congrArg _ (State.tapBytes_request hstate hbits rfl)

/-- Settles O45: the bytes come to the judgement point, and each answer follows the status of the judgement; the four
outcomes of RELEASE are its three refusals and the local release. -/
theorem entryAndReleaseTakeTheirArgument : Obligations.EntryAndReleaseTakeTheirArgument := by
  unfold Obligations.EntryAndReleaseTakeTheirArgument
  refine ⟨rfl, fun s hstate hbits => ⟨?_, ?_, fun n => ?_, fun m => ?_⟩⟩
  · exact ⟨_, exec_entry_request hstate hbits, changesOnly_setTap _ s, rfl, rfl, rfl⟩
  · exact ⟨_, exec_release_request hstate hbits, changesOnly_setTap _ s, rfl, rfl, rfl⟩
  · obtain ⟨htake, hrestart⟩ := s.judgementPoint_unarmed (code := 0x02) [n] (by decide) (by decide)
    exact ⟨_, exec_entry_argument n hstate hbits, s.judgementPoint_entry n, rfl,
      congrArg some (s.response_entry n), entryLayout_length _ _, rfl, htake, hrestart⟩
  · obtain ⟨htake, hrestart⟩ := s.judgementPoint_unarmed (code := 0x07) [m] (by decide) (by decide)
    refine ⟨_, exec_release_argument m hstate hbits, rfl, htake, hrestart, ?_⟩
    have hjudged := s.judgeRequest_release m
    split
    · next hphase =>
      rw [if_pos hphase] at hjudged
      exact State.judgementPoint_release_refused hjudged (by decide)
    · next hphase =>
      rw [if_neg hphase] at hjudged
      split
      · next hmask =>
        rw [if_pos hmask] at hjudged
        exact State.judgementPoint_release_refused hjudged (by decide)
      · next hmask =>
        rw [if_neg hmask] at hjudged
        split
        · next hrun =>
          rw [if_pos hrun] at hjudged
          exact State.judgementPoint_release_refused hjudged (by decide)
        · next hrun => exact State.judgementPoint_release_running hmask (not_not.mp hrun)

end Sys2Proof.Machine
end

section
/-! The health monitor through every command: it is left, reset, or takes the outcome of a frame, with a sighting at the end
of a sender's window (R111, R112, R120, R126). -/

namespace Sys2Proof.Machine

/-! ### The operations that report an outcome (R64, R68 to R70, R111, R120) -/

/-- The weight of an outcome reads the monitor alone. -/
theorem State.weighOutcome_health_congr (o : FrameOutcome) {s u : State} (h : u.health = s.health) :
    (u.weighOutcome o).health = (s.weighOutcome o).health := by
  rw [State.weighOutcome_health, State.weighOutcome_health, h]

/-- A sighting reads the monitor alone. -/
theorem State.sighting_health_congr {s u : State} (h : u.health = s.health) : u.sighting.health = s.sighting.health := by
  rw [State.sighting_health, State.sighting_health, h]

theorem State.abort_health (k : Kind) {s p : State} (h : p.health = s.health) :
    (p.abort k).health = (s.weighOutcome .aborted).health :=
  State.weighOutcome_health_congr .aborted (by simp [h])

theorem State.abandon_health {s u : State} (h : u.health = s.health) :
    u.abandon.health = (s.weighOutcome .abandoned).health :=
  State.weighOutcome_health_congr .abandoned h

/-- Of the three judgements REJECTED alone reaches the monitor (R64, R111). -/
theorem State.judged_health (r : ReceivedFrame) {s u : State} (h : u.health = s.health) :
    (u.judged r).health =
      if r.judge u.ctrl.ownNumber = .rejected then (s.weighOutcome .rejected).health else s.health := by
  rw [State.judged]
  split
  · next hj => rw [if_pos hj]; exact State.weighOutcome_health_congr .rejected h
  · next hj => rw [hj, if_neg (by decide), ← h]; simp
  · next hj => rw [hj, if_neg (by decide), ← h]; simp

/-- COMPLETED, and the sighting after it where the own slot read confirmed (R120). -/
theorem State.completedWeighed_health (sighted : Bool) {s u : State} (h : u.health = s.health) :
    (u.completedWeighed sighted).health =
      if sighted then (s.weighOutcome .completed).sighting.health else (s.weighOutcome .completed).health := by
  have hweighed := State.weighOutcome_health_congr .completed h
  cases sighted with
  | false => exact hweighed
  | true => exact State.sighting_health_congr hweighed

theorem State.senderClosed_health (k : Kind) (m : StationMap) {s u : State} (h : u.health = s.health) :
    (u.senderClosed k m).health =
      if inMap m u.ctrl.ownNumber then (s.weighOutcome .completed).sighting.health
      else (s.weighOutcome .completed).health :=
  State.completedWeighed_health _ (by simp [h])

theorem State.receiverClosed_health (m : StationMap) {s u : State} (h : u.health = s.health) :
    (u.receiverClosed m).health = (s.weighOutcome .accepted).health :=
  State.weighOutcome_health_congr .accepted (by simp [h])

/-! ### What a command does to the monitor -/

/-- The commands at which an outcome that has a weight is reported (R69, R70, R111); LOST, KEY_LOST's, has none. -/
def reportsOutcome (c : Instr) : Prop :=
  (∃ bits, c = .sendAborted bits) ∨ (∃ bits, c = .invalidKind bits) ∨ (∃ bits, c = .framingFault bits) ∨
    (∃ bits, c = .stuckDominant bits) ∨ (∃ bits, c = .frameReceived bits) ∨ ∃ slots, c = .windowEnd slots

/-- A command leaves the monitor, resets it, or gives it an outcome, at the end of a sender's window with a sighting. -/
inductive MonitorMoved (c : Instr) (s t : State) : Prop
  | kept (health : t.health = s.health)
  | reset (command : resets c s) (health : t.health = HealthMonitor.afterReset)
  | weighed (o : FrameOutcome) (command : reportsOutcome c) (health : t.health = (s.weighOutcome o).health)
  | sighted (slots : List BitPeriod) (command : c = .windowEnd slots)
      (health : t.health = (s.weighOutcome .completed).sighting.health)

/-- A command that answers a state with the monitor as it was, or changes nothing where its event cannot happen. -/
theorem MonitorMoved.of_guarded {c : Instr} {p : Prop} [Decidable p] {s t u : State} (hu : u.health = s.health)
    (h : (if p then .next u else .next s : Result) = .next t) : MonitorMoved c s t := by
  split at h
  · cases h; exact .kept hu
  · cases h; exact .kept rfl

/-! ### Resets, loads and samples -/

theorem State.halt_health (f : FaultCode) (port : List BusOp) (s : State) : (s.halt f port).health = s.health := by
  obtain ⟨_, _, _, _, hhealth, _⟩ := s.halt_blocks f port
  exact hhealth

theorem State.validLoad_health (c : StationConfig) (port : List BusOp) (x : SenseSample) (s : State) :
    (s.validLoad c port x).health = s.health := by
  obtain ⟨_, _, _, _, hhealth⟩ := s.validLoad_blocks c port x
  exact hhealth

theorem resetEnd_health {x : HeldSource} {s t : State} (h : exec (.resetEnd x) s = .next t) : t.health = s.health := by
  simp only [exec, execResetEnd] at h
  split at h
  · split at h
    all_goals cases h; rfl
  · cases h; rfl

theorem headerRead_health {n : Nat} {a b l r : Byte} {s t : State} (h : exec (.headerRead n a b l r) s = .next t) :
    t.health = s.health := by
  simp only [exec, execHeaderRead] at h
  split at h
  · split at h
    · cases h; exact State.halt_health _ _ s
    · cases h; rfl
  · cases h; rfl

theorem transportFailure_health {n : Nat} {f : BusFault} {read : List Byte} {s t : State}
    (h : exec (.transportFailure n f read) s = .next t) : t.health = s.health := by
  simp only [exec, execTransportFailure] at h
  split at h
  · split at h
    · cases h; rfl
    · cases h; exact State.halt_health _ _ s
  · cases h; rfl

theorem imageComplete_health {rest : List Byte} {x : SenseSample} {s t : State}
    (h : exec (.imageComplete rest x) s = .next t) : t.health = s.health := by
  simp only [exec, execImageComplete] at h
  split at h
  · split at h
    · cases h; exact State.halt_health _ _ _
    · cases h; exact State.validLoad_health _ _ x _
  · cases h; rfl

theorem sampleEvent_health {x : SenseSample} {s t : State} (h : exec (.sampleEvent x) s = .next t) :
    t.health = s.health := by
  simp only [exec, execSampleEvent] at h
  split at h
  · cases h; simp
  · cases h; rfl

theorem tselAssert_health {s t : State} (h : exec .tselAssert s = .next t) : t.health = s.health := by
  simp only [exec, execTselAssert] at h
  split at h
  · cases h; rfl
  · split at h
    all_goals cases h; rfl

/-- The release of TSEL: a restart resets the monitor, else it stays (R126, R189, R198). -/
theorem tselRelease_monitor {tsdi : List Bool} {s t : State} (h : exec (.tselRelease tsdi) s = .next t) :
    MonitorMoved (.tselRelease tsdi) s t := by
  simp only [exec, execTselRelease] at h
  split at h
  · next hsel =>
    cases h
    rw [State.endTransaction]
    split
    · next harmed => exact .reset (.inr (.inr ⟨tsdi, rfl, hsel, harmed⟩)) rfl
    · exact .kept (by simp)
  · cases h; exact .kept rfl

/-! ### The commands of the line -/

theorem contentionStart_health {gap : List BitPeriod} {edge : Option Int} {able : Nat} {s t : State}
    (h : exec (.contentionStart gap edge able) s = .next t) : t.health = s.health := by
  simp only [exec, execContentionStart] at h
  split at h
  all_goals cases h; rfl

/-- The own frame lost, its key won or its last bit sent: no outcome with a weight (R56, R57, R62, R111). -/
theorem ownFrame_health {c : Instr} {bits : List BitPeriod} {s t : State}
    (hc : c = .keyLost bits ∨ c = .keyWon bits ∨ c = .lastCheckBitSent bits) (h : exec c s = .next t) :
    t.health = s.health := by
  rcases hc with rfl | rfl | rfl
  all_goals
    simp only [exec, execKeyLost, execKeyWon, execLastCheckBitSent] at h
    split at h
    · split at h
      · cases h; simp
      · cases h; rfl
    · cases h; rfl

theorem sendAborted_monitor {bits : List BitPeriod} {s t : State} (h : exec (.sendAborted bits) s = .next t) :
    MonitorMoved (.sendAborted bits) s t := by
  have haborted : ∀ (k : Kind) (p : State), p.health = s.health → MonitorMoved (.sendAborted bits) s (p.abort k) :=
    fun k p hp => .weighed .aborted (by simp [reportsOutcome]) (State.abort_health k hp)
  simp only [exec, execSendAborted] at h
  split at h
  · split at h
    · cases h; exact haborted _ _ rfl
    · cases h; exact .kept rfl
  · split at h
    · cases h; exact haborted _ _ rfl
    · cases h; exact .kept rfl
  · cases h; exact .kept rfl

/-- The three commands that abandon a frame (R58, R106, R107). -/
theorem abandoning_monitor {c : Instr} {bits : List BitPeriod} {s t : State}
    (hc : c = .invalidKind bits ∨ c = .framingFault bits ∨ c = .stuckDominant bits) (h : exec c s = .next t) :
    MonitorMoved c s t := by
  have hreports : reportsOutcome c := by rcases hc with rfl | rfl | rfl <;> simp [reportsOutcome]
  rcases hc with rfl | rfl | rfl
  all_goals
    simp only [exec, execInvalidKind, execFramingFault, execStuckDominant] at h
    split at h
    · split at h
      · cases h; exact .weighed .abandoned hreports (State.abandon_health rfl)
      · cases h; exact .kept rfl
    · cases h; exact .kept rfl

theorem frameReceived_monitor {bits : List BitPeriod} {s t : State} (h : exec (.frameReceived bits) s = .next t) :
    MonitorMoved (.frameReceived bits) s t := by
  rcases execFrameReceived_cases h with rfl | ⟨r, f, x, _, _, rfl⟩
  · exact .kept rfl
  · have hjudged := State.judged_health r (s := s) (u := s.followed f bits .q4 x) rfl
    split at hjudged
    · exact .weighed .rejected (by simp [reportsOutcome]) hjudged
    · exact .kept hjudged

/-- The frame closed by the station's part in it: a sender's COMPLETED, with its sighting, a receiver's ACCEPTED, and nothing
from a silent follower (R68, R111, R120). -/
theorem closeFrame_monitor (slots : List BitPeriod) (f : Frame) (m : StationMap) {s u : State} (h : u.health = s.health) :
    MonitorMoved (.windowEnd slots) s (u.closeFrame f m) := by
  have hreports : reportsOutcome (.windowEnd slots) := by simp [reportsOutcome]
  rw [State.closeFrame]
  split
  · next v _ =>
    have hclosed := State.senderClosed_health v.slot m h
    split at hclosed
    · exact .sighted slots rfl hclosed
    · exact .weighed .completed hreports hclosed
  · exact .weighed .accepted hreports (State.receiverClosed_health m h)
  · exact .kept h
  · exact .kept h

/-- The monitor is all that the four ways speak of. -/
theorem MonitorMoved.of_health {c : Instr} {s t t' : State} (h : MonitorMoved c s t) (hhealth : t'.health = t.health) :
    MonitorMoved c s t' := by
  cases h with
  | kept health => exact .kept (hhealth.trans health)
  | reset command health => exact .reset command (hhealth.trans health)
  | weighed o command health => exact .weighed o command (hhealth.trans health)
  | sighted slots command health => exact .sighted slots command (hhealth.trans health)

theorem windowEnd_monitor {slots : List BitPeriod} {s t : State} (h : exec (.windowEnd slots) s = .next t) :
    MonitorMoved (.windowEnd slots) s t := by
  simp only [exec, execWindowEnd] at h
  split at h
  · next f _ =>
    split at h
    · cases h
      have hclosed := closeFrame_monitor slots f (confirmMapOf slots) (s := s) (u := s.slotsPassed f slots) rfl
      exact hclosed.of_health (by simp [State.slotsPassed])
    · cases h; exact .kept rfl
  · cases h; exact .kept rfl

/-! ### Every command -/

/-- What each command does to the health monitor. -/
theorem exec_monitorMoved {c : Instr} {s t : State} (h : exec c s = .next t) : MonitorMoved c s t := by
  cases c with
  | powerOnReset => cases h; exact .reset (.inl rfl) rfl
  | resetPin => cases h; exact .reset (.inr (.inl rfl)) rfl
  | resetEnd x => exact .kept (resetEnd_health h)
  | headerRead n a b l r => exact .kept (headerRead_health h)
  | transportFailure n f read => exact .kept (transportFailure_health h)
  | pauseEnd => exact .of_guarded (by rfl) h
  | imageComplete rest x => exact .kept (imageComplete_health h)
  | sampleEvent x => exact .kept (sampleEvent_health h)
  | refreshTick order | peerSilent n order | listenExpiry order => exact .of_guarded (by simp) h
  | discardEnd gap | frameStart gap edge able => exact .of_guarded (by simp) h
  | contentionStart gap edge able => exact .kept (contentionStart_health h)
  | keyLost bits => exact .kept (ownFrame_health (.inl rfl) h)
  | keyWon bits => exact .kept (ownFrame_health (.inr (.inl rfl)) h)
  | lastCheckBitSent bits => exact .kept (ownFrame_health (.inr (.inr rfl)) h)
  | sendAborted bits => exact sendAborted_monitor h
  | invalidKind bits => exact abandoning_monitor (.inl rfl) h
  | framingFault bits => exact abandoning_monitor (.inr (.inl rfl)) h
  | stuckDominant bits => exact abandoning_monitor (.inr (.inr rfl)) h
  | frameReceived bits => exact frameReceived_monitor h
  | windowEnd slots => exact windowEnd_monitor h
  | tselAssert => exact .kept (tselAssert_health h)
  | tselRelease tsdi => exact tselRelease_monitor h
  | status | entry n | terms | counters | peek | take | release mask | resync | restart =>
    cases h; exact .kept (by simp)
  | unknownRequest b => exact .of_guarded (by simp) h

/-! ### The statements -/

/-- Every way in which a command moves the monitor keeps its ranges (R111, R112, R120, R126). -/
theorem MonitorMoved.healthOk {c : Instr} {s t : State} (h : MonitorMoved c s t) (hs : s.healthOk = true) :
    t.healthOk = true := by
  cases h with
  | kept health => exact State.healthOk_of_health health hs
  | reset _ health => exact State.healthOk_of_health (s := State.reset) health (by decide)
  | weighed o _ health => exact State.healthOk_of_health health (State.weighOutcome_healthOk o s hs)
  | sighted slots _ health =>
    exact State.healthOk_of_health health (State.sighting_healthOk _ (State.weighOutcome_healthOk .completed s hs))

/-- Settles O52: a command leaves the monitor, resets it or weighs an outcome, and each of them keeps the ranges. -/
theorem stepKeepsHealthRanges : Obligations.StepKeepsHealthRanges := by
  unfold Obligations.StepKeepsHealthRanges
  intro s t hs hstep
  cases hpending : s.pending with
  | nil =>
    rw [step, hpending] at hstep
    cases hstep
    exact hs
  | cons c rest =>
    rw [step, hpending] at hstep
    have hqueue : (s.setPending rest).healthOk = true := State.healthOk_of_health rfl hs
    exact (exec_monitorMoved hstep).healthOk hqueue

/-- Settles O37: the table is that of `nextHealth`; of the ways a command moves the monitor, a reset and an outcome's weight
alone change the state. -/
theorem healthChangesOnlyAtOutcomes : Obligations.HealthChangesOnlyAtOutcomes := by
  unfold Obligations.HealthChangesOnlyAtOutcomes
  refine ⟨fun count => ⟨rfl, rfl, rfl⟩, fun c s t h hchanged => ?_⟩
  cases exec_monitorMoved h with
  | kept health => exact absurd (congrArg HealthMonitor.state health) hchanged
  | reset command _ => exact .inl command
  | weighed _ command _ => exact .inr command
  | sighted slots command _ => exact .inr (.inr (.inr (.inr (.inr (.inr ⟨slots, command⟩)))))

end Sys2Proof.Machine
end

section
/-! The live condition entry by entry, and the condition on the terms with the moves that keep it (R127 to R136, R138,
R140). -/

namespace Sys2Proof.Machine

/-! ### The live condition entry by entry (R127 to R131) -/

/-- An entry in a term's scope of which an aspect the term enables is true (R128 to R131). -/
def entryHolds (x : TermConfig) (e : Entry) : Bool :=
  inScope x.scope e &&
    (x.departed && entryDeparted x.zones e || x.unseen && entryUnseen x.zones e || x.plan && entryPlan e)

/-- A term is live where one of the thirty-one entries makes it so (R1, R132). -/
theorem termLive_iff_entry (x : TermConfig) (s : State) :
    termLive x s.table = true ↔ ∃ n, n ≠ 0 ∧ entryHolds x (s.entry n) = true := by
  rw [termLive, List.any_eq_true]
  constructor
  · rintro ⟨e, he, hholds⟩
    obtain ⟨i, hi, rfl⟩ := List.getElem_of_mem he
    rw [Vector.length_toList] at hi
    have hnat : (BitVec.ofNat 5 (i + 1)).toNat = i + 1 := by
      rw [BitVec.toNat_ofNat]
      omega
    have hn : BitVec.ofNat 5 (i + 1) ≠ 0 := fun h0 => by
      rw [h0] at hnat
      exact Nat.succ_ne_zero i hnat.symm
    refine ⟨BitVec.ofNat 5 (i + 1), hn, ?_⟩
    rw [State.entry, PeerTable.entry_eq _ hn]
    have hholds : entryHolds x s.table[i] = true := by rwa [Vector.getElem_toList] at hholds
    simpa only [hnat, Nat.add_sub_cancel] using hholds
  · rintro ⟨n, hn, hholds⟩
    rw [State.entry, PeerTable.entry_eq _ hn] at hholds
    exact ⟨_, by simp, hholds⟩

/-- Which entries a term looks at (R128). -/
theorem inScope_iff (scope : TermScope) (e : Entry) :
    inScope scope e = true ↔ e.roster = true ∧
      (scope = .all ∨ (scope = .peers ∧ e.presence ≠ .self) ∨ (scope = .self ∧ e.presence = .self)) := by
  cases scope with
  | all => simp [inScope]
  | peers => simp [inScope]
  | self => simp [inScope]

/-- A mask is empty where no zone is in it. -/
theorem zones_ne_zero_iff (mask : ZoneMask) : mask ≠ 0 ↔ ∃ z : Zone, mask.getLsbD z.toNat = true := by
  constructor
  · intro hmask
    by_contra hnone
    refine hmask (BitVec.eq_of_getLsbD_eq (fun i hi => ?_))
    have hz : (BitVec.ofNat 3 i : Zone).toNat = i := by
      rw [BitVec.toNat_ofNat]
      omega
    rw [show (0 : ZoneMask).getLsbD i = false from BitVec.getLsbD_zero, ← Bool.not_eq_true]
    exact fun hbit => hnone ⟨BitVec.ofNat 3 i, by rw [hz]; exact hbit⟩
  · rintro ⟨z, hz⟩ rfl
    simp at hz

/-- A group lies in a zone of the mask, with a zone map and without (R128). -/
theorem liesIn_iff (mask : ZoneMask) (e : Entry) (g : Fin 4) :
    liesIn mask e.zoneMap g = true ↔ groupInMask mask e g := by
  rw [groupInMask]
  cases e.zoneMap with
  | none => simpa [liesIn] using zones_ne_zero_iff mask
  | some zones => simp [liesIn, inZones]

theorem mem_groupIndices (g : Fin 4) : g ∈ groupIndices := by revert g; decide

/-- DEPARTED, in the words of the statements (R129). -/
theorem entryDeparted_iff (mask : ZoneMask) (e : Entry) :
    entryDeparted mask e = true ↔ (e.presence = .present ∨ e.presence = .self) ∧
      ∃ r, e.report = some r ∧ ∃ g, r.content.groups[g].conforming = false ∧ groupInMask mask e g := by
  rw [entryDeparted, Bool.and_eq_true, Bool.or_eq_true, decide_eq_true_iff, decide_eq_true_iff]
  refine and_congr_right (fun _ => ?_)
  cases e.report with
  | none => simp
  | some r => simp [mem_groupIndices, liesIn_iff]

/-- UNSEEN (R130; log 11). -/
theorem entryUnseen_iff (mask : ZoneMask) (e : Entry) :
    entryUnseen mask e = true ↔ (e.presence = .absent ∨ e.presence = .heard ∨ e.presence = .silent) ∧
      ∃ g, groupInMask mask e g := by
  simp only [entryUnseen, Bool.and_eq_true, Bool.or_eq_true, decide_eq_true_iff, List.any_eq_true,
    mem_groupIndices, true_and, liesIn_iff, or_assoc]

/-- PLAN (R131). -/
theorem entryPlan_iff (e : Entry) :
    entryPlan e = true ↔ e.presence ≠ .self ∧ ∃ p, e.plan = some p ∧ p.agrees = false := by
  simp [entryPlan, Option.any_eq_true]

/-- The live condition, aspect by aspect (R127 to R132). -/
theorem termLive_iff_termHolds (x : TermConfig) (s : State) : termLive x s.table = true ↔ termHolds x s := by
  simp only [termLive_iff_entry, termHolds, entryHolds, Bool.and_eq_true, Bool.or_eq_true, inScope_iff,
    entryDeparted_iff, entryUnseen_iff, entryPlan_iff, and_assoc, or_assoc]

/-! ### The condition on the terms -/

/-- What `termsOk` asks of one term in RUNNING (R132, R133). -/
structure TermFlags.RightFor (x : TermConfig) (table : PeerTable) (f : TermFlags) : Prop where
  live : f.live = termLive x table
  latched : x.latch = true → f.live = true → f.latched = true
  latching : f.latched = true → x.latch = true

/-- The condition of `termsOk`, with a configuration in every phase that follows a valid load (R132, R133, R170). -/
structure State.TermsRight (s : State) : Prop where
  loaded : s.ctrl.phase.configured = true → s.loader.config.isSome = true
  running : ∀ c, s.ctrl.phase = .running → s.loader.config = some c →
    ∀ i : Fin 16, (s.terms.flags[i]).RightFor c.terms[i] s.table
  outside : s.ctrl.phase ≠ .running → s.terms.flags = quietTerms

theorem mem_termIndices (i : Fin 16) : i ∈ termIndices := by revert i; decide

/-- The condition in RUNNING, term by term. -/
theorem State.termsOk_running {s : State} {c : StationConfig} (hrun : s.ctrl.phase = .running)
    (hc : s.loader.config = some c) :
    s.termsOk = true ↔ ∀ i : Fin 16, (s.terms.flags[i]).RightFor c.terms[i] s.table := by
  have hor : ∀ a b : Bool, (!a || b) = true ↔ (a = true → b = true) := by decide
  simp only [State.termsOk, hrun, hc, List.all_eq_true, mem_termIndices, true_implies, Bool.and_eq_true, hor,
    decide_eq_true_iff, and_imp]
  exact forall_congr' (fun i => ⟨fun ⟨⟨hlive, hlatched⟩, hlatching⟩ => ⟨hlive, hlatched, hlatching⟩,
    fun ⟨hlive, hlatched, hlatching⟩ => ⟨⟨hlive, hlatched⟩, hlatching⟩⟩)

/-- Outside RUNNING every term is quiet. -/
theorem State.termsOk_outside {s : State} (hrun : s.ctrl.phase ≠ .running) :
    s.termsOk = true ↔ s.terms.flags = quietTerms := by
  rw [State.termsOk]
  split
  · next h _ => exact absurd h hrun
  · next h _ => exact absurd h hrun
  · exact decide_eq_true_iff

theorem State.termsRight_of_ok {s : State} (hl : s.loaderOk = true) (hs : s.termsOk = true) : s.TermsRight where
  loaded := fun h => (State.loaderOk_phase hl).1.trans h
  running := fun _ hrun hc => (State.termsOk_running hrun hc).mp hs
  outside := fun hrun => (State.termsOk_outside hrun).mp hs

theorem State.TermsRight.ok {s : State} (hs : s.TermsRight) : s.termsOk = true := by
  by_cases hrun : s.ctrl.phase = .running
  · obtain ⟨c, hc⟩ := Option.isSome_iff_exists.mp (hs.loaded (by rw [hrun]; rfl))
    exact (State.termsOk_running hrun hc).mpr (hs.running c hrun hc)
  · exact (State.termsOk_outside hrun).mpr (hs.outside hrun)

/-! ### Moves that keep it -/

/-- From s to t the terms move as the rules let them: the condition is kept, RUNNING is left for CONFLICT alone and CONFLICT
for no phase, and a latch is cleared only of a term that is not live and may be freed (R133, R138, R160). -/
structure State.TermsMoved (freed : StationConfig → Fin 16 → Prop) (s t : State) : Prop where
  config : t.loader.config = s.loader.config
  phase : s.ctrl.phase = .running ∨ s.ctrl.phase = .conflict → t.ctrl.phase = s.ctrl.phase ∨ t.ctrl.phase = .conflict
  right : s.TermsRight → t.TermsRight
  cleared : s.ctrl.phase = .running → t.ctrl.phase = .running → ∀ c, s.loader.config = some c → ∀ i : Fin 16,
    s.terms.flags[i].latched = true → t.terms.flags[i].latched = false → t.terms.flags[i].live = false ∧ freed c i

/-- The terms move with no latch cleared. -/
abbrev State.TermsKept (s t : State) : Prop := s.TermsMoved (fun _ _ => False) t

/-- The terms move, and only the latches that a release with mask m meets are cleared (R138). -/
abbrev State.TermsReleased (m : ZoneMask) (s t : State) : Prop := s.TermsMoved (fun c i => c.terms[i].zones &&& m ≠ 0) t

/-- Phase, configuration, flags and table are the same. -/
structure State.TermsUntouched (s t : State) : Prop where
  phase : t.ctrl.phase = s.ctrl.phase
  config : t.loader.config = s.loader.config
  flags : t.terms.flags = s.terms.flags
  table : t.table = s.table

theorem State.TermsUntouched.refl (s : State) : s.TermsUntouched s := ⟨rfl, rfl, rfl, rfl⟩

theorem State.TermsUntouched.trans {s t u : State} (h : s.TermsUntouched t) (h' : t.TermsUntouched u) :
    s.TermsUntouched u :=
  ⟨h'.phase.trans h.phase, h'.config.trans h.config, h'.flags.trans h.flags, h'.table.trans h.table⟩

section
variable {freed : StationConfig → Fin 16 → Prop} {s t u : State}

/-- Moves that clear no latch, then one that may. -/
theorem State.TermsMoved.trans (h : s.TermsKept t) (h' : t.TermsMoved freed u) : s.TermsMoved freed u where
  config := h'.config.trans h.config
  phase := by
    intro hs
    rcases h.phase hs with ht | ht
    · rw [← ht] at hs ⊢
      exact h'.phase hs
    · rcases h'.phase (.inr ht) with hu | hu
      · exact .inr (hu.trans ht)
      · exact .inr hu
  right := fun hs => h'.right (h.right hs)
  cleared := by
    intro hs hu c hc i hlatched hcleared
    have ht : t.ctrl.phase = .running := by
      rcases h.phase (.inl hs) with ht | ht
      · exact ht.trans hs
      · rcases h'.phase (.inr ht) with hu' | hu' <;> simp_all
    cases hkept : t.terms.flags[i].latched with
    | true => exact h'.cleared ht hu c (h.config.trans hc) i hkept hcleared
    | false => exact (h.cleared hs ht c hc i hlatched hkept).2.elim

theorem State.TermsMoved.mono {freed' : StationConfig → Fin 16 → Prop} (h : s.TermsMoved freed t)
    (himp : ∀ c i, freed c i → freed' c i) : s.TermsMoved freed' t where
  config := h.config
  phase := h.phase
  right := h.right
  cleared := fun hs ht c hc i hlatched hcleared =>
    have ⟨hlive, hfreed⟩ := h.cleared hs ht c hc i hlatched hcleared
    ⟨hlive, himp c i hfreed⟩

/-- A move that clears no latch is a move that may. -/
theorem State.TermsMoved.of_kept (h : s.TermsKept t) : s.TermsMoved freed t := h.mono (fun _ _ => False.elim)

/-- Flags and phase stand, and every term is live as it was. -/
theorem State.TermsMoved.of_live (hphase : t.ctrl.phase = s.ctrl.phase) (hconfig : t.loader.config = s.loader.config)
    (hflags : t.terms.flags = s.terms.flags) (hlive : ∀ x, termLive x t.table = termLive x s.table) : s.TermsKept t where
  config := hconfig
  phase := fun _ => .inl hphase
  right := fun hs =>
    { loaded := by rw [hphase, hconfig]; exact hs.loaded
      running := fun c hrun hc i => by
        rw [hphase] at hrun
        rw [hconfig] at hc
        obtain ⟨hlive', hlatched, hlatching⟩ := hs.running c hrun hc i
        rw [hflags]
        exact ⟨hlive'.trans (hlive _).symm, hlatched, hlatching⟩
      outside := by rw [hphase, hflags]; exact hs.outside }
  cleared := by
    intro _ _ _ _ i hlatched hcleared
    rw [hflags, hlatched] at hcleared
    exact Bool.noConfusion hcleared

theorem State.TermsUntouched.kept (h : s.TermsUntouched t) : s.TermsKept t :=
  .of_live h.phase h.config h.flags (fun _ => by rw [h.table])

/-- What goes before a move and touches no term is part of it. -/
theorem State.TermsUntouched.moved (h : s.TermsUntouched t) (h' : t.TermsMoved freed u) : s.TermsMoved freed u :=
  h.kept.trans h'

/-- So is what follows it. -/
theorem State.TermsMoved.untouched (h : s.TermsMoved freed t) (h' : t.TermsUntouched u) : s.TermsMoved freed u where
  config := h'.config.trans h.config
  phase := by rw [h'.phase]; exact h.phase
  right := fun hs => h'.kept.right (h.right hs)
  cleared := by rw [h'.phase, h'.flags]; exact h.cleared

/-- Outside RUNNING the flags stand, and the phase that follows is one that a configuration goes with as before. -/
theorem State.TermsMoved.of_outside (hs : s.ctrl.phase ≠ .running) (ht : t.ctrl.phase ≠ .running)
    (hphase : s.ctrl.phase = .conflict → t.ctrl.phase = .conflict)
    (hconfigured : t.ctrl.phase.configured = s.ctrl.phase.configured) (hconfig : t.loader.config = s.loader.config)
    (hflags : t.terms.flags = s.terms.flags) : s.TermsKept t where
  config := hconfig
  phase := fun h => .inr (hphase (h.resolve_left hs))
  right := fun hright =>
    { loaded := by rw [hconfigured, hconfig]; exact hright.loaded
      running := fun _ hrun => absurd hrun ht
      outside := fun _ => by rw [hflags]; exact hright.outside hs }
  cleared := fun hrun => absurd hrun hs

end

end Sys2Proof.Machine
end

section
/-! How the terms move at each operation that reaches them, their table or the phase (R26, R78, R83, R113, R132 to R136,
R138, R140, R178). -/

namespace Sys2Proof.Machine

/-! ### Updates of one entry -/

/-- An update that leaves what the terms look at (R128 to R131). -/
theorem termLive_updateEntry (x : TermConfig) {n : Station} {f : Entry → Entry} {s : State}
    (h : (s.entry n).sameToTerms (f (s.entry n))) : termLive x (s.updateEntry n f).table = termLive x s.table := by
  refine termLive_of_entries x (fun m _ => ?_)
  rw [State.entry_updateEntry]
  split
  · next hm => rw [hm.1]; exact h
  · exact ⟨rfl, rfl, rfl, rfl, rfl⟩

/-- The self entry takes the own sequences where a series opens; no term looks at them (R25, R78). -/
theorem State.openSeries_termsKept (k : Kind) (s : State) : s.TermsKept (s.openSeries k) := by
  refine .of_live (by simp) (by simp) (by simp) (fun x => ?_)
  cases k with
  | change =>
    simp only [State.openSeries, State.openChange]
    repeat' split
    · rfl
    · refine termLive_updateEntry x ⟨rfl, rfl, rfl, rfl, ?_⟩
      rw [Option.map_map]
      rfl
    · rfl
  | release =>
    simp only [State.openSeries, State.openRelease]
    repeat' split
    · rfl
    · exact termLive_updateEntry x ⟨rfl, rfl, rfl, rfl, rfl⟩
    · rfl
  | refresh | join | resync => rfl

/-- An outcome's weight changes at most the self entry's health code (R26, R113). -/
theorem State.weighOutcome_termsKept (o : FrameOutcome) (s : State) : s.TermsKept (s.weighOutcome o) :=
  .of_live (by simp) (by simp) (by simp) (Weighed.live ⟨rfl, rfl, rfl, rfl⟩)

/-! ### Events of the evaluator (R132 to R136, R140) -/

/-- A term re-evaluated over a table is right for it (R132, R133). -/
theorem flagsOver_rightFor {c : StationConfig} {s t : State} {i : Fin 16}
    (h : s.terms.flags[i].latched = true → c.terms[i].latch = true) :
    (flagsOver c s t i).RightFor c.terms[i] t.table := by
  obtain ⟨hlive, hlatched, hlatching⟩ := TermFlags.reevaluate_spec c.terms[i] t.table s.terms.flags[i] h
  exact ⟨hlive, fun hl hlive' => hlatched (Bool.and_eq_true_iff.mpr ⟨hl, hlive'⟩), hlatching⟩

/-- A re-evaluation makes every term right for the table as it stands, whatever was changed in it, and clears no latch
(R132, R133). -/
theorem StartsAlike.termsKept {s v : State} (h : StartsAlike s v) : s.TermsKept v.tableChanged := by
  have hctrl : v.tableChanged.ctrl = s.ctrl := by simp [h.ctrl]
  have hconfig : v.tableChanged.loader.config = s.loader.config := by simp [h.loader]
  have hflags : ∀ c, s.ctrl.phase = .running → s.loader.config = some c → ∀ i : Fin 16,
      v.tableChanged.terms.flags[i] = flagsOver c s v.tableChanged i :=
    fun c hrun hc => (tableChanged_evaluates h (EndsAlike.refl _) hrun hc).1
  refine ⟨hconfig, fun _ => .inl (by rw [hctrl]), fun hs => ⟨?_, fun c hrun hc i => ?_, fun hrun => ?_⟩, ?_⟩
  · rw [hctrl, hconfig]
    exact hs.loaded
  · rw [hctrl] at hrun
    rw [hconfig] at hc
    rw [hflags c hrun hc i]
    exact flagsOver_rightFor (hs.running c hrun hc i).latching
  · rw [hctrl] at hrun
    rw [State.tableChanged_of_not_running v (by rw [h.ctrl]; exact hrun), h.terms]
    exact hs.outside hrun
  · intro hrun _ c hc i hlatched hcleared
    have hstays : v.tableChanged.terms.flags[i].latched = true := by
      rw [hflags c hrun hc i]
      exact Bool.or_eq_true_iff.mpr (.inl hlatched)
    exact Bool.noConfusion (hstays.symm.trans hcleared)

/-- A departure-seen signal sets latches alone, of terms that latch (R134, R135). -/
theorem State.departureSeen_termsKept (g : DepartureSignal) (s : State) : s.TermsKept (s.departureSeen g) := by
  by_cases hrun : s.ctrl.phase = .running
  · cases hc : s.loader.config with
    | none =>
      rw [State.departureSeen, hrun]
      simp only [hc]
      exact (State.TermsUntouched.refl s).kept
    | some c =>
      have hflags : ∀ i : Fin 16, (s.departureSeen g).terms.flags[i] = s.terms.flags[i].signalled c.terms[i] g := by
        intro i
        simp [State.departureSeen, hrun, hc, State.settleTerms_terms]
      refine ⟨by simp, fun _ => .inl (by simp), fun hs => ⟨by simpa using hs.loaded, fun c' _ hc' i => ?_,
        fun h => absurd hrun (by simpa using h)⟩, fun _ _ _ _ i hlatched hcleared => ?_⟩
      · obtain rfl : c' = c := by simpa [hc, eq_comm] using hc'
        obtain ⟨hlive, hlatched, hlatching⟩ := hs.running c' hrun hc i
        rw [hflags i]
        refine ⟨by simpa [TermFlags.signalled] using hlive,
          fun hl hlive' => Bool.or_eq_true_iff.mpr (.inl (hlatched hl hlive')), fun hl => ?_⟩
        rcases Bool.or_eq_true_iff.mp hl with hl | hl
        · exact hlatching hl
        · simp only [signalLatches, Bool.and_eq_true, and_assoc] at hl
          exact hl.1
      · have hstays : (s.departureSeen g).terms.flags[i].latched = true := by
          rw [hflags i]
          exact Bool.or_eq_true_iff.mpr (.inl hlatched)
        exact Bool.noConfusion (hstays.symm.trans hcleared)
  · refine State.TermsUntouched.kept ⟨by simp, by simp, ?_, by simp⟩
    have hheld : (State.departureSeen.hold g s.terms).flags = s.terms.flags := by
      rw [State.departureSeen.hold]
      split <;> rfl
    cases hphase : s.ctrl.phase with
    | running => exact absurd hphase hrun
    | listening | joining =>
      simp only [State.departureSeen, hphase]
      exact hheld
    | loading | halted | conflict => simp only [State.departureSeen, hphase]

theorem State.departuresSeen_termsKept (gs : List DepartureSignal) (s : State) : s.TermsKept (s.departuresSeen gs) := by
  induction gs generalizing s with
  | nil => exact (State.TermsUntouched.refl s).kept
  | cons g gs ih => exact (s.departureSeen_termsKept g).trans (ih _)

/-- A term at entry into RUNNING is right for the table (R133, R136). -/
theorem enteredFlags_rightFor (c : StationConfig) (s t : State) (i : Fin 16) :
    (enteredFlags c s t i).RightFor c.terms[i] t.table where
  live := rfl
  latched := by
    intro hl hlive
    exact Bool.and_eq_true_iff.mpr ⟨hl, Bool.or_eq_true_iff.mpr (.inl hlive)⟩
  latching := fun h => (Bool.and_eq_true_iff.mp h).1

/-- The slate takes an outcome of the own frame: the terms stand, or the station enters RUNNING (R83, R136, R178). -/
theorem State.slateTakes_termsKept (heard : Option StationMap) (k : Kind) (s : State) :
    s.TermsKept (s.slateTakes heard k) := by
  have htaken := State.slateTakes_taken heard k s
  cases henters : s.entersRunning k with
  | false =>
    refine .of_live ?_ (by simp) (by rw [(htaken.stands henters).1]) (htaken.live henters)
    rw [htaken.ctrl, State.phaseAfter, henters]
    rfl
  | true =>
    obtain ⟨rfl, hjoining⟩ : k = .join ∧ s.ctrl.phase = .joining := by simpa [State.entersRunning] using henters
    have hphase : (s.slateTakes heard .join).ctrl.phase = .running := by
      rw [htaken.ctrl, State.phaseAfter, henters]
      rfl
    refine ⟨by simp, fun h => by simp [hjoining] at h, fun hs => ⟨fun _ => ?_, fun c _ hc i => ?_,
      fun h => absurd hphase h⟩, fun h => by simp [hjoining] at h⟩
    · simpa using hs.loaded (by rw [hjoining]; rfl)
    · have hentered := (htaken.enters henters c (by simpa using hc)).terms.1 i
      rw [hentered]
      exact enteredFlags_rightFor c s _ i

/-- A number conflict leaves every term quiet (R140, R180). -/
theorem State.declareConflict_termsKept (s : State) : s.TermsKept s.declareConflict := by
  by_cases hruns : s.engineRuns = true
  · have hphase : s.declareConflict.ctrl.phase = .conflict := by
      rw [State.declareConflict_eq hruns]
      simp [State.conflictEntered]
    refine ⟨by simp, fun _ => .inr hphase, fun hs => ?_, fun _ h => by simp [hphase] at h⟩
    have hloaded := hs.loaded (State.configured_of_engineRuns hruns)
    obtain ⟨c, hc⟩ := Option.isSome_iff_exists.mp hloaded
    refine ⟨fun _ => by simpa using hloaded, fun _ h => by simp [hphase] at h, fun _ => ?_⟩
    rw [(State.declareConflict_declared hruns hc).terms]
  · rw [State.declareConflict, if_neg hruns]
    exact (State.TermsUntouched.refl s).kept

theorem State.sighting_termsKept (s : State) : s.TermsKept s.sighting := by
  rw [State.sighting]
  split
  · exact State.TermsUntouched.kept ⟨rfl, rfl, rfl, rfl⟩
  · have hcounted : s.TermsUntouched (s.setHealth { s.health with sightings := 2 }) := ⟨rfl, rfl, rfl, rfl⟩
    exact hcounted.moved (State.declareConflict_termsKept _)
  · exact (State.TermsUntouched.refl s).kept

/-! ### Releases (R138, R144) -/

/-- Outside RUNNING a release does nothing (R138). -/
theorem State.applyRelease_of_not_running (m : ZoneMask) (sender : Option Station) {s : State}
    (h : s.ctrl.phase ≠ .running) : s.applyRelease m sender = s := by
  rw [State.applyRelease]
  split
  · next hrun _ => exact absurd hrun h
  · rfl

/-- A flag after a release in RUNNING, in the words of the statements (R138). -/
theorem State.applyRelease_flag (m : ZoneMask) (sender : Option Station) {s : State} {c : StationConfig}
    (hrun : s.ctrl.phase = .running) (hc : s.loader.config = some c) (i : Fin 16) :
    (s.applyRelease m sender).terms.flags[i] = releasedFlags c m (fun j => s.terms.flags[j]) i := by
  rw [(State.applyRelease_running m sender s c hrun hc).1, ← released_eq]
  simp

/-- A term released is right where it was: a latch is cleared only of a term that is not live (R133, R138). -/
theorem releasedFlags_rightFor {c : StationConfig} {m : ZoneMask} {flags : Fin 16 → TermFlags} {i : Fin 16}
    {table : PeerTable} (h : (flags i).RightFor c.terms[i] table) :
    (releasedFlags c m flags i).RightFor c.terms[i] table := by
  rw [releasedFlags]
  split
  · next hmet => exact ⟨hmet.2.2.symm.trans h.live, fun _ h => Bool.noConfusion h, fun h => Bool.noConfusion h⟩
  · exact h

/-- A release clears the latches it meets of terms that are not live, and no other (R138). -/
theorem State.applyRelease_termsReleased (m : ZoneMask) (sender : Option Station) (s : State) :
    s.TermsReleased m (s.applyRelease m sender) := by
  refine ⟨by simp, fun _ => .inl (by simp), fun hs => ⟨by simpa using hs.loaded, fun c hrun hc i => ?_, fun hrun => ?_⟩,
    fun hrun _ c hc i hlatched hcleared => ?_⟩
  · have hrun : s.ctrl.phase = .running := by simpa using hrun
    have hc : s.loader.config = some c := by simpa using hc
    have htable : (s.applyRelease m sender).table = s.table := by simp
    rw [State.applyRelease_flag m sender hrun hc, htable]
    exact releasedFlags_rightFor (hs.running c hrun hc i)
  · have hrun : s.ctrl.phase ≠ .running := by simpa using hrun
    rw [State.applyRelease_of_not_running m sender hrun]
    exact hs.outside hrun
  · rw [State.applyRelease_flag m sender hrun hc, releasedFlags] at hcleared ⊢
    split at hcleared
    · next hmet =>
      rw [if_pos hmet]
      exact ⟨rfl, hmet.2.1⟩
    · exact Bool.noConfusion (hlatched.symm.trans hcleared)

/-- What a local release asks of the slate touches no term (R144). -/
theorem State.localRelease_termsReleased (m : ZoneMask) (s : State) : s.TermsReleased m (s.localRelease m) := by
  have hends := s.localRelease_ends m
  exact (s.applyRelease_termsReleased m none).untouched ⟨by simp, by simp, by rw [hends.terms], hends.table⟩

end Sys2Proof.Machine
end

section
/-! The terms at the refresh tick, at a frame's end and at an accepted frame (R132, R135, R138, R145). -/

namespace Sys2Proof.Machine

/-! ### Rows of operations on table, slate and phase -/

theorem State.mapEvidence_termsKept (m : StationMap) (s : State) : s.TermsKept (s.mapEvidence m) :=
  (s.mapHeard_starts m).termsKept

/-- The aging of the table is one re-evaluation (R10, R132). -/
theorem State.ageTable_termsKept (s : State) : s.TermsKept s.ageTable := by
  rw [State.ageTable]
  split
  · refine StartsAlike.termsKept ⟨?_, ?_, ?_, ?_, ?_⟩
    · exact foldl_keeps State.ctrl _ (fun u n => by simp) _ _
    · exact foldl_keeps State.loader _ (fun u n => by simp) _ _
    · exact foldl_keeps State.terms _ (fun u n => by simp) _ _
    · exact foldl_keeps State.outputs _ (fun u n => by simp) _ _
    · exact foldl_keeps State.outputTrace _ (fun u n => by simp) _ _
  · exact (State.TermsUntouched.refl s).kept

/-- The listen interval's end leads from LISTENING into JOINING, where the terms stay quiet (R135, R175). -/
theorem State.listenTick_termsKept (s : State) : s.TermsKept s.listenTick := by
  by_cases hlistening : s.ctrl.phase = .listening
  · have hphase : s.listenTick.ctrl.phase = .listening ∨ s.listenTick.ctrl.phase = .joining := by
      rw [State.listenTick_ctrl]
      cases s.joinsAtTick
      · exact .inl hlistening
      · exact .inr rfl
    refine .of_outside (by simp [hlistening]) ?_ (by simp [hlistening]) ?_ (by simp) (by simp)
    · rcases hphase with h | h <;> simp [h]
    · rcases hphase with h | h <;> simp [h, hlistening, Phase.configured]
  · rw [State.listenTick, if_neg hlistening]
    exact (State.TermsUntouched.refl s).kept

theorem State.judgeRefresh_termsKept (s : State) : s.TermsKept s.judgeRefresh :=
  State.TermsUntouched.kept ⟨by simp, by simp, by simp, by simp⟩

/-- A tick in any order (R173, R175). -/
theorem State.refreshTicked_termsKept (order : TickOrder) (s : State) : s.TermsKept (s.refreshTicked order) := by
  have hticked : s.TermsKept s.countTick := State.TermsUntouched.kept ⟨rfl, rfl, rfl, rfl⟩
  rcases order with ⟨_ | _, _ | _⟩
  · exact ((hticked.trans (State.ageTable_termsKept _)).trans (State.judgeRefresh_termsKept _)).trans
      (State.listenTick_termsKept _)
  · exact ((hticked.trans (State.ageTable_termsKept _)).trans (State.listenTick_termsKept _)).trans
      (State.judgeRefresh_termsKept _)
  · exact ((hticked.trans (State.judgeRefresh_termsKept _)).trans (State.listenTick_termsKept _)).trans
      (State.ageTable_termsKept _)
  · exact ((hticked.trans (State.listenTick_termsKept _)).trans (State.ageTable_termsKept _)).trans
      (State.judgeRefresh_termsKept _)

theorem State.countOutcome_termsKept (o : FrameOutcome) (s : State) : s.TermsKept (s.countOutcome o) :=
  State.TermsUntouched.kept ⟨rfl, rfl, rfl, rfl⟩

theorem State.abort_termsKept (k : Kind) (s : State) : s.TermsKept (s.abort k) := by
  have hcounted : s.TermsUntouched (s.stopDriving.countOutcome .aborted) := ⟨rfl, rfl, rfl, rfl⟩
  rw [State.abort_eq]
  exact ((hcounted.moved (State.slateTakes_termsKept none k _)).trans
    (State.weighOutcome_termsKept .aborted _)).untouched ⟨rfl, rfl, rfl, rfl⟩

theorem State.abandon_termsKept (s : State) : s.TermsKept s.abandon :=
  ((s.countOutcome_termsKept .abandoned).trans (State.weighOutcome_termsKept .abandoned _)).untouched
    ⟨rfl, rfl, rfl, rfl⟩

theorem State.reject_termsKept (s : State) : s.TermsKept s.reject :=
  ((s.countOutcome_termsKept .rejected).trans (State.weighOutcome_termsKept .rejected _)).untouched
    ⟨rfl, rfl, rfl, rfl⟩

/-- The end of a window (R68, R120, R132, R136, R140). -/
theorem State.closeFrame_termsKept (f : Frame) (m : StationMap) (s : State) : s.TermsKept (s.closeFrame f m) := by
  rw [State.closeFrame]
  split
  · next v _ =>
    have hweighed := (((s.mapEvidence_termsKept (lessOwn s.ctrl.ownNumber m)).trans
      (State.countOutcome_termsKept .completed _)).trans
      (State.slateTakes_termsKept (some (lessOwn s.ctrl.ownNumber m)) v.slot _)).trans
      (State.weighOutcome_termsKept .completed _)
    simp only [State.senderClosed, State.completedWeighed]
    split
    · exact hweighed.trans (State.sighting_termsKept _)
    · exact hweighed
  · exact ((s.mapEvidence_termsKept _).trans (State.countOutcome_termsKept .accepted _)).trans
      (State.weighOutcome_termsKept .accepted _)
  · exact (State.TermsUntouched.refl s).kept
  · exact (State.TermsUntouched.refl s).kept

/-! ### An accepted frame (R14 to R24, R65, R145) -/

/-- A CHANGE or REFRESH: the report, one re-evaluation, the signals, the counter (R18). -/
theorem State.acceptState_termsKept {k : Kind} (hk : k = .change ∨ k = .refresh) (n : Station) (q : Nibble)
    (content : ReportContent) (s : State) : s.TermsKept (s.acceptState k n q content) := by
  have hstarts : StartsAlike s (s.reportTaken k n q content) := ⟨by simp, by simp, by simp, by simp, by simp⟩
  rw [State.acceptState_eq hk]
  exact (hstarts.termsKept.trans (State.departuresSeen_termsKept _ _)).trans
    (.of_live (by simp) (by simp) (by rw [State.countAccepted_terms]) (fun x => termLive_countAccepted x n _))

/-- The release an accepted frame brings: one of a roster member with a sequence not stored before (R23, R24, R145). -/
def ReceivedFrame.releases (r : ReceivedFrame) (s : State) : Prop :=
  r.kind = .release ∧ (s.entry r.number).roster = true ∧ (s.entry r.number).lastRelease ≠ some r.sequence

/-- A frame accepted by the table clears latches by the release it brings alone (R18, R20 to R24, R145). -/
theorem State.tableAccepts_termsMoved (r : ReceivedFrame) (s : State) :
    s.TermsMoved (fun c i => r.releases s ∧ c.terms[i].zones &&& releaseMaskOfBits r.payload ≠ 0) (s.tableAccepts r) := by
  rw [State.tableAccepts]
  split
  · exact .of_kept (State.acceptState_termsKept (.inl rfl) _ _ _ s)
  · exact .of_kept (State.acceptState_termsKept (.inr rfl) _ _ _ s)
  · have hstarts : StartsAlike s ((s.joinTaken r.number r.payload).countAccepted r.number) :=
      ⟨by simp, by simp, by simp, by simp, by simp⟩
    rw [State.acceptJoin_eq]
    exact .of_kept (hstarts.termsKept.untouched ⟨by simp, by simp, by simp, by simp⟩)
  · have hstarts : StartsAlike s ((s.evidence r.number).countAccepted r.number) :=
      ⟨by simp, by simp, by simp, by simp, by simp⟩
    exact .of_kept (hstarts.termsKept.untouched (u := s.acceptResync r.number)
      ⟨by simp [State.acceptResync], by simp [State.acceptResync], by simp [State.acceptResync],
        by simp [State.acceptResync]⟩)
  · next hkind =>
    obtain ⟨v, hv, _, htaken⟩ := State.acceptRelease_cases r.number r.sequence (releaseMaskOfBits r.payload) s
    have hheard : StartsAlike s (s.heardOnce r.number) := ⟨by simp [State.heardOnce], by simp [State.heardOnce],
      by simp [State.heardOnce], by simp [State.heardOnce], by simp [State.heardOnce]⟩
    have hstarts := hheard.trans hv
    rw [htaken]
    split
    · next hpasses =>
      obtain ⟨hroster, hnew⟩ := of_decide_eq_true hpasses.2
      refine (hstarts.termsKept.trans (State.applyRelease_termsReleased _ _ _)).mono (fun c i hmeets => ?_)
      exact ⟨⟨hkind, hroster, hnew⟩, hmeets⟩
    · exact .of_kept hstarts.termsKept

end Sys2Proof.Machine
end

section
/-! The terms at the tap port's bits, and what a command may do to the terms at all (R133, R138, R143, R196). -/

namespace Sys2Proof.Machine

/-! ### The tap port (R143, R196) -/

theorem requestOfByte_release {code : Byte} (h : requestOfByte code = .release) : code = 0x07 := by
  revert code; decide

/-- A judged request touches no term, but for a RELEASE answered OK (R190, R196). -/
theorem State.judgementPoint_terms (code : Byte) (args : List Byte) (s : State) :
    s.TermsUntouched (s.judgementPoint code args) ∨
      code = 0x07 ∧ s.TermsReleased (args.getLastD 0) (s.judgementPoint code args) := by
  have hjudged : (s.judgementPoint code args).terms =
      (if decide (s.judgeRequest (requestOfByte code) (args.getLastD 0) = .ok) = true then
        s.requestEffect (requestOfByte code) (args.getLastD 0) else s).terms := rfl
  have huntouched : (s.judgementPoint code args).terms = s.terms → s.TermsUntouched (s.judgementPoint code args) :=
    fun h => ⟨by simp, by simp, by rw [h], by simp⟩
  cases hok : decide (s.judgeRequest (requestOfByte code) (args.getLastD 0) = .ok) with
  | false =>
    rw [hok, if_neg Bool.false_ne_true] at hjudged
    exact .inl (huntouched hjudged)
  | true =>
    rw [hok, if_pos rfl] at hjudged
    cases hr : requestOfByte code with
    | release =>
      rw [hr] at hjudged
      exact .inr ⟨requestOfByte_release hr, (s.localRelease_termsReleased (args.getLastD 0)).untouched
        ⟨by simp, by simp, by rw [hjudged]; rfl, by simp⟩⟩
    | resync =>
      rw [hr] at hjudged
      exact .inl (huntouched (hjudged.trans (s.requestResync_frame).2.2.2.2.2.2.2.2.1))
    | status | entry | terms | counters | peek | take | restart | unknown =>
      rw [hr] at hjudged
      exact .inl (huntouched hjudged)

/-- The port shows the RELEASE request it has judged, with its mask (R188, R196). -/
def State.releaseJudged (m : ZoneMask) (s : State) : Prop :=
  s.tap.state = .response ∧ s.tap.request = some 0x07 ∧ s.tap.args.getLast? = some m

/-- From s to t the port took bits: no term is touched, or a RELEASE was judged (R187, R196). -/
def tapMoved (s t : State) : Prop := s.TermsUntouched t ∨ ∃ m, t.releaseJudged m ∧ s.TermsReleased m t

theorem State.tapByte_moved (b : Byte) (s : State) : tapMoved s (s.tapByte b) := by
  rw [State.tapByte]
  split
  · split
    · exact .inl ⟨rfl, rfl, rfl, rfl⟩
    · next hargument =>
      refine .inl ((s.judgementPoint_terms b []).resolve_right (fun h => hargument ?_))
      rw [h.1]
      rfl
  · rcases s.judgementPoint_terms (s.tap.request.getD 0) (s.tap.args ++ [b]) with h | ⟨hcode, h⟩
    · exact .inl h
    · refine .inr ⟨b, ⟨rfl, congrArg some hcode, List.getLast?_concat ..⟩, ?_⟩
      rwa [List.getLastD_concat] at h
  all_goals exact .inl (.refl s)

theorem State.tapBit_moved (s : State) (b : Bool) : tapMoved s (s.tapBit b) := by
  have hcollect : tapMoved s (s.tapCollect b) := by
    simp only [State.tapCollect]
    split
    · exact s.tapByte_moved _
    · exact .inl ⟨rfl, rfl, rfl, rfl⟩
  rw [State.tapBit]
  split
  · exact hcollect
  · exact hcollect
  · exact .inl ⟨rfl, rfl, rfl, rfl⟩
  all_goals exact .inl (.refl s)

/-- After the judgement point the bits of TSDI are counted, up to the response's length, and nothing else is done (R188,
R203). -/
theorem State.tapBits_response (bits : List Bool) {s : State} (h : s.tap.state = .response) :
    ∃ n, s.tapBits bits = s.setTap { s.tap with clocked := n } ∧
      (s.tap.clocked ≤ s.tap.responseBits.length →
        n = min (s.tap.clocked + bits.length) s.tap.responseBits.length) := by
  induction bits generalizing s with
  | nil => exact ⟨s.tap.clocked, rfl, fun hle => (Nat.min_eq_left hle).symm⟩
  | cons b bits ih =>
    have hbit : s.tapBit b = s.setTap { s.tap with clocked := min (s.tap.clocked + 1) s.tap.responseBits.length } := by
      rw [State.tapBit, h]
    have hresponse : (s.tapBit b).tap.state = .response := by rw [hbit]; exact h
    obtain ⟨n, hrow, hcount⟩ := ih hresponse
    rw [hbit] at hrow hcount
    have hcount : n = min (min (s.tap.clocked + 1) s.tap.responseBits.length + bits.length) s.tap.responseBits.length :=
      hcount (Nat.min_le_right _ _)
    refine ⟨n, ?_, fun _ => by rw [hcount, List.length_cons]; omega⟩
    rw [show s.tapBits (b :: bits) = (s.tapBit b).tapBits bits from rfl, hbit, hrow]
    rfl

/-- A row of bits holds at most one judgement point, after which it is counted (R187, R188). -/
theorem State.tapBits_moved (bits : List Bool) (s : State) : tapMoved s (s.tapBits bits) := by
  induction bits generalizing s with
  | nil => exact .inl (.refl s)
  | cons b bits ih =>
    rw [show s.tapBits (b :: bits) = (s.tapBit b).tapBits bits from rfl]
    rcases s.tapBit_moved b with h | ⟨m, ⟨hstate, hrequest, hargs⟩, hreleased⟩
    · rcases ih (s.tapBit b) with h' | ⟨m, hjudged, h'⟩
      · exact .inl (h.trans h')
      · exact .inr ⟨m, hjudged, h.moved h'⟩
    · obtain ⟨n, hcounted, _⟩ := State.tapBits_response bits hstate
      rw [hcounted]
      exact .inr ⟨m, ⟨hstate, hrequest, hargs⟩, hreleased.untouched ⟨rfl, rfl, rfl, rfl⟩⟩

/-! ### What a command does to the terms -/

/-- A command keeps the condition, and in RUNNING it clears a latch only of a term that is not live, by a release that it
makes and that meets the term (R133, R138). -/
structure TermsStepped (cmd : Instr) (s t : State) : Prop where
  right : s.TermsRight → t.TermsRight
  cleared : s.ctrl.phase = .running → t.ctrl.phase = .running → ∀ c, s.loader.config = some c → ∀ i : Fin 16,
    s.terms.flags[i].latched = true → t.terms.flags[i].latched = false →
    t.terms.flags[i].live = false ∧ ∃ m, releaseMade c cmd m s t ∧ c.terms[i].zones &&& m ≠ 0

section
variable {cmd : Instr} {s t : State}

theorem State.TermsMoved.stepped {freed : StationConfig → Fin 16 → Prop} (h : s.TermsMoved freed t)
    (hmade : ∀ c i, s.loader.config = some c → freed c i →
      ∃ m, releaseMade c cmd m s t ∧ c.terms[i].zones &&& m ≠ 0) : TermsStepped cmd s t where
  right := h.right
  cleared := fun hs ht c hc i hlatched hcleared =>
    have ⟨hlive, hfreed⟩ := h.cleared hs ht c hc i hlatched hcleared
    ⟨hlive, hmade c i hc hfreed⟩

/-- A command that clears no latch. -/
theorem TermsStepped.of_kept (h : s.TermsKept t) : TermsStepped cmd s t := h.stepped (fun _ _ _ => False.elim)

theorem TermsStepped.of_untouched (h : s.TermsUntouched t) : TermsStepped cmd s t := .of_kept h.kept

theorem TermsStepped.refl (cmd : Instr) (s : State) : TermsStepped cmd s s := .of_untouched (.refl s)

/-- A command that ends outside RUNNING with every term quiet. -/
theorem TermsStepped.of_quiet (hphase : t.ctrl.phase ≠ .running)
    (hloaded : t.ctrl.phase.configured = true → t.loader.config.isSome = true)
    (hquiet : s.TermsRight → t.terms.flags = quietTerms) : TermsStepped cmd s t where
  right := fun hs => ⟨hloaded, fun _ h => absurd h hphase, fun _ => hquiet hs⟩
  cleared := fun _ h => absurd h hphase

/-- A reset leaves every term quiet (R147). -/
theorem TermsStepped.of_reset (cause : ResetCause) (pins : Pins) (u : State) :
    TermsStepped cmd s (u.resetBy cause pins) := .of_quiet Phase.noConfusion Bool.noConfusion (fun _ => rfl)

/-- What a command does to table and self entry tells of the loads that end: the terms stay quiet (R169, R172). -/
theorem TermsStepped.of_halted {f : FaultCode} {port : List BusOp} {l : Loader} (hreading : s.reading = true) :
    TermsStepped cmd s ((s.setLoader l).halt f port) := by
  have hphase : ((s.setLoader l).halt f port).ctrl.phase = .halted := by rw [((s.setLoader l).halt_blocks f port).1]
  refine .of_quiet (by simp [hphase]) (by simp [hphase, Phase.configured]) (fun hs => ?_)
  rw [← hs.outside (by simp [State.loading_of_reading hreading])]
  simp [State.halt]

theorem TermsStepped.of_loaded {c : StationConfig} {port : List BusOp} {l : Loader} {x : SenseSample}
    (hreading : s.reading = true) : TermsStepped cmd s ((s.setLoader l).validLoad c port x) := by
  obtain ⟨hctrl, hloader, _⟩ := (s.setLoader l).validLoad_blocks c port x
  obtain ⟨hterms, _⟩ := (s.setLoader l).validLoad_parts c port x
  refine .of_quiet (by simp [hctrl]) (by simp [hloader]) (fun hs => ?_)
  rw [← hs.outside (by simp [State.loading_of_reading hreading]), hterms]
  rfl

end

end Sys2Proof.Machine
end

section
/-! How each command moves the terms, and the statement on what every step keeps of them (R127 to R140). -/

namespace Sys2Proof.Machine

section
variable {s t : State}

/-- A command with one guard that keeps the terms where it holds. -/
theorem TermsStepped.of_guarded {cmd : Instr} {p : Prop} [Decidable p] {u : State}
    (h : (if p then .next u else .next s : Result) = .next t) (hu : s.TermsKept u) : TermsStepped cmd s t := by
  split at h
  · cases h; exact .of_kept hu
  · cases h; exact .refl cmd s

/-! ### The loader and the resets' end -/

theorem headerRead_terms {n : Nat} {a b l r : Byte} (h : exec (.headerRead n a b l r) s = .next t) :
    TermsStepped (.headerRead n a b l r) s t := by
  simp only [exec, execHeaderRead] at h
  split at h
  · next hc =>
    simp only [Bool.and_eq_true, and_assoc] at hc
    split at h
    · cases h; exact .of_halted (l := s.loader) hc.1
    · cases h; exact .of_untouched ⟨rfl, rfl, rfl, rfl⟩
  · cases h; exact .refl _ s

theorem transportFailure_terms {n : Nat} {f : BusFault} {read : List Byte}
    (h : exec (.transportFailure n f read) s = .next t) : TermsStepped (.transportFailure n f read) s t := by
  simp only [exec, execTransportFailure] at h
  split at h
  · next hc =>
    simp only [Bool.and_eq_true, and_assoc] at hc
    split at h
    · cases h; exact .of_untouched ⟨rfl, rfl, rfl, rfl⟩
    · cases h; exact .of_halted (l := s.loader) hc.1
  · cases h; exact .refl _ s

theorem imageComplete_terms {rest : List Byte} {x : SenseSample} (h : exec (.imageComplete rest x) s = .next t) :
    TermsStepped (.imageComplete rest x) s t := by
  simp only [exec, execImageComplete] at h
  split at h
  · next hc =>
    simp only [Bool.and_eq_true, and_assoc] at hc
    split at h
    · cases h; exact .of_halted hc.1
    · cases h; exact .of_loaded hc.1
  · cases h; exact .refl _ s

theorem resetEnd_terms {x : HeldSource} (h : exec (.resetEnd x) s = .next t) : TermsStepped (.resetEnd x) s t := by
  simp only [exec, execResetEnd] at h
  split at h
  · split at h
    all_goals cases h; exact .of_untouched ⟨rfl, rfl, rfl, rfl⟩
  · cases h; exact .refl _ s

/-! ### The line -/

theorem contentionStart_terms {gap : List BitPeriod} {edge : Option Int} {able : Nat}
    (h : exec (.contentionStart gap edge able) s = .next t) : TermsStepped (.contentionStart gap edge able) s t := by
  simp only [exec, execContentionStart] at h
  split at h
  all_goals cases h; exact .of_untouched ⟨rfl, rfl, rfl, rfl⟩

theorem keyLost_terms {bits : List BitPeriod} (h : exec (.keyLost bits) s = .next t) :
    TermsStepped (.keyLost bits) s t := by
  simp only [exec, execKeyLost] at h
  split at h
  · exact .of_guarded h (State.TermsUntouched.kept ⟨by simp, by simp, by simp, by simp⟩)
  · cases h; exact .refl _ s

theorem keyWon_terms {bits : List BitPeriod} (h : exec (.keyWon bits) s = .next t) :
    TermsStepped (.keyWon bits) s t := by
  simp only [exec, execKeyWon] at h
  split at h
  · next f v _ =>
    have hpassed : s.TermsUntouched (s.keyPassed f v bits) := ⟨rfl, rfl, rfl, rfl⟩
    exact .of_guarded h ((hpassed.moved (State.openSeries_termsKept v.slot _)).untouched ⟨rfl, rfl, rfl, rfl⟩)
  · cases h; exact .refl _ s

theorem lastCheckBitSent_terms {bits : List BitPeriod} (h : exec (.lastCheckBitSent bits) s = .next t) :
    TermsStepped (.lastCheckBitSent bits) s t := by
  simp only [exec, execLastCheckBitSent] at h
  split at h
  · exact .of_guarded h (State.TermsUntouched.kept ⟨by simp, by simp, by simp, by simp⟩)
  · cases h; exact .refl _ s

theorem sendAborted_terms {bits : List BitPeriod} (h : exec (.sendAborted bits) s = .next t) :
    TermsStepped (.sendAborted bits) s t := by
  have habort : ∀ (u : State) (k : Kind), s.TermsUntouched u → TermsStepped (.sendAborted bits) s (u.abort k) :=
    fun u k hu => .of_kept (hu.moved (u.abort_termsKept k))
  simp only [exec, execSendAborted] at h
  split at h
  · split at h
    · cases h; exact habort _ _ ⟨rfl, rfl, rfl, rfl⟩
    · cases h; exact .refl _ s
  · split at h
    · cases h; exact habort _ _ ⟨rfl, rfl, rfl, rfl⟩
    · cases h; exact .refl _ s
  · cases h; exact .refl _ s

theorem State.followed_untouched (f : Frame) (bits : List BitPeriod) (q : Quarter) (r : Reception) (s : State) :
    s.TermsUntouched (s.followed f bits q r) := ⟨rfl, rfl, rfl, rfl⟩

/-- The three commands that abandon a frame (R58, R106, R107). -/
theorem abandoning_terms {cmd : Instr} {bits : List BitPeriod}
    (hc : cmd = .invalidKind bits ∨ cmd = .framingFault bits ∨ cmd = .stuckDominant bits)
    (h : exec cmd s = .next t) : TermsStepped cmd s t := by
  have habandon : ∀ f q r, s.TermsKept (s.followed f bits q r).abandon := fun f q r =>
    (s.followed_untouched f bits q r).moved (s.followed f bits q r).abandon_termsKept
  rcases hc with rfl | rfl | rfl
  all_goals
    simp only [exec, execInvalidKind, execFramingFault, execStuckDominant] at h
    split at h
    · split at h
      · cases h; exact .of_kept (habandon _ _ _)
      · cases h; exact .refl _ s
    · cases h; exact .refl _ s

/-- The end of a check: rejected, a number conflict, or accepted, with the release a RELEASE may bring (R64, R65, R121,
R145). -/
theorem frameReceived_terms {bits : List BitPeriod} (h : exec (.frameReceived bits) s = .next t) :
    TermsStepped (.frameReceived bits) s t := by
  rcases execFrameReceived_cases h with rfl | ⟨r, f, x, hr, _, rfl⟩
  · exact .refl _ _
  · have hfollowed := s.followed_untouched f bits .q4 x
    by_cases hmalformed : r.malformed
    · rw [State.judged_malformed hmalformed]
      exact .of_kept (hfollowed.moved (State.reject_termsKept _))
    · by_cases hown : r.number = s.ctrl.ownNumber
      · rw [State.judged_conflict (s := s.followed f bits .q4 x) hmalformed hown]
        exact .of_kept (hfollowed.moved (State.declareConflict_termsKept _))
      · rw [State.judged_accepted (s := s.followed f bits .q4 x) hmalformed hown]
        have haccepted := (hfollowed.moved (State.tableAccepts_termsMoved r _)).untouched
          (u := (s.followed f bits .q4 x).accept r) ⟨rfl, rfl, rfl, rfl⟩
        refine haccepted.stepped (fun c i _ hfreed => ?_)
        obtain ⟨⟨hkind, hroster, hnew⟩, hmeets⟩ := hfreed
        exact ⟨_, .inr (.inl ⟨bits, r, rfl, hr, hmalformed, hown, hkind, hroster, hnew, rfl⟩), hmeets⟩

theorem windowEnd_terms {slots : List BitPeriod} (h : exec (.windowEnd slots) s = .next t) :
    TermsStepped (.windowEnd slots) s t := by
  simp only [exec, execWindowEnd] at h
  split at h
  · next f _ =>
    have hpassed : s.TermsUntouched (s.slotsPassed f slots) := ⟨rfl, rfl, rfl, rfl⟩
    exact .of_guarded h ((hpassed.moved (State.closeFrame_termsKept f (confirmMapOf slots) _)).untouched
      ⟨by simp [State.slotsPassed], by simp [State.slotsPassed], by simp [State.slotsPassed],
        by simp [State.slotsPassed]⟩)
  · cases h; exact .refl _ s

/-! ### Samples and the tap port -/

/-- A sample event: the publication, the signals, the request, and the release of a press (R32, R142). -/
theorem sampleEvent_terms {x : SenseSample} (h : exec (.sampleEvent x) s = .next t) :
    TermsStepped (.sampleEvent x) s t := by
  simp only [exec, execSampleEvent] at h
  split at h
  · next c _ hc =>
    cases h
    have hpublished : s.TermsKept (s.published (s.watch.sampled c.groups x)) := by
      rcases s.published_cases (s.watch.sampled c.groups x) with ⟨_, hu⟩ | ⟨_, v, hstarts, _, hu⟩
      · rw [hu]; exact State.TermsUntouched.kept ⟨rfl, rfl, rfl, rfl⟩
      · rw [hu]; exact hstarts.termsKept
    have hannounced : s.TermsKept ((s.announced c (s.watch.sampled c.groups x)).relFiltered (relActive x)) := by
      refine (hpublished.trans (State.departuresSeen_termsKept (signalsOf true (groupZones c)
        (departedGroups s.watch (s.watch.sampled c.groups x))) _)).untouched ?_
      refine ⟨?_, ?_, ?_, ?_⟩ <;> simp [State.relFiltered, State.announced]
    have hreleases := State.announced_releases x hc
    rw [State.sampleTaken_eq, State.relSampled_eq, hreleases]
    split
    · next hpressed =>
      obtain ⟨hold, hnew, _⟩ := of_decide_eq_true hpressed
      have hsampled : s.sampleTaken c x =
          ((s.announced c (s.watch.sampled c.groups x)).relFiltered (relActive x)).localRelease c.releaseZones := by
        rw [State.sampleTaken_eq, State.relSampled_eq, hreleases, if_pos hpressed]
      refine (hannounced.trans (State.localRelease_termsReleased c.releaseZones _)).stepped (fun c' i hc' hmeets => ?_)
      obtain rfl : c' = c := by simpa [hc, eq_comm] using hc'
      rw [hsampled] at hnew
      exact ⟨_, .inl ⟨x, rfl, hold, hnew, rfl⟩, hmeets⟩
    · exact .of_kept hannounced
  · cases h; exact .refl _ s

/-- The commands whose bytes come on TSDI (R187, R196). -/
theorem tapBytes_terms {cmd : Instr} (hc : isTapCommand cmd = true) (bytes : List Byte) :
    TermsStepped cmd s (s.tapBytes bytes) := by
  rcases s.tapBits_moved (bytesBits bytes) with h | ⟨m, ⟨_, hrequest, hargs⟩, h⟩
  · exact .of_untouched h
  · exact h.stepped (fun c i _ hmeets => ⟨m, .inr (.inr (.inl ⟨hc, hrequest, hargs⟩)), hmeets⟩)

theorem unknownRequest_terms {b : Byte} (h : exec (.unknownRequest b) s = .next t) :
    TermsStepped (.unknownRequest b) s t := by
  simp only [exec, execUnknownRequest] at h
  split at h
  · cases h; exact tapBytes_terms rfl [b]
  · cases h; exact .refl _ s

theorem tselAssert_terms (h : exec .tselAssert s = .next t) : TermsStepped .tselAssert s t := by
  simp only [exec, execTselAssert] at h
  split at h
  · cases h; exact .refl _ s
  · split at h
    all_goals cases h; exact .of_untouched ⟨rfl, rfl, rfl, rfl⟩

/-- The release of TSEL: its bits, then a restart or the end of the transaction (R189, R196, R198). -/
theorem tselRelease_terms {tsdi : List Bool} (h : exec (.tselRelease tsdi) s = .next t) :
    TermsStepped (.tselRelease tsdi) s t := by
  simp only [exec, execTselRelease] at h
  split at h
  · cases h
    rw [State.endTransaction]
    split
    · exact .of_reset _ _ _
    · have hended : (s.tapBits tsdi).TermsUntouched
          (((s.tapBits tsdi).takeRemoval.setTap Tap.noTransaction).setPins { (s.tapBits tsdi).pins with tsel := false }) :=
        ⟨by simp, by simp, by simp, by simp⟩
      rcases s.tapBits_moved tsdi with h | ⟨m, ⟨_, hrequest, hargs⟩, h⟩
      · exact .of_untouched (h.trans hended)
      · exact (h.untouched hended).stepped
          (fun c i _ hmeets => ⟨m, .inr (.inr (.inr ⟨tsdi, rfl, hrequest, hargs⟩)), hmeets⟩)
  · cases h; exact .refl _ s

/-! ### Every command -/

theorem exec_terms {cmd : Instr} (h : exec cmd s = .next t) : TermsStepped cmd s t := by
  cases cmd with
  | powerOnReset | resetPin => cases h; exact .of_reset _ _ s
  | resetEnd x => exact resetEnd_terms h
  | headerRead n a b l r => exact headerRead_terms h
  | transportFailure n f read => exact transportFailure_terms h
  | pauseEnd => exact .of_guarded h (State.TermsUntouched.kept ⟨rfl, rfl, rfl, rfl⟩)
  | imageComplete rest x => exact imageComplete_terms h
  | sampleEvent x => exact sampleEvent_terms h
  | refreshTick order | peerSilent n order | listenExpiry order =>
    exact .of_guarded h (s.refreshTicked_termsKept order)
  | discardEnd gap | frameStart gap edge able => exact .of_guarded h (State.TermsUntouched.kept ⟨rfl, rfl, rfl, rfl⟩)
  | contentionStart gap edge able => exact contentionStart_terms h
  | keyLost bits => exact keyLost_terms h
  | keyWon bits => exact keyWon_terms h
  | sendAborted bits => exact sendAborted_terms h
  | invalidKind bits => exact abandoning_terms (.inl rfl) h
  | framingFault bits => exact abandoning_terms (.inr (.inl rfl)) h
  | stuckDominant bits => exact abandoning_terms (.inr (.inr rfl)) h
  | frameReceived bits => exact frameReceived_terms h
  | windowEnd slots => exact windowEnd_terms h
  | tselAssert => exact tselAssert_terms h
  | tselRelease tsdi => exact tselRelease_terms h
  | status | entry n | terms | counters | peek | take | release mask | resync | restart =>
    cases h; exact tapBytes_terms rfl _
  | unknownRequest b => exact unknownRequest_terms h
  | lastCheckBitSent bits => exact lastCheckBitSent_terms h

end

/-- Settles O56: the live condition entry by entry; every command moves the terms so that the condition is kept, and clears
latches by its release alone. -/
theorem stepKeepsTermsTrueToTable : Obligations.StepKeepsTermsTrueToTable := by
  unfold Obligations.StepKeepsTermsTrueToTable
  refine ⟨termLive_iff_termHolds, fun s t hl hs hstep => ?_⟩
  have hright := State.termsRight_of_ok hl hs
  cases hpending : s.pending with
  | nil =>
    rw [step, hpending] at hstep
    cases hstep
    exact ⟨hs, fun _ _ _ _ _ hlatched hcleared => Bool.noConfusion (hlatched.symm.trans hcleared)⟩
  | cons cmd rest =>
    rw [step, hpending] at hstep
    have hqueue : s.TermsUntouched (s.setPending rest) := ⟨rfl, rfl, rfl, rfl⟩
    have hstepped := exec_terms hstep
    refine ⟨(hstepped.right (hqueue.kept.right hright)).ok, fun c i hrun hrun' hc hlatched hcleared => ?_⟩
    obtain ⟨hlive, m, hmade, hmeets⟩ := hstepped.cleared hrun hrun' c hc i hlatched hcleared
    exact ⟨hlive, cmd, rest, m, rfl, hmade, hmeets⟩

end Sys2Proof.Machine
end

section
/-! A release on the terms, their drives and the notices (R138 to R140, R150). -/

namespace Sys2Proof.Machine

/-- A release reaches the terms, the outputs and the notices alone (R138, R139, R150). -/
theorem State.applyRelease_changes (m : ZoneMask) (sender : Option Station) (s : State) :
    changesOnly [.terms, .outputs, .notices] s (s.applyRelease m sender) := by
  intro b hb
  cases b <;> simp_all [sameBlock]

/-- Settles O16: in RUNNING each flag, the row of drives and the notices by the laws of a release; elsewhere nothing. -/
theorem releaseClearsOrRefuses : Obligations.ReleaseClearsOrRefuses := by
  unfold Obligations.ReleaseClearsOrRefuses
  refine ⟨fun c m sender s hrun hc => ⟨?_, fun i => ?_, ?_, ?_⟩, fun m sender s hrun => ?_⟩
  · exact s.applyRelease_changes m sender
  · exact State.applyRelease_flag m sender hrun hc i
  · exact (State.applyRelease_running m sender s c hrun hc).2
  · exact State.applyRelease_notices m sender s c hrun hc
  · exact State.applyRelease_of_not_running m sender hrun

end Sys2Proof.Machine
end

section
/-! The release of TSEL: the bits before it, the judgement they may bring, and the end of the transaction (R184, R187 to
R191, R195 to R199, R203). -/

namespace Sys2Proof.Machine

/-! ### What changes, in steps -/

theorem changesOnly.trans {as bs : List Block} {s t u : State} (h : changesOnly as s t) (h' : changesOnly bs t u) :
    changesOnly (as ++ bs) s u := by
  intro b hb
  rw [List.mem_append, not_or] at hb
  have hfirst := h b hb.1
  have hsecond := h' b hb.2
  cases b
  case outputs => exact ⟨hsecond.1.trans hfirst.1, hsecond.2.trans hfirst.2⟩
  all_goals exact hsecond.trans hfirst

theorem changesOnly.mono {as bs : List Block} {s t : State} (h : changesOnly as s t) (hsub : as ⊆ bs) :
    changesOnly bs s t := fun b hb => h b (fun hmem => hb (hsub hmem))

/-! ### The status byte (R190) -/

/-- The status judged is the one the table of phases gives (R190). -/
theorem State.judgeRequest_code (r : Request) (arg : Byte) (s : State) :
    (s.judgeRequest r arg).code = s.statusByte r arg := by
  cases r with
  | status => rfl
  | entry =>
    rw [State.judgeRequest_entry, apply_ite TapStatus.code, apply_ite TapStatus.code]
    cases hphase : s.ctrl.phase
    all_goals simp [State.statusByte, hphase, TapStatus.code]
  | release =>
    rw [State.judgeRequest_release, apply_ite TapStatus.code, apply_ite TapStatus.code, apply_ite TapStatus.code]
    cases hphase : s.ctrl.phase
    all_goals simp [State.statusByte, hphase, TapStatus.code]
  | peek | take =>
    cases hphase : s.ctrl.phase
    all_goals
      simp only [State.judgeRequest, State.statusByte, Phase.serves, hphase, List.isEmpty_iff, apply_ite TapStatus.code]
      rfl
  | terms | counters | resync | restart | unknown =>
    cases hphase : s.ctrl.phase
    all_goals simp [State.judgeRequest, State.statusByte, Phase.serves, hphase, TapStatus.code]

theorem State.statusByte_eq_zero_iff (r : Request) (arg : Byte) (s : State) :
    s.statusByte r arg = 0 ↔ s.judgeRequest r arg = .ok := by
  rw [← State.judgeRequest_code]
  cases s.judgeRequest r arg <;> decide

/-! ### Bytes within a row of bits (R187) -/

/-- A byte that a row of bits completes is taken at its last bit, and the rest of the row follows (R187). -/
theorem State.tapBits_byte {byte tsdi rest : List Bool} {s : State}
    (hstate : s.tap.state = .request ∨ s.tap.state = .arguments) (hopen : s.tap.bitsIn.length < 8)
    (hlength : byte.length = 8) (hbits : s.tap.bitsIn ++ tsdi = byte ++ rest) :
    s.tapBits tsdi = ((s.setTap { s.tap with bitsIn := byte.dropLast }).tapByte (byteOfBits byte)).tapBits rest := by
  obtain ⟨first, rfl, rfl⟩ : ∃ first, byte = s.tap.bitsIn ++ first ∧ tsdi = first ++ rest := by
    rcases List.append_eq_append_iff.mp hbits with h | ⟨more, htaken, _⟩
    · exact h
    · rw [htaken, List.length_append, hlength] at hopen
      omega
  rcases List.eq_nil_or_concat' first with rfl | ⟨mid, b, rfl⟩
  · rw [List.append_nil] at hlength
    omega
  have hmid : s.tap.bitsIn.length + mid.length < 8 := by
    simp only [List.length_append, List.length_singleton] at hlength
    omega
  have hsplit : s.tapBits (mid ++ [b] ++ rest) = ((s.tapBits mid).tapBit b).tapBits rest := by
    simp [State.tapBits]
  have hdrop : (s.tap.bitsIn ++ (mid ++ [b])).dropLast = s.tap.bitsIn ++ mid := by
    rw [← List.append_assoc, List.dropLast_concat]
  have hcollect : ∀ u : State, u.tap.bitsIn = s.tap.bitsIn ++ mid →
      u.tapCollect b = u.tapByte (byteOfBits (s.tap.bitsIn ++ (mid ++ [b]))) := by
    intro u hu
    rw [State.tapCollect, hu, List.append_assoc]
    exact if_pos hlength
  rw [hsplit, tapBits_collect mid s hstate hmid, hdrop, ← hcollect _ rfl]
  rcases hstate with h | h
  all_goals
    rw [State.tapBit]
    simp only [State.setTap_tap, h]

/-- The request byte of a request with an argument, within a row of bits (R187). -/
theorem State.tapBits_request {byte tsdi rest : List Bool} {s : State} (hstate : s.tap.state = .request)
    (hopen : s.tap.bitsIn.length < 8) (hlength : byte.length = 8) (hbits : s.tap.bitsIn ++ tsdi = byte ++ rest)
    (hargument : (requestOfByte (byteOfBits byte)).takesArgument = true) :
    s.tapBits tsdi = (s.setTap { s.tap with
      state := .arguments, request := some (byteOfBits byte), args := [], bitsIn := [] }).tapBits rest := by
  rw [State.tapBits_byte (.inl hstate) hopen hlength hbits, State.tapByte]
  simp only [State.setTap_tap, hstate, hargument, if_true]
  rfl

/-- The request byte of a request without one: it is judged there (R188). -/
theorem State.tapBits_judged {code : Byte} {tsdi rest : List Bool} {s : State} (hstate : s.tap.state = .request)
    (hopen : s.tap.bitsIn.length < 8) (hbits : s.tap.bitsIn ++ tsdi = byteBits code ++ rest)
    (hargument : (requestOfByte code).takesArgument = false) :
    s.tapBits tsdi = (s.judgementPoint code []).tapBits rest := by
  rw [State.tapBits_byte (.inl hstate) hopen (byteBits_length code) hbits, byteOfBits_byteBits, State.tapByte]
  simp only [State.setTap_tap, hstate, hargument, Bool.false_eq_true, if_false]
  rw [State.judgementPoint_setTap]

/-- The argument byte: the request is judged with it (R188). -/
theorem State.tapBits_argument {code arg : Byte} {tsdi rest : List Bool} {s : State} (hstate : s.tap.state = .arguments)
    (hrequest : s.tap.request = some code) (hopen : s.tap.bitsIn.length < 8)
    (hbits : s.tap.bitsIn ++ tsdi = byteBits arg ++ rest) :
    s.tapBits tsdi = (s.judgementPoint code (s.tap.args ++ [arg])).tapBits rest := by
  rw [State.tapBits_byte (.inr hstate) hopen (byteBits_length arg) hbits, byteOfBits_byteBits, State.tapByte]
  simp only [State.setTap_tap, hstate, hrequest, Option.getD_some]
  rw [State.judgementPoint_setTap]

/-! ### The end of a transaction (R189, R195, R198) -/

theorem exec_tselRelease (tsdi : List Bool) {s : State} (h : s.pins.tsel = true) :
    exec (.tselRelease tsdi) s = .next (s.tapBits tsdi).endTransaction := if_pos h

@[simp] theorem State.endTransaction_pins (s : State) : s.endTransaction.pins = { s.pins with tsel := false } := by
  rw [State.endTransaction]
  split <;> rfl

/-- TSDO is high impedance once TSEL is released (R199, R203). -/
@[simp] theorem State.endTransaction_tsdo (s : State) : s.endTransaction.tsdo = none := by
  rw [State.tsdo, State.endTransaction_pins]
  exact if_pos (.inl rfl)

/-- An armed restart resets the station (R198). -/
theorem State.endTransaction_restart {s : State} (h : s.tap.restartArmed = true) :
    State.AfterReset .tap s.endTransaction ∧ s.endTransaction.pending = s.pending := by
  rw [State.endTransaction, if_pos h]
  exact ⟨State.resetBy_afterReset _ _ s, rfl⟩

/-- With no restart armed the port is idle, and the oldest notice goes with an armed TAKE shifted out (R189, R195). -/
theorem State.endTransaction_idle {s : State} (h : s.tap.restartArmed = false) :
    s.endTransaction.tap = Tap.noTransaction ∧ changesOnly [.pins, .tap, .notices] s s.endTransaction ∧
      s.endTransaction.notices =
        if s.tap.takeArmed = true ∧ s.tap.shiftedOut = true then s.notices.drop 1 else s.notices := by
  have hended : s.endTransaction =
      (s.takeRemoval.setTap Tap.noTransaction).setPins { s.pins with tsel := false } := by
    rw [State.endTransaction, if_neg (by simp [h])]
  rw [hended]
  refine ⟨rfl, fun b hb => ?_, ?_⟩
  · cases b <;> simp_all [sameBlock]
  · simp only [State.setPins_notices, State.setTap_notices, State.takeRemoval, Bool.and_eq_true]
    split <;> rfl

/-- With no removal due the end of a transaction changes TSEL and the port alone (R189). -/
theorem State.endTransaction_plain {s : State} (h : s.tap.restartArmed = false)
    (htake : ¬ (s.tap.takeArmed = true ∧ s.tap.shiftedOut = true)) :
    changesOnly [.pins, .tap] s s.endTransaction := by
  obtain ⟨_, hchanges, hnotices⟩ := State.endTransaction_idle h
  rw [if_neg htake] at hnotices
  intro b hb
  by_cases hb' : b = .notices
  · rw [hb']
    exact hnotices
  · exact hchanges b (by simp_all)

/-- A response is shifted out once every bit of it is clocked (R195, R203). -/
theorem Tap.shiftedOut_iff {tap : Tap} {response : List Byte} (hresponse : tap.response = some response)
    (hclocked : tap.clocked ≤ 8 * response.length) :
    tap.shiftedOut = true ↔ 8 * response.length ≤ tap.clocked := by
  rw [Tap.shiftedOut, hresponse, Option.any_some, decide_eq_true_iff, Tap.bytesShifted]
  omega

/-- Bits after the judgement point complete the response where they and those before them are as many (R188, R203). -/
theorem State.tapBits_shiftedOut (bits : List Bool) {s : State} {response : List Byte} (hstate : s.tap.state = .response)
    (hresponse : s.tap.response = some response) (hclocked : s.tap.clocked ≤ 8 * response.length) :
    (s.tapBits bits).tap.shiftedOut = true ↔ 8 * response.length ≤ s.tap.clocked + bits.length := by
  have hlength : s.tap.responseBits.length = 8 * response.length := by
    rw [Tap.responseBits, hresponse, Option.getD_some, bytesBits_length]
  obtain ⟨n, hrow, hcount⟩ := State.tapBits_response bits hstate
  rw [hlength] at hcount
  have hn := hcount hclocked
  have hle : n ≤ 8 * response.length := by
    rw [hn]
    exact Nat.min_le_right _ _
  rw [hrow]
  refine (Tap.shiftedOut_iff (tap := { s.tap with clocked := n }) hresponse hle).trans ?_
  change 8 * response.length ≤ n ↔ _
  rw [hn, Nat.le_min]
  exact and_iff_left le_rfl

/-- After the judgement point TSEL's release ends the transaction, with the removal a TAKE shifted out makes (R189, R195). -/
theorem State.release_response (tsdi : List Bool) {s : State} {response : List Byte} (hstate : s.tap.state = .response)
    (hresponse : s.tap.response = some response) (hclocked : s.tap.clocked ≤ 8 * response.length)
    (hrestart : s.tap.restartArmed = false) :
    let t := (s.tapBits tsdi).endTransaction
    t.tap = Tap.noTransaction ∧ changesOnly [.pins, .tap, .notices] s t ∧
      t.notices =
        if s.tap.takeArmed = true ∧ 8 * response.length ≤ s.tap.clocked + tsdi.length then s.notices.drop 1
        else s.notices := by
  intro t
  have hshifted := State.tapBits_shiftedOut tsdi hstate hresponse hclocked
  obtain ⟨n, hrow, _⟩ := State.tapBits_response tsdi hstate
  have hunarmed : (s.tapBits tsdi).tap.restartArmed = false := by rw [hrow]; exact hrestart
  have harmed : (s.tapBits tsdi).tap.takeArmed = s.tap.takeArmed := by rw [hrow]; rfl
  have hcounted : changesOnly [.tap] s (s.tapBits tsdi) := by rw [hrow]; exact changesOnly_setTap _ s
  have hsame : (s.tapBits tsdi).notices = s.notices := by rw [hrow]; rfl
  obtain ⟨htap, hchanges, hnotices⟩ := State.endTransaction_idle hunarmed
  rw [if_congr (and_congr (by rw [harmed]) hshifted) rfl rfl, hsame] at hnotices
  exact ⟨htap, (hcounted.trans hchanges).mono (by simp), hnotices⟩

/-- Where no TAKE is armed nothing is removed (R189). -/
theorem State.release_response_plain (tsdi : List Bool) {s : State} (hstate : s.tap.state = .response)
    (htake : s.tap.takeArmed = false) (hrestart : s.tap.restartArmed = false) :
    (s.tapBits tsdi).endTransaction.tap = Tap.noTransaction ∧
      changesOnly [.pins, .tap] s (s.tapBits tsdi).endTransaction := by
  obtain ⟨n, hrow, _⟩ := State.tapBits_response tsdi hstate
  rw [hrow]
  have hplain := State.endTransaction_plain (s := s.setTap { s.tap with clocked := n }) hrestart
    (fun h => Bool.noConfusion (htake.symm.trans h.1))
  have hidle := State.endTransaction_idle (s := s.setTap { s.tap with clocked := n }) hrestart
  exact ⟨hidle.1, ((changesOnly_setTap _ s).trans hplain).mono (by simp)⟩

/-! ### A release with no judgement (R187, R199) -/

/-- From s to t the port alone moved, and what it has armed stays. -/
def armedAlike (s t : State) : Prop :=
  ∃ tap : Tap, t = s.setTap tap ∧ tap.takeArmed = s.tap.takeArmed ∧ tap.restartArmed = s.tap.restartArmed

/-- Bits before the eighth of a byte. -/
theorem State.tapBits_short {tsdi : List Bool} {s : State} (hstate : s.tap.state = .request ∨ s.tap.state = .arguments)
    (hshort : s.tap.bitsIn.length + tsdi.length < 8) : armedAlike s (s.tapBits tsdi) :=
  ⟨_, tapBits_collect tsdi s hstate hshort, rfl, rfl⟩

/-- Before the judgement point, and in WAIT_RELEASE, bits that complete no request arm nothing and reach the port alone
(R187, R199). -/
theorem State.tapBits_waiting {tsdi : List Bool} {s : State}
    (h : (s.tap.state = .request ∧ s.tap.bitsIn.length + tsdi.length < 8) ∨
      (s.tap.state = .request ∧ s.tap.bitsIn.length < 8 ∧ s.tap.bitsIn.length + tsdi.length < 16 ∧
        (byteOfBits ((s.tap.bitsIn ++ tsdi).take 8) = 0x02 ∨ byteOfBits ((s.tap.bitsIn ++ tsdi).take 8) = 0x07)) ∨
      (s.tap.state = .arguments ∧ s.tap.bitsIn.length + tsdi.length < 8) ∨ s.tap.state = .waitRelease) :
    armedAlike s (s.tapBits tsdi) := by
  rcases h with ⟨hstate, hshort⟩ | ⟨hstate, hopen, hshort, hcode⟩ | ⟨hstate, hshort⟩ | hstate
  · exact State.tapBits_short (.inl hstate) hshort
  · by_cases hbyte : s.tap.bitsIn.length + tsdi.length < 8
    · exact State.tapBits_short (.inl hstate) hbyte
    · have hlength : ((s.tap.bitsIn ++ tsdi).take 8).length = 8 := by
        rw [List.length_take, List.length_append]
        omega
      have hargument : (requestOfByte (byteOfBits ((s.tap.bitsIn ++ tsdi).take 8))).takesArgument = true := by
        rcases hcode with h | h <;> rw [h] <;> rfl
      rw [State.tapBits_request hstate hopen hlength (List.take_append_drop 8 _).symm hargument,
        tapBits_collect _ _ (.inr rfl) (by
          simp only [State.setTap_tap, List.length_nil, List.length_drop, List.length_append]
          omega)]
      exact ⟨_, rfl, rfl, rfl⟩
  · exact State.tapBits_short (.inr hstate) hshort
  · refine ⟨s.tap, ?_, rfl, rfl⟩
    have hignored : ∀ b, s.tapBit b = s := fun b => by rw [State.tapBit, hstate]
    exact List.foldl_fixed' hignored tsdi

/-! ### A release with the judgement (R188 to R191, R195 to R198) -/

/-- The request judged is the one its byte names (R187). -/
theorem requestOfByte_of_codeNames {code : Byte} {r : Request} (h : codeNames code r) : requestOfByte code = r := by
  rcases h with ⟨rfl, rfl⟩ | ⟨rfl, rfl⟩ | ⟨rfl, rfl⟩ | ⟨rfl, rfl⟩ | ⟨rfl, rfl⟩ | ⟨rfl, rfl⟩ | ⟨rfl, rfl⟩ | ⟨h, rfl⟩
  case inr.inr.inr.inr.inr.inr.inr =>
    revert code
    decide
  all_goals rfl

/-- What a request answered OK does, beside the port (R188). -/
theorem State.judgementPoint_ok {code : Byte} {args : List Byte} {s : State}
    (h : s.judgeRequest (requestOfByte code) (args.getLastD 0) = .ok) :
    s.judgementPoint code args =
      (s.requestEffect (requestOfByte code) (args.getLastD 0)).setTap (s.judgementPoint code args).tap := by
  have htaken : decide (s.judgeRequest (requestOfByte code) (args.getLastD 0) = .ok) = true := decide_eq_true h
  simp only [State.judgementPoint, htaken, if_true]
  rfl

/-- Without a RELEASE or RESYNC answered OK the judgement reaches the port alone (R188, R190). -/
theorem State.judgementPoint_quiet {code : Byte} {args : List Byte} {s : State}
    (hresync : ¬ (requestOfByte code = .resync ∧ s.judgeRequest (requestOfByte code) (args.getLastD 0) = .ok))
    (hrelease : ¬ (requestOfByte code = .release ∧ s.judgeRequest (requestOfByte code) (args.getLastD 0) = .ok)) :
    changesOnly [.tap] s (s.judgementPoint code args) := by
  by_cases hok : s.judgeRequest (requestOfByte code) (args.getLastD 0) = .ok
  · have hnone : s.requestEffect (requestOfByte code) (args.getLastD 0) = s := by
      cases hr : requestOfByte code with
      | release => exact absurd ⟨hr, hok⟩ hrelease
      | resync => exact absurd ⟨hr, hok⟩ hresync
      | status | entry | terms | counters | peek | take | restart | unknown => rfl
    rw [State.judgementPoint_ok hok, hnone]
    exact changesOnly_setTap _ s
  · simp only [State.judgementPoint, decide_eq_false hok, Bool.false_eq_true, if_false]
    exact changesOnly_setTap _ s

theorem State.requestResync_changes (s : State) : changesOnly [.slate] s s.requestResync := by
  intro b hb
  cases b <;> simp_all [sameBlock]

/-- RESYNC answered OK: RUNNING, and the request handed to the slate (R75, R190, R197). -/
theorem State.judgementPoint_resync {code : Byte} {args : List Byte} {s : State} (hr : requestOfByte code = .resync)
    (hok : s.judgeRequest .resync (args.getLastD 0) = .ok) :
    changesOnly [.tap, .slate] s (s.judgementPoint code args) ∧
      (s.judgementPoint code args).slate =
        { s.slate with resync := s.slate.resync || decide (s.health.state ≠ .withdrawn) } := by
  have hrun : s.ctrl.phase = .running := by
    cases hphase : s.ctrl.phase <;> simp [State.judgeRequest, Phase.serves, hphase] at hok ⊢
  have htakes : s.takes .resync = decide (s.health.state ≠ .withdrawn) := by simp [State.takes, takesKind, hrun]
  have heffect : s.judgementPoint code args = s.requestResync.setTap (s.judgementPoint code args).tap := by
    have h := State.judgementPoint_ok (code := code) (args := args) (s := s) (by rw [hr]; exact hok)
    rwa [hr] at h
  rw [heffect]
  refine ⟨(s.requestResync_changes.trans (changesOnly_setTap _ _)).mono (by simp), ?_⟩
  rw [State.setTap_slate, State.requestResync_slate, htakes]

/-- RELEASE answered OK: RUNNING, and the local release of its mask (R143, R144, R190, R196). -/
theorem State.judgementPoint_release {code : Byte} {args : List Byte} {m : Byte} {s : State}
    (hr : requestOfByte code = .release) (hargs : args.getLastD 0 = m) (hok : s.judgeRequest .release m = .ok) :
    let t := s.judgementPoint code args
    changesOnly [.tap, .terms, .outputs, .notices, .slate] s t ∧ t.terms = (s.applyRelease m none).terms ∧
      t.outputs = (s.applyRelease m none).outputs ∧ t.outputTrace = (s.applyRelease m none).outputTrace ∧
      t.notices = (s.applyRelease m none).notices ∧
      t.slate =
        if s.loader.config.any (fun c => c.networkRelease) = true ∧ s.health.state ≠ .withdrawn then
          { s.slate with release := some (releaseMerged (s.onLine .release) m s.slate.release) }
        else s.slate := by
  intro t
  have hrun : s.ctrl.phase = .running := by
    rw [State.judgeRequest_release] at hok
    by_contra hrun
    rw [if_pos hrun] at hok
    split at hok
    · cases hok
    · split at hok <;> cases hok
  have heffect : t = (s.localRelease m).setTap t.tap := by
    have h := State.judgementPoint_ok (code := code) (args := args) (s := s) (by rw [hr, hargs]; exact hok)
    rwa [hr, hargs] at h
  have hends := State.localRelease_ends m s
  have hslate := State.localRelease_slate_running m hrun
  refine ⟨s.judgementPoint_changes code args, ?_⟩
  rw [heffect]
  exact ⟨hends.terms, hends.outputs, hends.trace, hends.notices, hslate⟩

/-- TAKE answered OK returns twelve bytes (R195). -/
theorem State.response_take_length {arg : Byte} {s : State} (hok : s.judgeRequest .take arg = .ok) :
    (s.response .take arg).length = 12 := by
  obtain ⟨n, q, hnotices⟩ : ∃ n q, s.notices = n :: q := by
    refine List.exists_cons_of_ne_nil (fun hempty => ?_)
    rw [State.judgeRequest, hempty] at hok
    cases hserves : s.ctrl.phase.serves <;> simp [hserves] at hok
  have hvalue : (noticeValueBytes n.value).length = 5 := by
    rcases n.value with _ | (_ | _ | _ | _) <;> rfl
  simp [State.response, hok, State.okContent, hnotices, Notice.content, word16Bytes, hvalue]

/-! ### The transaction's end after its judgement (R189, R195 to R198) -/

section
variable {code arg : Byte} {args : List Byte} {r : Request} {s : State}

/-- A judged RESTART answered OK resets the station (R198). -/
theorem State.release_restart (rest : List Bool) (hr : requestOfByte code = .restart) (hargs : args.getLastD 0 = arg)
    (hok : s.judgeRequest .restart arg = .ok) :
    let t := ((s.judgementPoint code args).tapBits rest).endTransaction
    State.AfterReset .tap t ∧ t.pending = s.pending := by
  intro t
  have harmed : (s.judgementPoint code args).tap.restartArmed = true := by
    rw [State.judgementPoint_tap, hr, hargs, hok]
    rfl
  obtain ⟨n, hrow, _⟩ := State.tapBits_response rest (s := s.judgementPoint code args) rfl
  have hstill : ((s.judgementPoint code args).tapBits rest).tap.restartArmed = true := by rw [hrow]; exact harmed
  obtain ⟨hreset, hpending⟩ := State.endTransaction_restart hstill
  exact ⟨hreset, hpending.trans (by simp)⟩

/-- A judged TAKE answered OK removes the oldest notice where its twelve bytes are clocked in the same row (R195). -/
theorem State.release_take (rest : List Bool) (hr : requestOfByte code = .take) (hargs : args.getLastD 0 = arg)
    (hok : s.judgeRequest .take arg = .ok) :
    let t := ((s.judgementPoint code args).tapBits rest).endTransaction
    t.tap = Tap.noTransaction ∧ changesOnly [.pins, .tap, .notices] s t ∧
      t.notices = if 96 ≤ rest.length then s.notices.drop 1 else s.notices := by
  intro t
  have hport := s.judgementPoint_tap code args
  rw [hr, hargs, hok] at hport
  have hquiet : changesOnly [.tap] s (s.judgementPoint code args) :=
    State.judgementPoint_quiet (by simp [hr]) (by simp [hr])
  have hresponse : (s.judgementPoint code args).tap.response = some (s.response .take arg) := by rw [hport]
  have hclocked : (s.judgementPoint code args).tap.clocked = 0 := by rw [hport]
  have harmed : (s.judgementPoint code args).tap.takeArmed = true := by rw [hport]; rfl
  obtain ⟨htap, hchanges, hnotices⟩ := State.release_response rest (s := s.judgementPoint code args) rfl hresponse
    (by rw [hclocked]; exact Nat.zero_le _) (by rw [hport]; rfl)
  have hsame : (s.judgementPoint code args).notices = s.notices := hquiet .notices (by simp)
  refine ⟨htap, (hquiet.trans hchanges).mono (by simp), ?_⟩
  rw [hclocked, State.response_take_length hok, hsame, Nat.zero_add] at hnotices
  simpa [harmed] using hnotices

/-- Every other judged request leaves its effect, and the transaction ends (R189). -/
theorem State.release_judged (rest : List Bool) (hr : requestOfByte code = r) (hargs : args.getLastD 0 = arg)
    (hrestart : ¬ (r = .restart ∧ s.judgeRequest r arg = .ok)) (htake : ¬ (r = .take ∧ s.judgeRequest r arg = .ok)) :
    let t := ((s.judgementPoint code args).tapBits rest).endTransaction
    t.tap = Tap.noTransaction ∧ changesOnly [.pins, .tap] (s.judgementPoint code args) t := by
  have hport := s.judgementPoint_tap code args
  rw [hr, hargs] at hport
  refine State.release_response_plain rest rfl ?_ ?_
  · rw [hport]
    simpa using fun hok htaken => htake ⟨htaken, hok⟩
  · rw [hport]
    simpa using fun hok hrestarted => hrestart ⟨hrestarted, hok⟩

end

/-- The bits that complete a request bring it, with its argument, to the judgement point; the rest of the row follows
(R187, R188). -/
theorem State.tapBits_completes {tsdi rest : List Bool} {code arg : Byte} {r : Request} {s : State}
    (hopen : s.tap.bitsIn.length < 8)
    (h : (s.tap.state = .request ∧ codeNames code r ∧ arg = 0 ∧ s.tap.bitsIn ++ tsdi = bytesBits [code] ++ rest) ∨
      (s.tap.state = .request ∧ (code = 0x02 ∧ r = .entry ∨ code = 0x07 ∧ r = .release) ∧
        s.tap.bitsIn ++ tsdi = bytesBits [code, arg] ++ rest) ∨
      (s.tap.state = .arguments ∧ s.tap.request = some code ∧
        (code = 0x02 ∧ r = .entry ∨ code = 0x07 ∧ r = .release) ∧ s.tap.bitsIn ++ tsdi = bytesBits [arg] ++ rest)) :
    requestOfByte code = r ∧ ∃ args : List Byte, args.getLastD 0 = arg ∧
      s.tapBits tsdi = (s.judgementPoint code args).tapBits rest := by
  have hone : ∀ b : Byte, bytesBits [b] = byteBits b := fun b => List.append_nil _
  have htwo : bytesBits [code, arg] ++ rest = byteBits code ++ (byteBits arg ++ rest) := by simp [bytesBits]
  have hnamed : (code = 0x02 ∧ r = .entry ∨ code = 0x07 ∧ r = .release) →
      requestOfByte code = r ∧ r.takesArgument = true := by
    rintro (⟨rfl, rfl⟩ | ⟨rfl, rfl⟩) <;> exact ⟨rfl, rfl⟩
  rcases h with ⟨hstate, hcode, rfl, hbits⟩ | ⟨hstate, hcode, hbits⟩ | ⟨hstate, hrequest, hcode, hbits⟩
  · have hr := requestOfByte_of_codeNames hcode
    rw [hone] at hbits
    refine ⟨hr, [], rfl, State.tapBits_judged hstate hopen hbits ?_⟩
    rw [hr]
    rcases hcode with ⟨_, rfl⟩ | ⟨_, rfl⟩ | ⟨_, rfl⟩ | ⟨_, rfl⟩ | ⟨_, rfl⟩ | ⟨_, rfl⟩ | ⟨_, rfl⟩ | ⟨_, rfl⟩ <;> rfl
  · obtain ⟨hr, hargument⟩ := hnamed hcode
    rw [htwo] at hbits
    refine ⟨hr, [arg], rfl, ?_⟩
    have hwaiting := State.tapBits_request hstate hopen (byteBits_length code) hbits
      (by rw [byteOfBits_byteBits, hr]; exact hargument)
    rw [byteOfBits_byteBits] at hwaiting
    have hjudged := State.tapBits_argument (code := code) (arg := arg) (tsdi := byteBits arg ++ rest) (rest := rest)
      (s := s.setTap { s.tap with state := .arguments, request := some code, args := [], bitsIn := [] })
      rfl rfl (Nat.succ_pos 7) rfl
    rw [hwaiting, hjudged, State.judgementPoint_setTap]
    rfl
  · rw [hone] at hbits
    exact ⟨(hnamed hcode).1, s.tap.args ++ [arg], List.getLastD_concat ..,
      State.tapBits_argument hstate hrequest hopen hbits⟩

/-- Settles O46: after the judgement point, before it, and with it, by where the bits bring the port. -/
theorem takeRemovesOnlyWhenShiftedOut : Obligations.TakeRemovesOnlyWhenShiftedOut := by
  unfold Obligations.TakeRemovesOnlyWhenShiftedOut
  have hends : ∀ (tsdi : List Bool) (s : State), (s.tapBits tsdi).endTransaction.pins = { s.pins with tsel := false } :=
    fun tsdi s => by simp
  refine ⟨fun tsdi s response hsel hstate hresponse hclocked hrestart => ?_,
    fun tsdi s hsel htake hrestart hwaits => ?_, fun tsdi rest code arg r s hsel hopen hrow => ?_⟩
  · obtain ⟨htap, hchanges, hnotices⟩ := State.release_response tsdi hstate hresponse hclocked hrestart
    exact ⟨_, exec_tselRelease tsdi hsel, hchanges, hends tsdi s, State.endTransaction_tsdo _, htap, hnotices⟩
  · obtain ⟨tap, hbits, htaken, hrestarted⟩ := State.tapBits_waiting hwaits
    have hunarmed : (s.tapBits tsdi).tap.restartArmed = false := by rw [hbits]; exact hrestarted.trans hrestart
    have hchanged : changesOnly [.tap] s (s.tapBits tsdi) := by rw [hbits]; exact changesOnly_setTap tap s
    have hplain : changesOnly [.pins, .tap] (s.tapBits tsdi) (s.tapBits tsdi).endTransaction :=
      State.endTransaction_plain hunarmed (by rw [hbits]; simp [htaken, htake])
    exact ⟨_, exec_tselRelease tsdi hsel, (hchanged.trans hplain).mono (by simp), hends tsdi s,
      State.endTransaction_tsdo _, (State.endTransaction_idle hunarmed).1⟩
  · obtain ⟨hr, args, hargs, hbits⟩ := State.tapBits_completes hopen hrow
    refine ⟨_, exec_tselRelease tsdi hsel, hends tsdi s, State.endTransaction_tsdo _, ?_⟩
    rw [hbits]
    simp only [State.statusByte_eq_zero_iff]
    by_cases hrestart : r = .restart ∧ s.judgeRequest r arg = .ok
    · rw [if_pos hrestart]
      obtain ⟨rfl, hok⟩ := hrestart
      exact State.release_restart rest hr hargs hok
    rw [if_neg hrestart]
    by_cases htake : r = .take ∧ s.judgeRequest r arg = .ok
    · rw [if_pos htake]
      obtain ⟨rfl, hok⟩ := htake
      exact State.release_take rest hr hargs hok
    rw [if_neg htake]
    obtain ⟨htap, hended⟩ := State.release_judged rest hr hargs hrestart htake
    refine ⟨htap, ?_⟩
    by_cases hresync : r = .resync ∧ s.judgeRequest r arg = .ok
    · rw [if_pos hresync]
      obtain ⟨rfl, hok⟩ := hresync
      obtain ⟨hchanges, hslate⟩ := State.judgementPoint_resync hr (hargs ▸ hok)
      exact ⟨(hchanges.trans hended).mono (by simp), (hended .slate (by simp)).trans hslate⟩
    rw [if_neg hresync]
    by_cases hrelease : r = .release ∧ s.judgeRequest r arg = .ok
    · rw [if_pos hrelease]
      obtain ⟨rfl, hok⟩ := hrelease
      obtain ⟨hchanges, hterms, houtputs, htrace, hnotices, hslate⟩ := State.judgementPoint_release hr hargs hok
      obtain ⟨hsameOutputs, hsameTrace⟩ := hended .outputs (by simp)
      exact ⟨(hchanges.trans hended).mono (by simp), (hended .terms (by simp)).trans hterms,
        hsameOutputs.trans houtputs, hsameTrace.trans htrace, (hended .notices (by simp)).trans hnotices,
        (hended .slate (by simp)).trans hslate⟩
    rw [if_neg hrelease]
    have hquiet := State.judgementPoint_quiet (code := code) (args := args) (s := s)
      (by rw [hr, hargs]; exact hresync) (by rw [hr, hargs]; exact hrelease)
    exact (hquiet.trans hended).mono (by simp)

end Sys2Proof.Machine
end

section
/-! The drives that phase, configuration and term flags give, and the condition that the outputs stand at them (R149 to
R151, R156; log 37). -/

namespace Sys2Proof.Machine

/-! ### One output's drive (R149, R150) -/

@[simp] theorem restDrives_get (c : StationConfig) (d : Fin 8) : (restDrives c)[d] = restDrive c.outputs[d] := by
  simp [restDrives]

@[simp] theorem runningDrives_get (c : StationConfig) (flags : Vector TermFlags 16) (d : Fin 8) :
    (runningDrives c flags)[d] = runningDrive c.outputs[d] flags := by simp [runningDrives]

/-- An output bound to no term drives its rest state (R150). -/
theorem runningDrive_unbound {x : OutputConfig} (hb : x.binding = none) (flags : Vector TermFlags 16) :
    runningDrive x flags = restDrive x := by rw [runningDrive, hb]

/-- A PERMIT output is at its permit level while its term is clear (R150). -/
theorem runningDrive_permit {x : OutputConfig} {i : Fin 16} (hb : x.binding = some i) (hm : x.mode = .permit)
    (flags : Vector TermFlags 16) :
    runningDrive x flags = if flags[i].live || flags[i].latched then restDrive x else permitDrive x := by
  rw [← TermFlags.value]
  simp only [runningDrive, hb, hm]
  cases flags[i].value <;> rfl

/-- An INDICATE output is at its permit level while its term is asserted (R150). -/
theorem runningDrive_indicate {x : OutputConfig} {i : Fin 16} (hb : x.binding = some i) (hm : x.mode = .indicate)
    (flags : Vector TermFlags 16) :
    runningDrive x flags = if flags[i].live || flags[i].latched then permitDrive x else restDrive x := by
  rw [← TermFlags.value]
  simp only [runningDrive, hb, hm]
  cases flags[i].value <;> rfl

/-! ### The condition on the outputs -/

/-- The drives that phase, configuration and term flags give (R149 to R151). -/
def State.dueDrives (s : State) : Vector Drive 8 :=
  match s.loader.config with
  | none => Vector.replicate 8 .openDrive
  | some c => if s.ctrl.phase = .running then runningDrives c s.terms.flags else restDrives c

theorem State.dueDrives_unloaded {s : State} (hc : s.loader.config = none) :
    s.dueDrives = Vector.replicate 8 .openDrive := by simp [State.dueDrives, hc]

theorem State.dueDrives_running {s : State} {c : StationConfig} (hc : s.loader.config = some c)
    (hrun : s.ctrl.phase = .running) : s.dueDrives = runningDrives c s.terms.flags := by
  simp [State.dueDrives, hc, hrun]

theorem State.dueDrives_rest {s : State} {c : StationConfig} (hc : s.loader.config = some c)
    (hrun : s.ctrl.phase ≠ .running) : s.dueDrives = restDrives c := by simp [State.dueDrives, hc, hrun]

/-- The condition of `outputsOk`, with a configuration in every phase that follows a valid load (R149 to R151, R156,
R170). -/
structure State.OutputsFollow (s : State) : Prop where
  loaded : s.ctrl.phase.configured = true → s.loader.config.isSome = true
  due : s.outputs = s.dueDrives
  last : s.outputs = s.outputTrace.getLastD (Vector.replicate 8 .openDrive)

/-- With a configuration wherever the phase asks for one, `outputsOk` is that the outputs stand at their due drives, the
last of the trace. -/
theorem State.outputsOk_iff {s : State} (h : s.ctrl.phase.configured = true → s.loader.config.isSome = true) :
    s.outputsOk = true ↔
      s.outputs = s.outputTrace.getLastD (Vector.replicate 8 .openDrive) ∧ s.outputs = s.dueDrives := by
  rw [State.outputsOk, Bool.and_eq_true, decide_eq_true_iff]
  refine and_congr_right (fun _ => ?_)
  split
  · next hrun hc => rw [decide_eq_true_iff, State.dueDrives_running hc hrun]
  · next hrun hc => exact absurd (h (by rw [hrun]; rfl)) (by simp [hc])
  · next hc hrun => rw [decide_eq_true_iff, State.dueDrives_rest hc hrun]
  · next hc _ => rw [decide_eq_true_iff, State.dueDrives_unloaded hc]

theorem State.outputsFollow_of_ok {s : State} (hl : s.loaderOk = true) (hs : s.outputsOk = true) : s.OutputsFollow :=
  have hloaded := fun h => (State.loaderOk_phase hl).1.trans h
  have ⟨hlast, hdue⟩ := (State.outputsOk_iff hloaded).mp hs
  ⟨hloaded, hdue, hlast⟩

theorem State.OutputsFollow.ok {s : State} (hs : s.OutputsFollow) : s.outputsOk = true :=
  (State.outputsOk_iff hs.loaded).mpr ⟨hs.last, hs.due⟩

/-! ### The two ways to meet it: nothing that it looks at has changed, or the drives have just been set -/

/-- What the condition looks at. -/
def State.outputView (s : State) :
    Phase × Option StationConfig × Vector TermFlags 16 × Vector Drive 8 × List (Vector Drive 8) :=
  (s.ctrl.phase, s.loader.config, s.terms.flags, s.outputs, s.outputTrace)

theorem StartsAlike.outputView {s v : State} (h : StartsAlike s v) : v.outputView = s.outputView := by
  simp only [State.outputView, h.ctrl, h.loader, h.terms, h.outputs, h.trace]

section
variable {s t : State} {c : StationConfig}

theorem State.OutputsFollow.congr (hs : s.OutputsFollow) (h : t.outputView = s.outputView) : t.OutputsFollow := by
  simp only [State.outputView, Prod.mk.injEq] at h
  obtain ⟨hphase, hconfig, hflags, houtputs, htrace⟩ := h
  have hdue : t.dueDrives = s.dueDrives := by rw [State.dueDrives, State.dueDrives, hphase, hconfig, hflags]
  exact ⟨by rw [hphase, hconfig]; exact hs.loaded, by rw [houtputs, hdue]; exact hs.due,
    by rw [houtputs, htrace]; exact hs.last⟩

/-- The output stage set once, to the drives now due (R155, R156). -/
theorem State.OutputsFollow.of_taken (hc : t.loader.config = some c) (h : drivesTaken [t.dueDrives] s t) :
    t.OutputsFollow := by
  obtain ⟨htrace, houtputs⟩ := h
  exact ⟨fun _ => by rw [hc]; rfl, houtputs, by rw [htrace, List.getLastD_concat]; exact houtputs⟩

theorem State.OutputsFollow.of_running (hrun : t.ctrl.phase = .running) (hc : t.loader.config = some c)
    (h : drivesTaken [runningDrives c t.terms.flags] s t) : t.OutputsFollow :=
  .of_taken hc (by rwa [State.dueDrives_running hc hrun])

theorem State.OutputsFollow.of_rest (hrun : t.ctrl.phase ≠ .running) (hc : t.loader.config = some c)
    (h : drivesTaken [restDrives c] s t) : t.OutputsFollow :=
  .of_taken hc (by rwa [State.dueDrives_rest hc hrun])

theorem State.OutputsFollow.exists_config (hs : s.OutputsFollow) (h : s.ctrl.phase.configured = true) :
    ∃ c, s.loader.config = some c := Option.isSome_iff_exists.mp (hs.loaded h)

theorem State.OutputsFollow.exists_config_running (hs : s.OutputsFollow) (hrun : s.ctrl.phase = .running) :
    ∃ c, s.loader.config = some c := hs.exists_config (by rw [hrun]; rfl)

end

end Sys2Proof.Machine
end

section
/-! The operations that reach the output stage, or that change phase or flags: the outputs stand at their due drives
after each (R132 to R140, R149 to R155, R175, R178). -/

namespace Sys2Proof.Machine

/-! ### Resets and loads (R149, R151, R169, R172) -/

theorem State.OutputsFollow.of_reset (cause : ResetCause) (pins : Pins) (s : State) :
    (s.resetBy cause pins).OutputsFollow := ⟨Bool.noConfusion, rfl, rfl⟩

/-- A valid load puts every output at rest (R151, R172). -/
theorem State.OutputsFollow.of_validLoad (c : StationConfig) (port : List BusOp) (x : SenseSample) (s : State) :
    (s.validLoad c port x).OutputsFollow := by
  obtain ⟨hctrl, hloader, _⟩ := s.validLoad_blocks c port x
  obtain ⟨_, houtputs, htrace, _⟩ := s.validLoad_parts c port x
  exact .of_rest (s := s) (c := c) (by simp [hctrl]) (by simp [hloader]) ⟨htrace, houtputs⟩

section
variable {s : State} (hs : s.OutputsFollow)
include hs

/-- A load that ends in a fault leaves no configuration, and the outputs OPEN as they were (R149, R169). -/
theorem State.OutputsFollow.halted (hl : s.loaderOk = true) (hreading : s.reading = true) (f : FaultCode)
    (port : List BusOp) (l : Loader) : ((s.setLoader l).halt f port).OutputsFollow := by
  have hunloaded : s.loader.config = none := by
    rw [← Option.isNone_iff_eq_none, ← Option.not_isSome, (State.loaderOk_phase hl).1,
      State.loading_of_reading hreading]
    rfl
  obtain ⟨hctrl, hconfig, _⟩ := (s.setLoader l).halt_blocks f port
  have houtputs : ((s.setLoader l).halt f port).outputs = s.outputs := by simp [State.halt]
  have htrace : ((s.setLoader l).halt f port).outputTrace = s.outputTrace := by simp [State.halt]
  refine ⟨by simp [hctrl, Phase.configured], ?_, by rw [houtputs, htrace]; exact hs.last⟩
  rw [houtputs, State.dueDrives_unloaded hconfig, hs.due, State.dueDrives_unloaded hunloaded]

/-! ### The evaluator's events (R132 to R140, R154, R155) -/

theorem State.OutputsFollow.tableChanged : s.tableChanged.OutputsFollow := by
  by_cases hrun : s.ctrl.phase = .running
  · obtain ⟨c, hc⟩ := hs.exists_config_running hrun
    have hdrives := State.tableChanged_drives s c hc
    rw [if_pos hrun] at hdrives
    exact .of_running (by simp [hrun]) (by simp [hc]) hdrives
  · rw [State.tableChanged_of_not_running s hrun]
    exact hs

/-- Whatever the table took before it was handed on. -/
theorem State.OutputsFollow.handedOn {v : State} (h : StartsAlike s v) : v.tableChanged.OutputsFollow :=
  (hs.congr h.outputView).tableChanged

theorem State.OutputsFollow.departureSeen (g : DepartureSignal) : (s.departureSeen g).OutputsFollow := by
  have hheld : (s.setTerms (State.departureSeen.hold g s.terms)).OutputsFollow := by
    refine hs.congr ?_
    simp only [State.departureSeen.hold]
    split <;> rfl
  cases hphase : s.ctrl.phase with
  | running =>
    obtain ⟨c, hc⟩ := hs.exists_config_running hphase
    simp only [State.departureSeen, hphase, hc]
    refine .of_running (s := s) (c := c) (by simp [hphase]) (by simp [hc]) ?_
    rw [State.settleTerms_terms]
    exact State.settleTerms_drives c _ s
  | listening | joining =>
    simp only [State.departureSeen, hphase]
    exact hheld
  | loading | halted | conflict =>
    simp only [State.departureSeen, hphase]
    exact hs

theorem State.OutputsFollow.departuresSeen (gs : List DepartureSignal) : (s.departuresSeen gs).OutputsFollow := by
  induction gs generalizing s with
  | nil => exact hs
  | cons g gs ih => exact ih (hs.departureSeen g)

theorem State.OutputsFollow.applyRelease (m : ZoneMask) (sender : Option Station) :
    (s.applyRelease m sender).OutputsFollow := by
  by_cases hrun : s.ctrl.phase = .running
  · obtain ⟨c, hc⟩ := hs.exists_config_running hrun
    exact .of_running (by simp [hrun]) (by simp [hc]) (State.applyRelease_running m sender s c hrun hc).2
  · rw [State.applyRelease_of_not_running m sender hrun]
    exact hs

theorem State.OutputsFollow.localRelease (m : ZoneMask) : (s.localRelease m).OutputsFollow := by
  have hends := s.localRelease_ends m
  exact (hs.applyRelease m none).congr
    (by simp [State.outputView, hends.terms, hends.outputs, hends.trace])

/-! ### Changes of phase (R154, R175, R178, R180) -/

/-- The slate takes an outcome of the own frame: the outputs stand, or the station enters RUNNING (R153, R178). -/
theorem State.OutputsFollow.slateTakes (heard : Option StationMap) (k : Kind) :
    (s.slateTakes heard k).OutputsFollow := by
  have htaken := State.slateTakes_taken heard k s
  have hphase : (s.slateTakes heard k).ctrl.phase = s.phaseAfter k := by rw [htaken.ctrl]
  cases henters : s.entersRunning k with
  | false =>
    obtain ⟨hterms, houtputs, htrace, _⟩ := htaken.stands henters
    rw [State.phaseAfter, henters, if_neg Bool.false_ne_true] at hphase
    exact hs.congr (by simp [State.outputView, hphase, hterms, houtputs, htrace])
  | true =>
    obtain ⟨_, hjoining⟩ : k = .join ∧ s.ctrl.phase = .joining := by simpa [State.entersRunning] using henters
    obtain ⟨c, hc⟩ := hs.exists_config (by rw [hjoining]; rfl)
    obtain ⟨_, _, _, _, hdrives⟩ := (htaken.enters henters c hc).terms
    rw [State.phaseAfter, henters, if_pos rfl] at hphase
    exact .of_running hphase (by simp [hc]) hdrives

/-- A number conflict puts every output at rest (R154, R180). -/
theorem State.OutputsFollow.declareConflict : s.declareConflict.OutputsFollow := by
  by_cases hruns : s.engineRuns = true
  · obtain ⟨c, hc⟩ := hs.exists_config (State.configured_of_engineRuns hruns)
    have hdeclared := State.declareConflict_declared hruns hc
    exact .of_rest (by simp [hdeclared.ctrl]) (by simp [hc]) hdeclared.drives
  · rw [State.declareConflict, if_neg hruns]
    exact hs

theorem State.OutputsFollow.sighting : s.sighting.OutputsFollow := by
  rw [State.sighting]
  split
  · exact hs.congr rfl
  · have hcounted : (s.setHealth { s.health with sightings := 2 }).OutputsFollow := hs.congr rfl
    exact hcounted.declareConflict
  · exact hs

/-- From LISTENING into JOINING the outputs stay at rest (R151, R175). -/
theorem State.OutputsFollow.listenTick : s.listenTick.OutputsFollow := by
  by_cases hlistening : s.ctrl.phase = .listening
  · obtain ⟨c, hc⟩ := hs.exists_config (by rw [hlistening]; rfl)
    have hphase : s.listenTick.ctrl.phase ≠ .running := by
      rw [State.listenTick_ctrl]
      cases s.joinsAtTick <;> simp [hlistening]
    have hc' : s.listenTick.loader.config = some c := by simp [hc]
    refine ⟨fun _ => by rw [hc']; rfl, ?_, by simpa using hs.last⟩
    rw [State.dueDrives_rest hc' hphase, ← State.dueDrives_rest hc (by simp [hlistening])]
    simpa using hs.due
  · rw [State.listenTick, if_neg hlistening]
    exact hs

/-! ### Rows of operations -/

theorem State.OutputsFollow.weighOutcome (o : FrameOutcome) : (s.weighOutcome o).OutputsFollow :=
  hs.congr (by simp [State.outputView])

theorem State.OutputsFollow.judgeRefresh : s.judgeRefresh.OutputsFollow := hs.congr (by simp [State.outputView])

theorem State.OutputsFollow.ageTable : s.ageTable.OutputsFollow := by
  by_cases hruns : s.engineRuns = true
  · rw [State.ageTable_runs hruns]
    exact hs.handedOn s.aged_starts
  · rw [State.ageTable_stops hruns]
    exact hs

/-- A tick in any order (R173, R175). -/
theorem State.OutputsFollow.refreshTicked (order : TickOrder) : (s.refreshTicked order).OutputsFollow := by
  have hticked : s.countTick.OutputsFollow := hs.congr rfl
  rcases order with ⟨_ | _, _ | _⟩
  · exact hticked.ageTable.judgeRefresh.listenTick
  · exact hticked.ageTable.listenTick.judgeRefresh
  · exact hticked.judgeRefresh.listenTick.ageTable
  · exact hticked.listenTick.ageTable.judgeRefresh

theorem State.OutputsFollow.abort (k : Kind) : (s.abort k).OutputsFollow := by
  have hcounted : (s.stopDriving.countOutcome .aborted).OutputsFollow := hs.congr rfl
  rw [State.abort_eq]
  exact ((hcounted.slateTakes none k).weighOutcome .aborted).congr rfl

theorem State.OutputsFollow.mapEvidence (m : StationMap) : (s.mapEvidence m).OutputsFollow :=
  hs.handedOn (s.mapHeard_starts m)

/-- The end of a window (R68, R120, R132, R153, R154). -/
theorem State.OutputsFollow.closeFrame (f : Frame) (m : StationMap) : (s.closeFrame f m).OutputsFollow := by
  have hcounted : ∀ o, ((s.mapEvidence (lessOwn s.ctrl.ownNumber m)).countOutcome o).OutputsFollow :=
    fun _ => (hs.mapEvidence _).congr rfl
  rw [State.closeFrame]
  split
  · next v _ =>
    have htaken := (hcounted .completed).slateTakes (some (lessOwn s.ctrl.ownNumber m)) v.slot
    have hweighed := htaken.weighOutcome .completed
    simp only [State.senderClosed, State.completedWeighed]
    split
    · exact hweighed.sighting
    · exact hweighed
  · exact (hcounted .accepted).weighOutcome .accepted
  · exact hs
  · exact hs

/-! ### An accepted frame (R14 to R24, R65, R145) -/

theorem State.OutputsFollow.acceptState {k : Kind} (hk : k = .change ∨ k = .refresh) (n : Station) (q : Nibble)
    (content : ReportContent) : (s.acceptState k n q content).OutputsFollow := by
  have hstarts : StartsAlike s (s.reportTaken k n q content) := ⟨by simp, by simp, by simp, by simp, by simp⟩
  rw [State.acceptState_eq hk]
  exact ((hs.handedOn hstarts).departuresSeen _).congr rfl

theorem State.OutputsFollow.tableAccepts (r : ReceivedFrame) : (s.tableAccepts r).OutputsFollow := by
  rw [State.tableAccepts]
  split
  · exact hs.acceptState (.inl rfl) _ _ _
  · exact hs.acceptState (.inr rfl) _ _ _
  · have hstarts : StartsAlike s ((s.joinTaken r.number r.payload).countAccepted r.number) :=
      ⟨by simp, by simp, by simp, by simp, by simp⟩
    rw [State.acceptJoin_eq]
    exact (hs.handedOn hstarts).congr (by simp [State.outputView])
  · have hstarts : StartsAlike s ((s.evidence r.number).countAccepted r.number) :=
      ⟨by simp, by simp, by simp, by simp, by simp⟩
    rw [State.acceptResync]
    exact (hs.handedOn hstarts).congr (by simp [State.outputView])
  · obtain ⟨v, hv, _, htaken⟩ := State.acceptRelease_cases r.number r.sequence (releaseMaskOfBits r.payload) s
    have hheard : StartsAlike s (s.heardOnce r.number) := ⟨by simp [State.heardOnce], by simp [State.heardOnce],
      by simp [State.heardOnce], by simp [State.heardOnce], by simp [State.heardOnce]⟩
    have hchanged := hs.handedOn (hheard.trans hv)
    rw [htaken]
    split
    · exact hchanged.applyRelease _ _
    · exact hchanged

/-- What follows a check: rejected, a number conflict, or accepted (R64, R65, R121). -/
theorem State.OutputsFollow.judged (r : ReceivedFrame) : (s.judged r).OutputsFollow := by
  rw [State.judged]
  split
  · have hcounted : (s.countOutcome .rejected).OutputsFollow := hs.congr rfl
    exact (hcounted.weighOutcome .rejected).congr rfl
  · exact hs.declareConflict
  · exact (hs.tableAccepts r).congr rfl

/-! ### Samples and the tap port (R32, R142, R143, R196) -/

/-- A sample event: the publication, the signals, the request, and the release of a press (R32, R142). -/
theorem State.OutputsFollow.sampleTaken (c : StationConfig) (x : SenseSample) : (s.sampleTaken c x).OutputsFollow := by
  have hpublished : (s.published (s.watch.sampled c.groups x)).OutputsFollow := by
    rcases s.published_cases (s.watch.sampled c.groups x) with ⟨_, hu⟩ | ⟨_, v, hstarts, _, hu⟩
    · rw [hu]; exact hs.congr rfl
    · rw [hu]; exact hs.handedOn hstarts
  have hsignalled := hpublished.departuresSeen
    (signalsOf true (groupZones c) (departedGroups s.watch (s.watch.sampled c.groups x)))
  have hfiltered : ((s.announced c (s.watch.sampled c.groups x)).relFiltered (relActive x)).OutputsFollow :=
    hsignalled.congr (by simp [State.outputView, State.relFiltered, State.announced])
  rw [State.sampleTaken_eq, State.relSampled_eq]
  split
  · exact hfiltered.localRelease _
  · exact hfiltered

theorem State.OutputsFollow.requestEffect (r : Request) (arg : Byte) : (s.requestEffect r arg).OutputsFollow := by
  cases r with
  | release => exact hs.localRelease arg
  | resync => exact hs.congr (by simp [State.requestEffect, State.outputView])
  | status | entry | terms | counters | peek | take | restart | unknown => exact hs

theorem State.OutputsFollow.judgementPoint (code : Byte) (args : List Byte) :
    (s.judgementPoint code args).OutputsFollow := by
  simp only [State.judgementPoint]
  split
  · exact (hs.requestEffect _ _).congr rfl
  · exact hs.congr rfl

theorem State.OutputsFollow.tapByte (b : Byte) : (s.tapByte b).OutputsFollow := by
  rw [State.tapByte]
  split
  · split
    · exact hs.congr rfl
    · exact hs.judgementPoint _ _
  · exact hs.judgementPoint _ _
  all_goals exact hs

theorem State.OutputsFollow.tapBit (b : Bool) : (s.tapBit b).OutputsFollow := by
  have hcollect : (s.tapCollect b).OutputsFollow := by
    simp only [State.tapCollect]
    split
    · exact hs.tapByte _
    · exact hs.congr rfl
  rw [State.tapBit]
  split
  · exact hcollect
  · exact hcollect
  · exact hs.congr rfl
  all_goals exact hs

theorem State.OutputsFollow.tapBits (bits : List Bool) : (s.tapBits bits).OutputsFollow := by
  induction bits generalizing s with
  | nil => exact hs
  | cons b bits ih => exact ih (hs.tapBit b)

end

end Sys2Proof.Machine
end

section
/-! Every command, and the statement on what every step keeps of the outputs (R149 to R156, R159; log 37). -/

namespace Sys2Proof.Machine

section
variable {s t : State}

/-- A command with one guard, that changes nothing where its event cannot happen (log 3). -/
theorem State.OutputsFollow.of_guarded {p : Prop} [Decidable p] {u : State} (hs : s.OutputsFollow)
    (hu : u.OutputsFollow) (h : (if p then .next u else .next s : Result) = .next t) : t.OutputsFollow := by
  split at h
  · cases h; exact hu
  · cases h; exact hs

variable (hs : s.OutputsFollow)
include hs

/-! ### The loader and the resets' end -/

theorem headerRead_outputsFollow {n : Nat} {a b l r : Byte} (hl : s.loaderOk = true)
    (h : exec (.headerRead n a b l r) s = .next t) : t.OutputsFollow := by
  simp only [exec, execHeaderRead] at h
  split at h
  · next hc =>
    simp only [Bool.and_eq_true, and_assoc] at hc
    split at h
    · cases h; exact hs.halted hl hc.1 _ _ s.loader
    · cases h; exact hs.congr rfl
  · cases h; exact hs

theorem transportFailure_outputsFollow {n : Nat} {f : BusFault} {read : List Byte} (hl : s.loaderOk = true)
    (h : exec (.transportFailure n f read) s = .next t) : t.OutputsFollow := by
  simp only [exec, execTransportFailure] at h
  split at h
  · next hc =>
    simp only [Bool.and_eq_true, and_assoc] at hc
    split at h
    · cases h; exact hs.congr rfl
    · cases h; exact hs.halted hl hc.1 _ _ s.loader
  · cases h; exact hs

theorem imageComplete_outputsFollow {rest : List Byte} {x : SenseSample} (hl : s.loaderOk = true)
    (h : exec (.imageComplete rest x) s = .next t) : t.OutputsFollow := by
  simp only [exec, execImageComplete] at h
  split at h
  · next hc =>
    simp only [Bool.and_eq_true, and_assoc] at hc
    split at h
    · cases h; exact hs.halted hl hc.1 _ _ _
    · cases h; exact .of_validLoad _ _ x _
  · cases h; exact hs

theorem resetEnd_outputsFollow {x : HeldSource} (h : exec (.resetEnd x) s = .next t) : t.OutputsFollow := by
  simp only [exec, execResetEnd] at h
  split at h
  · split at h
    all_goals cases h; exact hs.congr rfl
  · cases h; exact hs

/-! ### The line -/

theorem contentionStart_outputsFollow {gap : List BitPeriod} {edge : Option Int} {able : Nat}
    (h : exec (.contentionStart gap edge able) s = .next t) : t.OutputsFollow := by
  simp only [exec, execContentionStart] at h
  split at h
  all_goals cases h; exact hs.congr rfl

/-- The own frame lost, its key won or its last bit sent: outside the output stage (R56, R57, R62). -/
theorem ownFrame_outputsFollow {cmd : Instr} {bits : List BitPeriod}
    (hc : cmd = .keyLost bits ∨ cmd = .keyWon bits ∨ cmd = .lastCheckBitSent bits) (h : exec cmd s = .next t) :
    t.OutputsFollow := by
  rcases hc with rfl | rfl | rfl
  all_goals
    simp only [exec, execKeyLost, execKeyWon, execLastCheckBitSent] at h
    split at h
    · exact hs.of_guarded (hs.congr (by simp [State.outputView])) h
    · cases h; exact hs

theorem sendAborted_outputsFollow {bits : List BitPeriod} (h : exec (.sendAborted bits) s = .next t) :
    t.OutputsFollow := by
  have haborted : ∀ (u : State) (k : Kind), u.outputView = s.outputView → (u.abort k).OutputsFollow :=
    fun u k hu => (hs.congr hu).abort k
  simp only [exec, execSendAborted] at h
  split at h
  · split at h
    · cases h; exact haborted _ _ rfl
    · cases h; exact hs
  · split at h
    · cases h; exact haborted _ _ rfl
    · cases h; exact hs
  · cases h; exact hs

/-- The three commands that abandon a frame (R58, R106, R107). -/
theorem abandoning_outputsFollow {cmd : Instr} {bits : List BitPeriod}
    (hc : cmd = .invalidKind bits ∨ cmd = .framingFault bits ∨ cmd = .stuckDominant bits)
    (h : exec cmd s = .next t) : t.OutputsFollow := by
  have habandoned : ∀ u : State, u.outputView = s.outputView → u.abandon.OutputsFollow :=
    fun u hu => hs.congr ((by simp [State.outputView] : u.abandon.outputView = u.outputView).trans hu)
  rcases hc with rfl | rfl | rfl
  all_goals
    simp only [exec, execInvalidKind, execFramingFault, execStuckDominant] at h
    split at h
    · split at h
      · cases h; exact habandoned _ rfl
      · cases h; exact hs
    · cases h; exact hs

theorem frameReceived_outputsFollow {bits : List BitPeriod} (h : exec (.frameReceived bits) s = .next t) :
    t.OutputsFollow := by
  rcases execFrameReceived_cases h with rfl | ⟨r, f, x, _, _, rfl⟩
  · exact hs
  · have hfollowed : (s.followed f bits .q4 x).OutputsFollow := hs.congr rfl
    exact hfollowed.judged r

theorem windowEnd_outputsFollow {slots : List BitPeriod} (h : exec (.windowEnd slots) s = .next t) :
    t.OutputsFollow := by
  simp only [exec, execWindowEnd] at h
  split at h
  · next f _ =>
    have hpassed : (s.slotsPassed f slots).OutputsFollow := hs.congr rfl
    have hclosed := hpassed.closeFrame f (confirmMapOf slots)
    exact hs.of_guarded (hclosed.congr (by simp [State.outputView, State.slotsPassed])) h
  · cases h; exact hs

/-! ### Samples and the tap port -/

theorem sampleEvent_outputsFollow {x : SenseSample} (h : exec (.sampleEvent x) s = .next t) : t.OutputsFollow := by
  simp only [exec, execSampleEvent] at h
  split at h
  · next c _ _ => cases h; exact hs.sampleTaken c x
  · cases h; exact hs

theorem tselAssert_outputsFollow (h : exec .tselAssert s = .next t) : t.OutputsFollow := by
  simp only [exec, execTselAssert] at h
  split at h
  · cases h; exact hs
  · split at h
    all_goals cases h; exact hs.congr rfl

/-- The release of TSEL: its bits, then a restart or the end of the transaction (R189, R196, R198). -/
theorem tselRelease_outputsFollow {tsdi : List Bool} (h : exec (.tselRelease tsdi) s = .next t) : t.OutputsFollow := by
  have hended : (s.tapBits tsdi).endTransaction.OutputsFollow := by
    rw [State.endTransaction]
    split
    · exact .of_reset _ _ _
    · exact (hs.tapBits tsdi).congr (by simp [State.outputView])
  exact hs.of_guarded hended h

/-! ### Every command -/

/-- Every command leaves the outputs at the drives due (R149 to R156). -/
theorem exec_outputsFollow {cmd : Instr} (hl : s.loaderOk = true) (h : exec cmd s = .next t) : t.OutputsFollow := by
  have htapped : ∀ bytes, (s.tapBytes bytes).OutputsFollow := fun bytes => hs.tapBits (bytesBits bytes)
  cases cmd with
  | powerOnReset | resetPin => cases h; exact .of_reset _ _ s
  | resetEnd x => exact resetEnd_outputsFollow hs h
  | headerRead n a b l r => exact headerRead_outputsFollow hs hl h
  | transportFailure n f read => exact transportFailure_outputsFollow hs hl h
  | pauseEnd => exact hs.of_guarded (hs.congr (by rfl)) h
  | imageComplete rest x => exact imageComplete_outputsFollow hs hl h
  | sampleEvent x => exact sampleEvent_outputsFollow hs h
  | refreshTick order | peerSilent n order | listenExpiry order => exact hs.of_guarded (hs.refreshTicked order) h
  | discardEnd gap | frameStart gap edge able => exact hs.of_guarded (hs.congr (by rfl)) h
  | contentionStart gap edge able => exact contentionStart_outputsFollow hs h
  | keyLost bits => exact ownFrame_outputsFollow hs (.inl rfl) h
  | keyWon bits => exact ownFrame_outputsFollow hs (.inr (.inl rfl)) h
  | lastCheckBitSent bits => exact ownFrame_outputsFollow hs (.inr (.inr rfl)) h
  | sendAborted bits => exact sendAborted_outputsFollow hs h
  | invalidKind bits => exact abandoning_outputsFollow hs (.inl rfl) h
  | framingFault bits => exact abandoning_outputsFollow hs (.inr (.inl rfl)) h
  | stuckDominant bits => exact abandoning_outputsFollow hs (.inr (.inr rfl)) h
  | frameReceived bits => exact frameReceived_outputsFollow hs h
  | windowEnd slots => exact windowEnd_outputsFollow hs h
  | tselAssert => exact tselAssert_outputsFollow hs h
  | tselRelease tsdi => exact tselRelease_outputsFollow hs h
  | status | entry n | terms | counters | peek | take | release mask | resync | restart => cases h; exact htapped _
  | unknownRequest b => exact hs.of_guarded (htapped [b]) h

end

/-- Settles O57: each output's drive by its configuration and its term's value; every command either leaves all that the
drives depend on, or sets them once more to what is due. -/
theorem stepKeepsOutputsFollowing : Obligations.StepKeepsOutputsFollowing := by
  unfold Obligations.StepKeepsOutputsFollowing
  refine ⟨fun c flags d => ?_, fun s t hl hs hstep => ?_⟩
  · intro x permit rest
    have hrest : restDrive x = rest := by
      simp only [rest, restDrive]
      cases x.rest <;> cases x.permitHigh <;> rfl
    have hget : (runningDrives c flags)[d] = runningDrive x flags := runningDrives_get c flags d
    refine ⟨(restDrives_get c d).trans hrest, ?_⟩
    rw [hget, ← hrest]
    cases hb : x.binding with
    | none => exact runningDrive_unbound hb flags
    | some i =>
      cases hm : x.mode with
      | permit => exact runningDrive_permit hb hm flags
      | indicate => exact runningDrive_indicate hb hm flags
  · rcases step_cases hstep with rfl | ⟨cmd, rest, h⟩
    · exact hs
    · have hqueue : (s.setPending rest).OutputsFollow := (State.outputsFollow_of_ok hl hs).congr rfl
      exact (exec_outputsFollow hqueue hl h).ok

end Sys2Proof.Machine
end

section
/-! The station's life cycle: what every command does to the phase, the loader, the sampling and the ticks (R160 to R164,
R169, R170, R172 to R175, R178, R180). -/

namespace Sys2Proof.Machine

/-! ### The moves of the phase while a configuration is loaded (R160) -/

/-- The commands at which an attempt of the own frame may end, and so the JOIN conclude (R62, R68, R178). -/
def endsAttempt (c : Instr) : Prop := (∃ bits, c = .sendAborted bits) ∨ ∃ slots, c = .windowEnd slots

/-- The commands at which a number conflict may be found (R120, R121). -/
def findsConflict (c : Instr) : Prop := (∃ bits, c = .frameReceived bits) ∨ ∃ slots, c = .windowEnd slots

/-- The rows of R160's table that neither a reset nor the end of a load brings, with the commands that bring them. -/
inductive PhaseMoved (c : Instr) : Phase → Phase → Prop
  | stays (p : Phase) : PhaseMoved c p p
  | joins : PhaseMoved c .listening .joining
  | runs (command : endsAttempt c) : PhaseMoved c .joining .running
  | conflicts (p : Phase) (runs : p.engineRuns = true) (command : findsConflict c) : PhaseMoved c p .conflict

/-- The engine runs in these phases (R47). -/
theorem Phase.engineRuns_iff (p : Phase) :
    p.engineRuns = true ↔ p = .listening ∨ p = .joining ∨ p = .running := by
  cases p <;> decide

/-- They are phases of a loaded configuration (R170). -/
theorem Phase.configured_of_engineRuns {p : Phase} (h : p.engineRuns = true) : p.configured = true := by
  rcases (Phase.engineRuns_iff p).mp h with rfl | rfl | rfl <;> rfl

/-- The moves of the phase go between phases of a loaded configuration alone (R170). -/
theorem PhaseMoved.configured {c : Instr} {p q : Phase} (h : PhaseMoved c p q) : q.configured = p.configured := by
  cases h with
  | stays => rfl
  | joins => rfl
  | runs => rfl
  | conflicts _ hruns => rw [Phase.configured_of_engineRuns hruns]; rfl

/-- The loader, the sampling and the ticks stand, and the phase makes one move at most. -/
structure LifeKept (c : Instr) (s t : State) : Prop where
  loader : t.loader = s.loader
  sampling : t.watch.sampling = s.watch.sampling
  ticking : t.ctrl.ticking = s.ctrl.ticking
  phase : PhaseMoved c s.ctrl.phase t.ctrl.phase

theorem LifeKept.of_ctrl {c : Instr} {s t : State} (hctrl : t.ctrl = s.ctrl) (hloader : t.loader = s.loader)
    (hsampling : t.watch.sampling = s.watch.sampling) : LifeKept c s t :=
  ⟨hloader, hsampling, by rw [hctrl], by rw [hctrl]; exact .stays _⟩

theorem LifeKept.refl (c : Instr) (s : State) : LifeKept c s s := .of_ctrl rfl rfl rfl

/-- A command with one guard, where it does what its event does and nothing otherwise. -/
theorem LifeKept.of_guarded {c : Instr} {p : Prop} [Decidable p] {s t u : State} (hu : LifeKept c s u)
    (h : (if p then .next u else .next s : Result) = .next t) : LifeKept c s t := by
  split at h
  · cases h; exact hu
  · cases h; exact .refl c s

/-! ### The operations that move the phase (R120, R121, R175, R178) -/

/-- A declared conflict, where the engine runs (R180). -/
theorem State.declareConflict_ctrl {s : State} (h : s.engineRuns = true) :
    s.declareConflict.ctrl = { s.ctrl with phase := .conflict } := by
  rw [State.declareConflict_eq h]
  simp [State.conflictEntered]

theorem State.declareConflict_life {c : Instr} (hc : findsConflict c) (s : State) : LifeKept c s s.declareConflict := by
  by_cases h : s.engineRuns = true
  · have hctrl := State.declareConflict_ctrl h
    exact ⟨by simp, by simp, by rw [hctrl], by rw [hctrl]; exact .conflicts _ h hc⟩
  · rw [State.declareConflict, if_neg h]
    exact .refl c s

/-- COMPLETED at the monitor, with its sighting: the controller stands, or a conflict is declared (R120). -/
theorem State.completedWeighed_ctrl (sighted : Bool) {s : State} (h : s.engineRuns = true) :
    (s.completedWeighed sighted).ctrl = s.ctrl ∨
      (s.completedWeighed sighted).ctrl = { s.ctrl with phase := .conflict } := by
  by_cases hs : sighted = true ∧ s.health.sightings = 1
  · obtain ⟨rfl, hone⟩ := hs
    rw [State.completedWeighed_conflict hone, State.declareConflict_ctrl ((State.engineRuns_congr (by simp)).trans h)]
    exact .inr (by simp)
  · rw [State.completedWeighed_counted hs]
    exact .inl (by simp)

/-- The phase after an attempt of the own frame (R178). -/
theorem State.phaseAfter_moved {c : Instr} (hc : endsAttempt c) (k : Kind) (s : State) :
    PhaseMoved c s.ctrl.phase (s.phaseAfter k) := by
  rw [State.phaseAfter]
  split
  · next h =>
    obtain ⟨_, hjoining⟩ := of_decide_eq_true h
    rw [hjoining]
    exact .runs hc
  · exact .stays _

/-- The sender's window: the JOIN may conclude, and after it a second sighting may declare a conflict (R68, R120, R178). -/
theorem State.senderClosed_life (slots : List BitPeriod) (k : Kind) (m : StationMap) {s : State} (h : s.engineRuns = true) :
    LifeKept (.windowEnd slots) s (s.senderClosed k m) := by
  have hctrl : (((s.mapEvidence (lessOwn s.ctrl.ownNumber m)).countOutcome .completed).slateTakes
      (some (lessOwn s.ctrl.ownNumber m)) k).ctrl = { s.ctrl with phase := s.phaseAfter k } := by
    rw [(State.slateTakes_taken _ k _).ctrl, State.phaseAfter_congr (s := s) (by simp)]
    simp
  have hruns : (((s.mapEvidence (lessOwn s.ctrl.ownNumber m)).countOutcome .completed).slateTakes
      (some (lessOwn s.ctrl.ownNumber m)) k).engineRuns = true :=
    State.slateTakes_runs _ _ ((State.engineRuns_congr (by simp)).trans h)
  have hmoved := State.completedWeighed_ctrl (inMap m s.ctrl.ownNumber) hruns
  rw [hctrl] at hmoved
  change (s.senderClosed k m).ctrl = _ ∨ (s.senderClosed k m).ctrl = _ at hmoved
  rcases hmoved with hmoved | hmoved
  · exact ⟨by simp, by simp, by rw [hmoved], by rw [hmoved]; exact s.phaseAfter_moved (.inr ⟨slots, rfl⟩) k⟩
  · exact ⟨by simp, by simp, by rw [hmoved], by rw [hmoved]; exact .conflicts _ h (.inr ⟨slots, rfl⟩)⟩

theorem State.closeFrame_life (slots : List BitPeriod) (f : Frame) (m : StationMap) {s : State} (h : s.engineRuns = true) :
    LifeKept (.windowEnd slots) s (s.closeFrame f m) := by
  rw [State.closeFrame]
  split
  · exact State.senderClosed_life slots _ m h
  · exact .of_ctrl (by simp) (by simp) (by simp)
  · exact .refl _ s
  · exact .refl _ s

theorem State.abort_life (bits : List BitPeriod) (k : Kind) {s u : State} (hctrl : u.ctrl = s.ctrl)
    (hloader : u.loader = s.loader) (hwatch : u.watch = s.watch) : LifeKept (.sendAborted bits) s (u.abort k) := by
  have haborted : (u.abort k).ctrl = { s.ctrl with phase := s.phaseAfter k } := by
    rw [(State.abort_stands k u).1, (State.slateTakes_taken none k _).ctrl, State.phaseAfter_congr (s := s) (by simp [hctrl])]
    simp [hctrl]
  exact ⟨by simp [hloader], by simp [hwatch], by rw [haborted],
    by rw [haborted]; exact s.phaseAfter_moved (.inl ⟨bits, rfl⟩) k⟩

theorem State.refreshTicked_life (c : Instr) (order : TickOrder) (s : State) : LifeKept c s (s.refreshTicked order) := by
  have hctrl := s.refreshTicked_ctrl order
  rw [State.listenTick_ctrl, State.joinsAtTick_countTick] at hctrl
  refine ⟨by simp, by simp, by rw [hctrl]; rfl, ?_⟩
  rw [hctrl]
  cases hj : s.joinsAtTick with
  | false => exact .stays _
  | true =>
    obtain ⟨hlistening, _⟩ := of_decide_eq_true hj
    rw [hlistening]
    exact .joins

theorem State.judged_life (bits : List BitPeriod) (r : ReceivedFrame) {s u : State} (hctrl : u.ctrl = s.ctrl)
    (hloader : u.loader = s.loader) (hwatch : u.watch = s.watch) : LifeKept (.frameReceived bits) s (u.judged r) := by
  rw [State.judged]
  split
  · exact .of_ctrl (by simp [hctrl]) (by simp [hloader]) (by simp [hwatch])
  · have hdeclared := u.declareConflict_life (c := .frameReceived bits) (.inl ⟨bits, rfl⟩)
    exact ⟨hdeclared.loader.trans hloader, by rw [hdeclared.sampling, hwatch], by rw [hdeclared.ticking, hctrl],
      hctrl ▸ hdeclared.phase⟩
  · exact .of_ctrl (by simp [hctrl]) (by simp [hloader]) (by simp [hwatch])

/-! ### What a command does (R160, R164, R169, R172) -/

/-- The loader is READING while an attempt is read (R164). -/
theorem State.progress_of_reading {s : State} (h : s.reading = true) : s.loader.progress = .reading := by
  simp only [State.reading, Bool.and_eq_true, decide_eq_true_iff] at h
  obtain ⟨_, hprogress⟩ := h
  exact hprogress

/-- The moves of the loader within a load (R164). -/
inductive AttemptMoved (l l' : Loader) : Prop
  | readsOn (progress : l'.progress = .reading) (attempt : l'.attempt = l.attempt)
  | pauses (left : l.attempt < loadAttempts) (progress : l'.progress = .paused) (attempt : l'.attempt = l.attempt)
  | retries (paused : l.progress = .paused) (progress : l'.progress = .reading) (attempt : l'.attempt = l.attempt + 1)

/-- What a command does to phase, loader, sampling and ticks. -/
inductive LifeMoved (c : Instr) (s t : State) : Prop
  | kept (kept : LifeKept c s t)
  | reset (cause : ResetCause) (pins : Pins) (u : State) (command : resets c s) (result : t = u.resetBy cause pins)
  | loading (l : Loader) (phase : s.ctrl.phase = .loading) (config : l.config = s.loader.config)
      (moved : AttemptMoved s.loader l) (result : t = s.setLoader l)
  | halted (f : FaultCode) (port : List BusOp) (l : Loader) (reading : s.reading = true)
      (attempt : l.attempt = s.loader.attempt) (result : t = (s.setLoader l).halt f port)
  | loaded (rest : List Byte) (x : SenseSample) (g : StationConfig) (port : List BusOp) (l : Loader)
      (command : c = .imageComplete rest x) (reading : s.reading = true) (attempt : l.attempt = s.loader.attempt)
      (result : t = (s.setLoader l).validLoad g port x)

theorem LifeMoved.refl (c : Instr) (s : State) : LifeMoved c s s := .kept (.refl c s)

theorem resetEnd_life {x : HeldSource} {s t : State} (h : exec (.resetEnd x) s = .next t) :
    LifeKept (.resetEnd x) s t := by
  simp only [exec, execResetEnd] at h
  split at h
  · split at h
    · cases h; exact .of_ctrl rfl rfl rfl
    · cases h; exact ⟨rfl, rfl, rfl, .stays _⟩
  · cases h; exact .refl _ s

theorem headerRead_life {n : Nat} {a b l r : Byte} {s t : State} (h : exec (.headerRead n a b l r) s = .next t) :
    LifeMoved (.headerRead n a b l r) s t := by
  simp only [exec, execHeaderRead] at h
  split at h
  · next hc =>
    simp only [Bool.and_eq_true] at hc
    obtain ⟨⟨hreading, _⟩, _⟩ := hc
    split at h
    · cases h; exact .halted _ _ s.loader hreading rfl rfl
    · cases h
      exact .loading _ (State.loading_of_reading hreading) (by rfl)
        (.readsOn (by exact State.progress_of_reading hreading) (by rfl)) rfl
  · cases h; exact .refl _ s

theorem transportFailure_life {n : Nat} {f : BusFault} {read : List Byte} {s t : State}
    (h : exec (.transportFailure n f read) s = .next t) : LifeMoved (.transportFailure n f read) s t := by
  simp only [exec, execTransportFailure] at h
  split at h
  · next hc =>
    simp only [Bool.and_eq_true] at hc
    obtain ⟨⟨hreading, _⟩, _⟩ := hc
    split at h
    · next hleft =>
      cases h
      exact .loading _ (State.loading_of_reading hreading) (by rfl) (.pauses hleft (by rfl) (by rfl)) rfl
    · cases h; exact .halted _ _ s.loader hreading rfl rfl
  · cases h; exact .refl _ s

theorem pauseEnd_life {s t : State} (h : exec .pauseEnd s = .next t) : LifeMoved .pauseEnd s t := by
  simp only [exec, execPauseEnd] at h
  split at h
  · next hc =>
    simp only [Bool.and_eq_true, decide_eq_true_iff] at hc
    obtain ⟨⟨hloading, _⟩, hpaused⟩ := hc
    cases h
    exact .loading _ hloading (by rfl) (.retries hpaused (by rfl) (by rfl)) rfl
  · cases h; exact .refl _ s

theorem imageComplete_life {rest : List Byte} {x : SenseSample} {s t : State}
    (h : exec (.imageComplete rest x) s = .next t) : LifeMoved (.imageComplete rest x) s t := by
  simp only [exec, execImageComplete] at h
  split at h
  · next hc =>
    simp only [Bool.and_eq_true] at hc
    obtain ⟨⟨hreading, _⟩, _⟩ := hc
    split at h
    · cases h; exact .halted _ _ _ hreading (by rfl) rfl
    · cases h; exact .loaded rest x _ _ _ rfl hreading (by rfl) rfl
  · cases h; exact .refl _ s

theorem sampleEvent_life {x : SenseSample} {s t : State} (h : exec (.sampleEvent x) s = .next t) :
    LifeKept (.sampleEvent x) s t := by
  simp only [exec, execSampleEvent] at h
  split at h
  · cases h
    exact .of_ctrl (by simp) (by simp) (by rw [State.sampleTaken_watch]; rfl)
  · cases h; exact .refl _ s

theorem contentionStart_life {gap : List BitPeriod} {edge : Option Int} {able : Nat} {s t : State}
    (h : exec (.contentionStart gap edge able) s = .next t) : LifeKept (.contentionStart gap edge able) s t := by
  simp only [exec, execContentionStart] at h
  split at h
  all_goals cases h; exact .of_ctrl rfl rfl rfl

/-- The own frame lost, its key won or its last bit sent (R56, R57, R62). -/
theorem ownFrame_life {c : Instr} {bits : List BitPeriod} {s t : State}
    (hc : c = .keyLost bits ∨ c = .keyWon bits ∨ c = .lastCheckBitSent bits) (h : exec c s = .next t) :
    LifeKept c s t := by
  rcases hc with rfl | rfl | rfl
  all_goals
    simp only [exec, execKeyLost, execKeyWon, execLastCheckBitSent] at h
    split at h
    · exact .of_guarded (.of_ctrl (by simp) (by simp) (by simp)) h
    · cases h; exact .refl _ s

theorem sendAborted_life {bits : List BitPeriod} {s t : State} (h : exec (.sendAborted bits) s = .next t) :
    LifeKept (.sendAborted bits) s t := by
  simp only [exec, execSendAborted] at h
  split at h
  · split at h
    · cases h; exact State.abort_life bits _ rfl rfl rfl
    · cases h; exact .refl _ s
  · split at h
    · cases h; exact State.abort_life bits _ rfl rfl rfl
    · cases h; exact .refl _ s
  · cases h; exact .refl _ s

/-- The three commands that abandon a frame (R58, R106, R107). -/
theorem abandoning_life {c : Instr} {bits : List BitPeriod} {s t : State}
    (hc : c = .invalidKind bits ∨ c = .framingFault bits ∨ c = .stuckDominant bits) (h : exec c s = .next t) :
    LifeKept c s t := by
  rcases hc with rfl | rfl | rfl
  all_goals
    simp only [exec, execInvalidKind, execFramingFault, execStuckDominant] at h
    split at h
    · split at h
      · cases h; exact .of_ctrl (by simp) (by simp) (by simp)
      · cases h; exact .refl _ s
    · cases h; exact .refl _ s

theorem frameReceived_life {bits : List BitPeriod} {s t : State} (h : exec (.frameReceived bits) s = .next t) :
    LifeKept (.frameReceived bits) s t := by
  rcases execFrameReceived_cases h with rfl | ⟨r, f, x, _, _, rfl⟩
  · exact .refl _ t
  · exact State.judged_life bits r rfl rfl rfl

theorem windowEnd_life {slots : List BitPeriod} {s t : State} (h : exec (.windowEnd slots) s = .next t) :
    LifeKept (.windowEnd slots) s t := by
  simp only [exec, execWindowEnd] at h
  split at h
  · next f hf =>
    obtain ⟨hruns, _, _⟩ := State.engineRuns_of_frameIn hf
    have hclosed : LifeKept (.windowEnd slots) s ((s.slotsPassed f slots).closeFrame f (confirmMapOf slots)) :=
      have hkept := State.closeFrame_life slots f (confirmMapOf slots) (s := s.slotsPassed f slots) hruns
      ⟨hkept.loader, hkept.sampling, hkept.ticking, hkept.phase⟩
    refine .of_guarded ⟨?_, ?_, ?_, ?_⟩ h
    · rw [(State.afterWindow_frame _).2.2.1]; exact hclosed.loader
    · rw [(State.afterWindow_frame _).2.2.2.1]; exact hclosed.sampling
    · rw [(State.afterWindow_frame _).2.1]; exact hclosed.ticking
    · rw [(State.afterWindow_frame _).2.1]; exact hclosed.phase
  · cases h; exact .refl _ s

theorem tselAssert_life {s t : State} (h : exec .tselAssert s = .next t) : LifeKept .tselAssert s t := by
  simp only [exec, execTselAssert] at h
  split at h
  · cases h; exact .refl _ s
  · split at h
    all_goals cases h; exact .of_ctrl rfl rfl rfl

/-- The release of TSEL: an armed restart resets the station, else phase and loader stand (R189, R198). -/
theorem tselRelease_life {tsdi : List Bool} {s t : State} (h : exec (.tselRelease tsdi) s = .next t) :
    LifeMoved (.tselRelease tsdi) s t := by
  simp only [exec, execTselRelease] at h
  split at h
  · next hsel =>
    cases h
    rw [State.endTransaction]
    split
    · next harmed => exact .reset .tap _ _ (.inr (.inr ⟨tsdi, rfl, hsel, harmed⟩)) rfl
    · exact .kept (.of_ctrl (by simp) (by simp) (by simp))
  · cases h; exact .refl _ s

/-- What each command does to phase, loader, sampling and ticks. -/
theorem exec_lifeMoved {c : Instr} {s t : State} (h : exec c s = .next t) : LifeMoved c s t := by
  cases c with
  | powerOnReset => cases h; exact .reset .power _ s (.inl rfl) rfl
  | resetPin => cases h; exact .reset .pin _ s (.inr (.inl rfl)) rfl
  | resetEnd x => exact .kept (resetEnd_life h)
  | headerRead n a b l r => exact headerRead_life h
  | transportFailure n f read => exact transportFailure_life h
  | pauseEnd => exact pauseEnd_life h
  | imageComplete rest x => exact imageComplete_life h
  | sampleEvent x => exact .kept (sampleEvent_life h)
  | refreshTick order | peerSilent n order | listenExpiry order =>
    exact .kept (.of_guarded (s.refreshTicked_life _ order) h)
  | discardEnd gap | frameStart gap edge able => exact .kept (.of_guarded (.of_ctrl (by simp) (by simp) (by simp)) h)
  | contentionStart gap edge able => exact .kept (contentionStart_life h)
  | keyLost bits => exact .kept (ownFrame_life (.inl rfl) h)
  | keyWon bits => exact .kept (ownFrame_life (.inr (.inl rfl)) h)
  | lastCheckBitSent bits => exact .kept (ownFrame_life (.inr (.inr rfl)) h)
  | sendAborted bits => exact .kept (sendAborted_life h)
  | invalidKind bits => exact .kept (abandoning_life (.inl rfl) h)
  | framingFault bits => exact .kept (abandoning_life (.inr (.inl rfl)) h)
  | stuckDominant bits => exact .kept (abandoning_life (.inr (.inr rfl)) h)
  | frameReceived bits => exact .kept (frameReceived_life h)
  | windowEnd slots => exact .kept (windowEnd_life h)
  | tselAssert => exact .kept (tselAssert_life h)
  | tselRelease tsdi => exact tselRelease_life h
  | status | entry n | terms | counters | peek | take | release mask | resync | restart =>
    cases h; exact .kept (.of_ctrl (by simp) (by simp) (by simp))
  | unknownRequest b => exact .kept (.of_guarded (.of_ctrl (by simp) (by simp) (by simp)) h)

/-! ### The phase (R160) -/

/-- Settles O38: a command resets, ends a load, or makes one of the moves of `PhaseMoved`. -/
theorem phaseFollowsTransitionTable : Obligations.PhaseFollowsTransitionTable := by
  unfold Obligations.PhaseFollowsTransitionTable
  intro c s t h hchanged
  cases exec_lifeMoved h with
  | kept kept =>
    obtain ⟨_, _, _, hphase⟩ := kept
    generalize t.ctrl.phase = q at hphase hchanged ⊢
    generalize s.ctrl.phase = p at hphase hchanged ⊢
    cases hphase with
    | stays => exact absurd rfl hchanged
    | joins => exact .inr (.inr (.inr (.inl ⟨rfl, rfl⟩)))
    | runs command => exact .inr (.inr (.inr (.inr (.inl ⟨rfl, rfl, command⟩))))
    | conflicts _ hruns command =>
      exact .inr (.inr (.inr (.inr (.inr ⟨(Phase.engineRuns_iff p).mp hruns, rfl, command⟩))))
  | reset cause pins u command result => exact .inl ⟨by rw [result]; rfl, command⟩
  | loading l phase _ _ result => exact absurd (by rw [result]; rfl) hchanged
  | halted f port l reading _ result =>
    exact .inr (.inr (.inl ⟨State.loading_of_reading reading, by rw [result, (State.halt_blocks f port _).1]⟩))
  | loaded rest x g port l command reading _ result =>
    exact .inr (.inl ⟨State.loading_of_reading reading, by rw [result, (State.validLoad_blocks g port x _).1],
      rest, x, command⟩)

/-! ### The loader's condition (R164, R169, R170, R172) -/

/-- The progress of a load in step with the phase (R164, R169, R172). -/
def Loader.inStep (l : Loader) (p : Phase) : Prop :=
  match l.progress with
  | .reading => p = .loading
  | .paused => p = .loading ∧ l.attempt < loadAttempts
  | .checking => False
  | .done => p.configured = true
  | .failed => p = .halted

/-- The condition of `loaderOk`, part by part. -/
structure State.LoaderRight (s : State) : Prop where
  attempts : 1 ≤ s.loader.attempt ∧ s.loader.attempt ≤ loadAttempts
  config : s.loader.config.isSome = s.ctrl.phase.configured
  sampling : s.watch.sampling = s.ctrl.phase.configured
  ticking : s.ctrl.ticking = s.ctrl.phase.configured
  progress : s.loader.inStep s.ctrl.phase

theorem State.loaderOk_iff (s : State) : s.loaderOk = true ↔ s.LoaderRight := by
  simp only [State.loaderOk, Bool.and_eq_true, decide_eq_true_iff]
  constructor
  · rintro ⟨⟨⟨⟨hattempts, hconfig⟩, hsampling⟩, hticking⟩, hprogress⟩
    refine ⟨hattempts, hconfig, hsampling, hticking, ?_⟩
    rw [Loader.inStep]
    cases hp : s.loader.progress <;> simp_all
  · rintro ⟨hattempts, hconfig, hsampling, hticking, hprogress⟩
    refine ⟨⟨⟨⟨hattempts, hconfig⟩, hsampling⟩, hticking⟩, ?_⟩
    rw [Loader.inStep] at hprogress
    cases hp : s.loader.progress <;> simp_all

/-- With a configuration loaded the loader is DONE (R172). -/
theorem Loader.inStep.done {l : Loader} {p : Phase} (h : l.inStep p) (hp : p.configured = true) :
    l.progress = .done := by
  rw [Loader.inStep] at h
  cases hl : l.progress <;> simp_all [Phase.configured]

/-- A move of the phase keeps the loader in step: the loader is DONE, or the phase stands (R160, R172). -/
theorem Loader.inStep.moved {c : Instr} {l : Loader} {p q : Phase} (h : l.inStep p) (hmoved : PhaseMoved c p q) :
    l.inStep q := by
  have hdone : p.configured = true → l.inStep q := fun hp => by
    rw [Loader.inStep, h.done hp]
    exact hmoved.configured.trans hp
  cases hmoved with
  | stays => exact h
  | joins => exact hdone rfl
  | runs => exact hdone rfl
  | conflicts _ hruns => exact hdone (Phase.configured_of_engineRuns hruns)

theorem LifeKept.loaderRight {c : Instr} {s t : State} (h : LifeKept c s t) (hs : s.LoaderRight) : t.LoaderRight where
  attempts := by rw [h.loader]; exact hs.attempts
  config := by rw [h.loader, h.phase.configured]; exact hs.config
  sampling := by rw [h.sampling, h.phase.configured]; exact hs.sampling
  ticking := by rw [h.ticking, h.phase.configured]; exact hs.ticking
  progress := by rw [h.loader]; exact hs.progress.moved h.phase

/-- A move within a load: a pause comes from one of the first two attempts, so no retry is a fourth (R164). -/
theorem AttemptMoved.loaderRight {s : State} {l : Loader} (h : AttemptMoved s.loader l)
    (hloading : s.ctrl.phase = .loading) (hconfig : l.config = s.loader.config) (hs : s.LoaderRight) :
    (s.setLoader l).LoaderRight := by
  have hstands : (1 ≤ l.attempt ∧ l.attempt ≤ loadAttempts) → l.inStep s.ctrl.phase → (s.setLoader l).LoaderRight :=
    fun hattempts hprogress =>
      ⟨hattempts, (congrArg Option.isSome hconfig).trans hs.config, hs.sampling, hs.ticking, hprogress⟩
  have hattempts := hs.attempts
  cases h with
  | readsOn progress attempt =>
    exact hstands (by rw [attempt]; exact hattempts) (by rw [Loader.inStep, progress]; exact hloading)
  | pauses left progress attempt =>
    exact hstands (by rw [attempt]; exact hattempts)
      (by rw [Loader.inStep, progress, attempt]; exact ⟨hloading, left⟩)
  | retries paused progress attempt =>
    have hprogress := hs.progress
    rw [Loader.inStep, paused] at hprogress
    obtain ⟨_, hleft⟩ := hprogress
    exact hstands (by rw [attempt]; omega) (by rw [Loader.inStep, progress]; exact hloading)

/-- The loader after a load that ends in a fault (R169). -/
theorem State.halt_loader (f : FaultCode) (port : List BusOp) (s : State) :
    (s.halt f port).loader = { s.loader with progress := .failed, image := [], config := none, port := port } := by
  simp [State.halt]

/-- A load that ends in a fault leaves nothing configured (R169). -/
theorem State.LoaderRight.halted {s : State} (hs : s.LoaderRight) (hreading : s.reading = true) (f : FaultCode)
    (port : List BusOp) {l : Loader} (hattempt : l.attempt = s.loader.attempt) :
    ((s.setLoader l).halt f port).LoaderRight := by
  have hunconfigured : s.ctrl.phase.configured = false := by rw [State.loading_of_reading hreading]; rfl
  obtain ⟨hctrl, hconfig, hwatch, _⟩ := State.halt_blocks f port (s.setLoader l)
  have hloader := State.halt_loader f port (s.setLoader l)
  refine ⟨?_, ?_, ?_, ?_, ?_⟩
  · rw [hloader]; simpa only [State.setLoader_loader, hattempt] using hs.attempts
  · rw [hctrl, hconfig]; rfl
  · rw [hctrl, hwatch]; exact hs.sampling.trans hunconfigured
  · rw [hctrl]; exact hs.ticking.trans hunconfigured
  · rw [hctrl, hloader]; rfl

/-- A valid load brings the configuration, the sampling and the ticks together (R172). -/
theorem State.LoaderRight.loaded {s : State} (hs : s.LoaderRight) (g : StationConfig) (port : List BusOp)
    (x : SenseSample) {l : Loader} (hattempt : l.attempt = s.loader.attempt) :
    ((s.setLoader l).validLoad g port x).LoaderRight := by
  obtain ⟨hctrl, hloader, hwatch, _⟩ := State.validLoad_blocks g port x (s.setLoader l)
  refine ⟨?_, ?_, ?_, ?_, ?_⟩
  · rw [hloader]; simpa only [State.setLoader_loader, hattempt] using hs.attempts
  · rw [hctrl, hloader]; rfl
  · rw [hctrl, hwatch]; rfl
  · rw [hctrl]; rfl
  · rw [hctrl, hloader]; rfl

theorem State.loaderRight_resetBy (cause : ResetCause) (pins : Pins) (s : State) :
    (s.resetBy cause pins).LoaderRight where
  attempts := (by decide : 1 ≤ 1 ∧ 1 ≤ loadAttempts)
  config := rfl
  sampling := rfl
  ticking := rfl
  progress := rfl

theorem LifeMoved.loaderRight {c : Instr} {s t : State} (h : LifeMoved c s t) (hs : s.LoaderRight) : t.LoaderRight := by
  cases h with
  | kept kept => exact kept.loaderRight hs
  | reset cause pins u _ result => rw [result]; exact u.loaderRight_resetBy cause pins
  | loading l phase config moved result => rw [result]; exact moved.loaderRight phase config hs
  | halted f port l reading attempt result => rw [result]; exact hs.halted reading f port attempt
  | loaded _ x g port l _ _ attempt result => rw [result]; exact hs.loaded g port x attempt

/-- Settles O53: a reset, each move of a load, its two ends, and the moves of the phase after it keep loader, sampling and
ticks in step with the phase. -/
theorem stepKeepsLoaderAndPhase : Obligations.StepKeepsLoaderAndPhase := by
  unfold Obligations.StepKeepsLoaderAndPhase
  intro s t hs hstep
  rw [State.loaderOk_iff] at hs ⊢
  rcases step_cases hstep with rfl | ⟨c, rest, h⟩
  · exact hs
  · exact (exec_lifeMoved h).loaderRight (s := s.setPending rest)
      ⟨hs.attempts, hs.config, hs.sampling, hs.ticking, hs.progress⟩

end Sys2Proof.Machine
end

section
/-! The resets that end, and what an attempt to load comes to: a header read or judged bad, and a transport failure (R162 to
R166, R169, R189, R198, R199, R202). -/

namespace Sys2Proof.Machine

/-! ### Resets (R162, R163, R189, R198, R199) -/

/-- Settles O5: the bits clocked out are counted and nothing else, so the restart stays armed to the release. -/
theorem armedRestartResetsAtRelease : Obligations.ArmedRestartResetsAtRelease := by
  unfold Obligations.ArmedRestartResetsAtRelease
  intro tsdi s htsel hstate harmed
  obtain ⟨n, hcounted, _⟩ := State.tapBits_response tsdi hstate
  have harmed' : (s.tapBits tsdi).tap.restartArmed = true := by rw [hcounted]; exact harmed
  obtain ⟨hreset, hpending⟩ := State.endTransaction_restart harmed'
  refine ⟨_, exec_tselRelease tsdi htsel, hreset, ?_, ?_⟩
  · rw [State.endTransaction_pins, hcounted]; rfl
  · rw [hpending, hcounted]; rfl

/-- Settles O6: the hold is in force or not; with it ended, the other holds on or the reset is over. -/
theorem resetEndSettlesCauseAndTapPort : Obligations.ResetEndSettlesCauseAndTapPort := by
  unfold Obligations.ResetEndSettlesCauseAndTapPort
  intro source s
  have hexec : exec (.resetEnd source) s = execResetEnd source s := rfl
  rw [hexec, execResetEnd]
  split
  · dsimp only
    split
    · next hheld =>
      refine ⟨_, rfl, rfl, ?_⟩
      rw [if_pos hheld]
      intro b hb
      cases b <;> simp_all [sameBlock]
    · next hfreed =>
      refine ⟨_, rfl, rfl, ?_⟩
      rw [if_neg (by exact hfreed)]
      refine ⟨fun b hb => ?_, rfl, rfl, rfl, rfl, rfl⟩
      cases b <;> simp_all [sameBlock]
  · rfl

/-! ### The end of a load in a fault (R169) -/

theorem changesOnly_setLoader (l : Loader) (s : State) : changesOnly [.loader] s (s.setLoader l) := by
  intro b hb
  cases b <;> simp_all [sameBlock]

/-- A load that ends in a fault, in the words of the statements. -/
theorem State.halt_haltedWith (f : FaultCode) (port : List BusOp) (l : Loader) (s : State) :
    haltedWith f s ((s.setLoader l).halt f port) ∧ ((s.setLoader l).halt f port).loader.port = port := by
  have hloader := State.halt_loader f port (s.setLoader l)
  refine ⟨⟨by simp [State.halt], by rw [hloader], by rw [hloader], by rw [hloader], ?_, fun b hb => ?_⟩, by rw [hloader]⟩
  · simp [State.halt, State.raiseValue, State.raise, plainNotice]
  · cases b <;> simp_all [sameBlock, State.halt]

/-! ### The header (R164 to R166, R202) -/

/-- What the loader drives up to byte 0 (R165, R202). -/
theorem portOpening_eq (freeing : Nat) :
    portOpening freeing = (if freeing = 0 then [] else [BusOp.freeClocks freeing]) ++
      [.start, .send 0xA6, .send 0, .send 0, .repeatedStart, .send 0xA7] := rfl

theorem headerFault_eq (high low length revision : Byte) :
    headerFault [high, low, length, revision] =
      if high = 0x5D ∧ low = 0x31 then (if length = 130 then none else some .badLength) else some .badSignature := by
  have hsignature : signatureOk [high, low, length, revision] = decide (high = 0x5D ∧ low = 0x31) := rfl
  have hlength : lengthOk [high, low, length, revision] = decide (length = 130) := by
    have hbyte : lengthOk [high, low, length, revision] = decide (length.toNat = imageLength) := rfl
    rw [hbyte, decide_eq_decide]
    exact ⟨fun h => BitVec.eq_of_toNat_eq h, fun h => congrArg BitVec.toNat h⟩
  rw [headerFault, hsignature, hlength]
  by_cases hs : high = 0x5D ∧ low = 0x31
  · by_cases hl : length = 130
    · rw [if_pos hs, if_pos hl, decide_eq_true hs, decide_eq_true hl]; rfl
    · rw [if_pos hs, if_neg hl, decide_eq_true hs, decide_eq_false hl]; rfl
  · rw [if_neg hs, decide_eq_false hs]; rfl

section
variable {freeing : Nat} {high low length revision : Byte} {s : State}

/-- The guard of HEADER_READ (R164, R165). -/
theorem headerRead_guard (hreading : s.reading = true) (himage : s.loader.image = []) (hfreeing : freeing ≤ 9) :
    (s.reading && s.loader.image.isEmpty && freeingOk freeing) = true := by
  simp [hreading, himage, freeingOk, hfreeing]

/-- A header that passes both checks (R166). -/
theorem exec_goodHeader (hreading : s.reading = true) (himage : s.loader.image = []) (hfreeing : freeing ≤ 9)
    (hpasses : headerFault [high, low, length, revision] = none) :
    exec (.headerRead freeing high low length revision) s =
      .next (s.setLoader { s.loader with
        image := [high, low, length, revision]
        port := portOpening freeing ++ [high, low, length, revision].map (fun b => BusOp.take b true) }) := by
  simp only [exec, execHeaderRead, if_pos (headerRead_guard hreading himage hfreeing), hpasses]

/-- A header that fails one (R166, R169). -/
theorem exec_badHeader {f : FaultCode} (hreading : s.reading = true) (himage : s.loader.image = [])
    (hfreeing : freeing ≤ 9) (hfails : headerFault [high, low, length, revision] = some f) :
    exec (.headerRead freeing high low length revision) s =
      .next (s.halt f (portOpening freeing ++ takenToEnd [high, low, length, revision] ++ [.stop])) := by
  simp only [exec, execHeaderRead, if_pos (headerRead_guard hreading himage hfreeing), hfails]

end

/-- Settles O8: such a header passes both checks. -/
theorem goodHeaderIsReadOn : Obligations.GoodHeaderIsReadOn := by
  unfold Obligations.GoodHeaderIsReadOn
  intro freeing revision s hreading himage hfreeing
  have hpasses : headerFault [0x5D, 0x31, 130, revision] = none := headerFault_eq _ _ _ _
  refine ⟨_, exec_goodHeader hreading himage hfreeing hpasses, changesOnly_setLoader _ s, rfl, State.progress_of_reading hreading, rfl, rfl, ?_⟩
  rw [State.setLoader_loader, portOpening_eq, List.append_assoc]
  rfl

/-- Settles O9: the signature is judged first; each failure is a load that ends in its fault. -/
theorem badHeaderHalts : Obligations.BadHeaderHalts := by
  unfold Obligations.BadHeaderHalts
  intro freeing high low length revision s hreading himage hfreeing port
  have hport : portOpening freeing ++ takenToEnd [high, low, length, revision] ++ [.stop] = port := by
    rw [portOpening_eq, List.append_assoc, List.append_assoc]
    rfl
  have hends : ∀ f, headerFault [high, low, length, revision] = some f →
      ∃ t, exec (.headerRead freeing high low length revision) s = .next t ∧ haltedWith f s t ∧ t.loader.port = port := by
    intro f hf
    rw [exec_badHeader hreading himage hfreeing hf, hport]
    exact ⟨_, rfl, State.halt_haltedWith f port s.loader s⟩
  refine ⟨fun hsignature => hends _ ?_, fun hhigh hlow hlength => hends _ ?_⟩
  · rw [headerFault_eq, if_neg hsignature]
  · rw [headerFault_eq, if_pos ⟨hhigh, hlow⟩, if_neg hlength]

/-! ### Transport failures (R164, R165, R202) -/

/-- No fault falls after more bytes than the image has after its header (R202). -/
theorem read_le_of_faultPlaceOk {headed : Bool} {read : List Byte} {cause : BusFault}
    (h : faultPlaceOk headed read cause = true) : read.length ≤ 126 := by
  have hempty : (!headed && read.isEmpty) = true → read.length ≤ 126 := by
    cases read <;> simp
  cases cause with
  | noAckBusAddress | noAckMemoryAddress | dataHeldLow => exact hempty h
  | clockHeldLow n =>
    cases headed
    · have hfew : n ≤ 6 ∧ read.length < 4 := by simpa [faultPlaceOk] using (Bool.and_eq_true_iff.mp h).1
      omega
    · have hfew : n = 6 ∧ read.length ≤ 126 := of_decide_eq_true h
      exact hfew.2
  | dataLowInCondition condition =>
    cases condition with
    | start | repeatedStart => exact hempty h
    | stop =>
      have hall : read.length = 126 := of_decide_eq_true (Bool.and_eq_true_iff.mp h).2
      exact hall.le

/-- The bytes before a fault, each with its acknowledge: byte 129 alone has none (R202). -/
theorem takenBefore_eq_mapIdx {read : List Byte} (h : read.length ≤ 126) :
    takenBefore read = read.mapIdx (fun j b => .take b (decide (j ≠ 125))) := by
  rw [takenBefore]
  split
  · next hall =>
    have hall : read.length = 126 := hall
    rw [takenToEnd_eq_mapIdx, hall]
    simp
  · next hall =>
    have hfew : read.length < 126 := lt_of_le_of_ne h hall
    refine List.ext_getElem (by simp) (fun j hj _ => ?_)
    have hj : j < read.length := by simpa using hj
    simp [show j ≠ 125 by omega]

/-- What stands on the port at a fault (R165, R202; log 16). -/
theorem State.portAtFault_eq (freeing : Nat) {read : List Byte} (cause : BusFault) (s : State) (h : read.length ≤ 126) :
    s.portAtFault freeing read cause =
      (if s.loader.image = [] then
        (if freeing = 0 then [] else [.freeClocks freeing]) ++
          [BusOp.start, .send 0xA6, .send 0, .send 0, .repeatedStart, .send 0xA7].take (addressingDriven cause)
      else s.loader.port) ++ read.mapIdx (fun j b => .take b (decide (j ≠ 125))) := by
  simp only [State.portAtFault, takenBefore_eq_mapIdx h, List.isEmpty_iff]
  rfl

/-- The guard of TRANSPORT_FAILURE met: the attempt decides (R164). -/
theorem exec_transportFailure {freeing : Nat} {cause : BusFault} {read : List Byte} {s : State}
    (hreading : s.reading = true) (hfailure : failureOk freeing cause = true)
    (hplace : faultPlaceOk (!s.loader.image.isEmpty) read cause = true) :
    exec (.transportFailure freeing cause read) s =
      if s.loader.attempt < 3 then
        .next (s.setLoader { s.loader with
          progress := .paused, image := [], port := s.portAtFault freeing read cause ++ portAfterFault cause })
      else .next (s.halt .noMemory (s.portAtFault freeing read cause ++ portAfterFault cause)) :=
  if_pos (by rw [hreading, hfailure, hplace]; rfl)

/-- Settles O10: the attempt decides between the pause and the halt; the port by `State.portAtFault_eq`. -/
theorem transportFailureRetriesTwice : Obligations.TransportFailureRetriesTwice := by
  unfold Obligations.TransportFailureRetriesTwice
  refine ⟨fun freeing read cause s hreading hfailure hplace => ?_, fun s hloading hreset hpaused => ?_⟩
  · intro port
    have hport : s.portAtFault freeing read cause ++ portAfterFault cause = port := by
      rw [State.portAtFault_eq freeing cause s (read_le_of_faultPlaceOk hplace)]
      cases cause <;> rfl
    have hexec := exec_transportFailure hreading hfailure hplace
    rw [hport] at hexec
    refine ⟨fun hleft => ?_, fun hlast => ?_⟩
    · rw [if_pos hleft] at hexec
      exact ⟨_, hexec, changesOnly_setLoader _ s, rfl, rfl, rfl, rfl, rfl⟩
    · rw [if_neg (by omega)] at hexec
      exact ⟨_, hexec, State.halt_haltedWith .noMemory port s.loader s⟩
  · have hexec : exec .pauseEnd s = .next (s.setLoader { s.loader with
        progress := .reading, attempt := s.loader.attempt + 1, image := [], port := [] }) :=
      if_pos (by simp [hloading, hreset, hpaused])
    exact ⟨_, hexec, changesOnly_setLoader _ s, rfl, rfl, rfl, rfl⟩

end Sys2Proof.Machine
end

section
/-! The image's checks, field by field in the ranges of the table, and the first that fails (R166 to R169, R201, R202). -/

namespace Sys2Proof.Machine

/-! ### The fields in their ranges (R167, R202) -/

section
variable (img : List Byte)

/-- From index 10 on a field is one of a group's, a term's or an output's record, or of the release settings after them. -/
theorem fieldOk_record {i : Nat} (h : 10 ≤ i) :
    fieldOk img i =
      if i < 26 then groupFieldOk ((i - 10) % 4) (imageByte img (i + 4)).toNat
      else if i < 90 then termFieldOk ((i - 26) % 4) (imageByte img (i + 4)).toNat
      else if i < 122 then outputFieldOk ((i - 90) % 4) (imageByte img (i + 4)).toNat
      else if i = 122 then true
      else (imageByte img 127).toNat ≤ 1 := by
  have hlate : ∀ n, n < 10 → i ≠ n := fun n hn => by omega
  rw [fieldOk]
  simp only [hlate, Nat.reduceLT, if_false]

/-- A field of group g, by its place in the record. -/
theorem fieldOk_group {g p i o : Nat} (hg : g < 4) (hp : p < 4) (hi : i = 10 + 4 * g + p) (ho : o = 14 + 4 * g + p) :
    fieldOk img i = groupFieldOk p (imageByte img o).toNat := by
  rw [fieldOk_record img (by omega), if_pos (by omega), show (i - 10) % 4 = p by omega, show i + 4 = o by omega]

/-- A field of term t. -/
theorem fieldOk_term {t p i o : Nat} (ht : t < 16) (hp : p < 4) (hi : i = 26 + 4 * t + p) (ho : o = 30 + 4 * t + p) :
    fieldOk img i = termFieldOk p (imageByte img o).toNat := by
  rw [fieldOk_record img (by omega), if_neg (by omega), if_pos (by omega), show (i - 26) % 4 = p by omega,
    show i + 4 = o by omega]

/-- A field of output d. -/
theorem fieldOk_output {d p i o : Nat} (hd : d < 8) (hp : p < 4) (hi : i = 90 + 4 * d + p) (ho : o = 94 + 4 * d + p) :
    fieldOk img i = outputFieldOk p (imageByte img o).toNat := by
  rw [fieldOk_record img (by omega), if_neg (by omega), if_neg (by omega), if_pos (by omega),
    show (i - 90) % 4 = p by omega, show i + 4 = o by omega]

/-- The roster names no station 0: the last bit of its last byte (R167). -/
theorem fieldOk_roster : fieldOk img 9 = true ↔ (imageByte img 13).toNat % 2 = 0 := by
  have hbit : (imageRoster img).getLsbD 0 = (imageByte img 13).getLsbD 0 := getLsbD_append_four _ _ _ _ 0
  have hfield : fieldOk img 9 = decide ((imageRoster img).getLsbD 0 = false) := rfl
  rw [hfield, decide_eq_true_iff, hbit, BitVec.getLsbD, Nat.testBit_zero, decide_eq_false_iff_not]
  omega

/-- The four fields of a group's record. -/
theorem fieldOk_groups {g : Nat} (hg : g < 4) :
    (fieldOk img (10 + 4 * g) = true ↔ (imageByte img (14 + 4 * g)).toNat ≤ 15) ∧
      (fieldOk img (11 + 4 * g) = true ↔ (imageByte img (15 + 4 * g)).toNat ≤ 15) ∧
      (fieldOk img (12 + 4 * g) = true ↔ (imageByte img (16 + 4 * g)).toNat ≤ 7) ∧
      (fieldOk img (13 + 4 * g) = true ↔ (imageByte img (17 + 4 * g)).toNat ≤ 7) := by
  rw [fieldOk_group img hg (p := 0) (o := 14 + 4 * g) (by omega) (by omega) (by omega),
    fieldOk_group img hg (p := 1) (o := 15 + 4 * g) (by omega) (by omega) (by omega),
    fieldOk_group img hg (p := 2) (o := 16 + 4 * g) (by omega) (by omega) (by omega),
    fieldOk_group img hg (p := 3) (o := 17 + 4 * g) (by omega) (by omega) (by omega)]
  exact ⟨decide_eq_true_iff, decide_eq_true_iff, decide_eq_true_iff, decide_eq_true_iff⟩

/-- The four fields of a term's record. -/
theorem fieldOk_terms {t : Nat} (ht : t < 16) :
    fieldOk img (26 + 4 * t) = true ∧ (fieldOk img (27 + 4 * t) = true ↔ (imageByte img (31 + 4 * t)).toNat ≤ 7) ∧
      (fieldOk img (28 + 4 * t) = true ↔ (imageByte img (32 + 4 * t)).toNat ≤ 2) ∧
      (fieldOk img (29 + 4 * t) = true ↔ (imageByte img (33 + 4 * t)).toNat ≤ 1) := by
  rw [fieldOk_term img ht (p := 0) (o := 30 + 4 * t) (by omega) (by omega) (by omega),
    fieldOk_term img ht (p := 1) (o := 31 + 4 * t) (by omega) (by omega) (by omega),
    fieldOk_term img ht (p := 2) (o := 32 + 4 * t) (by omega) (by omega) (by omega),
    fieldOk_term img ht (p := 3) (o := 33 + 4 * t) (by omega) (by omega) (by omega)]
  exact ⟨rfl, decide_eq_true_iff, decide_eq_true_iff, decide_eq_true_iff⟩

/-- The four fields of an output's record. -/
theorem fieldOk_outputs {d : Nat} (hd : d < 8) :
    (fieldOk img (90 + 4 * d) = true ↔
        (imageByte img (94 + 4 * d)).toNat ≤ 15 ∨ (imageByte img (94 + 4 * d)).toNat = 255) ∧
      (fieldOk img (91 + 4 * d) = true ↔ (imageByte img (95 + 4 * d)).toNat ≤ 1) ∧
      (fieldOk img (92 + 4 * d) = true ↔ (imageByte img (96 + 4 * d)).toNat ≤ 1) ∧
      (fieldOk img (93 + 4 * d) = true ↔ (imageByte img (97 + 4 * d)).toNat ≤ 1) := by
  rw [fieldOk_output img hd (p := 0) (o := 94 + 4 * d) (by omega) (by omega) (by omega),
    fieldOk_output img hd (p := 1) (o := 95 + 4 * d) (by omega) (by omega) (by omega),
    fieldOk_output img hd (p := 2) (o := 96 + 4 * d) (by omega) (by omega) (by omega),
    fieldOk_output img hd (p := 3) (o := 97 + 4 * d) (by omega) (by omega) (by omega)]
  exact ⟨decide_eq_true_iff, decide_eq_true_iff, decide_eq_true_iff, decide_eq_true_iff⟩

/-! ### The first check that fails (R166 to R168) -/

/-- The field out of range with none below it is the first. -/
theorem firstBadField_eq_some {i : Nat} (h2 : 2 ≤ i) (h123 : i ≤ 123) (hbad : fieldOk img i = false)
    (hbelow : ∀ j, 2 ≤ j → j < i → fieldOk img j = true) : firstBadField img = some i := by
  have hfirst : (List.range 122).find? ((fun i => !fieldOk img i) ∘ fun i => i + 2) = some (i - 2) := by
    rw [List.find?_range_eq_some]
    refine ⟨?_, List.mem_range.mpr (by omega), fun j hj => ?_⟩
    · simp [Nat.sub_add_cancel h2, hbad]
    · simp [hbelow (j + 2) (by omega) (by omega)]
  rw [firstBadField, rangeIndices, List.find?_map, hfirst, Option.map_some, Nat.sub_add_cancel h2]

theorem firstBadField_eq_none (h : ∀ i, 2 ≤ i → i ≤ 123 → fieldOk img i = true) : firstBadField img = none := by
  simp only [firstBadField, rangeIndices, List.find?_eq_none, List.mem_map, List.mem_range]
  rintro _ ⟨j, hj, rfl⟩
  simp [h (j + 2) (by omega) (by omega)]

/-- The check word is checked first. -/
theorem imageFault_badCheck (h : checkWordOk img = false) : imageFault img = some .badCheck := by
  rw [imageFault, h]
  rfl

/-- Then the fields in ascending index. -/
theorem imageFault_badValue {i : Nat} (hcheck : checkWordOk img = true) (hfirst : firstBadField img = some i) :
    imageFault img = some (.badValue i) := by
  simp [imageFault, hcheck, hfirst]

/-- The roster is checked last. -/
theorem imageFault_selfNotInRoster (hcheck : checkWordOk img = true) (hfields : firstBadField img = none)
    (hroster : rosterOk img = false) : imageFault img = some .selfNotInRoster := by
  simp [imageFault, hcheck, hfields, hroster]

end

/-- An image that fails a check ends the load (R166, R169). -/
theorem exec_badImage {rest : List Byte} (x : SenseSample) {s : State} {f : FaultCode} (hreading : s.reading = true)
    (hheader : s.loader.image.length = 4) (hlength : rest.length = 126)
    (hfault : imageFault (s.loader.image ++ rest) = some f) :
    ∃ l, exec (.imageComplete rest x) s =
      .next ((s.setLoader l).halt f (s.loader.port ++ takenToEnd rest ++ [.stop])) := by
  have hguard : (s.reading && decide (s.loader.image.length = 4) && decide (rest.length = imageLength - 4)) = true := by
    simp [hreading, hheader, hlength, imageLength]
  refine ⟨{ s.loader with
    progress := .checking, image := s.loader.image ++ rest, port := s.loader.port ++ takenToEnd rest ++ [.stop] }, ?_⟩
  simp only [exec, execImageComplete, if_pos hguard, hfault]

/-- Settles O11: the ranges row by row of the table; then each fault is `imageFault`'s, which ends the load. -/
theorem firstFailingCheckHalts : Obligations.FirstFailingCheckHalts := by
  unfold Obligations.FirstFailingCheckHalts
  refine ⟨fun img => ?_, fun rest x s hreading hheader hlength => ?_⟩
  · intro byte
    exact ⟨decide_eq_true_iff, decide_eq_true_iff, decide_eq_true_iff, decide_eq_true_iff, decide_eq_true_iff,
      decide_eq_true_iff, decide_eq_true_iff, decide_eq_true_iff, fieldOk_roster img, fun g hg => fieldOk_groups img hg,
      fun t ht => fieldOk_terms img ht, fun d hd => fieldOk_outputs img hd, rfl, decide_eq_true_iff⟩
  · intro port
    have hport : s.loader.port ++ takenToEnd rest ++ [.stop] = port := by
      rw [takenToEnd_eq_mapIdx, hlength]
      simp [port]
    have hends : ∀ f, imageFault (s.loader.image ++ rest) = some f →
        ∃ t, exec (.imageComplete rest x) s = .next t ∧ haltedWith f s t ∧ t.loader.port = port := by
      intro f hf
      obtain ⟨l, hexec⟩ := exec_badImage x hreading hheader hlength hf
      rw [hport] at hexec
      exact ⟨_, hexec, State.halt_haltedWith f port l s⟩
    refine ⟨fun hcheck => hends _ (imageFault_badCheck _ hcheck), fun hcheck =>
      ⟨fun i h2 h123 hbad hbelow => hends _ ?_, fun hfields hroster => hends _ ?_⟩⟩
    · exact imageFault_badValue _ hcheck (firstBadField_eq_some _ h2 h123 hbad hbelow)
    · exact imageFault_selfNotInRoster _ hcheck (firstBadField_eq_none _ hfields) hroster

end Sys2Proof.Machine
end

section
/-! The notice queue through every operation that raises notices: it takes pushes alone (R137, R138, R161, R181, R182). -/

namespace Sys2Proof.Machine

/-! ### A row of pushes (R182) -/

/-- From s to t notices were pushed, one after another, and none was removed (R182, R184). -/
def State.Pushes (s t : State) : Prop := ∃ ns : List Notice, t.notices = ns.foldl pushNotice s.notices

/-- A push removes nothing. -/
theorem length_le_pushNotice (q : List Notice) (n : Notice) : q.length ≤ (pushNotice q n).length := by
  rw [pushNotice]
  split
  · exact le_rfl
  · split <;> simp

theorem length_le_pushes (ns q : List Notice) : q.length ≤ (ns.foldl pushNotice q).length := by
  induction ns generalizing q with
  | nil => exact le_rfl
  | cons n ns ih => exact (length_le_pushNotice q n).trans (ih _)

theorem pushes_queueOk (ns : List Notice) {q : List Notice} (hq : queueOk q = true) :
    queueOk (ns.foldl pushNotice q) = true := by
  induction ns generalizing q with
  | nil => exact hq
  | cons n ns ih => exact ih (pushNotice_queueOk n hq)

theorem State.Pushes.refl (s : State) : s.Pushes s := ⟨[], rfl⟩

section
variable {s t u : State} (h : s.Pushes t)
include h

theorem State.Pushes.congr (hu : u.notices = t.notices) : s.Pushes u := by
  obtain ⟨ns, hns⟩ := h
  exact ⟨ns, hu.trans hns⟩

theorem State.Pushes.length_le : s.notices.length ≤ t.notices.length := by
  obtain ⟨ns, hns⟩ := h
  rw [hns]
  exact length_le_pushes ns _

theorem State.Pushes.noticesOk (hs : s.noticesOk = true) : t.noticesOk = true := by
  obtain ⟨ns, hns⟩ := h
  rw [State.noticesOk_eq, hns]
  exact pushes_queueOk ns hs

/-! ### The operations that raise notices -/

theorem State.Pushes.raise (k : NoticeKind) (n : Option Station) (i : Option (Fin 16)) (v : Option NoticeValue) :
    s.Pushes (t.raise k n i v) := by
  obtain ⟨ns, hns⟩ := h
  refine ⟨ns ++ [{ kind := k, stamp := t.ctrl.tick, station := n, term := i, value := v }], ?_⟩
  rw [List.foldl_append, ← hns]
  rfl

theorem State.Pushes.raiseStation (k : NoticeKind) (n : Station) : s.Pushes (t.raiseStation k n) := h.raise _ _ _ _

theorem State.Pushes.raiseTerm (k : NoticeKind) (i : Fin 16) : s.Pushes (t.raiseTerm k i) := h.raise _ _ _ _

theorem State.Pushes.raiseValue (k : NoticeKind) (v : NoticeValue) : s.Pushes (t.raiseValue k v) := h.raise _ _ _ _

/-- A row of operations, each of which pushes alone. -/
theorem State.Pushes.foldl {α : Type} {op : State → α → State} (hop : ∀ v a, s.Pushes v → s.Pushes (op v a))
    (l : List α) : s.Pushes (l.foldl op t) :=
  foldl_keeps_condition s.Pushes op hop l t h

/-! ### Evidence and presence (R6 to R9) -/

theorem State.Pushes.raiseHeard (n : Station) : s.Pushes (t.raiseHeard n) := by
  rw [State.raiseHeard]
  split
  · exact h.raiseStation _ _
  · exact (h.raiseStation _ _).raiseStation _ _

theorem State.Pushes.evidence (n : Station) : s.Pushes (t.evidence n) := by
  have hkept : ∀ f, s.Pushes (t.updateEntry n f) := fun f => h.congr rfl
  rw [State.evidence]
  split
  · exact (hkept _).raiseHeard n
  · exact hkept _
  · exact hkept _
  · exact (hkept _).raiseStation _ _
  · exact h

theorem State.Pushes.statePresence (n : Station) : s.Pushes (t.statePresence n) := by
  have hmoved : ∀ f, s.Pushes (t.updateEntry n f) := fun f => h.congr rfl
  simp only [State.statePresence]
  split
  · exact ((hmoved _).raiseHeard n).raiseStation _ _
  · exact (hmoved _).raiseStation _ _
  · exact hmoved _
  · exact (hmoved _).raiseStation _ _
  · exact h

/-! ### The evaluator's events (R132 to R140) -/

theorem State.Pushes.raiseChanges (old new : Vector TermFlags 16) : s.Pushes (t.raiseChanges old new) := by
  refine h.foldl (fun v i hv => ?_) _
  split
  · exact hv.raiseTerm _ _
  · exact hv.raiseTerm _ _
  · exact hv
  · exact hv

theorem State.Pushes.settleTerms (c : StationConfig) (new : Vector TermFlags 16) : s.Pushes (t.settleTerms c new) :=
  (h.congr (u := (t.setTerms { t.terms with flags := new }).moveOutputs (runningDrives c new)) rfl).raiseChanges _ _

theorem State.Pushes.tableChanged : s.Pushes t.tableChanged := by
  rw [State.tableChanged]
  split
  · exact h.settleTerms _ _
  · exact h

theorem State.Pushes.departureSeen (g : DepartureSignal) : s.Pushes (t.departureSeen g) := by
  rw [State.departureSeen]
  split
  · split
    · exact h.settleTerms _ _
    · exact h
  · exact h.congr rfl
  · exact h.congr rfl
  all_goals exact h

theorem State.Pushes.departuresSeen (gs : List DepartureSignal) : s.Pushes (t.departuresSeen gs) :=
  h.foldl (fun _ g hv => hv.departureSeen g) gs

theorem State.Pushes.raiseReleased (c : StationConfig) (m : ZoneMask) (n : Option Station)
    (old : Vector TermFlags 16) : s.Pushes (t.raiseReleased c m n old) := by
  refine h.foldl (fun v i hv => ?_) _
  split
  · split
    · exact hv.raise _ _ _ _
    · exact hv.raiseTerm _ _
  · exact hv

theorem State.Pushes.applyRelease (m : ZoneMask) (n : Option Station) : s.Pushes (t.applyRelease m n) := by
  rw [State.applyRelease]
  split
  · exact (h.congr (by simp)).raiseReleased _ _ _ _
  · exact h

theorem State.Pushes.localRelease (m : ZoneMask) : s.Pushes (t.localRelease m) :=
  (h.applyRelease m none).congr (State.localRelease_ends m t).notices

theorem State.Pushes.enterTerms : s.Pushes t.enterTerms := by
  rw [State.enterTerms]
  split
  · exact (h.congr (by simp)).raiseChanges _ _
  · exact h

theorem State.Pushes.clearTerms : s.Pushes t.clearTerms := by
  refine (h.congr ?_).raiseChanges _ _
  cases t.loader.config <;> rfl

/-! ### Changes of phase and of health (R113, R120, R122, R175, R178) -/

theorem State.Pushes.joinConcluded : s.Pushes t.joinConcluded := by
  rw [State.joinConcluded]
  split
  · have hentered : s.Pushes ((t.setCtrl { t.ctrl with phase := .running }).setSelfPhase .running) := h.congr rfl
    exact (hentered.raiseValue .phaseChanged (.phase .running)).enterTerms.congr (by simp)
  · exact h

theorem State.Pushes.declareConflict : s.Pushes t.declareConflict := by
  rw [State.declareConflict]
  split
  · have hnoticed := h.raiseStation .duplicateNumber t.ctrl.ownNumber
    have hentered : s.Pushes ((t.raiseStation .duplicateNumber t.ctrl.ownNumber).setCtrl
        { t.ctrl with phase := .conflict }) := hnoticed.congr rfl
    exact State.Pushes.clearTerms ((hentered.raiseValue .phaseChanged (.phase .conflict)).congr rfl)
  · exact h

theorem State.Pushes.changeHealth (new : Health) : s.Pushes (t.changeHealth new) := by
  rw [State.changeHealth]
  split
  · exact h
  · have hset : s.Pushes ((t.setHealth { t.health with state := new }).setSelfHealth new.reportCode) :=
      h.congr (by simp)
    exact (hset.raiseValue .healthChanged (.health new)).congr (by simp)

theorem State.Pushes.weighOutcome (o : FrameOutcome) : s.Pushes (t.weighOutcome o) := by
  have hweighed : s.Pushes (t.setHealth { t.health with garble := o.weigh t.health.garble }) := h.congr rfl
  exact hweighed.changeHealth _

theorem State.Pushes.sighting : s.Pushes t.sighting := by
  rw [State.sighting]
  split
  · exact h.congr rfl
  · exact (h.congr (by rfl)).declareConflict
  · exact h

/-! ### The slate takes an outcome (R81 to R85) -/

theorem State.Pushes.reportShort (x : Series) : s.Pushes (t.reportShort x) := by
  have hcounted : s.Pushes (t.setTable (countMisses (missingMap t.table x) t.table)) := h.congr rfl
  simp only [State.reportShort]
  split
  · exact hcounted
  · exact hcounted.raiseValue _ _

theorem State.Pushes.changeAttempt (heard : Option StationMap) : s.Pushes (t.changeAttempt heard) := by
  rw [State.changeAttempt]
  split
  · exact h
  · split
    · exact h.congr rfl
    · exact h.congr rfl
    · exact (h.reportShort _).congr rfl

theorem State.Pushes.releaseAttempt (heard : Option StationMap) : s.Pushes (t.releaseAttempt heard) := by
  rw [State.releaseAttempt]
  split
  · exact h
  · split
    · exact h.congr rfl
    · exact h.congr rfl
    · exact (h.reportShort _).congr rfl

/-- COMPLETED and ABORTED at the slate. -/
theorem State.Pushes.slateTakes (heard : Option StationMap) (k : Kind) : s.Pushes (t.slateTakes heard k) := by
  have hcleared : s.Pushes (t.setSlate { t.slate with join := false }) := h.congr rfl
  cases heard with
  | none =>
    cases k with
    | change => exact h.changeAttempt none
    | release => exact h.releaseAttempt none
    | join => exact hcleared.joinConcluded
    | refresh | resync => exact h.congr rfl
  | some m =>
    cases k with
    | change => exact (h.changeAttempt (some m)).congr (by simp [State.slateTakes, State.slateCompleted])
    | release => exact h.releaseAttempt (some m)
    | join => exact hcleared.joinConcluded
    | refresh | resync => exact h.congr rfl

/-! ### Ticks (R10, R86, R173 to R175) -/

theorem State.Pushes.ageTable : s.Pushes t.ageTable := by
  rw [State.ageTable]
  split
  · have haged : s.Pushes (stations.foldl (State.ageEntry t.silenceThreshold) t) := by
      refine h.foldl (fun v n hv => ?_) _
      have hkept : s.Pushes (v.updateEntry n (Entry.aged t.silenceThreshold)) := hv.congr rfl
      simp only [State.ageEntry]
      split
      · exact hkept.raiseStation _ _
      · exact hkept
    exact haged.tableChanged
  · exact h

theorem State.Pushes.judgeRefresh : s.Pushes t.judgeRefresh := h.congr (by simp)

theorem State.Pushes.listenTick : s.Pushes t.listenTick := by
  rw [State.listenTick]
  split
  · split
    · exact h.congr rfl
    · have hexpired : s.Pushes (t.setCtrl { t.ctrl with phase := .joining, listenCount := listenTicks }) := h.congr rfl
      exact (hexpired.raiseValue .phaseChanged (.phase .joining)).congr (by simp [State.listenExpired])
  · exact h

/-- A tick in any order. -/
theorem State.Pushes.refreshTicked (order : TickOrder) : s.Pushes (t.refreshTicked order) := by
  have hticked : s.Pushes t.countTick := h.congr rfl
  rcases order with ⟨_ | _, _ | _⟩
  · exact hticked.ageTable.judgeRefresh.listenTick
  · exact hticked.ageTable.listenTick.judgeRefresh
  · exact hticked.judgeRefresh.listenTick.ageTable
  · exact hticked.listenTick.ageTable.judgeRefresh

/-! ### An accepted frame (R13 to R24, R65, R145) -/

theorem State.Pushes.reportTaken (k : Kind) (n : Station) (q : Nibble) (content : ReportContent) :
    s.Pushes (t.reportTaken k n q content) := by
  have hstored : s.Pushes ((t.statePresence n).storeReport n q content) := (h.statePresence n).congr rfl
  have hkept : s.Pushes ((t.statePresence n).keepReport n) := (h.statePresence n).congr rfl
  have hgap : ∀ v, s.Pushes v → s.Pushes (v.sequenceGap n) := fun v hv => (hv.congr rfl).raiseStation .sequenceGap n
  simp only [State.reportTaken]
  split
  · exact hstored
  · next old _ =>
    cases (reportCase k q content old).stores with
    | true => split; exacts [hgap _ hstored, hstored]
    | false => split; exacts [hgap _ hkept, hkept]

theorem State.Pushes.acceptState {k : Kind} (hk : k = .change ∨ k = .refresh) (n : Station) (q : Nibble)
    (content : ReportContent) : s.Pushes (t.acceptState k n q content) := by
  rw [State.acceptState_eq hk]
  exact ((h.reportTaken k n q content).tableChanged.departuresSeen _).congr rfl

theorem State.Pushes.acceptJoin (n : Station) (payload : List Bool) : s.Pushes (t.acceptJoin n payload) := by
  have hjoined := ((h.evidence n).congr (u := (t.evidence n).updateEntry n (Entry.joined (joinFingerprint payload)
    (joinZones payload) (t.planAgrees payload))) rfl).raiseStation .peerJoined n
  have htaken : s.Pushes (t.joinTaken n payload) := by
    simp only [State.joinTaken]
    split
    · exact hjoined
    · exact hjoined.raiseStation _ _
  rw [State.acceptJoin_eq]
  exact (htaken.congr (u := (t.joinTaken n payload).countAccepted n) rfl).tableChanged.congr (by simp)

theorem State.Pushes.acceptResync (n : Station) : s.Pushes (t.acceptResync n) :=
  ((h.evidence n).congr (u := (t.evidence n).countAccepted n) rfl).tableChanged.congr (by simp [State.acceptResync])

theorem State.Pushes.acceptRelease (n : Station) (q : Nibble) (m : ZoneMask) : s.Pushes (t.acceptRelease n q m) := by
  obtain ⟨v, _, hnotices, htaken⟩ := State.acceptRelease_cases n q m t
  have hheard : s.Pushes (t.heardOnce n) := (h.evidence n).congr rfl
  have hchanged := (hheard.congr hnotices).tableChanged
  rw [htaken]
  split
  · exact hchanged.applyRelease _ _
  · exact hchanged

theorem State.Pushes.tableAccepts (f : ReceivedFrame) : s.Pushes (t.tableAccepts f) := by
  rw [State.tableAccepts]
  split
  · exact h.acceptState (.inl rfl) _ _ _
  · exact h.acceptState (.inr rfl) _ _ _
  · exact h.acceptJoin _ _
  · exact h.acceptResync _
  · exact h.acceptRelease _ _ _

/-! ### The ends of a frame (R62 to R64, R68, R120, R121) -/

theorem State.Pushes.judged (f : ReceivedFrame) : s.Pushes (t.judged f) := by
  rw [State.judged]
  split
  · exact ((h.congr (u := t.countOutcome .rejected) rfl).weighOutcome .rejected).congr rfl
  · exact h.declareConflict
  · exact (h.tableAccepts f).congr rfl

theorem State.Pushes.abort (k : Kind) : s.Pushes (t.abort k) := by
  have hcounted : s.Pushes (t.stopDriving.countOutcome .aborted) := h.congr rfl
  rw [State.abort_eq]
  exact ((hcounted.slateTakes none k).weighOutcome .aborted).congr rfl

theorem State.Pushes.abandon : s.Pushes t.abandon :=
  ((h.congr (u := t.countOutcome .abandoned) rfl).weighOutcome .abandoned).congr rfl

theorem State.Pushes.mapEvidence (m : StationMap) : s.Pushes (t.mapEvidence m) := by
  refine State.Pushes.tableChanged (h.foldl (fun v n hv => ?_) _)
  split
  · exact hv.evidence n
  · exact hv

theorem State.Pushes.closeFrame (f : Frame) (m : StationMap) : s.Pushes (t.closeFrame f m) := by
  have hcounted : ∀ o, s.Pushes ((t.mapEvidence (lessOwn t.ctrl.ownNumber m)).countOutcome o) :=
    fun _ => (h.mapEvidence _).congr rfl
  rw [State.closeFrame]
  split
  · next v _ =>
    have hweighed := ((hcounted .completed).slateTakes (some (lessOwn t.ctrl.ownNumber m)) v.slot).weighOutcome
      .completed
    simp only [State.senderClosed, State.completedWeighed]
    split
    · exact hweighed.sighting
    · exact hweighed
  · exact (hcounted .accepted).weighOutcome .accepted
  · exact h
  · exact h

/-! ### Loads and samples (R32, R42, R142, R169, R172) -/

theorem State.Pushes.halt (f : FaultCode) (port : List BusOp) : s.Pushes (t.halt f port) :=
  State.Pushes.raiseValue (h.congr rfl) _ _

theorem State.Pushes.validLoad (c : StationConfig) (port : List BusOp) (x : SenseSample) :
    s.Pushes (t.validLoad c port x) := by
  rw [State.validLoad]
  exact State.Pushes.raiseValue (h.congr (by simp)) _ _

theorem State.Pushes.sampleTaken (c : StationConfig) (x : SenseSample) : s.Pushes (t.sampleTaken c x) := by
  have hpublished : s.Pushes (t.published (t.watch.sampled c.groups x)) := by
    rcases t.published_cases (t.watch.sampled c.groups x) with ⟨_, hu⟩ | ⟨_, v, _, hv, hu⟩
    · rw [hu]
      exact h.congr rfl
    · rw [hu]
      exact (h.congr hv).tableChanged
  have hsignalled := hpublished.departuresSeen
    (signalsOf true (groupZones c) (departedGroups t.watch (t.watch.sampled c.groups x)))
  have hfiltered : s.Pushes ((t.announced c (t.watch.sampled c.groups x)).relFiltered (relActive x)) :=
    hsignalled.congr (by simp [State.relFiltered, State.announced])
  rw [State.sampleTaken_eq, State.relSampled_eq]
  split
  · exact hfiltered.localRelease _
  · exact hfiltered

end

end Sys2Proof.Machine
end

section
/-! What a command of another block does to TSEL, the tap port and the notice queue, and the statements that follow: the
port is out of its reach, and the queue only takes pushes (R182, R184, R185, R188, R199). -/

namespace Sys2Proof.Machine

/-! ### Outside the tap port -/

/-- From s to t TSEL, the port and its snapshot stood, and the queue took pushes alone. -/
structure OutsideTap (s t : State) : Prop where
  pins : t.pins = s.pins
  tap : t.tap = s.tap
  pushes : s.Pushes t

theorem OutsideTap.refl (s : State) : OutsideTap s s := ⟨rfl, rfl, .refl s⟩

/-- An operation that reaches neither port nor queue, before or after others. -/
theorem OutsideTap.congr {s t u : State} (h : OutsideTap s t)
    (hu : (u.pins, u.tap, u.notices) = (t.pins, t.tap, t.notices)) : OutsideTap s u := by
  simp only [Prod.mk.injEq] at hu
  obtain ⟨hpins, htap, hnotices⟩ := hu
  exact ⟨hpins.trans h.pins, htap.trans h.tap, h.pushes.congr hnotices⟩

theorem OutsideTap.of_views {s t : State} (h : (t.pins, t.tap, t.notices) = (s.pins, s.tap, s.notices)) :
    OutsideTap s t := (OutsideTap.refl s).congr h

/-- A command with one guard, that changes nothing where its event cannot happen (log 3). -/
theorem OutsideTap.of_guarded {p : Prop} [Decidable p] {s t u : State} (hu : OutsideTap s u)
    (h : (if p then .next u else .next s : Result) = .next t) : OutsideTap s t := by
  split at h
  · cases h; exact hu
  · cases h; exact .refl s

section
variable {s t : State} (h : OutsideTap s t)
include h

theorem OutsideTap.halt (f : FaultCode) (port : List BusOp) : OutsideTap s (t.halt f port) :=
  ⟨h.pins, h.tap, h.pushes.halt f port⟩

theorem OutsideTap.validLoad (c : StationConfig) (port : List BusOp) (x : SenseSample) :
    OutsideTap s (t.validLoad c port x) :=
  ⟨by simp [State.validLoad, h.pins], by simp [State.validLoad, h.tap], h.pushes.validLoad c port x⟩

theorem OutsideTap.sampleTaken (c : StationConfig) (x : SenseSample) : OutsideTap s (t.sampleTaken c x) :=
  ⟨by simp [h.pins], by simp [h.tap], h.pushes.sampleTaken c x⟩

theorem OutsideTap.refreshTicked (order : TickOrder) : OutsideTap s (t.refreshTicked order) :=
  ⟨by simp [h.pins], by simp [h.tap], h.pushes.refreshTicked order⟩

theorem OutsideTap.abort (k : Kind) : OutsideTap s (t.abort k) :=
  ⟨by simp [h.pins], by simp [h.tap], h.pushes.abort k⟩

theorem OutsideTap.abandon : OutsideTap s t.abandon := ⟨by simp [h.pins], by simp [h.tap], h.pushes.abandon⟩

theorem OutsideTap.judged (r : ReceivedFrame) : OutsideTap s (t.judged r) :=
  ⟨by simp [h.pins], by simp [h.tap], h.pushes.judged r⟩

theorem OutsideTap.closeFrame (f : Frame) (m : StationMap) : OutsideTap s (t.closeFrame f m) :=
  ⟨by simp [h.pins], by simp [h.tap], h.pushes.closeFrame f m⟩

end

/-! ### The commands of the other blocks -/

section
variable {s t : State}

theorem headerRead_outsideTap {n : Nat} {a b l r : Byte} (h : exec (.headerRead n a b l r) s = .next t) :
    OutsideTap s t := by
  simp only [exec, execHeaderRead] at h
  split at h
  · split at h
    · cases h; exact (OutsideTap.refl s).halt _ _
    · cases h; exact .of_views rfl
  · cases h; exact .refl s

theorem transportFailure_outsideTap {n : Nat} {f : BusFault} {read : List Byte}
    (h : exec (.transportFailure n f read) s = .next t) : OutsideTap s t := by
  simp only [exec, execTransportFailure] at h
  split at h
  · split at h
    · cases h; exact .of_views rfl
    · cases h; exact (OutsideTap.refl s).halt _ _
  · cases h; exact .refl s

theorem imageComplete_outsideTap {rest : List Byte} {x : SenseSample} (h : exec (.imageComplete rest x) s = .next t) :
    OutsideTap s t := by
  have hchecking : ∀ l, OutsideTap s (s.setLoader l) := fun _ => .of_views rfl
  simp only [exec, execImageComplete] at h
  split at h
  · split at h
    · cases h; exact (hchecking _).halt _ _
    · cases h; exact (hchecking _).validLoad _ _ x
  · cases h; exact .refl s

theorem sampleEvent_outsideTap {x : SenseSample} (h : exec (.sampleEvent x) s = .next t) : OutsideTap s t := by
  simp only [exec, execSampleEvent] at h
  split at h
  · next c _ _ => cases h; exact (OutsideTap.refl s).sampleTaken c x
  · cases h; exact .refl s

theorem contentionStart_outsideTap {gap : List BitPeriod} {edge : Option Int} {able : Nat}
    (h : exec (.contentionStart gap edge able) s = .next t) : OutsideTap s t := by
  simp only [exec, execContentionStart] at h
  split at h
  all_goals cases h; exact .of_views rfl

/-- The own frame lost, its key won or its last bit sent (R56, R57, R62). -/
theorem ownFrame_outsideTap {c : Instr} {bits : List BitPeriod}
    (hc : c = .keyLost bits ∨ c = .keyWon bits ∨ c = .lastCheckBitSent bits) (h : exec c s = .next t) :
    OutsideTap s t := by
  rcases hc with rfl | rfl | rfl
  all_goals
    simp only [exec, execKeyLost, execKeyWon, execLastCheckBitSent] at h
    split at h
    · exact .of_guarded (.of_views (by simp)) h
    · cases h; exact .refl s

theorem sendAborted_outsideTap {bits : List BitPeriod} (h : exec (.sendAborted bits) s = .next t) : OutsideTap s t := by
  have haborted : ∀ (u : State) (k : Kind), (u.pins, u.tap, u.notices) = (s.pins, s.tap, s.notices) →
      OutsideTap s (u.abort k) := fun u k hu => (OutsideTap.of_views hu).abort k
  simp only [exec, execSendAborted] at h
  split at h
  · split at h
    · cases h; exact haborted _ _ rfl
    · cases h; exact .refl s
  · split at h
    · cases h; exact haborted _ _ rfl
    · cases h; exact .refl s
  · cases h; exact .refl s

/-- The three commands that abandon a frame (R58, R106, R107). -/
theorem abandoning_outsideTap {c : Instr} {bits : List BitPeriod}
    (hc : c = .invalidKind bits ∨ c = .framingFault bits ∨ c = .stuckDominant bits) (h : exec c s = .next t) :
    OutsideTap s t := by
  have hfollowed : ∀ f q x, OutsideTap s (s.followed f bits q x) := fun _ _ _ => .of_views rfl
  rcases hc with rfl | rfl | rfl
  all_goals
    simp only [exec, execInvalidKind, execFramingFault, execStuckDominant] at h
    split at h
    · split at h
      · cases h; exact (hfollowed _ _ _).abandon
      · cases h; exact .refl s
    · cases h; exact .refl s

theorem frameReceived_outsideTap {bits : List BitPeriod} (h : exec (.frameReceived bits) s = .next t) :
    OutsideTap s t := by
  rcases execFrameReceived_cases h with rfl | ⟨r, f, x, _, _, rfl⟩
  · exact .refl _
  · have hfollowed : OutsideTap s (s.followed f bits .q4 x) := .of_views rfl
    exact hfollowed.judged r

theorem windowEnd_outsideTap {slots : List BitPeriod} (h : exec (.windowEnd slots) s = .next t) : OutsideTap s t := by
  simp only [exec, execWindowEnd] at h
  split at h
  · next f _ =>
    have hpassed : OutsideTap s (s.slotsPassed f slots) := .of_views rfl
    exact .of_guarded ((hpassed.closeFrame f (confirmMapOf slots)).congr (by simp [State.slotsPassed])) h
  · cases h; exact .refl s

/-- A command that is not the port's own, resets nothing and ends no reset leaves the port, and pushes alone. -/
theorem exec_outsideTap {c : Instr} (htap : isTapCommand c = false) (hreset : ¬ resets c s)
    (hend : ∀ x, c ≠ .resetEnd x) (h : exec c s = .next t) : OutsideTap s t := by
  cases c with
  | powerOnReset => exact absurd (.inl rfl) hreset
  | resetPin => exact absurd (.inr (.inl rfl)) hreset
  | resetEnd x => exact absurd rfl (hend x)
  | headerRead n a b l r => exact headerRead_outsideTap h
  | transportFailure n f read => exact transportFailure_outsideTap h
  | pauseEnd => exact .of_guarded (.of_views (by rfl)) h
  | imageComplete rest x => exact imageComplete_outsideTap h
  | sampleEvent x => exact sampleEvent_outsideTap h
  | refreshTick order | peerSilent n order | listenExpiry order =>
    exact .of_guarded ((OutsideTap.refl s).refreshTicked order) h
  | discardEnd gap | frameStart gap edge able => exact .of_guarded (.of_views (by rfl)) h
  | contentionStart gap edge able => exact contentionStart_outsideTap h
  | keyLost bits => exact ownFrame_outsideTap (.inl rfl) h
  | keyWon bits => exact ownFrame_outsideTap (.inr (.inl rfl)) h
  | lastCheckBitSent bits => exact ownFrame_outsideTap (.inr (.inr rfl)) h
  | sendAborted bits => exact sendAborted_outsideTap h
  | invalidKind bits => exact abandoning_outsideTap (.inl rfl) h
  | framingFault bits => exact abandoning_outsideTap (.inr (.inl rfl)) h
  | stuckDominant bits => exact abandoning_outsideTap (.inr (.inr rfl)) h
  | frameReceived bits => exact frameReceived_outsideTap h
  | windowEnd slots => exact windowEnd_outsideTap h
  | tselAssert | tselRelease | status | entry | terms | counters | peek | take | release | resync | restart
  | unknownRequest => cases htap

end

/-- Settles O47: a command of another block leaves the port. -/
theorem snapshotUntouchedByOtherEvents : Obligations.SnapshotUntouchedByOtherEvents := by
  unfold Obligations.SnapshotUntouchedByOtherEvents
  intro c s t h htap hreset hend
  exact (exec_outsideTap htap hreset hend h).tap

/-! ### The queue at the bits of a transaction (R188, R196) -/

section
variable {s t : State} (h : s.Pushes t)
include h

theorem State.Pushes.judgementPoint (code : Byte) (args : List Byte) : s.Pushes (t.judgementPoint code args) := by
  have heffect : ∀ r arg, s.Pushes (t.requestEffect r arg) := by
    intro r arg
    cases r with
    | release => exact h.localRelease arg
    | resync => exact h.congr (by simp [State.requestEffect])
    | status | entry | terms | counters | peek | take | restart | unknown => exact h
  simp only [State.judgementPoint]
  split
  · exact (heffect _ _).congr rfl
  · exact h.congr rfl

theorem State.Pushes.tapByte (b : Byte) : s.Pushes (t.tapByte b) := by
  rw [State.tapByte]
  split
  · split
    · exact h.congr rfl
    · exact h.judgementPoint _ _
  · exact h.judgementPoint _ _
  all_goals exact h

theorem State.Pushes.tapBit (b : Bool) : s.Pushes (t.tapBit b) := by
  have hcollect : s.Pushes (t.tapCollect b) := by
    simp only [State.tapCollect]
    split
    · exact h.tapByte _
    · exact h.congr rfl
  rw [State.tapBit]
  split
  · exact hcollect
  · exact hcollect
  · exact h.congr rfl
  all_goals exact h

theorem State.Pushes.tapBits (bits : List Bool) : s.Pushes (t.tapBits bits) :=
  h.foldl (fun _ b hv => hv.tapBit b) bits

end

/-! ### What a command does to the queue (R182, R184, R186, R189) -/

/-- A command pushes, empties the queue with a reset, or at a release of TSEL takes the oldest notice, after what the bits
before the release have pushed. -/
inductive QueueMoved (c : Instr) (s t : State) : Prop
  | pushed (queue : s.Pushes t)
  | reset (command : resets c s) (queue : t.notices = [])
  | removed (tsdi : List Bool) (command : c = .tselRelease tsdi) (u : State) (before : s.Pushes u)
      (queue : t.notices = u.notices.drop 1)

/-- Only an armed TAKE shifted out removes a notice (R184, R195). -/
theorem State.takeRemoval_notices (s : State) :
    s.takeRemoval.notices = s.notices ∨ s.takeRemoval.notices = s.notices.drop 1 := by
  rw [State.takeRemoval]
  split
  · exact .inr rfl
  · exact .inl rfl

theorem tselAssert_notices {s t : State} (h : exec .tselAssert s = .next t) : t.notices = s.notices := by
  simp only [exec, execTselAssert] at h
  split at h
  · cases h; rfl
  · split at h
    all_goals cases h; rfl

theorem resetEnd_notices {x : HeldSource} {s t : State} (h : exec (.resetEnd x) s = .next t) :
    t.notices = s.notices := by
  simp only [exec, execResetEnd] at h
  split at h
  · split at h
    all_goals cases h; rfl
  · cases h; rfl

theorem tselRelease_queue {tsdi : List Bool} {s t : State} (h : exec (.tselRelease tsdi) s = .next t) :
    QueueMoved (.tselRelease tsdi) s t := by
  have hbits : s.Pushes (s.tapBits tsdi) := (State.Pushes.refl s).tapBits tsdi
  simp only [exec, execTselRelease] at h
  split at h
  · next hsel =>
    cases h
    rw [State.endTransaction]
    split
    · next harmed => exact .reset (.inr (.inr ⟨tsdi, rfl, hsel, harmed⟩)) rfl
    · rcases (s.tapBits tsdi).takeRemoval_notices with hkept | hremoved
      · exact .pushed (hbits.congr hkept)
      · exact .removed tsdi rfl _ hbits hremoved
  · cases h; exact .pushed (.refl s)

/-- What each command does to the queue. -/
theorem exec_queueMoved {c : Instr} {s t : State} (h : exec c s = .next t) : QueueMoved c s t := by
  have htapped : ∀ bytes, s.Pushes (s.tapBytes bytes) := fun bytes => (State.Pushes.refl s).tapBits (bytesBits bytes)
  cases c with
  | powerOnReset => cases h; exact .reset (.inl rfl) rfl
  | resetPin => cases h; exact .reset (.inr (.inl rfl)) rfl
  | resetEnd x => exact .pushed ((State.Pushes.refl s).congr (resetEnd_notices h))
  | tselAssert => exact .pushed ((State.Pushes.refl s).congr (tselAssert_notices h))
  | tselRelease tsdi => exact tselRelease_queue h
  | status | entry n | terms | counters | peek | take | release mask | resync | restart =>
    cases h; exact .pushed (htapped _)
  | unknownRequest b =>
    simp only [exec, execUnknownRequest] at h
    split at h
    · cases h; exact .pushed (htapped [b])
    · cases h; exact .pushed (.refl s)
  | _ => exact .pushed (exec_outsideTap rfl (by simp [resets]) (by simp) h).pushes

/-- Every way in which a command moves the queue keeps its form (R182). -/
theorem QueueMoved.noticesOk {c : Instr} {s t : State} (h : QueueMoved c s t) (hs : s.noticesOk = true) :
    t.noticesOk = true := by
  cases h with
  | pushed queue => exact queue.noticesOk hs
  | reset _ queue => rw [State.noticesOk_eq, queue]; rfl
  | removed _ _ u before queue =>
    rw [State.noticesOk_eq, queue]
    exact drop_queueOk (before.noticesOk hs)

/-! ### ATN (R185) -/

theorem State.atn_iff (s : State) : s.atn = true ↔ s.notices ≠ [] := by simp [State.atn]

/-- ATN goes off with a reset, or with the removal of the one notice left (R184, R185, R186). -/
theorem QueueMoved.atn_off {c : Instr} {s t : State} (h : QueueMoved c s t) (hon : s.notices ≠ [])
    (hoff : t.notices = []) : resets c s ∨ (s.notices.length = 1 ∧ ∃ tsdi, c = .tselRelease tsdi) := by
  have hsome : 0 < s.notices.length := List.length_pos_iff.mpr hon
  cases h with
  | pushed queue =>
    have hle := queue.length_le
    rw [hoff, List.length_nil] at hle
    omega
  | reset command _ => exact .inl command
  | removed tsdi command u before queue =>
    have hle := before.length_le
    have hone : u.notices.length ≤ 1 := by rwa [hoff, eq_comm, List.drop_eq_nil_iff] at queue
    exact .inr ⟨by omega, tsdi, command⟩

/-- Settles O51: a push by its three cases; a command pushes, resets or removes one notice, each of which keeps the form, and
the last two alone can empty the queue. -/
theorem stepKeepsNoticeQueue : Obligations.StepKeepsNoticeQueue := by
  unfold Obligations.StepKeepsNoticeQueue
  refine ⟨fun _ _ => rfl, fun s t hs hstep => ?_⟩
  cases hpending : s.pending with
  | nil =>
    rw [step, hpending] at hstep
    cases hstep
    exact ⟨hs, s.atn_iff, fun hon hoff => Bool.noConfusion (hon.symm.trans hoff)⟩
  | cons c rest =>
    rw [step, hpending] at hstep
    have hmoved := exec_queueMoved hstep
    refine ⟨hmoved.noticesOk (State.noticesOk_of_notices rfl hs), t.atn_iff, fun hon hoff => ⟨c, rest, rfl, ?_⟩⟩
    have hempty : t.notices = [] := by
      by_contra hne
      exact Bool.noConfusion (hoff.symm.trans (t.atn_iff.mpr hne))
    exact hmoved.atn_off (s.atn_iff.mp hon) hempty

end Sys2Proof.Machine
end

section
/-! The tap port's transaction: TSEL's assertion, the condition on the port, and what every command leaves of it (R187,
R188, R199; log 25). -/

namespace Sys2Proof.Machine

/-! ### TSEL asserted (R187, R199; log 25) -/

/-- The level alone is taken while a reset is held. -/
theorem exec_tselAssert_held {s : State} (hsel : s.pins.tsel = false) (hheld : s.inReset = true) :
    exec .tselAssert s = .next (s.setPins { s.pins with tsel := true }) := by
  simp [exec, execTselAssert, hsel, hheld]

/-- From IDLE a transaction begins. -/
theorem exec_tselAssert_idle {s : State} (hsel : s.pins.tsel = false) (hidle : s.tap.state = .idle)
    (hfree : s.inReset = false) :
    exec .tselAssert s =
      .next ((s.setPins { s.pins with tsel := true }).setTap { Tap.noTransaction with state := .request }) := by
  simp [exec, execTselAssert, hsel, hidle, hfree]

theorem changesOnly_setPins (pins : Pins) (s : State) : changesOnly [.pins] s (s.setPins pins) := by
  intro b hb
  cases b <;> simp_all [sameBlock]

/-- Settles O43: while a reset is held the pins alone change; else the port takes an empty transaction. -/
theorem tselAssertBeginsTransaction : Obligations.TselAssertBeginsTransaction := by
  unfold Obligations.TselAssertBeginsTransaction
  intro s hsel hidle
  by_cases hheld : s.inReset = true
  · refine ⟨_, exec_tselAssert_held hsel hheld, rfl, ?_⟩
    rw [if_pos hheld]
    exact changesOnly_setPins _ s
  · refine ⟨_, exec_tselAssert_idle hsel hidle (by simpa using hheld), rfl, ?_⟩
    rw [if_neg hheld]
    exact ⟨(changesOnly_setPins _ s).trans (changesOnly_setTap _ _), rfl⟩

/-! ### The condition on the port -/

/-- A transaction record in form: a response exactly in RESPONSE, no more of it counted than it has bits, and only there
anything armed (R188). -/
structure Tap.InForm (p : Tap) : Prop where
  snapshot : p.response.isSome = true ↔ p.state = .response
  counted : p.clocked ≤ p.responseBits.length
  armed : p.state = .response ∨ (p.takeArmed = false ∧ p.restartArmed = false)

/-- A transaction is open only with TSEL asserted and no reset held (R187, R199). -/
def State.tapSelected (s : State) : Prop := s.tap.state = .idle ∨ (s.pins.tsel = true ∧ s.inReset = false)

theorem State.tapOk_iff (s : State) : s.tapOk = true ↔ s.tapSelected ∧ s.tap.InForm := by
  have hform : s.tap.InForm ↔
      (s.tap.response.isSome = true ↔ s.tap.state = .response) ∧ s.tap.clocked ≤ s.tap.responseBits.length ∧
        (s.tap.state = .response ∨ (s.tap.takeArmed = false ∧ s.tap.restartArmed = false)) :=
    ⟨fun h => ⟨h.snapshot, h.counted, h.armed⟩, fun ⟨hsnapshot, hcounted, harmed⟩ => ⟨hsnapshot, hcounted, harmed⟩⟩
  have hsnapshot : s.tap.response.isSome = decide (s.tap.state = .response) ↔
      (s.tap.response.isSome = true ↔ s.tap.state = .response) := by
    rw [Bool.eq_iff_iff, decide_eq_true_iff]
  rw [hform, State.tapSelected, or_comm]
  simp [State.tapOk, and_assoc, hsnapshot]

/-- States alike in pins and port meet the condition together. -/
theorem State.tapOk_congr {s t : State} (hpins : t.pins = s.pins) (htap : t.tap = s.tap) (hs : s.tapOk = true) :
    t.tapOk = true := by
  rwa [State.tapOk, State.inReset, hpins, htap]

/-- A record with no response counts and arms nothing. -/
theorem Tap.InForm.of_waiting {p : Tap} (hstate : p.state ≠ .response) (hresponse : p.response = none)
    (hclocked : p.clocked = 0) (harmed : p.takeArmed = false ∧ p.restartArmed = false) : p.InForm where
  snapshot := by simp [hresponse, hstate]
  counted := by rw [hclocked]; exact Nat.zero_le _
  armed := .inr harmed

/-- Before the judgement point a record in form holds no response, counts nothing and arms nothing. -/
theorem Tap.InForm.waiting {p : Tap} (h : p.InForm) (hstate : p.state ≠ .response) :
    p.response = none ∧ p.clocked = 0 ∧ p.takeArmed = false ∧ p.restartArmed = false := by
  have hresponse : p.response = none := by
    rw [← Option.not_isSome_iff_eq_none, h.snapshot]
    exact hstate
  have hcounted := h.counted
  rw [Tap.responseBits, hresponse] at hcounted
  exact ⟨hresponse, Nat.le_zero.mp hcounted, h.armed.resolve_left hstate⟩

/-- A port with no transaction meets the condition, whatever the pins. -/
theorem State.tapOk_of_noTransaction {s : State} (h : s.tap = Tap.noTransaction) : s.tapOk = true := by
  rw [State.tapOk_iff, State.tapSelected, h]
  exact ⟨.inl rfl, .of_waiting (by decide) rfl rfl ⟨rfl, rfl⟩⟩

/-! ### The bits of a transaction (R187, R188) -/

section
variable {s : State} (hs : s.tapOk = true)
include hs

/-- At the judgement point of an open transaction the snapshot is taken, none of it clocked out (R188). -/
theorem State.judgementPoint_tapOk (hopen : s.tap.state ≠ .idle) (code : Byte) (args : List Byte) :
    (s.judgementPoint code args).tapOk = true := by
  have hselected := ((s.tapOk_iff).mp hs).1.resolve_left hopen
  rw [State.tapOk_iff, State.tapSelected, State.judgementPoint_tap]
  exact ⟨.inr (by simpa [State.inReset] using hselected), by simp, Nat.zero_le _, .inl rfl⟩

/-- Before it the record may take bits and move on within the request (R187). -/
theorem State.setTap_tapOk (hopen : s.tap.state ≠ .idle) (hwaits : s.tap.state ≠ .response) {p : Tap}
    (hstate : p.state ≠ .response)
    (hkept : (p.response, p.clocked, p.takeArmed, p.restartArmed) =
      (s.tap.response, s.tap.clocked, s.tap.takeArmed, s.tap.restartArmed)) : (s.setTap p).tapOk = true := by
  obtain ⟨hselected, hform⟩ := (s.tapOk_iff).mp hs
  simp only [Prod.mk.injEq] at hkept
  obtain ⟨hresponse, hclocked, htake, hrestart⟩ := hkept
  obtain ⟨hnone, hzero, hnotake, hnorestart⟩ := hform.waiting hwaits
  exact (State.tapOk_iff _).mpr ⟨.inr (hselected.resolve_left hopen),
    .of_waiting hstate (hresponse.trans hnone) (hclocked.trans hzero)
      ⟨htake.trans hnotake, hrestart.trans hnorestart⟩⟩

theorem State.tapByte_tapOk (b : Byte) : (s.tapByte b).tapOk = true := by
  rw [State.tapByte]
  split
  · next hstate =>
    split
    · exact State.setTap_tapOk hs (by simp [hstate]) (by simp [hstate]) (by simp) rfl
    · exact State.judgementPoint_tapOk hs (by simp [hstate]) _ _
  · next hstate => exact State.judgementPoint_tapOk hs (by simp [hstate]) _ _
  all_goals exact hs

theorem State.tapCollect_tapOk (hopen : s.tap.state ≠ .idle) (hwaits : s.tap.state ≠ .response) (b : Bool) :
    (s.tapCollect b).tapOk = true := by
  simp only [State.tapCollect]
  split
  · exact State.tapByte_tapOk hs _
  · exact State.setTap_tapOk hs hopen hwaits hwaits rfl

/-- Counting stops at the response's length (R188). -/
theorem State.tapBit_tapOk (b : Bool) : (s.tapBit b).tapOk = true := by
  rw [State.tapBit]
  split
  · next hstate => exact State.tapCollect_tapOk hs (by simp [hstate]) (by simp [hstate]) b
  · next hstate => exact State.tapCollect_tapOk hs (by simp [hstate]) (by simp [hstate]) b
  · obtain ⟨hselected, hform⟩ := (s.tapOk_iff).mp hs
    exact (State.tapOk_iff _).mpr ⟨hselected, hform.snapshot, Nat.min_le_right _ _, hform.armed⟩
  all_goals exact hs

theorem State.tapBits_tapOk (bits : List Bool) : (s.tapBits bits).tapOk = true :=
  foldl_keeps_condition (fun s => s.tapOk = true) _ (fun _ b h => State.tapBit_tapOk h b) bits s hs

/-! ### The commands -/

theorem tselAssert_tapOk {t : State} (h : exec .tselAssert s = .next t) : t.tapOk = true := by
  obtain ⟨hselected, hform⟩ := (s.tapOk_iff).mp hs
  simp only [exec, execTselAssert] at h
  split at h
  · cases h; exact hs
  · next hsel =>
    have hidle : s.tap.state = .idle := hselected.resolve_right (fun h => hsel h.1)
    split at h
    · cases h; exact (State.tapOk_iff _).mpr ⟨.inl hidle, hform⟩
    · next hfree =>
      cases h
      have hfree : s.inReset = false := by simpa [hidle] using hfree
      exact (State.tapOk_iff _).mpr ⟨.inr ⟨rfl, hfree⟩, .of_waiting (by simp) rfl rfl ⟨rfl, rfl⟩⟩

/-- TSEL's release ends the transaction, with a reset or without (R189). -/
theorem tselRelease_tapOk {tsdi : List Bool} {t : State} (h : exec (.tselRelease tsdi) s = .next t) :
    t.tapOk = true := by
  simp only [exec, execTselRelease] at h
  split at h
  · cases h
    refine State.tapOk_of_noTransaction ?_
    rw [State.endTransaction]
    split <;> rfl
  · cases h; exact hs

/-- The end of one hold with another in force leaves the port IDLE; the last leaves it IDLE, or in WAIT_RELEASE with TSEL
asserted (R163, R199). -/
theorem resetEnd_tapOk {x : HeldSource} {t : State} (h : exec (.resetEnd x) s = .next t) : t.tapOk = true := by
  obtain ⟨hselected, hform⟩ := (s.tapOk_iff).mp hs
  simp only [exec, execResetEnd] at h
  split at h
  · next hholds =>
    have hheld : s.inReset = true := by
      cases x <;> simp_all [Pins.holds, State.inReset]
    have hidle : s.tap.state = .idle := hselected.resolve_right (by simp [hheld])
    split at h
    · cases h; exact (State.tapOk_iff _).mpr ⟨.inl hidle, hform⟩
    · next hfree =>
      cases h
      cases hsel : s.pins.tsel with
      | false => exact State.tapOk_of_noTransaction rfl
      | true =>
        have hkept : (s.pins.unhold x).tsel = true := by cases x <;> exact hsel
        have hwaits : (Tap.atResetEnd true).InForm := .of_waiting (by decide) rfl rfl ⟨rfl, rfl⟩
        have hended : (s.setPins (s.pins.unhold x)).inReset = false := Bool.eq_false_iff.mpr hfree
        exact (State.tapOk_iff _).mpr ⟨.inr ⟨hkept, hended⟩, hwaits⟩
  · cases h; exact hs

/-- Every command keeps the port consistent: a reset ends its transaction, its own commands move it on, and no other
reaches it (R187, R188, R199). -/
theorem exec_tapOk {c : Instr} {t : State} (h : exec c s = .next t) : t.tapOk = true := by
  cases c with
  | powerOnReset | resetPin => cases h; exact State.tapOk_of_noTransaction rfl
  | resetEnd x => exact resetEnd_tapOk hs h
  | tselAssert => exact tselAssert_tapOk hs h
  | tselRelease tsdi => exact tselRelease_tapOk hs h
  | status | entry n | terms | counters | peek | take | release mask | resync | restart =>
    cases h; exact State.tapBits_tapOk hs _
  | unknownRequest b =>
    simp only [exec, execUnknownRequest] at h
    split at h
    · cases h; exact State.tapBits_tapOk hs _
    · cases h; exact hs
  | _ =>
    have houtside := exec_outsideTap rfl (by simp [resets]) (by simp) h
    exact State.tapOk_congr houtside.pins houtside.tap hs

end

/-- Settles O60: the condition speaks of pins and port alone, and every command keeps it. -/
theorem stepKeepsTapConsistent : Obligations.StepKeepsTapConsistent := by
  unfold Obligations.StepKeepsTapConsistent
  intro s t hs hstep
  rcases step_cases hstep with rfl | ⟨c, rest, h⟩
  · exact hs
  · have hqueue : (s.setPending rest).tapOk = true := State.tapOk_congr rfl rfl hs
    exact exec_tapOk hqueue h

end Sys2Proof.Machine
end

section
/-! The requests without an argument: every response byte by byte, and the response on TSDO bit by bit (R188, R190 to R195,
R197, R198, R203, R204). -/

namespace Sys2Proof.Machine

/-! ### The layouts (R191, R193 to R195, R197, R204) -/

theorem State.statusContent_eq (s : State) : s.statusContent = s.statusLayout := by
  rw [State.statusContent, State.statusLayout, word16Bytes_eq, word16Bytes_eq, List.append_assoc]
  cases s.ctrl.fingerprint <;> rfl

/-- A row, as its numbers index it. -/
theorem toList_eq_map_finRange {α : Type} {n : Nat} (v : Vector α n) :
    v.toList = (List.finRange n).map (fun i => v[i]) :=
  List.ext_getElem (by simp) (fun _ _ _ => by simp)

theorem termBytes_eq (flags : Vector TermFlags 16) (f : TermFlags → Bool) :
    termBytes flags f = packedTerms (fun i => f flags[i]) := by
  rw [termBytes, toList_eq_map_finRange]
  exact congrArg₂ (fun a b => [a, b]) (byteOfBits_packed ..) (byteOfBits_packed ..)

/-- Four drives in a byte, two bits each. -/
theorem byteOfBits_drives (a b c d : Drive) :
    byteOfBits ([a, b, c, d].flatMap (fun x => natBits 2 x.code.toNat)) =
      (a.code.setWidth 8 <<< 6) ||| (b.code.setWidth 8 <<< 4) ||| (c.code.setWidth 8 <<< 2) ||| d.code.setWidth 8 := by
  have hcodes : ∀ p q r s : BitVec 2,
      byteOfBits ([p, q, r, s].flatMap (fun x => natBits 2 x.toNat)) =
        (p.setWidth 8 <<< 6) ||| (q.setWidth 8 <<< 4) ||| (r.setWidth 8 <<< 2) ||| s.setWidth 8 := by decide
  exact hcodes a.code b.code c.code d.code

theorem driveBytes_eq (outputs : Vector Drive 8) :
    driveBytes outputs =
      let drive := fun d : Fin 8 => outputs[d].code.setWidth 8
      [(drive 7 <<< 6) ||| (drive 6 <<< 4) ||| (drive 5 <<< 2) ||| drive 4,
        (drive 3 <<< 6) ||| (drive 2 <<< 4) ||| (drive 1 <<< 2) ||| drive 0] := by
  rw [driveBytes, toList_eq_map_finRange]
  exact congrArg₂ (fun a b => [a, b]) (byteOfBits_drives ..) (byteOfBits_drives ..)

theorem State.termsContent_eq (s : State) : s.termsContent = s.termsLayout := by
  rw [State.termsContent, State.termsLayout, termBytes_eq, termBytes_eq, termBytes_eq, driveBytes_eq]
  rfl

theorem mapBytes_eq (m : StationMap) :
    mapBytes m = [(m >>> 24).setWidth 8, (m >>> 16).setWidth 8, (m >>> 8).setWidth 8, m.setWidth 8] := by
  simp only [mapBytes, BitVec.setWidth_ushiftRight_eq_extractLsb]
  rw [BitVec.setWidth_eq_extractLsb' (by decide)]

theorem Notice.content_eq (n : Notice) : n.content = noticeLayout n := by
  rw [Notice.content, noticeLayout, byteOfBits_packed, word16Bytes_eq]
  refine congrArg₂ _ (congrArg₂ _ rfl ?place) ?value
  case place => cases n.station <;> cases n.term <;> rfl
  case value =>
    rcases n.value with _ | (_ | _ | _ | m)
    case some.map => exact congrArg _ (mapBytes_eq m)
    all_goals rfl

theorem StationCounters.content_eq (c : StationCounters) :
    c.content = highLow c.completed ++ highLow c.aborted ++ highLow c.lost ++ highLow c.accepted ++
      highLow c.rejected ++ highLow c.abandoned := by
  simp only [StationCounters.content, word16Bytes_eq]

/-- RESYNC is answered OK in RUNNING alone (R190). -/
theorem State.judgeRequest_resync (arg : Byte) (s : State) :
    s.judgeRequest .resync arg = .ok ↔ s.ctrl.phase = .running := by
  cases hphase : s.ctrl.phase <;> simp [State.judgeRequest, Phase.serves, hphase]

/-- What follows OK is the layout of the request (R191 to R198). -/
theorem State.okContent_eq {r : Request} {arg : Byte} {s : State} (hok : s.judgeRequest r arg = .ok) :
    s.okContent r arg = s.responseLayout r arg := by
  cases r with
  | status => exact s.statusContent_eq
  | entry => exact Entry.content_eq _ _
  | terms => exact s.termsContent_eq
  | counters => exact s.engine.counters.content_eq
  | peek | take =>
    simp only [State.okContent, State.responseLayout]
    cases s.notices with
    | nil => rfl
    | cons n rest => exact n.content_eq
  | resync =>
    have hrun := (s.judgeRequest_resync arg).mp hok
    have htakes : s.takes .resync = decide (s.health.state ≠ .withdrawn) := by simp [State.takes, takesKind, hrun]
    simp only [State.okContent, State.responseLayout, htakes, boolByte, decide_eq_true_eq, ite_not]
  | release | restart | unknown => rfl

/-- The response is the answer of the statements (R188, R190). -/
theorem State.response_eq_answerTo (r : Request) (arg : Byte) (s : State) : s.response r arg = s.answerTo r arg := by
  simp only [State.response, State.answerTo, State.judgeRequest_code, State.statusByte_eq_zero_iff]
  split
  · next hok => rw [State.okContent_eq hok]
  · rfl

/-! ### Their lengths (11_formats.md, the table of requests) -/

theorem noticeLayout_length (n : Notice) : (noticeLayout n).length = 11 := by
  rcases n with ⟨_, _, _, _, _ | (_ | _ | _ | _)⟩ <;> rfl

theorem State.statusLayout_length (s : State) : s.statusLayout.length = 13 := by
  rw [State.statusLayout]
  cases s.ctrl.fingerprint <;> rfl

/-- The notice that PEEK and TAKE answered OK return (R195). -/
theorem State.exists_notice_of_ok {r : Request} {arg : Byte} {s : State} (hr : r = .peek ∨ r = .take)
    (hok : s.statusByte r arg = 0) : ∃ n rest, s.notices = n :: rest := by
  refine List.exists_cons_of_ne_nil (fun hempty => ?_)
  rcases hr with rfl | rfl
  all_goals
    cases hphase : s.ctrl.phase
    all_goals
      simp only [State.statusByte, hphase, hempty] at hok
      exact absurd hok (by decide)

/-- A response answered OK has the length of its row (R191 to R198). -/
theorem State.answerTo_length {r : Request} {arg : Byte} {s : State} (hok : s.statusByte r arg = 0) :
    (s.answerTo r arg).length = r.okLength := by
  rw [State.answerTo, if_pos hok, List.length_cons]
  cases r with
  | status => exact congrArg Nat.succ s.statusLayout_length
  | entry => exact congrArg Nat.succ (entryLayout_length _ _)
  | peek =>
    obtain ⟨n, rest, hnotices⟩ := State.exists_notice_of_ok (.inl rfl) hok
    simp only [State.responseLayout, hnotices, noticeLayout_length]
    rfl
  | take =>
    obtain ⟨n, rest, hnotices⟩ := State.exists_notice_of_ok (.inr rfl) hok
    simp only [State.responseLayout, hnotices, noticeLayout_length]
    rfl
  | terms | counters | resync | release | restart | unknown => rfl

/-! ### The judgement of a request without an argument (R188, R190) -/

/-- The named requests take no argument (R187). -/
theorem takesArgument_of_codeNames {code : Byte} {r : Request} (h : codeNames code r) : r.takesArgument = false := by
  rcases h with ⟨_, rfl⟩ | ⟨_, rfl⟩ | ⟨_, rfl⟩ | ⟨_, rfl⟩ | ⟨_, rfl⟩ | ⟨_, rfl⟩ | ⟨_, rfl⟩ | ⟨_, rfl⟩ <;> rfl

/-- None of them is RELEASE. -/
theorem ne_release_of_codeNames {code : Byte} {r : Request} (h : codeNames code r) : r ≠ .release :=
  fun hr => Bool.noConfusion ((congrArg Request.takesArgument hr).symm.trans (takesArgument_of_codeNames h))

/-- The byte of a request without an argument brings it to the judgement point (R187, R188). -/
theorem State.tapBytes_judged {code : Byte} {s : State} (hstate : s.tap.state = .request) (hbits : s.tap.bitsIn = [])
    (hargument : (requestOfByte code).takesArgument = false) : s.tapBytes [code] = s.judgementPoint code [] := by
  have hrow : s.tap.bitsIn ++ bytesBits [code] = byteBits code ++ [] := by simp [hbits, bytesBits]
  exact State.tapBits_judged hstate (by simp [hbits]) hrow hargument

/-- The command of a request sends its byte. -/
theorem exec_request {c : Instr} {code : Byte} {r : Request} (s : State) (hcode : codeNames code r)
    (hc : c = .status ∧ r = .status ∨ c = .terms ∧ r = .terms ∨ c = .counters ∧ r = .counters ∨ c = .peek ∧ r = .peek ∨
      c = .take ∧ r = .take ∨ c = .resync ∧ r = .resync ∨ c = .restart ∧ r = .restart ∨
      c = .unknownRequest code ∧ r = .unknown) : exec c s = .next (s.tapBytes [code]) := by
  have hnamed := requestOfByte_of_codeNames hcode
  rcases hcode with ⟨rfl, rfl⟩ | ⟨rfl, rfl⟩ | ⟨rfl, rfl⟩ | ⟨rfl, rfl⟩ | ⟨rfl, rfl⟩ | ⟨rfl, rfl⟩ | ⟨rfl, rfl⟩ | ⟨_, rfl⟩
  all_goals
    simp only [reduceCtorEq, and_false, and_true, or_false, false_or] at hc
    subst hc
  case inr.inr.inr.inr.inr.inr.inr => exact if_pos hnamed
  all_goals rfl

/-- The port after the judgement, in the words of the statement (R188, R195, R198). -/
theorem State.judgementPoint_answers {code : Byte} {r : Request} (s : State) (hr : requestOfByte code = r) :
    (s.judgementPoint code []).tap =
      { state := .response, request := some code, args := [], bitsIn := [], response := some (s.answerTo r 0),
        clocked := 0, takeArmed := decide (r = .take ∧ s.statusByte r 0 = 0),
        restartArmed := decide (r = .restart ∧ s.statusByte r 0 = 0) } := by
  subst hr
  have harms : ∀ x, (decide (s.judgeRequest (requestOfByte code) 0 = .ok) && decide (requestOfByte code = x)) =
      decide (requestOfByte code = x ∧ s.statusByte (requestOfByte code) 0 = 0) := by
    intro x
    rw [Bool.eq_iff_iff, Bool.and_eq_true, decide_eq_true_iff, decide_eq_true_iff, decide_eq_true_iff, and_comm,
      State.statusByte_eq_zero_iff]
  rw [State.judgementPoint_tap, List.getLastD_nil, State.response_eq_answerTo, harms, harms]

/-- RESYNC's request reaches the slate, in RUNNING and unless WITHDRAWN; no other request reaches any block but the port
(R75, R188, R197). -/
theorem State.judgementPoint_reaches {code : Byte} {r : Request} (s : State) (hr : requestOfByte code = r)
    (hrelease : r ≠ .release) :
    changesOnly (if r = .resync then [.tap, .slate] else [.tap]) s (s.judgementPoint code []) ∧
      (r = .resync → (s.judgementPoint code []).slate = { s.slate with
        resync := s.slate.resync || decide (s.ctrl.phase = .running ∧ s.health.state ≠ .withdrawn) }) := by
  subst hr
  by_cases hasked : requestOfByte code = .resync ∧ s.judgeRequest .resync 0 = .ok
  · obtain ⟨hresync, hok⟩ := hasked
    obtain ⟨hchanges, hslate⟩ := State.judgementPoint_resync (args := []) hresync hok
    have hrun := (s.judgeRequest_resync 0).mp hok
    rw [if_pos hresync]
    exact ⟨hchanges, fun _ => by rw [hslate]; simp [hrun]⟩
  · have hquiet := State.judgementPoint_quiet (code := code) (args := []) (s := s)
      (fun h => hasked ⟨h.1, by rw [← h.1]; exact h.2⟩) (fun h => hrelease h.1)
    refine ⟨hquiet.mono (by split <;> simp), fun hresync => ?_⟩
    have hrun : s.ctrl.phase ≠ .running := fun h => hasked ⟨hresync, (s.judgeRequest_resync 0).mpr h⟩
    have hkept : (s.judgementPoint code []).slate = s.slate := hquiet .slate (by simp)
    rw [hkept]
    simp [hrun]

/-! ### TSDO (R188, R203) -/

/-- A byte's bits, most significant first. -/
theorem byteBits_getD (b : Byte) (d : Bool) {j : Nat} (hj : j < 8) : (byteBits b).getD j d = b.getLsbD (7 - j) := by
  rw [byteBits, natBits_toNat, List.getD_eq_getElem _ _ (by simpa using hj)]
  simp

/-- Bit k of a run of bytes: bit k mod 8, from the most significant, of byte k div 8 (R203). -/
theorem bytesBits_getD (bytes : List Byte) (d : Bool) (k : Nat) :
    (bytesBits bytes).getD k d =
      if k < 8 * bytes.length then (bytes.getD (k / 8) 0).getLsbD (7 - k % 8) else d := by
  induction bytes generalizing k with
  | nil => rfl
  | cons b bytes ih =>
    have hrow : bytesBits (b :: bytes) = byteBits b ++ bytesBits bytes := rfl
    rw [hrow, List.length_cons]
    by_cases hk : k < 8
    · rw [List.getD_append _ _ _ _ (by simpa using hk), byteBits_getD b d hk, if_pos (by omega),
        Nat.div_eq_of_lt hk, Nat.mod_eq_of_lt hk]
      rfl
    · obtain ⟨j, rfl⟩ := Nat.exists_eq_add_of_le' (Nat.le_of_not_lt hk)
      rw [List.getD_append_right _ _ _ _ (by simp), byteBits_length, Nat.add_sub_cancel, ih,
        Nat.add_div_right j (by decide), Nat.add_mod_right, List.getD_cons_succ]
      exact if_congr (by omega) rfl rfl

/-- Before the judgement point TSDO carries the fill value (R188). -/
theorem State.tsdo_request {s : State} (hstate : s.tap.state = .request) (hsel : s.pins.tsel = true)
    (hfree : s.inReset = false) : s.tsdo = some true := by
  simp [State.tsdo, hsel, hfree, hstate]

/-- After it, with some bits clocked, the next bit of the response, and the fill value past its end (R188, R203). -/
theorem State.tapBits_tsdo {s : State} {response : List Byte} (clocked : List Bool) (hstate : s.tap.state = .response)
    (hresponse : s.tap.response = some response) (hzero : s.tap.clocked = 0) (hsel : s.pins.tsel = true)
    (hfree : s.inReset = false) :
    (s.tapBits clocked).tsdo = some (
      if clocked.length < 8 * response.length then
        (response.getD (clocked.length / 8) 0).getLsbD (7 - clocked.length % 8)
      else true) := by
  have hbits : s.tap.responseBits = bytesBits response := by rw [Tap.responseBits, hresponse, Option.getD_some]
  obtain ⟨n, hrow, hcount⟩ := State.tapBits_response clocked hstate
  rw [hbits, bytesBits_length, hzero, Nat.zero_add] at hcount
  have hn := hcount (Nat.zero_le _)
  have hshown : (s.tapBits clocked).tsdo = some ((bytesBits response).getD n true) := by
    have hdriven : ¬ (s.pins.tsel = false ∨ s.inReset = true) := by simp [hsel, hfree]
    rw [← hbits, hrow]
    refine (if_neg hdriven).trans ?_
    simp only [State.setTap_tap, hstate]
    rfl
  rw [hshown, bytesBits_getD, hn]
  by_cases hlt : clocked.length < 8 * response.length
  · rw [Nat.min_eq_left hlt.le]
  · rw [Nat.min_eq_right (Nat.le_of_not_lt hlt), if_neg (Nat.lt_irrefl _), if_neg hlt]

/-- Settles O44: the request's byte brings it to the judgement point, whose answer has the layouts' bytes; the bits clocked
after it walk through them. -/
theorem requestsAnsweredByPhase : Obligations.RequestsAnsweredByPhase := by
  unfold Obligations.RequestsAnsweredByPhase
  refine ⟨⟨rfl, rfl, fun _ => ⟨rfl, rfl⟩, rfl, rfl, rfl, rfl⟩, fun c code r s hstate hbits hcode hc =>
    ⟨State.answerTo_length, s.judgementPoint code [], ?_⟩⟩
  have hr := requestOfByte_of_codeNames hcode
  have hport := s.judgementPoint_answers hr
  obtain ⟨hchanges, hslate⟩ := s.judgementPoint_reaches hr (ne_release_of_codeNames hcode)
  refine ⟨?_, hchanges, hport, fun hsel hfree => ⟨State.tsdo_request hstate hsel hfree, fun clocked => ?_⟩, hslate⟩
  · rw [exec_request s hcode hc,
      State.tapBytes_judged hstate hbits (by rw [hr]; exact takesArgument_of_codeNames hcode)]
  · have hpins : (s.judgementPoint code []).pins = s.pins := by simp
    exact State.tapBits_tsdo clocked (by rw [hport]) (by rw [hport]) (by rw [hport]) (by rw [hpins]; exact hsel)
      (by rw [State.inReset, hpins]; exact hfree)

end Sys2Proof.Machine
end

section
/-! The queue of commands, which is the model's own: a step runs its front or idles on an empty one (log 1), and every
command answers a next state (log 3) with the waiting commands as they were, a reset included (log 28). -/

namespace Sys2Proof.Machine

/-! ### A step and the queue (log 1) -/

theorem step_of_cons {c : Instr} {rest : List Instr} {s : State} (h : s.pending = c :: rest) :
    step s = exec c (s.setPending rest) := by rw [step, h]

theorem step_of_nil {s : State} (h : s.pending = []) : step s = .next s := by rw [step, h]

/-- Settles O1: the state with the queue's rest is `setPending`. -/
theorem stepRunsFrontCommand : Obligations.StepRunsFrontCommand := by
  unfold Obligations.StepRunsFrontCommand
  intro c rest s h
  exact step_of_cons h

/-- Settles O2. -/
theorem stepIdlesOnEmptyQueue : Obligations.StepIdlesOnEmptyQueue := by
  unfold Obligations.StepIdlesOnEmptyQueue
  intro s h
  exact step_of_nil h

/-! ### Answers that go on -/

/-- The answer is a next state in which these commands wait. -/
def GoesOn (waiting : List Instr) (r : Result) : Prop := ∃ t, r = .next t ∧ t.pending = waiting

theorem GoesOn.next {waiting : List Instr} {t : State} (h : t.pending = waiting) : GoesOn waiting (.next t) :=
  ⟨t, rfl, h⟩

/-- A command with one guard, that changes nothing where its event cannot happen (log 3). -/
theorem GoesOn.guarded {p : Prop} [Decidable p] {s u : State} (hu : u.pending = s.pending) :
    GoesOn s.pending (if p then .next u else .next s) := by
  split
  · exact .next hu
  · exact .next rfl

/-! ### What the larger operations leave waiting -/

@[simp] theorem State.halt_pending (f : FaultCode) (port : List BusOp) (s : State) :
    (s.halt f port).pending = s.pending := by simp [State.halt]

@[simp] theorem State.validLoad_pending (c : StationConfig) (port : List BusOp) (x : SenseSample) (s : State) :
    (s.validLoad c port x).pending = s.pending := by simp [State.validLoad]

/-- A reset is of the part's blocks; the commands wait on (log 28). -/
@[simp] theorem State.resetBy_pending (cause : ResetCause) (pins : Pins) (s : State) :
    (s.resetBy cause pins).pending = s.pending := rfl

@[simp] theorem State.endTransaction_pending (s : State) : s.endTransaction.pending = s.pending := by
  rw [State.endTransaction]
  split
  · exact State.resetBy_pending _ _ s
  · simp

/-! ### Resets and the loader (R162 to R172) -/

theorem resetEnd_goesOn (x : HeldSource) (s : State) : GoesOn s.pending (execResetEnd x s) := by
  rw [execResetEnd]
  split
  · dsimp only
    split
    all_goals exact .next rfl
  · exact .next rfl

theorem headerRead_goesOn (n : Nat) (a b l r : Byte) (s : State) :
    GoesOn s.pending (execHeaderRead n a b l r s) := by
  rw [execHeaderRead]
  split
  · dsimp only
    split
    · exact .next (State.halt_pending _ _ s)
    · exact .next rfl
  · exact .next rfl

theorem transportFailure_goesOn (n : Nat) (f : BusFault) (read : List Byte) (s : State) :
    GoesOn s.pending (execTransportFailure n f s read) := by
  rw [execTransportFailure]
  split
  · dsimp only
    split
    · exact .next rfl
    · exact .next (State.halt_pending _ _ s)
  · exact .next rfl

theorem imageComplete_goesOn (rest : List Byte) (x : SenseSample) (s : State) :
    GoesOn s.pending (execImageComplete rest x s) := by
  rw [execImageComplete]
  split
  · dsimp only
    split
    · exact .next (State.halt_pending _ _ _)
    · exact .next (State.validLoad_pending _ _ x _)
  · exact .next rfl

/-! ### The watch unit's sample (R32) -/

theorem sampleEvent_goesOn (x : SenseSample) (s : State) : GoesOn s.pending (execSampleEvent x s) := by
  rw [execSampleEvent]
  split
  · exact .next (by simp)
  · exact .next rfl

/-! ### The frame engine: own frames (R53 to R57, R62) -/

theorem contentionStart_goesOn (gap : List BitPeriod) (edge : Option Int) (able : Nat) (s : State) :
    GoesOn s.pending (execContentionStart gap edge s able) := by
  rw [execContentionStart]
  split
  all_goals exact .next rfl

/-- The own frame lost, its key won or its last bit sent (R56, R57, R62). -/
theorem ownFrame_goesOn {c : Instr} {bits : List BitPeriod}
    (hc : c = .keyLost bits ∨ c = .keyWon bits ∨ c = .lastCheckBitSent bits) (s : State) :
    GoesOn s.pending (exec c s) := by
  rcases hc with rfl | rfl | rfl
  all_goals
    simp only [exec, execKeyLost, execKeyWon, execLastCheckBitSent]
    split
    · exact .guarded (by simp)
    · exact .next rfl

/-- In CONTENDING and in SENDING alike: an abort where the read-back brings one, else nothing (R56, R62). -/
theorem sendAborted_goesOn (bits : List BitPeriod) (s : State) : GoesOn s.pending (execSendAborted bits s) := by
  rw [execSendAborted]
  split
  · split
    · exact .next (by simp)
    · exact .next rfl
  · split
    · exact .next (by simp)
    · exact .next rfl
  · exact .next rfl

/-! ### The frame engine: frames of others, and the window (R58, R63, R64, R68) -/

/-- A frame abandoned, at any of its three events, or judged at the end of its check (R58, R64, R106, R107). -/
theorem following_goesOn {c : Instr} {bits : List BitPeriod}
    (hc : c = .invalidKind bits ∨ c = .framingFault bits ∨ c = .stuckDominant bits ∨ c = .frameReceived bits)
    (s : State) : GoesOn s.pending (exec c s) := by
  rcases hc with rfl | rfl | rfl | rfl
  all_goals
    simp only [exec, execInvalidKind, execFramingFault, execStuckDominant, execFrameReceived]
    split
    · split
      · exact .next (by simp)
      · exact .next rfl
    · exact .next rfl

theorem windowEnd_goesOn (slots : List BitPeriod) (s : State) : GoesOn s.pending (execWindowEnd slots s) := by
  rw [execWindowEnd]
  split
  · exact .guarded (by simp)
  · exact .next rfl

/-! ### The tap port (R187 to R199) -/

theorem tselAssert_goesOn (s : State) : GoesOn s.pending (execTselAssert s) := by
  rw [execTselAssert]
  split
  · exact .next rfl
  · dsimp only
    split
    all_goals exact .next rfl

/-- The bytes of a request reach the port, and what its judgement hands on, never the commands that wait. -/
theorem tapBytes_goesOn (bytes : List Byte) (s : State) : GoesOn s.pending (.next (s.tapBytes bytes)) :=
  .next (by simp)

/-! ### Every command -/

theorem exec_goesOn (c : Instr) (s : State) : GoesOn s.pending (exec c s) := by
  cases c with
  | powerOnReset | resetPin => exact .next (State.resetBy_pending _ _ s)
  | resetEnd x => exact resetEnd_goesOn x s
  | headerRead n a b l r => exact headerRead_goesOn n a b l r s
  | transportFailure n f read => exact transportFailure_goesOn n f read s
  | pauseEnd => exact .guarded rfl
  | imageComplete rest x => exact imageComplete_goesOn rest x s
  | sampleEvent x => exact sampleEvent_goesOn x s
  | refreshTick order | peerSilent n order | listenExpiry order => exact .guarded (by simp)
  | discardEnd gap | frameStart gap edge able => exact .guarded rfl
  | contentionStart gap edge able => exact contentionStart_goesOn gap edge able s
  | keyLost bits => exact ownFrame_goesOn (.inl rfl) s
  | keyWon bits => exact ownFrame_goesOn (.inr (.inl rfl)) s
  | lastCheckBitSent bits => exact ownFrame_goesOn (.inr (.inr rfl)) s
  | sendAborted bits => exact sendAborted_goesOn bits s
  | invalidKind bits => exact following_goesOn (.inl rfl) s
  | framingFault bits => exact following_goesOn (.inr (.inl rfl)) s
  | stuckDominant bits => exact following_goesOn (.inr (.inr (.inl rfl))) s
  | frameReceived bits => exact following_goesOn (.inr (.inr (.inr rfl))) s
  | windowEnd slots => exact windowEnd_goesOn slots s
  | tselAssert => exact tselAssert_goesOn s
  | tselRelease tsdi => exact .guarded (by simp)
  | status | entry n | terms | counters | peek | take | release mask | resync | restart => exact tapBytes_goesOn _ s
  | unknownRequest b => exact .guarded (by simp)

/-- Settles O3: command by command. -/
theorem everyCommandGoesOn : Obligations.EveryCommandGoesOn := by
  unfold Obligations.EveryCommandGoesOn
  exact exec_goesOn

end Sys2Proof.Machine
end
